-- ==== Sys2Proof/Word.lean ====
section
/-! DEFINITION. Sys2Proof/Word.lean: the word types of the Deflate codec core. Host registers are 32 bits wide (10_state.md,
section 2), host memory and the bitstream are byte streams (20_memory.md R89), and the bit writer holds 16 bits (R49). -/

namespace Sys2Proof

/-- A byte of host memory, of a window or of the bitstream. -/
abbrev Byte := BitVec 8

/-- A host register, a host address or a command word. -/
abbrev Word := BitVec 32

end Sys2Proof
end

