-- ==== Sys2Proof/Syntax.lean ====
section
/-! DEFINITION. Sys2Proof/Syntax.lean: the two encoded languages of the Deflate codec core as ONE inductive, a constructor for
every row of spec/opcode_table.json: the thirteen host command words (30_encoding.md R150 to R152) and the seventy-four
elements of the DEFLATE bitstream (R110 to R126), which the decoder executes one after another. -/

namespace Sys2Proof

/-- The flush mode of an ENC_STEP command word (R152). -/
inductive Flush where
  | no
  | partialFlush
  | sync
  | full
  | finish
  | block
  deriving DecidableEq, Repr

/-- One symbol of a canonical code: its length in bits and its code read most significant bit first (R196, R330). -/
structure CodeEntry where
  sym : Nat
  len : Nat
  canon : Nat
  deriving DecidableEq, Repr

/-- A code: the entries of the symbols that have one (length not 0), in symbol order (R66, R330). -/
abbrev Code := List CodeEntry

/-- The three codes in force where a bitstream element stands: code-length, literal/length and distance (R66). -/
structure Codes where
  cl : Code
  lit : Code
  dist : Code
  deriving DecidableEq, Repr

/-- The instructions: first the command words the host writes to CMD, then the bitstream elements. An element's operands are
its fields; the operands of a command are the host registers (R156). -/
inductive Instr where
  -- host command words (R151)
  | encInit
  | encStepNo
  | encStepPartial
  | encStepSync
  | encStepFull
  | encStepFinish
  | encStepBlock
  | encSetDict
  | decInit
  | decStep
  | decSetDict
  | decSync
  | endStream
  -- block headers (R111): the operand is BFINAL
  | blockStored (final : Bool)
  | blockFixed (final : Bool)
  | blockDynamic (final : Bool)
  | blockReserved (final : Bool)
  -- the stored block's length pair (R112)
  | storedLen (len nlen : BitVec 16)
  -- the dynamic header (R118 to R120)
  | dynamicCounts (hlit hdist : BitVec 5) (hclen : BitVec 4)
  | codeLengthCodeLengths (lens : List (BitVec 3))
  | clLength (len : BitVec 4)
  | clRepeatPrev (extra : BitVec 2)
  | clRepeatZeroShort (extra : BitVec 3)
  | clRepeatZeroLong (extra : BitVec 7)
  -- the literal/length alphabet (R121): the operand of a length symbol is its extra-bits field
  | literal (byte : BitVec 8)
  | endOfBlock
  | length257
  | length258
  | length259
  | length260
  | length261
  | length262
  | length263
  | length264
  | length265 (extra : BitVec 1)
  | length266 (extra : BitVec 1)
  | length267 (extra : BitVec 1)
  | length268 (extra : BitVec 1)
  | length269 (extra : BitVec 2)
  | length270 (extra : BitVec 2)
  | length271 (extra : BitVec 2)
  | length272 (extra : BitVec 2)
  | length273 (extra : BitVec 3)
  | length274 (extra : BitVec 3)
  | length275 (extra : BitVec 3)
  | length276 (extra : BitVec 3)
  | length277 (extra : BitVec 4)
  | length278 (extra : BitVec 4)
  | length279 (extra : BitVec 4)
  | length280 (extra : BitVec 4)
  | length281 (extra : BitVec 5)
  | length282 (extra : BitVec 5)
  | length283 (extra : BitVec 5)
  | length284 (extra : BitVec 5)
  | length285
  | litlenReserved (odd : Bool)
  -- the distance alphabet (R122): the operand is the extra-bits field
  | distance0
  | distance1
  | distance2
  | distance3
  | distance4 (extra : BitVec 1)
  | distance5 (extra : BitVec 1)
  | distance6 (extra : BitVec 2)
  | distance7 (extra : BitVec 2)
  | distance8 (extra : BitVec 3)
  | distance9 (extra : BitVec 3)
  | distance10 (extra : BitVec 4)
  | distance11 (extra : BitVec 4)
  | distance12 (extra : BitVec 5)
  | distance13 (extra : BitVec 5)
  | distance14 (extra : BitVec 6)
  | distance15 (extra : BitVec 6)
  | distance16 (extra : BitVec 7)
  | distance17 (extra : BitVec 7)
  | distance18 (extra : BitVec 8)
  | distance19 (extra : BitVec 8)
  | distance20 (extra : BitVec 9)
  | distance21 (extra : BitVec 9)
  | distance22 (extra : BitVec 10)
  | distance23 (extra : BitVec 10)
  | distance24 (extra : BitVec 11)
  | distance25 (extra : BitVec 11)
  | distance26 (extra : BitVec 12)
  | distance27 (extra : BitVec 12)
  | distance28 (extra : BitVec 13)
  | distance29 (extra : BitVec 13)
  | distanceReserved (odd : Bool)
  deriving DecidableEq, Repr

/-- What an instruction is made of: a command word, or an element's kind with the fields the bitstream carries. `lit`,
`dist` and `cl` are the Huffman symbols of the three alphabets with the width and the value of their extra bits. -/
inductive Shape where
  | command (word : Word)
  | header (final : Bool) (btype : BitVec 2)
  | stored (len nlen : BitVec 16)
  | counts (hlit hdist : BitVec 5) (hclen : BitVec 4)
  | clLens (lens : List (BitVec 3))
  | cl (sym width extra : Nat)
  | lit (sym width extra : Nat)
  | dist (sym width extra : Nat)
  deriving DecidableEq, Repr

end Sys2Proof
end

