-- ==== Sys2Proof/Config.lean ====
section
/-! DEFINITION. Sys2Proof/Config.lean: what is fixed for the hardware (00_scope.md R12), the parameters the spec leaves to the
model's user (92_eei_decisions.md, named parameters), and the free values: constants with no body, of which nothing can be
proved but what holds for every value. -/

namespace Sys2Proof.Config

/-- The shortest and the longest match (R220). -/
def minMatch : Nat := 3
def maxMatch : Nat := 258

/-- The lookahead the matcher wants before it searches (R221). -/
def minLookahead : Nat := 262

/-- A block holds at most `litBufSize - 1` symbols (R262). -/
def litBufSize : Nat := 16384

/-- The capacity of the pending buffer (R52); the rules never fill it, so nothing checks it. -/
def pendingCap : Nat := 131072

/-- The longest stored block (R240, R271). -/
def maxStored : Nat := 65535

/-- The size of the builder's heap array (R192). -/
def heapSize : Nat := 573

/-- Host memory is `2^32` bytes (R81). -/
def memSize : Nat := 4294967296

/-- Which short matches are demoted (R239): the document's reading or the reference's. -/
inductive DemotePolicy where
  | doc
  | reference
  deriving DecidableEq, Repr

/-- The named parameters of 92_eei_decisions.md. They stand in State as constants that no step writes, so that what is proved
of the machine holds for every choice of them. -/
structure Params where
  /-- `REG_BASE`, left OPEN (D2): the bus address of the register window. -/
  regBase : Word
  /-- `HASH_BITS`, 8..16 (D10). -/
  hashBits : Nat
  /-- `DEMOTE_POLICY` (D16). -/
  demotePolicy : DemotePolicy
  /-- `TOO_FAR` (D16). -/
  tooFar : Nat
  /-- `ALLOW_SINGLE_CODE` (D23). -/
  allowSingleCode : Bool
  /-- The platform's side-effecting address ranges, as base and length; buffers do not lie there (R89, D8). -/
  devices : List (Word × Word)
  deriving DecidableEq, Repr

/-- The defaults the spec gives. `REG_BASE` and the platform's devices have none: DESIGN CHOICE 0 and no device (log entry 3). -/
def defaults : Params :=
  { regBase := 0, hashBits := 15, demotePolicy := .doc, tooFar := 4096, allowSingleCode := false, devices := [] }

/-- FREE VALUE (log entry 5): the byte at index `i` of the decoder's window RAM that nothing has written since the init
numbered `seed` (R60, R454, I18). -/
opaque freeByte (seed i : Nat) : Byte

/-- FREE VALUE (log entry 6): the code tables before the first block header of the stream whose init is numbered `seed`
(R66, R454, I19): 0 the code-length code, 1 the literal/length code, 2 the distance code. -/
opaque freeCode (seed which : Nat) : Code

/-- FREE VALUE (log entry 7): whether output byte `i` of the command that reset number `n` abandoned had been written (R452,
I21). -/
opaque resetKept (n i : Nat) : Bool

end Sys2Proof.Config
end

