-- ==== Sys2Proof/WellFormed.lean ====
section
/-! DEFINITION. Sys2Proof/WellFormed.lean: which terms of Instr the bitstream can carry. Every operand but one has a type that
holds exactly the values its field can take; the list of code-length code lengths needs a check (R118). -/

namespace Sys2Proof

/-- A term the encoding can carry: the code-length code lengths are 1 to 19 fields, since a dynamic header transmits `ncode`
of them, at most 19, and the decoder may already hold the first ones (R118, R324). -/
def Instr.wf : Instr → Bool
  | .codeLengthCodeLengths lens => decide (1 ≤ lens.length ∧ lens.length ≤ 19)
  | _ => true

/-- A term that a valid stream can carry: well formed and none of the forms that R125 calls malformed. -/
def Instr.conforming : Instr → Bool
  | .blockReserved _ => false
  | .storedLen len nlen => decide (nlen = ~~~len)
  | .dynamicCounts hlit hdist _ => decide (hlit.toNat < 30 ∧ hdist.toNat < 30)
  | .codeLengthCodeLengths lens => decide (1 ≤ lens.length ∧ lens.length ≤ 19)
  | .litlenReserved _ => false
  | .distanceReserved _ => false
  | _ => true

end Sys2Proof
end

