-- ==== Sys2Proof/Decode.lean ====
section
/-! DEFINITION. Sys2Proof/Decode.lean: from bits to instructions and back (30_encoding.md). The host's command word and the
elements of the DEFLATE bitstream are two languages. An element is decoded in a context, the decoder's mode with the code in
force there, since what the next bits mean depends on it (R113, R126). -/

namespace Sys2Proof

/-! ## Bits -/

/-- The `n` low bits of `v`, least significant first: the order of a field in the bitstream (R14, R114). -/
def bitsOf : Nat → Nat → List Bool
  | 0, _ => []
  | n + 1, v => decide (v % 2 = 1) :: bitsOf n (v / 2)

/-- The number whose bits, least significant first, are the list (R14). -/
def natOfBits : List Bool → Nat
  | [] => 0
  | b :: bs => (if b then 1 else 0) + 2 * natOfBits bs

/-- The first `n` bits as a field, if that many are there. -/
def takeField (n : Nat) (bits : List Bool) : Option Nat :=
  if bits.length < n then none else some (natOfBits (bits.take n))

/-- `bitrev(c, L)` (R15): the `l`-bit value whose bit `i` is bit `l-1-i` of `c`. -/
def bitrev : Nat → Nat → Nat
  | 0, _ => 0
  | l + 1, c => (c % 2) * 2 ^ l + bitrev l (c / 2)

/-! ## Tables of the alphabets -/

/-- The transmission order of the code-length code lengths (R119). -/
def blOrder : List Nat := [16, 17, 18, 0, 8, 7, 9, 6, 10, 5, 11, 4, 12, 3, 13, 2, 14, 1, 15]

/-- `LEN_BASE` and `LEN_EXTRA` (R121). -/
def lenBase : List Nat :=
  [3, 4, 5, 6, 7, 8, 9, 10, 11, 13, 15, 17, 19, 23, 27, 31, 35, 43, 51, 59, 67, 83, 99, 115, 131, 163, 195, 227, 258]
def lenExtra : List Nat :=
  [0, 0, 0, 0, 0, 0, 0, 0, 1, 1, 1, 1, 2, 2, 2, 2, 3, 3, 3, 3, 4, 4, 4, 4, 5, 5, 5, 5, 0]

/-- `DIST_BASE` and `DIST_EXTRA` (R122). -/
def distBase : List Nat :=
  [1, 2, 3, 4, 5, 7, 9, 13, 17, 25, 33, 49, 65, 97, 129, 193, 257, 385, 513, 769, 1025, 1537, 2049, 3073, 4097, 6145,
   8193, 12289, 16385, 24577]
def distExtra : List Nat :=
  [0, 0, 0, 0, 1, 1, 2, 2, 3, 3, 4, 4, 5, 5, 6, 6, 7, 7, 8, 8, 9, 9, 10, 10, 11, 11, 12, 12, 13, 13]

/-- The extra-bit counts of the code-length symbols 16, 17 and 18 (R120). -/
def clExtra (sym : Nat) : Nat :=
  if sym = 16 then 2 else if sym = 17 then 3 else if sym = 18 then 7 else 0

/-! ## Codes -/

/-- How many symbols of a length set have length `l`; length 0 counts for nothing (R196: `bl_count`). -/
def blCount (lens : List Nat) (l : Nat) : Nat :=
  if l = 0 then 0 else lens.count l

/-- `next_code[bits]` before any code is given (R196): from the code of the length before, `(code + bl_count) << 1`. -/
def firstCode (lens : List Nat) : Nat → Nat
  | 0 => 0
  | bits + 1 => (firstCode lens bits + blCount lens bits) * 2

/-- `next_code[0 .. maxLength]`, each entry from the one before it (R196). -/
def nextCodes (lens : List Nat) : Nat → Nat → Nat → List Nat
  | 0, _, _ => []
  | n + 1, bits, code => code :: nextCodes lens n (bits + 1) ((code + blCount lens bits) * 2)

/-- The second loop of `gen_codes` (R196): symbol `n` and the lengths from it on, with `next_code` as it stands. -/
def assignCodes : Nat → List Nat → List Nat → Code
  | _, [], _ => []
  | n, l :: rest, next =>
    if l = 0 then assignCodes (n + 1) rest next
    else
      let c := next.getD l 0
      { sym := n, len := l, canon := c } :: assignCodes (n + 1) rest (next.set l (c + 1))

/-- The canonical code of a length set whose lengths are at most 15 (R196, R330). -/
def canonicalCode (lens : List Nat) : Code :=
  assignCodes 0 lens (nextCodes lens 16 0 0)

/-- The lengths of the fixed literal/length code (R116). -/
def fixedLitLengths : List Nat :=
  List.replicate 144 8 ++ List.replicate 112 9 ++ List.replicate 24 7 ++ List.replicate 8 8

/-- The lengths of the fixed distance code (R117). -/
def fixedDistLengths : List Nat := List.replicate 32 5

/-- The fixed codes (R116, R117, R316). -/
def fixedLitCode : Code := canonicalCode fixedLitLengths
def fixedDistCode : Code := canonicalCode fixedDistLengths

/-- The entry of a symbol, if the code has one. -/
def Code.entry (c : Code) (sym : Nat) : Option CodeEntry := c.find? (fun e => e.sym == sym)

/-- The length of a symbol's code, 0 if it has none. -/
def Code.lengthOf (c : Code) (sym : Nat) : Nat :=
  match c.entry sym with
  | some e => e.len
  | none => 0

/-- A symbol's code in stream order: most significant code bit first (R114, R196). -/
def Code.bitsFor (c : Code) (sym : Nat) : List Bool :=
  match c.entry sym with
  | some e => (bitsOf e.len e.canon).reverse
  | none => []

/-- The answer of PEEK (R335): a symbol and the length of its code, the number of bits that show no code matches, or bits that
are a proper prefix of some code and nothing more. -/
inductive PeekResult where
  | symbol (sym k : Nat)
  | invalid (k : Nat)
  | more
  deriving DecidableEq, Repr

/-- PEEK's loop over the held bits (R335), `k` bits read so far with value `acc`, the first bit most significant. -/
def peekFrom (c : Code) : Nat → Nat → List Bool → PeekResult
  | _, _, [] => .more
  | acc, k, b :: bs =>
    let acc' := 2 * acc + (if b then 1 else 0)
    let k' := k + 1
    match c.find? (fun e => e.len == k' && e.canon == acc') with
    | some e => .symbol e.sym k'
    | none =>
      if c.any (fun e => decide (k' < e.len) && (e.canon >>> (e.len - k') == acc')) then peekFrom c acc' k' bs
      else .invalid k'

/-- PEEK over the bits in sight (R335). -/
def peek (c : Code) (bits : List Bool) : PeekResult := peekFrom c 0 0 bits

/-! ## Command words -/

/-- The words of R155 and V30: `OP | FLUSH << 4`. -/
def commandWord (op flush : Nat) : Word := BitVec.ofNat 32 (op + 16 * flush)

/-- The command a word written to CMD selects (R150 to R153): none where the word is illegal. -/
def decodeCommand (w : Word) : Option Instr :=
  let op := w.toNat % 16
  let flush := w.toNat / 16 % 8
  if w.toNat / 128 ≠ 0 then none
  else if op = 2 then
    match flush with
    | 0 => some .encStepNo
    | 1 => some .encStepPartial
    | 2 => some .encStepSync
    | 3 => some .encStepFull
    | 4 => some .encStepFinish
    | 5 => some .encStepBlock
    | _ => none
  else if flush ≠ 0 then none
  else
    match op with
    | 1 => some .encInit
    | 3 => some .encSetDict
    | 4 => some .decInit
    | 5 => some .decStep
    | 6 => some .decSetDict
    | 7 => some .decSync
    | 8 => some .endStream
    | _ => none

/-! ## Elements of the bitstream -/

/-- What the decoder expects next, which decides how the bits read (R113, R315 to R343). -/
inductive WireContext where
  | header
  | storedPair
  | counts
  /-- `n` code-length code lengths are still to come (R324). -/
  | clLens (n : Nat)
  | clSymbol (c : Code)
  | litSymbol (c : Code)
  | distSymbol (c : Code)
  deriving DecidableEq, Repr

/-- What the bits in sight are: a whole element of `n` bits; a literal/length or distance symbol of `n` bits whose extra
bits are not all in sight; bits that match no code, shown by the first `n`; or too few bits to say. -/
inductive WireResult where
  | element (i : Instr) (n : Nat)
  | symbolOnly (sym n : Nat)
  | noCode (n : Nat)
  | more
  deriving DecidableEq, Repr

/-- The length symbol `257 + c` with its extra bits (R121). -/
def lengthInstr : Nat → Nat → Instr
  | 0, _ => .length257
  | 1, _ => .length258
  | 2, _ => .length259
  | 3, _ => .length260
  | 4, _ => .length261
  | 5, _ => .length262
  | 6, _ => .length263
  | 7, _ => .length264
  | 8, e => .length265 (BitVec.ofNat 1 e)
  | 9, e => .length266 (BitVec.ofNat 1 e)
  | 10, e => .length267 (BitVec.ofNat 1 e)
  | 11, e => .length268 (BitVec.ofNat 1 e)
  | 12, e => .length269 (BitVec.ofNat 2 e)
  | 13, e => .length270 (BitVec.ofNat 2 e)
  | 14, e => .length271 (BitVec.ofNat 2 e)
  | 15, e => .length272 (BitVec.ofNat 2 e)
  | 16, e => .length273 (BitVec.ofNat 3 e)
  | 17, e => .length274 (BitVec.ofNat 3 e)
  | 18, e => .length275 (BitVec.ofNat 3 e)
  | 19, e => .length276 (BitVec.ofNat 3 e)
  | 20, e => .length277 (BitVec.ofNat 4 e)
  | 21, e => .length278 (BitVec.ofNat 4 e)
  | 22, e => .length279 (BitVec.ofNat 4 e)
  | 23, e => .length280 (BitVec.ofNat 4 e)
  | 24, e => .length281 (BitVec.ofNat 5 e)
  | 25, e => .length282 (BitVec.ofNat 5 e)
  | 26, e => .length283 (BitVec.ofNat 5 e)
  | 27, e => .length284 (BitVec.ofNat 5 e)
  | _, _ => .length285

/-- The distance symbol `d` with its extra bits (R122). -/
def distanceInstr : Nat → Nat → Instr
  | 0, _ => .distance0
  | 1, _ => .distance1
  | 2, _ => .distance2
  | 3, _ => .distance3
  | 4, e => .distance4 (BitVec.ofNat 1 e)
  | 5, e => .distance5 (BitVec.ofNat 1 e)
  | 6, e => .distance6 (BitVec.ofNat 2 e)
  | 7, e => .distance7 (BitVec.ofNat 2 e)
  | 8, e => .distance8 (BitVec.ofNat 3 e)
  | 9, e => .distance9 (BitVec.ofNat 3 e)
  | 10, e => .distance10 (BitVec.ofNat 4 e)
  | 11, e => .distance11 (BitVec.ofNat 4 e)
  | 12, e => .distance12 (BitVec.ofNat 5 e)
  | 13, e => .distance13 (BitVec.ofNat 5 e)
  | 14, e => .distance14 (BitVec.ofNat 6 e)
  | 15, e => .distance15 (BitVec.ofNat 6 e)
  | 16, e => .distance16 (BitVec.ofNat 7 e)
  | 17, e => .distance17 (BitVec.ofNat 7 e)
  | 18, e => .distance18 (BitVec.ofNat 8 e)
  | 19, e => .distance19 (BitVec.ofNat 8 e)
  | 20, e => .distance20 (BitVec.ofNat 9 e)
  | 21, e => .distance21 (BitVec.ofNat 9 e)
  | 22, e => .distance22 (BitVec.ofNat 10 e)
  | 23, e => .distance23 (BitVec.ofNat 10 e)
  | 24, e => .distance24 (BitVec.ofNat 11 e)
  | 25, e => .distance25 (BitVec.ofNat 11 e)
  | 26, e => .distance26 (BitVec.ofNat 12 e)
  | 27, e => .distance27 (BitVec.ofNat 12 e)
  | 28, e => .distance28 (BitVec.ofNat 13 e)
  | _, e => .distance29 (BitVec.ofNat 13 e)

/-- The code-length symbol with its extra bits (R120). -/
def clInstr (sym e : Nat) : Instr :=
  if sym = 16 then .clRepeatPrev (BitVec.ofNat 2 e)
  else if sym = 17 then .clRepeatZeroShort (BitVec.ofNat 3 e)
  else if sym = 18 then .clRepeatZeroLong (BitVec.ofNat 7 e)
  else .clLength (BitVec.ofNat 4 sym)

/-- The block header of 3 bits (R111). -/
def headerInstr (final : Bool) (btype : Nat) : Instr :=
  match btype with
  | 0 => .blockStored final
  | 1 => .blockFixed final
  | 2 => .blockDynamic final
  | _ => .blockReserved final

/-- The `n` code-length code lengths of 3 bits each (R118). -/
def takeClLens : Nat → List Bool → Option (List (BitVec 3))
  | 0, _ => some []
  | n + 1, bits =>
    match takeField 3 bits, takeClLens n (bits.drop 3) with
    | some v, some vs => some (BitVec.ofNat 3 v :: vs)
    | _, _ => none

/-- A symbol of the literal/length alphabet and its extra bits (R121, R340, R341). -/
def decodeLit (c : Code) (bits : List Bool) : WireResult :=
  match peek c bits with
  | .more => .more
  | .invalid k => .noCode k
  | .symbol s k =>
    if s < 256 then .element (.literal (BitVec.ofNat 8 s)) k
    else if s = 256 then .element .endOfBlock k
    else if s ≤ 285 then
      match takeField (lenExtra.getD (s - 257) 0) (bits.drop k) with
      | some e => .element (lengthInstr (s - 257) e) (k + lenExtra.getD (s - 257) 0)
      | none => .symbolOnly s k
    else .element (.litlenReserved (decide (s % 2 = 1))) k

/-- A symbol of the distance alphabet and its extra bits (R122, R343). -/
def decodeDist (c : Code) (bits : List Bool) : WireResult :=
  match peek c bits with
  | .more => .more
  | .invalid k => .noCode k
  | .symbol s k =>
    if s < 30 then
      match takeField (distExtra.getD s 0) (bits.drop k) with
      | some e => .element (distanceInstr s e) (k + distExtra.getD s 0)
      | none => .symbolOnly s k
    else .element (.distanceReserved (decide (s % 2 = 1))) k

/-- A symbol of the code-length alphabet: it is read with its extra bits or not at all (R120, R326). -/
def decodeCl (c : Code) (bits : List Bool) : WireResult :=
  match peek c bits with
  | .more => .more
  | .invalid k => .noCode k
  | .symbol s k =>
    match takeField (clExtra s) (bits.drop k) with
    | some e => .element (clInstr s e) (k + clExtra s)
    | none => .more

/-- The element at the front of the bits in sight. Total: every context and every bit list has an answer. -/
def decodeWire (ctx : WireContext) (bits : List Bool) : WireResult :=
  match ctx with
  | .header =>
    match takeField 1 bits, takeField 2 (bits.drop 1) with
    | some f, some t => .element (headerInstr (decide (f = 1)) t) 3
    | _, _ => .more
  | .storedPair =>
    match takeField 16 bits, takeField 16 (bits.drop 16) with
    | some l, some n => .element (.storedLen (BitVec.ofNat 16 l) (BitVec.ofNat 16 n)) 32
    | _, _ => .more
  | .counts =>
    match takeField 5 bits, takeField 5 (bits.drop 5), takeField 4 (bits.drop 10) with
    | some h, some d, some c => .element (.dynamicCounts (BitVec.ofNat 5 h) (BitVec.ofNat 5 d) (BitVec.ofNat 4 c)) 14
    | _, _, _ => .more
  | .clLens n =>
    match takeClLens n bits with
    | some vs => .element (.codeLengthCodeLengths vs) (3 * n)
    | none => .more
  | .clSymbol c => decodeCl c bits
  | .litSymbol c => decodeLit c bits
  | .distSymbol c => decodeDist c bits

/-! ## The encoder of instructions -/

/-- What each instruction is made of. -/
def Instr.shape : Instr → Shape
  | .encInit => .command (commandWord 1 0)
  | .encStepNo => .command (commandWord 2 0)
  | .encStepPartial => .command (commandWord 2 1)
  | .encStepSync => .command (commandWord 2 2)
  | .encStepFull => .command (commandWord 2 3)
  | .encStepFinish => .command (commandWord 2 4)
  | .encStepBlock => .command (commandWord 2 5)
  | .encSetDict => .command (commandWord 3 0)
  | .decInit => .command (commandWord 4 0)
  | .decStep => .command (commandWord 5 0)
  | .decSetDict => .command (commandWord 6 0)
  | .decSync => .command (commandWord 7 0)
  | .endStream => .command (commandWord 8 0)
  | .blockStored f => .header f 0
  | .blockFixed f => .header f 1
  | .blockDynamic f => .header f 2
  | .blockReserved f => .header f 3
  | .storedLen l n => .stored l n
  | .dynamicCounts h d c => .counts h d c
  | .codeLengthCodeLengths ls => .clLens ls
  | .clLength l => .cl l.toNat 0 0
  | .clRepeatPrev e => .cl 16 2 e.toNat
  | .clRepeatZeroShort e => .cl 17 3 e.toNat
  | .clRepeatZeroLong e => .cl 18 7 e.toNat
  | .literal b => .lit b.toNat 0 0
  | .endOfBlock => .lit 256 0 0
  | .length257 => .lit 257 0 0
  | .length258 => .lit 258 0 0
  | .length259 => .lit 259 0 0
  | .length260 => .lit 260 0 0
  | .length261 => .lit 261 0 0
  | .length262 => .lit 262 0 0
  | .length263 => .lit 263 0 0
  | .length264 => .lit 264 0 0
  | .length265 e => .lit 265 1 e.toNat
  | .length266 e => .lit 266 1 e.toNat
  | .length267 e => .lit 267 1 e.toNat
  | .length268 e => .lit 268 1 e.toNat
  | .length269 e => .lit 269 2 e.toNat
  | .length270 e => .lit 270 2 e.toNat
  | .length271 e => .lit 271 2 e.toNat
  | .length272 e => .lit 272 2 e.toNat
  | .length273 e => .lit 273 3 e.toNat
  | .length274 e => .lit 274 3 e.toNat
  | .length275 e => .lit 275 3 e.toNat
  | .length276 e => .lit 276 3 e.toNat
  | .length277 e => .lit 277 4 e.toNat
  | .length278 e => .lit 278 4 e.toNat
  | .length279 e => .lit 279 4 e.toNat
  | .length280 e => .lit 280 4 e.toNat
  | .length281 e => .lit 281 5 e.toNat
  | .length282 e => .lit 282 5 e.toNat
  | .length283 e => .lit 283 5 e.toNat
  | .length284 e => .lit 284 5 e.toNat
  | .length285 => .lit 285 0 0
  | .litlenReserved odd => .lit (if odd then 287 else 286) 0 0
  | .distance0 => .dist 0 0 0
  | .distance1 => .dist 1 0 0
  | .distance2 => .dist 2 0 0
  | .distance3 => .dist 3 0 0
  | .distance4 e => .dist 4 1 e.toNat
  | .distance5 e => .dist 5 1 e.toNat
  | .distance6 e => .dist 6 2 e.toNat
  | .distance7 e => .dist 7 2 e.toNat
  | .distance8 e => .dist 8 3 e.toNat
  | .distance9 e => .dist 9 3 e.toNat
  | .distance10 e => .dist 10 4 e.toNat
  | .distance11 e => .dist 11 4 e.toNat
  | .distance12 e => .dist 12 5 e.toNat
  | .distance13 e => .dist 13 5 e.toNat
  | .distance14 e => .dist 14 6 e.toNat
  | .distance15 e => .dist 15 6 e.toNat
  | .distance16 e => .dist 16 7 e.toNat
  | .distance17 e => .dist 17 7 e.toNat
  | .distance18 e => .dist 18 8 e.toNat
  | .distance19 e => .dist 19 8 e.toNat
  | .distance20 e => .dist 20 9 e.toNat
  | .distance21 e => .dist 21 9 e.toNat
  | .distance22 e => .dist 22 10 e.toNat
  | .distance23 e => .dist 23 10 e.toNat
  | .distance24 e => .dist 24 11 e.toNat
  | .distance25 e => .dist 25 11 e.toNat
  | .distance26 e => .dist 26 12 e.toNat
  | .distance27 e => .dist 27 12 e.toNat
  | .distance28 e => .dist 28 13 e.toNat
  | .distance29 e => .dist 29 13 e.toNat
  | .distanceReserved odd => .dist (if odd then 31 else 30) 0 0

/-- The bits of an instruction in stream order, with the codes in force where it stands (R111 to R122). A command's are those
of its word, least significant first. -/
def encode (k : Codes) (i : Instr) : List Bool :=
  match i.shape with
  | .command w => bitsOf 32 w.toNat
  | .header f t => bitsOf 1 (if f then 1 else 0) ++ bitsOf 2 t.toNat
  | .stored l n => bitsOf 16 l.toNat ++ bitsOf 16 n.toNat
  | .counts h d c => bitsOf 5 h.toNat ++ bitsOf 5 d.toNat ++ bitsOf 4 c.toNat
  | .clLens ls => ls.flatMap (fun v => bitsOf 3 v.toNat)
  | .cl s w e => k.cl.bitsFor s ++ bitsOf w e
  | .lit s w e => k.lit.bitsFor s ++ bitsOf w e
  | .dist s w e => k.dist.bitsFor s ++ bitsOf w e

/-- The context in which an element is read back; a command word has none. -/
def Instr.context (k : Codes) (i : Instr) : Option WireContext :=
  match i.shape with
  | .command _ => none
  | .header _ _ => some .header
  | .stored _ _ => some .storedPair
  | .counts _ _ _ => some .counts
  | .clLens ls => some (.clLens ls.length)
  | .cl _ _ _ => some (.clSymbol k.cl)
  | .lit _ _ _ => some (.litSymbol k.lit)
  | .dist _ _ _ => some (.distSymbol k.dist)

/-- The codes in force give the instruction's symbol a code (R113); a command and an element that is not a symbol need
none. -/
def Instr.hasCode (k : Codes) (i : Instr) : Bool :=
  match i.shape with
  | .cl s _ _ => (k.cl.entry s).isSome
  | .lit s _ _ => (k.lit.entry s).isSome
  | .dist s _ _ => (k.dist.entry s).isSome
  | _ => true

/-! ## The table's own numbering -/

/-- The two halves of a 32-bit word as a stored length pair (R112), where NLEN is the complement of LEN. -/
def storedPairWord (w : Nat) : Bool := decide (w % 65536 + w / 65536 % 65536 = 65535)

/-- The instruction the decoder reads from a table row's bits. 32 bits are a command word, and where no command has that word
a stored length pair; 16 bits are the pair's LEN with NLEN all zeros; 8 bits hold a block header in their low 3. A Huffman
symbol has no bits of its own: its code is the block's (R113), so no other width is answered. -/
def decodeTableWord (nbits w : Nat) : Option Instr :=
  if nbits = 32 then
    match decodeCommand (BitVec.ofNat 32 w) with
    | some i => some i
    | none =>
      if storedPairWord w then
        match decodeWire .storedPair (bitsOf 32 w) with
        | .element i _ => some i
        | _ => none
      else none
  else if nbits = 16 then
    match decodeWire .storedPair (bitsOf 32 w) with
    | .element i _ => some i
    | _ => none
  else if nbits = 8 then
    match decodeWire .header (bitsOf 8 w) with
    | .element i _ => some i
    | _ => none
  else none

end Sys2Proof
end

