-- ==== Sys2Proof/Machine/State.lean ====
section
/-! DEFINITION. Sys2Proof/Machine/State.lean: the state of the Deflate codec core as plain data (10_state.md), the reasons a
step can stop, and the state after reset (70_reset_and_hazards.md R451). -/

namespace Sys2Proof.Machine

open Sys2Proof

/-- Host memory (R81): the bytes that differ from what an unlisted address reads as, addresses strictly rising. -/
abbrev Memory := List Host.Cell

/-- An internal memory (R97): a binary tree over the index's bits, most significant first, whose absent parts hold 0. The
operations (Machine/Ops.lean) keep it free of empty subtrees, so that equal contents are equal data. -/
inductive Ram where
  | nil
  | leaf (value : Nat)
  | node (low high : Ram)
  deriving DecidableEq, Repr

/-- The result codes (R420). -/
inductive Result where
  | ok
  | streamEnd
  | needMoreInput
  | needMoreOutput
  | invalidCommand
  | invalidConfiguration
  | malformedStream
  | resourceExhaustion
  deriving DecidableEq, Repr

/-- STATUS without BUSY, which `State.phase` gives (R37): the fields the last completed command left. -/
structure Status where
  result : Result
  subkind : BitVec 4
  mode : BitVec 2
  estate : BitVec 4
  deriving DecidableEq, Repr

/-! ## The encoder (10_state.md, section 4) -/

/-- The match-selection strategies (R34). -/
inductive Strategy where
  | default
  | filtered
  | huffmanOnly
  | runLength
  deriving DecidableEq, Repr

/-- An entry of the symbol buffer (R46). -/
inductive Sym where
  | lit (byte : Byte)
  | copy (dist len : Nat)
  deriving DecidableEq, Repr

/-- What the Huffman builder leaves of one tree (R48): the lengths and the bit-reversed codes of the alphabet's symbols, and
the largest coded symbol. -/
structure Tree where
  len : List Nat
  code : List Nat
  maxCode : Nat
  deriving DecidableEq, Repr

/-- The bit writer with the pending buffer it fills (R49, R52). `pending` is a FIFO, held NEWEST byte first. -/
structure BitWriter where
  biBuf : BitVec 16
  biValid : Nat
  pending : List Byte
  deriving DecidableEq, Repr

/-- The encoder's `status` (R50). -/
inductive EncStatus where
  | init
  | busy
  | finishing
  | done
  deriving DecidableEq, Repr

/-- The encoder state (R40 to R52). The sizes `W`, `EW`, `wmask`, `max_dist` and the level-table row of R44 are functions of
`wbits` and `level` (Machine/Operands.lean), so they are not stored twice. -/
structure Enc where
  /-- The latched configuration (R44). -/
  level : Nat
  strategy : Strategy
  wbits : Nat
  /-- The window RAM (R40), the hash heads (R41) and the chain links (R42). -/
  win : Ram
  head : Ram
  prev : Ram
  /-- The position and match registers (R43), naturals all. A slide that takes `match_start` below 0 (R230) leaves it modulo 2*EW
  (DESIGN CHOICE, log entry 22). -/
  strstart : Nat
  lookahead : Nat
  insert : Nat
  matchStart : Nat
  prevMatch : Nat
  matchLength : Nat
  prevLength : Nat
  matchAvailable : Bool
  /-- The window index where the block's input begins, below 0 once it has left the window (R45). -/
  blockStart : Int
  /-- The symbol buffer, NEWEST entry first (R46). -/
  syms : List Sym
  /-- The frequency tables (R47). -/
  lfreq : List Nat
  dfreq : List Nat
  blfreq : List Nat
  /-- The tree results and the cost accumulators (R48). -/
  ltree : Tree
  dtree : Tree
  bltree : Tree
  optLen : Int
  staticLen : Int
  maxBlindex : Nat
  /-- The bit writer and the pending buffer (R49, R52). -/
  bw : BitWriter
  /-- The sequencing state (R50): `lastFlush` is -2 before any step, -1 after a full output buffer, else the flush mode. -/
  status : EncStatus
  lastFlush : Int
  deriving DecidableEq, Repr

/-! ## The decoder (10_state.md, section 5) -/

/-- The decoder's `mode` (R62). -/
inductive DecMode where
  | type
  | stored
  | copy
  | table
  | lenLens
  | codeLens
  | len
  | lenExt
  | dist
  | distExt
  | copyMatch
  | lit
  | done
  | bad
  | sync
  deriving DecidableEq, Repr

/-- The decoder state (R59 to R68). -/
structure Dec where
  /-- The latched configuration (R59). -/
  wbits : Nat
  allowSingleCode : Bool
  /-- The window RAM (R60). A byte `b` that has been written stands as `b + 1`; 0 is a byte nothing has written since the
  init, which reads as the free value numbered `seed`. -/
  dwin : Ram
  wnext : Nat
  whave : Nat
  /-- The bit reader (R61). -/
  hold : Nat
  bits : Nat
  mode : DecMode
  last : Bool
  /-- The symbol working registers (R64). -/
  length : Nat
  offset : Nat
  extra : Nat
  /-- The dynamic-header registers (R65). -/
  nlen : Nat
  ndist : Nat
  ncode : Nat
  have_ : Nat
  lens : List Nat
  /-- The decode tables (R66). -/
  clcode : Code
  lencode : Code
  distcode : Code
  /-- The malformed-stream sub-kind (R67). -/
  err : Nat
  started : Bool
  syncHave : Nat
  /-- The MODEL's own: the number of the free values this stream's init took. -/
  seed : Nat
  deriving DecidableEq, Repr

/-! ## The machine -/

/-- The stream context (R69): `smode` is the constructor, and with it exactly one engine's state exists, or none. -/
inductive StreamCtx where
  | none
  | enc (e : Enc)
  | dec (d : Dec)
  deriving DecidableEq, Repr

/-- Where the DFC stands between a CMD write and the command's completion; STATUS.BUSY is 1 in every phase but `idle` (R37,
R380). A step never leaves a command half done: `decoding` is a point inside a DEC_STEP, between two state actions of R311,
with the bytes consumed and produced so far. -/
inductive Phase where
  | idle
  | command (word : Word)
  | decoding (consumed produced : Nat)
  deriving DecidableEq, Repr

/-- What the host can do (45_host_commands.md): access the register window, with the access width in bytes, access host
memory, or reset the DFC (R450). Register addresses are bus addresses, `REG_BASE` plus the offset. -/
inductive HostAccess where
  | regWrite (addr : Word) (width : Nat) (value : Word)
  | regRead (addr : Word) (width : Nat)
  | memWrite (addr : Word) (value : Byte)
  | memRead (addr : Word)
  | reset
  deriving DecidableEq, Repr

/-- A host access still to come. `whileBusy` says that the host does not wait: if a command is running, the access is made
before it completes. -/
structure HostEvent where
  access : HostAccess
  whileBusy : Bool
  deriving DecidableEq, Repr

/-- The whole state. -/
structure State where
  /-- The model's parameters; no step writes them. -/
  params : Config.Params
  /-- The host register file (R34 to R38); CMD holds no value (R33). -/
  cfg : Word
  inAddr : Word
  inLen : Word
  outAddr : Word
  outLen : Word
  status : Status
  totalIn : Word
  totalOut : Word
  /-- The stream context (R69). -/
  stream : StreamCtx
  /-- BUSY, with the command that is running (R33, R37, R380). -/
  phase : Phase
  /-- Host memory (R81). -/
  mem : Memory
  /-- The MODEL's own: the host accesses still to come, first one first. -/
  hostq : List HostEvent
  /-- The MODEL's own: what the host's last read returned. -/
  readData : Word
  /-- The MODEL's own: the number of the next free value. -/
  freeCtr : Nat
  deriving DecidableEq, Repr

/-- Why the machine stops with a fault. -/
inductive Fault where
  /-- Raised by a meaning that meets a state its engine's rules never reach: a block function that does not end, or a code-length
  code that is not complete. The spec has no behaviour there (R427: a model that finds a violation has found a fault in the
  spec). SAFE: the machine stops where the hardware has no defined behaviour. -/
  | internalInvariant
  deriving DecidableEq, Repr

/-- Why a step has no meaning. -/
inductive Refusal where
  /-- Raised by an arm of exec for an instruction that has no meaning yet. SAFE. -/
  | notModelled (mnemonic : String)
  /-- Raised by a host access to the register window that is not a whole aligned 32-bit word (R87: the model refuses it). SAFE. -/
  | narrowRegisterAccess
  /-- Raised by a host access to a running command's input or output buffer (R92, R95, R381; I13 and I15 say refuse). SAFE. -/
  | bufferAccessWhileBusy
  /-- Raised by a step that would run a command whose input or output buffer has a byte in a side-effecting range of the platform
  (R89: the model refuses such buffers; I14 says refuse). SAFE. -/
  | deviceBuffer
  /-- Raised by the meaning of a bitstream element where the decoder is not at a point of a DEC_STEP that expects such an element
  (R311 to R343). A step never raises it: it executes only what it has decoded in the decoder's own mode. SAFE. -/
  | elementOutOfPlace
  deriving DecidableEq, Repr

/-- STATUS after reset: OK, sub-kind 0, mode none, engine state 0 (R451). -/
def Status.reset : Status := { result := .ok, subkind := 0, mode := 0, estate := 0 }

/-- The state after reset (R451). `mem` lists nothing (log entry 2), the parameters have their defaults, and the three fields
of the model's own are empty (log entries 4, 8 and 9). -/
def State.reset : State :=
  { params := Config.defaults
    cfg := 0x00000F06
    inAddr := 0
    inLen := 0
    outAddr := 0
    outLen := 0
    status := Status.reset
    totalIn := 0
    totalOut := 0
    stream := .none
    phase := .idle
    mem := []
    hostq := []
    readData := 0
    freeCtr := 0 }

end Sys2Proof.Machine
end

