-- ==== Sys2Proof/Machine/Ops.lean ====
section
/-! DEFINITION. Sys2Proof/Machine/Ops.lean: the named operations over host memory, the internal memories, the buffer cursors
and the stream context, and the end of a command: the one place where a result is recorded (45_host_commands.md R380). The DFC
has no trap (60_exceptions.md R430); what it records on an error (R431) is recorded here. -/

namespace Sys2Proof.Machine

open Sys2Proof

/-! ## Host memory -/

/-- What an address that the list does not hold reads as (log entry 2). -/
def Memory.blank : Byte := 0

/-- Read one byte (R82, R89). -/
def Memory.read : Memory → Nat → Byte
  | [], _ => Memory.blank
  | (k, b) :: t, a => if k = a then b else if a < k then Memory.blank else Memory.read t a

/-- Write one byte (R83, R89), keeping the canonical form. -/
def Memory.write : Memory → Nat → Byte → Memory
  | [], a, v => if v = Memory.blank then [] else [(a, v)]
  | (k, b) :: t, a, v =>
    if a < k then (if v = Memory.blank then (k, b) :: t else (a, v) :: (k, b) :: t)
    else if a = k then (if v = Memory.blank then t else (k, v) :: t)
    else (k, b) :: Memory.write t a v

/-- Every address of the list is above `lo`, they rise, and none holds what an unlisted address reads as. -/
def Memory.wfAbove : Nat → Memory → Bool
  | _, [] => true
  | lo, (k, b) :: t => decide (lo ≤ k) && decide (k < Config.memSize) && decide (b ≠ Memory.blank) && Memory.wfAbove (k + 1) t

/-- The canonical form: equal memories are equal lists. -/
def Memory.wf (m : Memory) : Bool := Memory.wfAbove 0 m

/-! ## Internal memories -/

/-- A node, or nothing where both halves are empty: the canonical form. -/
def Ram.mk : Ram → Ram → Ram
  | .nil, .nil => .nil
  | l, h => .node l h

/-- The halves of a memory. -/
def Ram.low : Ram → Ram
  | .node l _ => l
  | _ => .nil
def Ram.high : Ram → Ram
  | .node _ h => h
  | _ => .nil

/-- The entry at index `k` of a memory of `2^d` entries. -/
def Ram.get : Nat → Ram → Nat → Nat
  | 0, .leaf v, _ => v
  | 0, _, _ => 0
  | d + 1, t, k => if k.testBit d then Ram.get d t.high k else Ram.get d t.low k

/-- Write entry `k` of a memory of `2^d` entries. -/
def Ram.set : Nat → Ram → Nat → Nat → Ram
  | 0, _, _, v => if v = 0 then .nil else .leaf v
  | d + 1, t, k, v =>
    if k.testBit d then Ram.mk t.low (Ram.set d t.high k v) else Ram.mk (Ram.set d t.low k v) t.high

/-- Apply a function with `f 0 = 0` to every entry. -/
def Ram.map (f : Nat → Nat) : Ram → Ram
  | .nil => .nil
  | .leaf v => if f v = 0 then .nil else .leaf (f v)
  | .node l h => Ram.mk (Ram.map f l) (Ram.map f h)

/-- Copy the upper half over the lower one, the upper half staying as it is. -/
def Ram.slideDown (t : Ram) : Ram := Ram.mk t.high t.high

/-- The canonical form: at every depth the right shape, no leaf of 0 and no node of two empty halves. -/
def Ram.wf : Nat → Ram → Bool
  | _, .nil => true
  | 0, .leaf v => decide (v ≠ 0)
  | 0, .node _ _ => false
  | _ + 1, .leaf _ => false
  | d + 1, .node l h => Ram.wf d l && Ram.wf d h && !(decide (l = .nil) && decide (h = .nil))

/-! ## The buffer cursors of a running command -/

/-- Host memory and the cursors while a command runs (R380): the buffers as the registers had them when it began, the bytes
consumed and produced so far, and the totals. -/
structure Io where
  mem : Memory
  inAddr : Word
  inLen : Nat
  outAddr : Word
  outLen : Nat
  consumed : Nat
  produced : Nat
  totalIn : Word
  totalOut : Word
  deriving DecidableEq, Repr

/-- The cursors of a command that has consumed `c` and produced `p` bytes. -/
def State.io (s : State) (c p : Nat) : Io :=
  { mem := s.mem, inAddr := s.inAddr, inLen := s.inLen.toNat, outAddr := s.outAddr, outLen := s.outLen.toNat,
    consumed := c, produced := p, totalIn := s.totalIn, totalOut := s.totalOut }

/-- The host address of input byte `i` (R82) and of output byte `i` (R83). The range check of R84 keeps both from wrapping. -/
def Io.inAt (io : Io) (i : Nat) : Nat := (io.inAddr + BitVec.ofNat 32 i).toNat
def Io.outAt (io : Io) (i : Nat) : Nat := (io.outAddr + BitVec.ofNat 32 i).toNat

/-- `InRead(i)` (R82). -/
def Io.inRead (io : Io) (i : Nat) : Byte := io.mem.read (io.inAt i)

/-- The input bytes left and the output space left, `avail_out` (R380). -/
def Io.availIn (io : Io) : Nat := io.inLen - io.consumed
def Io.availOut (io : Io) : Nat := io.outLen - io.produced

/-- Consume `n` input bytes: each is counted into TOTAL_IN (R38, R82). -/
def Io.consume (io : Io) (n : Nat) : Io :=
  { io with consumed := io.consumed + n, totalIn := io.totalIn + BitVec.ofNat 32 n }

/-- `OutWrite(produced, b)`, counted into TOTAL_OUT (R38, R83). -/
def Io.outWrite (io : Io) (b : Byte) : Io :=
  { io with mem := io.mem.write (io.outAt io.produced) b, produced := io.produced + 1, totalOut := io.totalOut + 1 }

/-- `OutWrite` of each byte in order. -/
def Io.outBytes : List Byte → Io → Io
  | [], io => io
  | b :: bs, io => Io.outBytes bs (io.outWrite b)

/-- Input bytes `i .. i+n-1`, in order. -/
def Io.inBytes (io : Io) : Nat → Nat → List Byte
  | _, 0 => []
  | i, n + 1 => io.inRead i :: Io.inBytes io (i + 1) n

/-! ## The end of a command -/

/-- The encoder's status code (R50). -/
def EncStatus.code : EncStatus → BitVec 4
  | .init => 0
  | .busy => 1
  | .finishing => 2
  | .done => 3

/-- The decoder's mode code (R62). -/
def DecMode.code : DecMode → BitVec 4
  | .type => 0
  | .stored => 1
  | .copy => 2
  | .table => 3
  | .lenLens => 4
  | .codeLens => 5
  | .len => 6
  | .lenExt => 7
  | .dist => 8
  | .distExt => 9
  | .copyMatch => 10
  | .lit => 11
  | .done => 12
  | .bad => 13
  | .sync => 14

/-- STATUS.MODE of a stream context (R37, R380). -/
def StreamCtx.modeTag : StreamCtx → BitVec 2
  | .none => 0
  | .enc _ => 1
  | .dec _ => 2

/-- STATUS.ESTATE of a stream context (R37, R380). -/
def StreamCtx.estate : StreamCtx → BitVec 4
  | .none => 0
  | .enc e => e.status.code
  | .dec d => d.mode.code

/-- The decoder's `err`, 0 where there is no decoder (R67, R380). -/
def StreamCtx.err : StreamCtx → Nat
  | .dec d => d.err
  | _ => 0

/-- STATUS as a command with this result leaves it (R380). -/
def Status.after (r : Result) (c : StreamCtx) : Status :=
  { result := r
    subkind := if r = .malformedStream then BitVec.ofNat 4 c.err else 0
    mode := c.modeTag
    estate := c.estate }

/-- A command that moves no byte ends: STATUS is written, the stream context is `c`, BUSY is 0 again (R380). -/
def State.complete (s : State) (c : StreamCtx) (r : Result) : State :=
  { s with stream := c, status := Status.after r c, phase := .idle }

/-- A command that moved bytes ends (R380): the cursors move past the bytes consumed and produced, and the rest is
`complete`. This is also all that an error records (R431). -/
def State.finish (s : State) (io : Io) (c : StreamCtx) (r : Result) : State :=
  { s with
    inAddr := s.inAddr + BitVec.ofNat 32 io.consumed
    inLen := s.inLen - BitVec.ofNat 32 io.consumed
    outAddr := s.outAddr + BitVec.ofNat 32 io.produced
    outLen := s.outLen - BitVec.ofNat 32 io.produced
    totalIn := io.totalIn
    totalOut := io.totalOut
    mem := io.mem
    stream := c
    status := Status.after r c
    phase := .idle }

/-- INVALID_COMMAND (R153, R154, R425): nothing changes but STATUS, and the command is over. -/
def State.refuseCommand (s : State) : State := s.complete s.stream .invalidCommand

/-- The buffer range check (R84): neither range passes the top of host memory, and two ranges that hold a byte do not
overlap. -/
def State.rangesOk (s : State) : Bool :=
  decide (s.inAddr.toNat + s.inLen.toNat ≤ Config.memSize) && decide (s.outAddr.toNat + s.outLen.toNat ≤ Config.memSize)
    && (decide (s.inLen = 0) || decide (s.outLen = 0) || decide (s.inAddr.toNat + s.inLen.toNat ≤ s.outAddr.toNat)
        || decide (s.outAddr.toNat + s.outLen.toNat ≤ s.inAddr.toNat))

end Sys2Proof.Machine
end

