-- ==== Sys2Proof/Machine/Operands.lean ====
section
/-! DEFINITION. Sys2Proof/Machine/Operands.lean: where an instruction takes its operands from. A command's operands are the
host registers and the latched configuration (R156, R44, R59); an element's are its fields, with the base of its symbol (R121
to R124). -/

namespace Sys2Proof.Machine

open Sys2Proof

/-! ## CFG -/

/-- The fields of CFG (R34). -/
def cfgLevel (cfg : Word) : Nat := cfg.toNat % 16
def cfgStrategy (cfg : Word) : Nat := cfg.toNat / 16 % 8
def cfgWbits (cfg : Word) : Nat := cfg.toNat / 256 % 16

/-- Bit 7 and bits 31:12 of CFG are 0 (R34). -/
def cfgReservedClear (cfg : Word) : Bool := decide (cfg.toNat / 128 % 2 = 0) && decide (cfg.toNat / 4096 = 0)

/-- What DEC_INIT asks of CFG (R398, R426). -/
def cfgOkDec (cfg : Word) : Bool := decide (8 ≤ cfgWbits cfg) && cfgReservedClear cfg

/-- What ENC_INIT asks of CFG (R384, R426). -/
def cfgOkEnc (cfg : Word) : Bool := decide (cfgLevel cfg ≤ 9) && decide (cfgStrategy cfg ≤ 3) && cfgOkDec cfg

/-- The strategy of a legal STRATEGY field (R34). -/
def strategyOf (n : Nat) : Strategy :=
  match n with
  | 1 => .filtered
  | 2 => .huffmanOnly
  | 3 => .runLength
  | _ => .default

/-! ## The encoder's window geometry and level table -/

/-- `EWBITS = max(WBITS, 9)`, `EW`, `MAX_DIST` (R44, R221). -/
def Enc.ewbits (e : Enc) : Nat := max e.wbits 9
def Enc.ew (e : Enc) : Nat := 2 ^ e.ewbits
def Enc.maxDist (e : Enc) : Nat := e.ew - Config.minLookahead

/-- The rows of the level table as `(good, lazy, nice, chain)` (R222). -/
def levelTable : List (Nat × Nat × Nat × Nat) :=
  [(0, 0, 0, 0), (4, 4, 8, 4), (4, 5, 16, 8), (4, 6, 32, 32), (4, 4, 16, 16), (8, 16, 32, 32), (8, 16, 128, 128),
   (8, 32, 128, 256), (32, 128, 258, 1024), (32, 258, 258, 4096)]

/-- The row of a level (R222). -/
def Enc.row (e : Enc) : Nat × Nat × Nat × Nat := levelTable.getD e.level (0, 0, 0, 0)
def Enc.good (e : Enc) : Nat := e.row.1
def Enc.lazy (e : Enc) : Nat := e.row.2.1
def Enc.nice (e : Enc) : Nat := e.row.2.2.1
def Enc.chain (e : Enc) : Nat := e.row.2.2.2

/-- The five block functions (R223). -/
inductive BlockFn where
  | stored
  | fast
  | slow
  | rle
  | huff
  deriving DecidableEq, Repr

/-- The block function of a stream (R222, R223). -/
def Enc.blockFn (e : Enc) : BlockFn :=
  if e.level = 0 then .stored
  else
    match e.strategy with
    | .huffmanOnly => .huff
    | .runLength => .rle
    | _ => if e.level ≤ 3 then .fast else .slow

/-! ## Symbols of the encoder -/

/-- The largest index up to `n` whose base is at most `v` (R123). -/
def largestBase (bases : List Nat) (v : Nat) : Nat → Nat
  | 0 => 0
  | n + 1 => if bases.getD (n + 1) 0 ≤ v then n + 1 else largestBase bases v n

/-- `lcode(len)` (R123): symbol, width and value of the extra bits. -/
def lcode (len : Nat) : Nat × Nat × Nat :=
  if len = 258 then (285, 0, 0)
  else
    let c := largestBase lenBase len 27
    (257 + c, lenExtra.getD c 0, len - lenBase.getD c 0)

/-- `dcode(dist)` (R123). -/
def dcode (dist : Nat) : Nat × Nat × Nat :=
  let c := largestBase distBase dist 29
  (c, distExtra.getD c 0, dist - distBase.getD c 0)

/-! ## The decoder's window -/

/-- The window size `W` (R59, R310). -/
def Dec.w (d : Dec) : Nat := 2 ^ d.wbits

/-- Byte `i` of `dwin`: what was written there, or the free value of a byte nothing has written (R60, R454). -/
def Dec.winByte (d : Dec) (i : Nat) : Byte :=
  match Ram.get d.wbits d.dwin i with
  | 0 => Config.freeByte d.seed i
  | v + 1 => BitVec.ofNat 8 v

/-- The byte `offset` positions back from the newest (R352). -/
def Dec.back (d : Dec) (offset : Nat) : Byte := d.winByte ((d.wnext + d.w - offset % d.w) % d.w)

end Sys2Proof.Machine
end

