-- ==== Sys2Proof/Machine/Flags.lean ====
section
/-! DEFINITION. Sys2Proof/Machine/Flags.lean: the DFC has no condition codes (10_state.md R53). What stands in their place is
STATUS, computed here as the host reads it, with the orders and results that decide how an encoder step ends (R385, R386). -/

namespace Sys2Proof.Machine

open Sys2Proof

/-- The result code (R420). -/
def Result.code : Result → Nat
  | .ok => 0
  | .streamEnd => 1
  | .needMoreInput => 2
  | .needMoreOutput => 3
  | .invalidCommand => 4
  | .invalidConfiguration => 5
  | .malformedStream => 6
  | .resourceExhaustion => 7

/-- STATUS.BUSY (R37). -/
def State.busy (s : State) : Bool := decide (s.phase ≠ .idle)

/-- STATUS as a word (R37): RESULT 3:0, SUBKIND 7:4, MODE 9:8, ESTATE 15:12, BUSY 31, the reserved bits 0. -/
def State.statusWord (s : State) : Word :=
  BitVec.ofNat 32 (s.status.result.code + 16 * s.status.subkind.toNat + 256 * s.status.mode.toNat
    + 4096 * s.status.estate.toNat + (if s.busy then 2147483648 else 0))

/-- The number of a flush mode (R152). -/
def flushCode : Flush → Int
  | .no => 0
  | .partialFlush => 1
  | .sync => 2
  | .full => 3
  | .finish => 4
  | .block => 5

/-- `rank(f)` (R385), with -2 and -1 for `last_flush` before any step and after a full output buffer. -/
def flushRank (f : Int) : Int := if f = 5 then 1 else 2 * f

/-- `RES` (R386). -/
def Io.res (io : Io) : Result := if io.availOut = 0 then .needMoreOutput else .needMoreInput

end Sys2Proof.Machine
end

