-- ==== Sys2Proof/Machine/BitIO.lean ====
section
/-! DEFINITION. Sys2Proof/Machine/BitIO.lean: the bit writer of the encoder and the bit reader of the decoder (40_bitio.md), the
primitives that every block is written and read with. -/

namespace Sys2Proof.Machine

open Sys2Proof

/-! ## The bit writer -/

/-- `put_byte(b)` (R170). -/
def BitWriter.putByte (w : BitWriter) (b : Byte) : BitWriter := { w with pending := b :: w.pending }

/-- `put_short(v)` (R170): low byte first. -/
def BitWriter.putShort (w : BitWriter) (v : BitVec 16) : BitWriter :=
  (w.putByte (v.setWidth 8)).putByte ((v >>> 8).setWidth 8)

/-- `put_byte` of each byte in order. -/
def BitWriter.putBytes (w : BitWriter) (bs : List Byte) : BitWriter := { w with pending := bs.reverse ++ w.pending }

/-- `send_bits(value, length)` (R172). It appends the `length` bits of `value`: a value that has more bits, which R172 excludes, is cut
to them (log entry 33). -/
def BitWriter.sendBits (w : BitWriter) (value length : Nat) : BitWriter :=
  let value := value % 2 ^ length
  if w.biValid > 16 - length then
    let full := w.biBuf ||| (BitVec.ofNat 16 value <<< w.biValid)
    let w' := w.putShort full
    { w' with biBuf := BitVec.ofNat 16 (value >>> (16 - w.biValid)), biValid := w.biValid + length - 16 }
  else
    { w with biBuf := w.biBuf ||| (BitVec.ofNat 16 value <<< w.biValid), biValid := w.biValid + length }

/-- `send_bits` of a field that may have no bits, as the extra bits of a symbol may (R267, R268: `if xb > 0`). -/
def BitWriter.sendField (w : BitWriter) (value length : Nat) : BitWriter :=
  if length = 0 then w else w.sendBits value length

/-- `bi_flush()` (R173). -/
def BitWriter.biFlush (w : BitWriter) : BitWriter :=
  if w.biValid = 16 then { w.putShort w.biBuf with biBuf := 0, biValid := 0 }
  else if 8 ≤ w.biValid then
    { w.putByte (w.biBuf.setWidth 8) with biBuf := w.biBuf >>> 8, biValid := w.biValid - 8 }
  else w

/-- `bi_windup()` (R174). -/
def BitWriter.biWindup (w : BitWriter) : BitWriter :=
  let w' := if w.biValid > 8 then w.putShort w.biBuf else if w.biValid > 0 then w.putByte (w.biBuf.setWidth 8) else w
  { w' with biBuf := 0, biValid := 0 }

/-- An encoder inside a command: its state, the cursors and the parameters. -/
structure EncRun where
  e : Enc
  io : Io
  params : Config.Params
  deriving DecidableEq, Repr

/-- `flush_pending()` (R176). -/
def EncRun.flushPending (r : EncRun) : EncRun :=
  let w := r.e.bw.biFlush
  let bytes := w.pending.reverse
  let n := min bytes.length r.io.availOut
  { r with e := { r.e with bw := { w with pending := (bytes.drop n).reverse } }, io := r.io.outBytes (bytes.take n) }

/-! ## The bit reader -/

/-- A decoder inside a command: its state and the cursors. -/
structure DecRun where
  d : Dec
  io : Io
  deriving DecidableEq, Repr

/-- How a state action of the decoder ends (R311): the run goes on, or the command ends with a result. -/
inductive Act where
  | go (r : DecRun)
  | stop (res : Result) (r : DecRun)
  deriving DecidableEq, Repr

/-- `PULLBYTE()` (R180). -/
def DecRun.pullByte (r : DecRun) : DecRun :=
  { d := { r.d with hold := r.d.hold ||| ((r.io.inRead r.io.consumed).toNat <<< r.d.bits), bits := r.d.bits + 8 },
    io := r.io.consume 1 }

/-- The loop of `NEEDBITS(n)` (R181), for at most the first argument's number of bytes. -/
def DecRun.pullUpTo : Nat → Nat → DecRun → DecRun
  | 0, _, r => r
  | k + 1, n, r => if r.d.bits < n ∧ r.io.consumed < r.io.inLen then DecRun.pullUpTo k n r.pullByte else r

/-- Pull bytes until `n` bits are held or no input is left. -/
def DecRun.fill (n : Nat) (r : DecRun) : DecRun := DecRun.pullUpTo n n r

/-- `NEEDBITS(n)` before the rest of an action (R181): with too little input the command suspends. -/
def DecRun.needBits (n : Nat) (r : DecRun) (rest : DecRun → Act) : Act :=
  if (r.fill n).d.bits < n then .stop .needMoreInput (r.fill n) else rest (r.fill n)

/-- `BITS(n)` (R182). -/
def DecRun.peekBits (n : Nat) (r : DecRun) : Nat := r.d.hold % 2 ^ n

/-- `DROPBITS(n)` (R183). -/
def DecRun.dropBits (n : Nat) (r : DecRun) : DecRun :=
  { r with d := { r.d with hold := r.d.hold >>> n, bits := r.d.bits - n } }

/-- `BYTEBITS()` (R184). -/
def DecRun.byteBits (r : DecRun) : DecRun := r.dropBits (r.d.bits % 8)

/-- Every input byte that is left (R335, R181): a step that even all of them cannot settle suspends holding them. -/
def DecRun.starve (r : DecRun) : Act := .stop .needMoreInput (DecRun.pullUpTo r.io.availIn (r.d.bits + 8 * r.io.availIn) r)

/-- The bits of a list of bytes in stream order (R85). -/
def bitsOfBytes (bs : List Byte) : List Bool := bs.flatMap (fun b => bitsOf 8 b.toNat)

/-- The stream still to be decoded: the held bits, then the bytes not yet consumed (R61, R85). -/
def DecRun.stream (r : DecRun) : List Bool :=
  bitsOf r.d.bits r.d.hold ++ bitsOfBytes (r.io.inBytes r.io.consumed r.io.availIn)

/-- The part of the stream the decoder looks at to find the next element: the held bits and the next 8 bytes at most. No element
is longer than 57 bits (nineteen code-length code lengths), so 8 bytes always settle it where the input has it whole. -/
def DecRun.sight (r : DecRun) : List Bool :=
  bitsOf r.d.bits r.d.hold ++ bitsOfBytes (r.io.inBytes r.io.consumed (min 8 r.io.availIn))

/-- Raise `MALFORMED_STREAM` with sub-kind `k` (R356): the decoder is in BAD and the command ends. -/
def DecRun.raise (k : Nat) (r : DecRun) : Act := .stop .malformedStream { r with d := { r.d with mode := .bad, err := k } }

/-- The window's part of `emit(b)` (R312). -/
def Dec.remember (d : Dec) (b : Byte) : Dec :=
  { d with
    dwin := Ram.set d.wbits d.dwin d.wnext (b.toNat + 1)
    wnext := (d.wnext + 1) % d.w
    whave := min (d.whave + 1) d.w }

/-- `emit(b)` (R312); the callers check the output space first. -/
def DecRun.emit (b : Byte) (r : DecRun) : DecRun := { d := r.d.remember b, io := r.io.outWrite b }

end Sys2Proof.Machine
end

