-- ==== Sys2Proof/Machine/BlockDecoder.lean ====
section
/-! DEFINITION. Sys2Proof/Machine/BlockDecoder.lean: the state actions of the decoder (44_block_decoder.md), as shared operations
on a decoder inside a command. The meanings of the bitstream's elements are made of them, and a step that resumes a suspended
element runs the same ones. -/

namespace Sys2Proof.Machine

open Sys2Proof

/-- Write decoder fields. -/
def DecRun.withDec (r : DecRun) (d : Dec) : DecRun := { r with d := d }

/-! ## Codes (R330 to R332) -/

/-- The kinds of code-length set (R331). -/
inductive SetKind where
  | codes
  | lens
  | dists
  deriving DecidableEq, Repr

/-- The Kraft slack at depth `l` (R331), from the slack at the depth before: `left_l = 2 * left_{l-1} - count[l]`. -/
def kraftLeft (lens : List Nat) : Nat → Int
  | 0 => 1
  | l + 1 => 2 * kraftLeft lens l - (blCount lens (l + 1) : Int)

/-- Some depth of 1..n is over-subscribed (R331, step 2). -/
def overSubscribed (lens : List Nat) : Nat → Bool
  | 0 => false
  | n + 1 => decide (kraftLeft lens (n + 1) < 0) || overSubscribed lens n

/-- `acceptable(L, kind)` (R331). -/
def acceptable (allowSingle : Bool) (lens : List Nat) (kind : SetKind) : Bool :=
  if lens.all (· == 0) then decide (kind = .dists)
  else if overSubscribed lens 15 then false
  else if 0 < kraftLeft lens 15 then
    decide (kind ≠ .codes) && allowSingle && lens.all (fun l => decide (l ≤ 1))
  else true

/-! ## Block headers (R313 to R316) -/

/-- The end of the stream, at the entry to TYPE after the final block (R313). -/
def DecRun.endOfStream (r : DecRun) : Act :=
  let r := r.byteBits
  .go (r.withDec { r.d with mode := .done })

/-- A block header's 3 bits are consumed and BFINAL is kept (R314). -/
def DecRun.takeHeader (r : DecRun) (final : Bool) (rest : DecRun → Act) : Act :=
  r.needBits 3 fun r =>
    let r := r.dropBits 3
    rest (r.withDec { r.d with last := final })

/-! ## Stored blocks (R320 to R322) -/

/-- Copy `n` bytes from input to output (R322). -/
def DecRun.copyBytes : Nat → DecRun → DecRun
  | 0, r => r
  | n + 1, r =>
    let r := DecRun.emit (r.io.inRead r.io.consumed) { r with io := r.io.consume 1 }
    DecRun.copyBytes n (r.withDec { r.d with length := r.d.length - 1 })

/-- COPY (R322): as many bytes as both buffers allow; then the block is over, or the output space is asked for before the input. -/
def DecRun.copy (r : DecRun) : Act :=
  let r := DecRun.copyBytes (min r.d.length (min r.io.availOut r.io.availIn)) r
  if r.d.length = 0 then .go (r.withDec { r.d with mode := .type })
  else if r.io.availOut = 0 then .stop .needMoreOutput r
  else .stop .needMoreInput r

/-- STORED with the length pair read as `len` and `nlen`, then COPY (R320 to R322). -/
def DecRun.storedPair (r : DecRun) (len nlen : BitVec 16) : Act :=
  r.byteBits.needBits 32 fun r =>
    if nlen ≠ ~~~len then r.raise 2
    else (r.withDec { r.d with length := len.toNat, hold := 0, bits := 0, mode := .copy }).copy

/-! ## The dynamic header (R323 to R329) -/

/-- TABLE with the counts read (R323). -/
def DecRun.counts (r : DecRun) (hlit hdist : BitVec 5) (hclen : BitVec 4) : Act :=
  r.needBits 14 fun r =>
    let r := r.dropBits 14
    let d : Dec := { r.d with nlen := hlit.toNat + 257, ndist := hdist.toNat + 1, ncode := hclen.toNat + 4 }
    if d.nlen > 286 ∨ d.ndist > 30 then (r.withDec d).raise 3
    else .go (r.withDec { d with have_ := 0, mode := .lenLens })

/-- Write `lens[k]` (R65). -/
def Dec.setLen (d : Dec) (k v : Nat) : Dec := { d with lens := d.lens.set k v }

/-- The lengths not sent are 0 (R324). -/
def zeroUnsent : List Nat → List Nat → List Nat
  | [], lens => lens
  | s :: rest, lens => zeroUnsent rest (lens.set s 0)

/-- The end of LENLENS (R324, R325). -/
def DecRun.endLenLens (r : DecRun) : Act :=
  let lens := zeroUnsent (blOrder.drop r.d.ncode) r.d.lens
  let r := r.withDec { r.d with lens := lens }
  if acceptable r.d.allowSingleCode (lens.take 19) .codes then
    .go (r.withDec { r.d with clcode := canonicalCode (lens.take 19), have_ := 0, mode := .codeLens })
  else r.raise 4

/-- LENLENS while the fields of the list last (R324): each is read in its turn, and the last one that is due ends the state. -/
def DecRun.takeLenLens : List (BitVec 3) → DecRun → Act
  | [], r => if r.d.ncode ≤ r.d.have_ then r.endLenLens else .go r
  | v :: vs, r =>
    r.needBits 3 fun r =>
      let r := r.dropBits 3
      DecRun.takeLenLens vs (r.withDec { r.d.setLen (blOrder.getD r.d.have_ 0) v.toNat with have_ := r.d.have_ + 1 })

/-- LENLENS reading its own fields, at most `n` (R324): the way a step takes the ones that are there when the input has not all. -/
def DecRun.readLenLens : Nat → DecRun → Act
  | 0, r => r.starve
  | n + 1, r =>
    if r.d.ncode ≤ r.d.have_ then r.endLenLens
    else
      r.needBits 3 fun r =>
        let v := r.peekBits 3
        let r := r.dropBits 3
        DecRun.readLenLens n (r.withDec { r.d.setLen (blOrder.getD r.d.have_ 0) v with have_ := r.d.have_ + 1 })

/-- Write `c` lengths `v` from `have` on (R326). -/
def Dec.repeatLen (v : Nat) : Nat → Dec → Dec
  | 0, d => d
  | n + 1, d => Dec.repeatLen v n { d.setLen d.have_ v with have_ := d.have_ + 1 }

/-- The end of CODELENS (R328, R329). -/
def DecRun.endCodeLens (r : DecRun) : Act :=
  let lit := r.d.lens.take r.d.nlen
  let dist := (r.d.lens.drop r.d.nlen).take r.d.ndist
  if r.d.lens.getD 256 0 = 0 then r.raise 6
  else if !acceptable r.d.allowSingleCode lit .lens then r.raise 7
  else if !acceptable r.d.allowSingleCode dist .dists then r.raise 8
  else .go (r.withDec { r.d with lencode := canonicalCode lit, distcode := canonicalCode dist, mode := .len })

/-- After an entry of CODELENS: the end of the state once all lengths are there (R326). -/
def DecRun.afterEntry (r : DecRun) : Act := if r.d.nlen + r.d.ndist ≤ r.d.have_ then r.endCodeLens else .go r

/-- CODELENS, a symbol below 16 (R326). -/
def DecRun.clLength (r : DecRun) (len : Nat) : Act :=
  r.needBits (r.d.clcode.lengthOf len) fun r =>
    let r := r.dropBits (r.d.clcode.lengthOf len)
    (r.withDec { r.d.setLen r.d.have_ len with have_ := r.d.have_ + 1 }).afterEntry

/-- CODELENS, the repeat itself, the symbol's code being dropped (R326). -/
def DecRun.clRepeat (r : DecRun) (width v c : Nat) : Act :=
  let r := r.dropBits width
  if r.d.have_ + c > r.d.nlen + r.d.ndist then r.raise 5 else (r.withDec (Dec.repeatLen v c r.d)).afterEntry

/-- CODELENS, symbol 16: repeat the last length `c` times (R326). -/
def DecRun.clRepeatPrev (r : DecRun) (c : Nat) : Act :=
  r.needBits (r.d.clcode.lengthOf 16 + 2) fun r =>
    let r := r.dropBits (r.d.clcode.lengthOf 16)
    if r.d.have_ = 0 then r.raise 5 else r.clRepeat 2 (r.d.lens.getD (r.d.have_ - 1) 0) c

/-- CODELENS, symbols 17 and 18: repeat length 0 `c` times (R326). -/
def DecRun.clRepeatZero (r : DecRun) (sym c : Nat) : Act :=
  r.needBits (r.d.clcode.lengthOf sym + clExtra sym) fun r =>
    (r.dropBits (r.d.clcode.lengthOf sym)).clRepeat (clExtra sym) 0 c

/-! ## The block body (R340 to R352) -/

/-- LIT (R345). -/
def DecRun.lit (r : DecRun) : Act :=
  if r.io.availOut = 0 then .stop .needMoreOutput r
  else
    let r := DecRun.emit (BitVec.ofNat 8 r.d.length) r
    .go (r.withDec { r.d with mode := .len })

/-- LEN with a symbol whose code is `k` bits long (R340): the code is consumed, then the rest. -/
def DecRun.takeLitSym (r : DecRun) (sym : Nat) (rest : DecRun → Act) : Act :=
  r.needBits (r.d.lencode.lengthOf sym) fun r => rest (r.dropBits (r.d.lencode.lengthOf sym))

/-- LEN with a literal, then LIT (R340, R345). -/
def DecRun.literal (r : DecRun) (b : Byte) : Act :=
  r.takeLitSym b.toNat fun r => (r.withDec { r.d with length := b.toNat, mode := .lit }).lit

/-- LEN with end-of-block (R340). -/
def DecRun.endOfBlock (r : DecRun) : Act := r.takeLitSym 256 fun r => .go (r.withDec { r.d with mode := .type })

/-- LENEXT, `e` being the value of the extra bits (R342). -/
def DecRun.lenExt (r : DecRun) (e : Nat) : Act :=
  r.needBits r.d.extra fun r =>
    let r := r.dropBits r.d.extra
    .go (r.withDec { r.d with length := r.d.length + e, mode := .dist })

/-- LEN's part of the length symbol `257 + c` (R340). -/
def DecRun.lenBegin (r : DecRun) (c : Nat) : DecRun :=
  r.withDec { r.d with length := lenBase.getD c 0, extra := lenExtra.getD c 0, mode := .lenExt }

/-- LEN with the length symbol `257 + c`, then LENEXT (R340, R342). -/
def DecRun.lengthSym (r : DecRun) (c e : Nat) : Act := r.takeLitSym (257 + c) fun r => (r.lenBegin c).lenExt e

/-- The copy of MATCH, at most `n` bytes (R352): each is read from the window after the one before it was written there. -/
def DecRun.matchBytes : Nat → DecRun → DecRun
  | 0, r => r
  | n + 1, r =>
    let r := DecRun.emit (r.d.back r.d.offset) r
    DecRun.matchBytes n (r.withDec { r.d with length := r.d.length - 1 })

/-- MATCH (R352). -/
def DecRun.copyMatch (r : DecRun) : Act :=
  let r := DecRun.matchBytes (min r.d.length r.io.availOut) r
  if r.d.length = 0 then .go (r.withDec { r.d with mode := .len }) else .stop .needMoreOutput r

/-- DISTEXT, `e` being the value of the extra bits, then MATCH (R344, R352). -/
def DecRun.distExt (r : DecRun) (e : Nat) : Act :=
  r.needBits r.d.extra fun r =>
    let r := r.dropBits r.d.extra
    let r := r.withDec { r.d with offset := r.d.offset + e }
    if r.d.whave < r.d.offset then r.raise 11 else (r.withDec { r.d with mode := .copyMatch }).copyMatch

/-- DIST's part of the distance symbol `c` (R343). -/
def DecRun.distBegin (r : DecRun) (c : Nat) : DecRun :=
  r.withDec { r.d with offset := distBase.getD c 0, extra := distExtra.getD c 0, mode := .distExt }

/-- DIST with a symbol (R343): the code is consumed, then the rest. -/
def DecRun.takeDistSym (r : DecRun) (sym : Nat) (rest : DecRun → Act) : Act :=
  r.needBits (r.d.distcode.lengthOf sym) fun r => rest (r.dropBits (r.d.distcode.lengthOf sym))

/-- DIST with the distance symbol `c`, then DISTEXT and MATCH (R343, R344, R352). -/
def DecRun.distanceSym (r : DecRun) (c e : Nat) : Act := r.takeDistSym c fun r => (r.distBegin c).distExt e

/-! ## Dictionary and resynchronisation (R360 to R366) -/

/-- `prime_dictionary` on the bytes to be written (R366). -/
def Dec.rememberAll : List Byte → Dec → Dec
  | [], d => d
  | b :: bs, d => Dec.rememberAll bs (d.remember b)

/-- The fields that DEC_INIT sets, on top of the latched configuration, the window RAM and the code tables it leaves alone
(R362, R398). -/
def Dec.restart (d : Dec) (started : Bool) : Dec :=
  { d with
    wnext := 0
    whave := 0
    hold := 0
    bits := 0
    mode := .type
    last := false
    length := 0
    offset := 0
    extra := 0
    nlen := 0
    ndist := 0
    ncode := 0
    have_ := 0
    lens := List.replicate 320 0
    err := 0
    started := started
    syncHave := 0 }

/-- The decoder as DEC_INIT makes it, `seed` numbering the free values of what it leaves unspecified (R398, R454). -/
def Dec.fresh (wbits : Nat) (allowSingle : Bool) (seed : Nat) : Dec :=
  { wbits := wbits, allowSingleCode := allowSingle, dwin := .nil, wnext := 0, whave := 0, hold := 0, bits := 0, mode := .type,
    last := false, length := 0, offset := 0, extra := 0, nlen := 0, ndist := 0, ncode := 0, have_ := 0,
    lens := List.replicate 320 0, clcode := Config.freeCode seed 0, lencode := Config.freeCode seed 1,
    distcode := Config.freeCode seed 2, err := 0, started := false, syncHave := 0, seed := seed }

/-- `search(bytes)` (R361): the marker bytes matched afterwards and the number of bytes looked at. -/
def searchMarker : Nat → List Byte → Nat × Nat
  | got, [] => (got, 0)
  | got, b :: bs =>
    if 4 ≤ got then (got, 0)
    else
      let got' := if b = (if got < 2 then 0x00 else 0xFF) then got + 1 else if b ≠ 0 then 0 else 4 - got
      let r := searchMarker got' bs
      (r.1, r.2 + 1)

/-- The whole bytes held, oldest first (R360). -/
def heldBytes : Nat → Nat → List Byte
  | 0, _ => []
  | n + 1, hold => BitVec.ofNat 8 hold :: heldBytes n (hold >>> 8)

/-- The decoder at the start of a search (R360): the held partial byte is dropped and the held whole bytes are searched. `err` is
0 again, since it is nonzero only in BAD (R67; DEDUCED, log entry 21). -/
def Dec.beginSync (d : Dec) : Dec :=
  if d.mode = .sync then d
  else
    let hold := d.hold >>> (d.bits % 8)
    let r := searchMarker 0 (heldBytes ((d.bits - d.bits % 8) / 8) hold)
    { d with mode := .sync, started := true, hold := 0, bits := 0, err := 0, syncHave := r.1 }

/-- The search of DEC_SYNC (R360 to R363). -/
def DecRun.sync (r : DecRun) : Act :=
  if r.io.availIn = 0 ∧ r.d.bits < 8 then .stop .needMoreInput r
  else
    let d := r.d.beginSync
    let found := searchMarker d.syncHave (r.io.inBytes r.io.consumed r.io.availIn)
    let r : DecRun := { d := { d with syncHave := found.1 }, io := r.io.consume found.2 }
    if found.1 < 4 then .stop .needMoreInput r else .stop .ok (r.withDec (r.d.restart true))

end Sys2Proof.Machine
end

