-- ==== Sys2Proof/Machine/Elements.lean ====
section
/-! DEFINITION. Sys2Proof/Machine/Elements.lean: where the elements of the bitstream are executed. Their meanings are actions on a
decoder inside a DEC_STEP; here such an action is carried back into the machine's state. -/

namespace Sys2Proof.Machine

open Sys2Proof

/-- The answer of a step or of a meaning. -/
abbrev Answer := Host.Outcome State Fault Refusal

/-- A decoder's action carried back into the state (R311, R380): the DEC_STEP goes on, or it ends with its result. -/
def State.settle (s : State) : Act → State
  | .go r =>
    { s with
      stream := .dec r.d
      mem := r.io.mem
      totalIn := r.io.totalIn
      totalOut := r.io.totalOut
      phase := .decoding r.io.consumed r.io.produced }
  | .stop res r => s.finish r.io (.dec r.d) res

/-- The decoder awaits an element of mode `m` (R311): it is in that mode, and in TYPE the last block has not been final
(R313). -/
def Dec.awaits (d : Dec) (m : DecMode) : Bool := decide (d.mode = m) && !(decide (m = .type) && d.last)

/-- Execute an element that belongs to mode `m`. -/
def State.onElement (s : State) (m : DecMode) (f : DecRun → Act) : Answer :=
  match s.stream, s.phase with
  | .dec d, .decoding c p =>
    if d.awaits m then .next (s.settle (f { d := d, io := s.io c p })) else .refused .elementOutOfPlace
  | _, _ => .refused .elementOutOfPlace

end Sys2Proof.Machine
end

