-- ==== Sys2Proof/Machine/BlockHeaders.lean ====
section
/-! DEFINITION. Sys2Proof/Machine/BlockHeaders.lean: the meanings of the block headers (R313 to R316) and of the stored block's
length pair (R320 to R322). -/

namespace Sys2Proof.Machine

open Sys2Proof

/-- BLOCK_STORED (R314, R315). -/
def execBlockStored (final : Bool) (s : State) : Answer :=
  s.onElement .type fun r => r.takeHeader final fun r => .go (r.withDec { r.d with mode := .stored })

/-- BLOCK_FIXED: the fixed codes are in force (R314 to R316). -/
def execBlockFixed (final : Bool) (s : State) : Answer :=
  s.onElement .type fun r => r.takeHeader final fun r =>
    .go (r.withDec { r.d with lencode := fixedLitCode, distcode := fixedDistCode, mode := .len })

/-- BLOCK_DYNAMIC (R314, R315). -/
def execBlockDynamic (final : Bool) (s : State) : Answer :=
  s.onElement .type fun r => r.takeHeader final fun r => .go (r.withDec { r.d with mode := .table })

/-- BLOCK_RESERVED: malformed, sub-kind 1 (R315). -/
def execBlockReserved (final : Bool) (s : State) : Answer :=
  s.onElement .type fun r => r.takeHeader final fun r => r.raise 1

/-- STORED_LEN: the pair is checked and the block's bytes are copied (R320 to R322). -/
def execStoredLen (len nlen : BitVec 16) (s : State) : Answer :=
  s.onElement .stored fun r => r.storedPair len nlen

end Sys2Proof.Machine
end

