-- ==== Sys2Proof/Machine/Distance.lean ====
section
/-! DEFINITION. Sys2Proof/Machine/Distance.lean: the meanings of the distance alphabet (R343, R344), each with the copy of the match
it completes (R352). -/

namespace Sys2Proof.Machine

open Sys2Proof

/-- DISTANCE_0: distance 1 (R122, R343, R344, R352). -/
def execDistance0 (s : State) : Answer :=
  s.onElement .dist fun r => r.distanceSym 0 0

/-- DISTANCE_1: distance 2 (R122, R343, R344, R352). -/
def execDistance1 (s : State) : Answer :=
  s.onElement .dist fun r => r.distanceSym 1 0

/-- DISTANCE_2: distance 3 (R122, R343, R344, R352). -/
def execDistance2 (s : State) : Answer :=
  s.onElement .dist fun r => r.distanceSym 2 0

/-- DISTANCE_3: distance 4 (R122, R343, R344, R352). -/
def execDistance3 (s : State) : Answer :=
  s.onElement .dist fun r => r.distanceSym 3 0

/-- DISTANCE_4: distance 5 to 6 (R122, R343, R344, R352). -/
def execDistance4 (extra : BitVec 1) (s : State) : Answer :=
  s.onElement .dist fun r => r.distanceSym 4 extra.toNat

/-- DISTANCE_5: distance 7 to 8 (R122, R343, R344, R352). -/
def execDistance5 (extra : BitVec 1) (s : State) : Answer :=
  s.onElement .dist fun r => r.distanceSym 5 extra.toNat

/-- DISTANCE_6: distance 9 to 12 (R122, R343, R344, R352). -/
def execDistance6 (extra : BitVec 2) (s : State) : Answer :=
  s.onElement .dist fun r => r.distanceSym 6 extra.toNat

/-- DISTANCE_7: distance 13 to 16 (R122, R343, R344, R352). -/
def execDistance7 (extra : BitVec 2) (s : State) : Answer :=
  s.onElement .dist fun r => r.distanceSym 7 extra.toNat

/-- DISTANCE_8: distance 17 to 24 (R122, R343, R344, R352). -/
def execDistance8 (extra : BitVec 3) (s : State) : Answer :=
  s.onElement .dist fun r => r.distanceSym 8 extra.toNat

/-- DISTANCE_9: distance 25 to 32 (R122, R343, R344, R352). -/
def execDistance9 (extra : BitVec 3) (s : State) : Answer :=
  s.onElement .dist fun r => r.distanceSym 9 extra.toNat

/-- DISTANCE_10: distance 33 to 48 (R122, R343, R344, R352). -/
def execDistance10 (extra : BitVec 4) (s : State) : Answer :=
  s.onElement .dist fun r => r.distanceSym 10 extra.toNat

/-- DISTANCE_11: distance 49 to 64 (R122, R343, R344, R352). -/
def execDistance11 (extra : BitVec 4) (s : State) : Answer :=
  s.onElement .dist fun r => r.distanceSym 11 extra.toNat

/-- DISTANCE_12: distance 65 to 96 (R122, R343, R344, R352). -/
def execDistance12 (extra : BitVec 5) (s : State) : Answer :=
  s.onElement .dist fun r => r.distanceSym 12 extra.toNat

/-- DISTANCE_13: distance 97 to 128 (R122, R343, R344, R352). -/
def execDistance13 (extra : BitVec 5) (s : State) : Answer :=
  s.onElement .dist fun r => r.distanceSym 13 extra.toNat

/-- DISTANCE_14: distance 129 to 192 (R122, R343, R344, R352). -/
def execDistance14 (extra : BitVec 6) (s : State) : Answer :=
  s.onElement .dist fun r => r.distanceSym 14 extra.toNat

/-- DISTANCE_15: distance 193 to 256 (R122, R343, R344, R352). -/
def execDistance15 (extra : BitVec 6) (s : State) : Answer :=
  s.onElement .dist fun r => r.distanceSym 15 extra.toNat

/-- DISTANCE_16: distance 257 to 384 (R122, R343, R344, R352). -/
def execDistance16 (extra : BitVec 7) (s : State) : Answer :=
  s.onElement .dist fun r => r.distanceSym 16 extra.toNat

/-- DISTANCE_17: distance 385 to 512 (R122, R343, R344, R352). -/
def execDistance17 (extra : BitVec 7) (s : State) : Answer :=
  s.onElement .dist fun r => r.distanceSym 17 extra.toNat

/-- DISTANCE_18: distance 513 to 768 (R122, R343, R344, R352). -/
def execDistance18 (extra : BitVec 8) (s : State) : Answer :=
  s.onElement .dist fun r => r.distanceSym 18 extra.toNat

/-- DISTANCE_19: distance 769 to 1024 (R122, R343, R344, R352). -/
def execDistance19 (extra : BitVec 8) (s : State) : Answer :=
  s.onElement .dist fun r => r.distanceSym 19 extra.toNat

/-- DISTANCE_20: distance 1025 to 1536 (R122, R343, R344, R352). -/
def execDistance20 (extra : BitVec 9) (s : State) : Answer :=
  s.onElement .dist fun r => r.distanceSym 20 extra.toNat

/-- DISTANCE_21: distance 1537 to 2048 (R122, R343, R344, R352). -/
def execDistance21 (extra : BitVec 9) (s : State) : Answer :=
  s.onElement .dist fun r => r.distanceSym 21 extra.toNat

/-- DISTANCE_22: distance 2049 to 3072 (R122, R343, R344, R352). -/
def execDistance22 (extra : BitVec 10) (s : State) : Answer :=
  s.onElement .dist fun r => r.distanceSym 22 extra.toNat

/-- DISTANCE_23: distance 3073 to 4096 (R122, R343, R344, R352). -/
def execDistance23 (extra : BitVec 10) (s : State) : Answer :=
  s.onElement .dist fun r => r.distanceSym 23 extra.toNat

/-- DISTANCE_24: distance 4097 to 6144 (R122, R343, R344, R352). -/
def execDistance24 (extra : BitVec 11) (s : State) : Answer :=
  s.onElement .dist fun r => r.distanceSym 24 extra.toNat

/-- DISTANCE_25: distance 6145 to 8192 (R122, R343, R344, R352). -/
def execDistance25 (extra : BitVec 11) (s : State) : Answer :=
  s.onElement .dist fun r => r.distanceSym 25 extra.toNat

/-- DISTANCE_26: distance 8193 to 12288 (R122, R343, R344, R352). -/
def execDistance26 (extra : BitVec 12) (s : State) : Answer :=
  s.onElement .dist fun r => r.distanceSym 26 extra.toNat

/-- DISTANCE_27: distance 12289 to 16384 (R122, R343, R344, R352). -/
def execDistance27 (extra : BitVec 12) (s : State) : Answer :=
  s.onElement .dist fun r => r.distanceSym 27 extra.toNat

/-- DISTANCE_28: distance 16385 to 24576 (R122, R343, R344, R352). -/
def execDistance28 (extra : BitVec 13) (s : State) : Answer :=
  s.onElement .dist fun r => r.distanceSym 28 extra.toNat

/-- DISTANCE_29: distance 24577 to 32768 (R122, R343, R344, R352). -/
def execDistance29 (extra : BitVec 13) (s : State) : Answer :=
  s.onElement .dist fun r => r.distanceSym 29 extra.toNat

/-- DISTANCE_RESERVED: malformed, sub-kind 10 (R343). -/
def execDistanceReserved (odd : Bool) (s : State) : Answer :=
  s.onElement .dist fun r => r.takeDistSym (if odd then 31 else 30) fun r => r.raise 10

end Sys2Proof.Machine
end

