-- ==== Sys2Proof/Machine/DynamicHeader.lean ====
section
/-! DEFINITION. Sys2Proof/Machine/DynamicHeader.lean: the meanings of the dynamic block header's elements (R323 to R329). -/

namespace Sys2Proof.Machine

open Sys2Proof

/-- DYNAMIC_COUNTS (R323). -/
def execDynamicCounts (hlit hdist : BitVec 5) (hclen : BitVec 4) (s : State) : Answer :=
  s.onElement .table fun r => r.counts hlit hdist hclen

/-- CODE_LENGTH_CODE_LENGTHS: the fields that are still due, or the first of them (R324, R325). -/
def execCodeLengthCodeLengths (lens : List (BitVec 3)) (s : State) : Answer :=
  match s.stream with
  | .dec d =>
    if lens.length ≤ d.ncode - d.have_ then s.onElement .lenLens fun r => DecRun.takeLenLens lens r
    else .refused .elementOutOfPlace
  | _ => .refused .elementOutOfPlace

/-- CL_LENGTH (R326). -/
def execClLength (len : BitVec 4) (s : State) : Answer :=
  s.onElement .codeLens fun r => r.clLength len.toNat

/-- CL_REPEAT_PREV (R326). -/
def execClRepeatPrev (extra : BitVec 2) (s : State) : Answer :=
  s.onElement .codeLens fun r => r.clRepeatPrev (3 + extra.toNat)

/-- CL_REPEAT_ZERO_SHORT (R326). -/
def execClRepeatZeroShort (extra : BitVec 3) (s : State) : Answer :=
  s.onElement .codeLens fun r => r.clRepeatZero 17 (3 + extra.toNat)

/-- CL_REPEAT_ZERO_LONG (R326). -/
def execClRepeatZeroLong (extra : BitVec 7) (s : State) : Answer :=
  s.onElement .codeLens fun r => r.clRepeatZero 18 (11 + extra.toNat)

end Sys2Proof.Machine
end

