-- ==== Sys2Proof/Machine/LitLen.lean ====
section
/-! DEFINITION. Sys2Proof/Machine/LitLen.lean: the meanings of the literal/length alphabet (R340 to R345). -/

namespace Sys2Proof.Machine

open Sys2Proof

/-- LITERAL: one byte of output, owed where there is no space for it (R340, R345). -/
def execLiteral (byte : BitVec 8) (s : State) : Answer :=
  s.onElement .len fun r => r.literal byte

/-- END_OF_BLOCK (R340). -/
def execEndOfBlock (s : State) : Answer :=
  s.onElement .len fun r => r.endOfBlock

/-- LENGTH_257: a match of 3 bytes (R121, R340, R342). -/
def execLength257 (s : State) : Answer :=
  s.onElement .len fun r => r.lengthSym 0 0

/-- LENGTH_258: a match of 4 bytes (R121, R340, R342). -/
def execLength258 (s : State) : Answer :=
  s.onElement .len fun r => r.lengthSym 1 0

/-- LENGTH_259: a match of 5 bytes (R121, R340, R342). -/
def execLength259 (s : State) : Answer :=
  s.onElement .len fun r => r.lengthSym 2 0

/-- LENGTH_260: a match of 6 bytes (R121, R340, R342). -/
def execLength260 (s : State) : Answer :=
  s.onElement .len fun r => r.lengthSym 3 0

/-- LENGTH_261: a match of 7 bytes (R121, R340, R342). -/
def execLength261 (s : State) : Answer :=
  s.onElement .len fun r => r.lengthSym 4 0

/-- LENGTH_262: a match of 8 bytes (R121, R340, R342). -/
def execLength262 (s : State) : Answer :=
  s.onElement .len fun r => r.lengthSym 5 0

/-- LENGTH_263: a match of 9 bytes (R121, R340, R342). -/
def execLength263 (s : State) : Answer :=
  s.onElement .len fun r => r.lengthSym 6 0

/-- LENGTH_264: a match of 10 bytes (R121, R340, R342). -/
def execLength264 (s : State) : Answer :=
  s.onElement .len fun r => r.lengthSym 7 0

/-- LENGTH_265: a match of 11 to 12 bytes (R121, R340, R342). -/
def execLength265 (extra : BitVec 1) (s : State) : Answer :=
  s.onElement .len fun r => r.lengthSym 8 extra.toNat

/-- LENGTH_266: a match of 13 to 14 bytes (R121, R340, R342). -/
def execLength266 (extra : BitVec 1) (s : State) : Answer :=
  s.onElement .len fun r => r.lengthSym 9 extra.toNat

/-- LENGTH_267: a match of 15 to 16 bytes (R121, R340, R342). -/
def execLength267 (extra : BitVec 1) (s : State) : Answer :=
  s.onElement .len fun r => r.lengthSym 10 extra.toNat

/-- LENGTH_268: a match of 17 to 18 bytes (R121, R340, R342). -/
def execLength268 (extra : BitVec 1) (s : State) : Answer :=
  s.onElement .len fun r => r.lengthSym 11 extra.toNat

/-- LENGTH_269: a match of 19 to 22 bytes (R121, R340, R342). -/
def execLength269 (extra : BitVec 2) (s : State) : Answer :=
  s.onElement .len fun r => r.lengthSym 12 extra.toNat

/-- LENGTH_270: a match of 23 to 26 bytes (R121, R340, R342). -/
def execLength270 (extra : BitVec 2) (s : State) : Answer :=
  s.onElement .len fun r => r.lengthSym 13 extra.toNat

/-- LENGTH_271: a match of 27 to 30 bytes (R121, R340, R342). -/
def execLength271 (extra : BitVec 2) (s : State) : Answer :=
  s.onElement .len fun r => r.lengthSym 14 extra.toNat

/-- LENGTH_272: a match of 31 to 34 bytes (R121, R340, R342). -/
def execLength272 (extra : BitVec 2) (s : State) : Answer :=
  s.onElement .len fun r => r.lengthSym 15 extra.toNat

/-- LENGTH_273: a match of 35 to 42 bytes (R121, R340, R342). -/
def execLength273 (extra : BitVec 3) (s : State) : Answer :=
  s.onElement .len fun r => r.lengthSym 16 extra.toNat

/-- LENGTH_274: a match of 43 to 50 bytes (R121, R340, R342). -/
def execLength274 (extra : BitVec 3) (s : State) : Answer :=
  s.onElement .len fun r => r.lengthSym 17 extra.toNat

/-- LENGTH_275: a match of 51 to 58 bytes (R121, R340, R342). -/
def execLength275 (extra : BitVec 3) (s : State) : Answer :=
  s.onElement .len fun r => r.lengthSym 18 extra.toNat

/-- LENGTH_276: a match of 59 to 66 bytes (R121, R340, R342). -/
def execLength276 (extra : BitVec 3) (s : State) : Answer :=
  s.onElement .len fun r => r.lengthSym 19 extra.toNat

/-- LENGTH_277: a match of 67 to 82 bytes (R121, R340, R342). -/
def execLength277 (extra : BitVec 4) (s : State) : Answer :=
  s.onElement .len fun r => r.lengthSym 20 extra.toNat

/-- LENGTH_278: a match of 83 to 98 bytes (R121, R340, R342). -/
def execLength278 (extra : BitVec 4) (s : State) : Answer :=
  s.onElement .len fun r => r.lengthSym 21 extra.toNat

/-- LENGTH_279: a match of 99 to 114 bytes (R121, R340, R342). -/
def execLength279 (extra : BitVec 4) (s : State) : Answer :=
  s.onElement .len fun r => r.lengthSym 22 extra.toNat

/-- LENGTH_280: a match of 115 to 130 bytes (R121, R340, R342). -/
def execLength280 (extra : BitVec 4) (s : State) : Answer :=
  s.onElement .len fun r => r.lengthSym 23 extra.toNat

/-- LENGTH_281: a match of 131 to 162 bytes (R121, R340, R342). -/
def execLength281 (extra : BitVec 5) (s : State) : Answer :=
  s.onElement .len fun r => r.lengthSym 24 extra.toNat

/-- LENGTH_282: a match of 163 to 194 bytes (R121, R340, R342). -/
def execLength282 (extra : BitVec 5) (s : State) : Answer :=
  s.onElement .len fun r => r.lengthSym 25 extra.toNat

/-- LENGTH_283: a match of 195 to 226 bytes (R121, R340, R342). -/
def execLength283 (extra : BitVec 5) (s : State) : Answer :=
  s.onElement .len fun r => r.lengthSym 26 extra.toNat

/-- LENGTH_284: a match of 227 to 258 bytes (R121, R340, R342). -/
def execLength284 (extra : BitVec 5) (s : State) : Answer :=
  s.onElement .len fun r => r.lengthSym 27 extra.toNat

/-- LENGTH_285: a match of 258 bytes (R121, R340, R342). -/
def execLength285 (s : State) : Answer :=
  s.onElement .len fun r => r.lengthSym 28 0

/-- LITLEN_RESERVED: malformed, sub-kind 9 (R341). -/
def execLitlenReserved (odd : Bool) (s : State) : Answer :=
  s.onElement .len fun r => r.takeLitSym (if odd then 287 else 286) fun r => r.raise 9

end Sys2Proof.Machine
end

