-- ==== Sys2Proof/Machine/DecoderCommands.lean ====
section
/-! DEFINITION. Sys2Proof/Machine/DecoderCommands.lean: the decoder's run loop over the elements of the bitstream (44_block_decoder.md
R311) and the meanings of the decoder's commands and of END (45_host_commands.md R398 to R410). -/

namespace Sys2Proof.Machine

open Sys2Proof

/-- Execute one element of the bitstream: exec's arms for the elements, which the run loop needs before exec is defined. A command
word is no element. -/
def execElement (i : Instr) (s : State) : Answer :=
  match i with
  | .encInit => .refused .elementOutOfPlace
  | .encStepNo => .refused .elementOutOfPlace
  | .encStepPartial => .refused .elementOutOfPlace
  | .encStepSync => .refused .elementOutOfPlace
  | .encStepFull => .refused .elementOutOfPlace
  | .encStepFinish => .refused .elementOutOfPlace
  | .encStepBlock => .refused .elementOutOfPlace
  | .encSetDict => .refused .elementOutOfPlace
  | .decInit => .refused .elementOutOfPlace
  | .decStep => .refused .elementOutOfPlace
  | .decSetDict => .refused .elementOutOfPlace
  | .decSync => .refused .elementOutOfPlace
  | .endStream => .refused .elementOutOfPlace
  | .blockStored final => Sys2Proof.Machine.execBlockStored final s
  | .blockFixed final => Sys2Proof.Machine.execBlockFixed final s
  | .blockDynamic final => Sys2Proof.Machine.execBlockDynamic final s
  | .blockReserved final => Sys2Proof.Machine.execBlockReserved final s
  | .storedLen len nlen => Sys2Proof.Machine.execStoredLen len nlen s
  | .dynamicCounts hlit hdist hclen => Sys2Proof.Machine.execDynamicCounts hlit hdist hclen s
  | .codeLengthCodeLengths lens => Sys2Proof.Machine.execCodeLengthCodeLengths lens s
  | .clLength len => Sys2Proof.Machine.execClLength len s
  | .clRepeatPrev extra => Sys2Proof.Machine.execClRepeatPrev extra s
  | .clRepeatZeroShort extra => Sys2Proof.Machine.execClRepeatZeroShort extra s
  | .clRepeatZeroLong extra => Sys2Proof.Machine.execClRepeatZeroLong extra s
  | .literal byte => Sys2Proof.Machine.execLiteral byte s
  | .endOfBlock => Sys2Proof.Machine.execEndOfBlock s
  | .length257 => Sys2Proof.Machine.execLength257 s
  | .length258 => Sys2Proof.Machine.execLength258 s
  | .length259 => Sys2Proof.Machine.execLength259 s
  | .length260 => Sys2Proof.Machine.execLength260 s
  | .length261 => Sys2Proof.Machine.execLength261 s
  | .length262 => Sys2Proof.Machine.execLength262 s
  | .length263 => Sys2Proof.Machine.execLength263 s
  | .length264 => Sys2Proof.Machine.execLength264 s
  | .length265 extra => Sys2Proof.Machine.execLength265 extra s
  | .length266 extra => Sys2Proof.Machine.execLength266 extra s
  | .length267 extra => Sys2Proof.Machine.execLength267 extra s
  | .length268 extra => Sys2Proof.Machine.execLength268 extra s
  | .length269 extra => Sys2Proof.Machine.execLength269 extra s
  | .length270 extra => Sys2Proof.Machine.execLength270 extra s
  | .length271 extra => Sys2Proof.Machine.execLength271 extra s
  | .length272 extra => Sys2Proof.Machine.execLength272 extra s
  | .length273 extra => Sys2Proof.Machine.execLength273 extra s
  | .length274 extra => Sys2Proof.Machine.execLength274 extra s
  | .length275 extra => Sys2Proof.Machine.execLength275 extra s
  | .length276 extra => Sys2Proof.Machine.execLength276 extra s
  | .length277 extra => Sys2Proof.Machine.execLength277 extra s
  | .length278 extra => Sys2Proof.Machine.execLength278 extra s
  | .length279 extra => Sys2Proof.Machine.execLength279 extra s
  | .length280 extra => Sys2Proof.Machine.execLength280 extra s
  | .length281 extra => Sys2Proof.Machine.execLength281 extra s
  | .length282 extra => Sys2Proof.Machine.execLength282 extra s
  | .length283 extra => Sys2Proof.Machine.execLength283 extra s
  | .length284 extra => Sys2Proof.Machine.execLength284 extra s
  | .length285 => Sys2Proof.Machine.execLength285 s
  | .litlenReserved odd => Sys2Proof.Machine.execLitlenReserved odd s
  | .distance0 => Sys2Proof.Machine.execDistance0 s
  | .distance1 => Sys2Proof.Machine.execDistance1 s
  | .distance2 => Sys2Proof.Machine.execDistance2 s
  | .distance3 => Sys2Proof.Machine.execDistance3 s
  | .distance4 extra => Sys2Proof.Machine.execDistance4 extra s
  | .distance5 extra => Sys2Proof.Machine.execDistance5 extra s
  | .distance6 extra => Sys2Proof.Machine.execDistance6 extra s
  | .distance7 extra => Sys2Proof.Machine.execDistance7 extra s
  | .distance8 extra => Sys2Proof.Machine.execDistance8 extra s
  | .distance9 extra => Sys2Proof.Machine.execDistance9 extra s
  | .distance10 extra => Sys2Proof.Machine.execDistance10 extra s
  | .distance11 extra => Sys2Proof.Machine.execDistance11 extra s
  | .distance12 extra => Sys2Proof.Machine.execDistance12 extra s
  | .distance13 extra => Sys2Proof.Machine.execDistance13 extra s
  | .distance14 extra => Sys2Proof.Machine.execDistance14 extra s
  | .distance15 extra => Sys2Proof.Machine.execDistance15 extra s
  | .distance16 extra => Sys2Proof.Machine.execDistance16 extra s
  | .distance17 extra => Sys2Proof.Machine.execDistance17 extra s
  | .distance18 extra => Sys2Proof.Machine.execDistance18 extra s
  | .distance19 extra => Sys2Proof.Machine.execDistance19 extra s
  | .distance20 extra => Sys2Proof.Machine.execDistance20 extra s
  | .distance21 extra => Sys2Proof.Machine.execDistance21 extra s
  | .distance22 extra => Sys2Proof.Machine.execDistance22 extra s
  | .distance23 extra => Sys2Proof.Machine.execDistance23 extra s
  | .distance24 extra => Sys2Proof.Machine.execDistance24 extra s
  | .distance25 extra => Sys2Proof.Machine.execDistance25 extra s
  | .distance26 extra => Sys2Proof.Machine.execDistance26 extra s
  | .distance27 extra => Sys2Proof.Machine.execDistance27 extra s
  | .distance28 extra => Sys2Proof.Machine.execDistance28 extra s
  | .distance29 extra => Sys2Proof.Machine.execDistance29 extra s
  | .distanceReserved odd => Sys2Proof.Machine.execDistanceReserved odd s

/-! ## One state action -/

/-- What a decoder does next (R311): nothing to fetch, so an action of its own; or the next element of the stream in a context. -/
inductive NextAction where
  | act (a : Act)
  | fetch (r : DecRun) (ctx : WireContext)
  deriving DecidableEq, Repr

/-- The action of the current mode (R311 to R355). A suspended element is resumed where it stopped; DONE and BAD repeat their
results (R355, R365). -/
def DecRun.next (r : DecRun) : NextAction :=
  match r.d.mode with
  | .type => if r.d.last then .act r.endOfStream else .fetch r .header
  | .stored => .fetch r.byteBits .storedPair
  | .copy => .act r.copy
  | .table => .fetch r .counts
  | .lenLens => if r.d.ncode ≤ r.d.have_ then .act r.endLenLens else .fetch r (.clLens (r.d.ncode - r.d.have_))
  | .codeLens => if r.d.nlen + r.d.ndist ≤ r.d.have_ then .act r.endCodeLens else .fetch r (.clSymbol r.d.clcode)
  | .len => .fetch r (.litSymbol r.d.lencode)
  | .lenExt => .act (r.needBits r.d.extra fun r => r.lenExt (r.peekBits r.d.extra))
  | .dist => .fetch r (.distSymbol r.d.distcode)
  | .distExt => .act (r.needBits r.d.extra fun r => r.distExt (r.peekBits r.d.extra))
  | .copyMatch => .act r.copyMatch
  | .lit => .act r.lit
  | .done => .act (.stop .streamEnd r)
  | .bad => .act (.stop .malformedStream r)
  | .sync => .act (.stop .invalidCommand r)

/-- The input has not the whole element (R181, R335): the decoder takes what is there and suspends. In LENLENS that is every whole
field (R324). -/
def DecRun.partElement (r : DecRun) : Act := if r.d.mode = .lenLens then DecRun.readLenLens 20 r else r.starve

/-- A length or distance symbol is there and its extra bits are not (R340, R343): the symbol is consumed, and the decoder suspends
in LENEXT or DISTEXT. -/
def DecRun.symbolOnly (r : DecRun) (sym n : Nat) : Act :=
  r.needBits n fun r =>
    let r := r.dropBits n
    if r.d.mode = .len then (r.lenBegin (sym - 257)).starve else (r.distBegin sym).starve

/-- No code matches (R335, R341, R343): the bits that show it are consumed. The code-length code is complete, so CODELENS never
comes here (R336). -/
def DecRun.noCode (r : DecRun) (n : Nat) : Act :=
  r.needBits n fun r => (r.dropBits n).raise (if r.d.mode = .len then 9 else 10)

/-- One state action of a decoder inside a DEC_STEP (R311). Where the mode expects an element, it is decoded from the stream and
executed. -/
def decoderStep (s : State) : Answer :=
  match s.stream, s.phase with
  | .dec d, .decoding c p =>
    match DecRun.next { d := d, io := s.io c p } with
    | .act a => .next (s.settle a)
    | .fetch r ctx =>
      match decodeWire ctx r.sight with
      | .element i _ => execElement i s
      | .symbolOnly sym n => .next (s.settle (r.symbolOnly sym n))
      | .noCode n => if d.mode = .codeLens then .fault .internalInvariant else .next (s.settle (r.noCode n))
      | .more => .next (s.settle r.partElement)
  | _, _ => .refused .elementOutOfPlace

/-- State actions until the command ends (R311). -/
def runDecoder : Nat → State → Answer
  | 0, s => .next s
  | fuel + 1, s =>
    match decoderStep s with
    | .next t => if t.phase = .idle then .next t else runDecoder fuel t
    | .fault f => .fault f
    | .refused r => .refused r

/-- More state actions than a DEC_STEP takes: each consumes a bit of the stream or moves towards one that does. -/
def decoderFuel (s : State) (d : Dec) : Nat := 5 * (d.bits + 8 * s.inLen.toNat) + 5

/-! ## The decoder's commands -/

/-- DEC_INIT (R398): an existing stream is replaced, and kept where CFG is not legal (R382, R426). -/
def execDecInit (s : State) : Answer :=
  if cfgOkDec s.cfg then
    .next { s.complete (.dec (Dec.fresh (cfgWbits s.cfg) s.params.allowSingleCode s.freeCtr)) .ok with
      totalIn := 0, totalOut := 0, freeCtr := s.freeCtr + 1 }
  else .next (s.complete s.stream .invalidConfiguration)

/-- DEC_STEP (R400): one atomic transition, made of the state actions of R311. -/
def execDecStep (s : State) : Answer :=
  match s.stream with
  | .dec d =>
    if d.mode = .sync then .next s.refuseCommand
    else if !s.rangesOk then .next s.refuseCommand
    else runDecoder (decoderFuel s d) { s with stream := .dec { d with started := true }, phase := .decoding 0 0 }
  | _ => .next s.refuseCommand

/-- DEC_SET_DICT (R404): the last `min(IN_LEN, W)` bytes of the input buffer; nothing is consumed. -/
def execDecSetDict (s : State) : Answer :=
  match s.stream with
  | .dec d =>
    if d.started ∨ d.mode ≠ .type then .next s.refuseCommand
    else if !s.rangesOk then .next s.refuseCommand
    else
      let n := min s.inLen.toNat d.w
      .next (s.complete (.dec (Dec.rememberAll ((s.io 0 0).inBytes (s.inLen.toNat - n) n) d)) .ok)
  | _ => .next s.refuseCommand

/-- DEC_SYNC (R406, R360 to R363). It sets `started` before it searches, so that the first DEC_SYNC always does (R68, D20), also where
R360 suspends ahead of its own `started := 1` (DESIGN CHOICE, log entry 34). -/
def execDecSync (s : State) : Answer :=
  match s.stream with
  | .dec d =>
    if !s.rangesOk then .next s.refuseCommand
    else .next (s.settle (DecRun.sync { d := { d with started := true }, io := s.io 0 0 }))
  | _ => .next s.refuseCommand

/-- END (R410), of whichever engine holds the stream; the totals keep their values. -/
def execEndStream (s : State) : Answer :=
  match s.stream with
  | .none => .next s.refuseCommand
  | _ => .next (s.complete .none .ok)

end Sys2Proof.Machine
end

