-- ==== Sys2Proof/Machine/Huffman.lean ====
section
/-! DEFINITION. Sys2Proof/Machine/Huffman.lean: the Huffman builder of the encoder (41_huffman.md R190 to R196). The work arrays
are internal memories of 1024 entries, more than the 573 nodes of the largest tree. -/

namespace Sys2Proof.Machine

open Sys2Proof

/-- One of the three trees (R190): the number of symbols, the length limit, the extra bits of a symbol and the static lengths. -/
structure TreeSpec where
  elems : Nat
  maxLength : Nat
  extra : List Nat
  stree : Option (List Nat)
  deriving DecidableEq, Repr

def ltreeSpec : TreeSpec :=
  { elems := 286, maxLength := 15, extra := List.replicate 257 0 ++ lenExtra, stree := some (fixedLitLengths.take 286) }
def dtreeSpec : TreeSpec := { elems := 30, maxLength := 15, extra := distExtra, stree := some (List.replicate 30 5) }
def bltreeSpec : TreeSpec := { elems := 19, maxLength := 7, extra := List.replicate 16 0 ++ [2, 3, 7], stree := none }

/-- The static length of a symbol, 0 where the tree has none (R190). -/
def TreeSpec.staticLength (t : TreeSpec) (n : Nat) : Nat :=
  match t.stree with
  | some l => l.getD n 0
  | none => 0

/-- The work state of `build_tree` (R190 to R195). `maxCode` is -1 before any symbol is seen. -/
structure Build where
  freq : Ram
  len : Ram
  dad : Ram
  depth : Ram
  heap : Ram
  heapLen : Nat
  heapMax : Nat
  maxCode : Int
  optLen : Int
  staticLen : Int
  deriving DecidableEq, Repr

/-- Reads and writes of the work arrays. -/
def wread (t : Ram) (k : Nat) : Nat := Ram.get 10 t k
def wwrite (t : Ram) (k v : Nat) : Ram := Ram.set 10 t k v

/-- A list as a work array from index `k` on. -/
def wload : Nat → List Nat → Ram → Ram
  | _, [], t => t
  | k, v :: vs, t => wload (k + 1) vs (wwrite t k v)

/-- Entries `k .. k+n-1` of a work array. -/
def wlist (t : Ram) : Nat → Nat → List Nat
  | _, 0 => []
  | k, n + 1 => wread t k :: wlist t (k + 1) n

/-- Step 1 of `build_tree`, the leaves in symbol order (R192). -/
def addLeaves : Nat → List Nat → Build → Build
  | _, [], b => b
  | n, f :: fs, b =>
    addLeaves (n + 1) fs
      (if f ≠ 0 then
        { b with heapLen := b.heapLen + 1, heap := wwrite b.heap (b.heapLen + 1) n, maxCode := n,
                 depth := wwrite b.depth n 0 }
      else { b with len := wwrite b.len n 0 })

/-- Step 1, one dummy leaf (R192). -/
def addDummy (t : TreeSpec) (b : Build) : Build :=
  let mc := if b.maxCode < 2 then b.maxCode + 1 else b.maxCode
  let node := if b.maxCode < 2 then (b.maxCode + 1).toNat else 0
  { b with
    maxCode := mc
    heapLen := b.heapLen + 1
    heap := wwrite b.heap (b.heapLen + 1) node
    freq := wwrite b.freq node 1
    depth := wwrite b.depth node 0
    optLen := b.optLen - 1
    staticLen := b.staticLen - t.staticLength node }

/-- Step 1, dummies until there are two leaves (R192). -/
def addDummies (t : TreeSpec) : Nat → Build → Build
  | 0, b => b
  | n + 1, b => if b.heapLen < 2 then addDummies t n (addDummy t b) else b

/-- `smaller(n, m)` (R193). -/
def Build.smaller (b : Build) (n m : Nat) : Bool :=
  decide (wread b.freq n < wread b.freq m) ||
    (decide (wread b.freq n = wread b.freq m) && decide (wread b.depth n ≤ wread b.depth m))

/-- The loop of `downheap` (R193): node `v` sinks from place `k`; every turn doubles `k`, so ten turns pass any heap. -/
def siftDown (v : Nat) : Nat → Nat → Build → Build
  | 0, k, b => { b with heap := wwrite b.heap k v }
  | fuel + 1, k, b =>
    if b.heapLen < 2 * k then { b with heap := wwrite b.heap k v }
    else
      let j := if 2 * k + 1 ≤ b.heapLen ∧ b.smaller (wread b.heap (2 * k + 1)) (wread b.heap (2 * k)) then 2 * k + 1
        else 2 * k
      if b.smaller v (wread b.heap j) then { b with heap := wwrite b.heap k v }
      else siftDown v fuel j { b with heap := wwrite b.heap k (wread b.heap j) }

/-- `downheap(k)` (R193). -/
def Build.downheap (b : Build) (k : Nat) : Build := siftDown (wread b.heap k) 10 k b

/-- `downheap` of every inner place, from the last to the first (R193). -/
def heapify : Nat → Build → Build
  | 0, b => b
  | k + 1, b => heapify k (b.downheap (k + 1))

/-- One merge of the two least nodes (R193). -/
def mergeLeast (node : Nat) (b : Build) : Build :=
  let n := wread b.heap 1
  let b := { b with heap := wwrite b.heap 1 (wread b.heap b.heapLen), heapLen := b.heapLen - 1 }.downheap 1
  let m := wread b.heap 1
  let b := { b with
    heap := wwrite (wwrite (wwrite b.heap (b.heapMax - 1) n) (b.heapMax - 2) m) 1 node
    heapMax := b.heapMax - 2
    freq := wwrite b.freq node (wread b.freq n + wread b.freq m)
    depth := wwrite b.depth node (max (wread b.depth n) (wread b.depth m) + 1)
    dad := wwrite (wwrite b.dad n node) m node }
  b.downheap 1

/-- Merges until one node is left (R193); each takes one node away. -/
def mergeAll : Nat → Nat → Build → Build
  | 0, _, b => b
  | fuel + 1, node, b =>
    let b := mergeLeast node b
    if b.heapLen < 2 then b else mergeAll fuel (node + 1) b

/-- Step 2 of `build_tree` (R193). -/
def Build.merge (t : TreeSpec) (b : Build) : Build :=
  let b := mergeAll b.heapLen t.elems (heapify (b.heapLen / 2) b)
  { b with heapMax := b.heapMax - 1, heap := wwrite b.heap (b.heapMax - 1) (wread b.heap 1) }

/-- Step 3, one node after the root (R194), with `bl_count` and `overflow`. -/
def bitlenNode (t : TreeSpec) (n : Nat) (b : Build) (count : List Nat) (overflow : Nat) : Build × List Nat × Nat :=
  let up := wread b.len (wread b.dad n) + 1
  let bits := if up > t.maxLength then t.maxLength else up
  let overflow := if up > t.maxLength then overflow + 1 else overflow
  let b := { b with len := wwrite b.len n bits }
  if (n : Int) > b.maxCode then (b, count, overflow)
  else
    ({ b with
        optLen := b.optLen + (wread b.freq n : Int) * (bits + t.extra.getD n 0 : Nat)
        staticLen := b.staticLen +
          (if t.stree.isSome then (wread b.freq n : Int) * (t.staticLength n + t.extra.getD n 0 : Nat) else 0) },
      count.set bits (count.getD bits 0 + 1), overflow)

/-- Step 3, the nodes of the heap from place `h` on (R194). -/
def bitlenFrom (t : TreeSpec) : Nat → Nat → Build → List Nat → Nat → Build × List Nat × Nat
  | 0, _, b, count, overflow => (b, count, overflow)
  | k + 1, h, b, count, overflow =>
    let r := bitlenNode t (wread b.heap h) b count overflow
    bitlenFrom t k (h + 1) r.1 r.2.1 r.2.2

/-- The deepest occupied length below the limit (R195). -/
def deepest (count : List Nat) : Nat → Nat
  | 0 => 0
  | b + 1 => if count.getD (b + 1) 0 = 0 then deepest count b else b + 1

/-- The first loop of step 4 (R195): each turn takes two off the overflow. -/
def redistribute (maxLength : Nat) : Nat → Nat → List Nat → List Nat
  | 0, _, count => count
  | fuel + 1, overflow, count =>
    if overflow = 0 then count
    else
      let bits := deepest count (maxLength - 1)
      let count := count.set bits (count.getD bits 0 - 1)
      let count := count.set (bits + 1) (count.getD (bits + 1) 0 + 2)
      let count := count.set maxLength (count.getD maxLength 0 - 1)
      redistribute maxLength fuel (overflow - 2) count

/-- The lengths to hand out, longest first (R195). -/
def lengthsToGive (count : List Nat) : Nat → List Nat
  | 0 => []
  | bits + 1 => List.replicate (count.getD (bits + 1) 0) (bits + 1) ++ lengthsToGive count bits

/-- The second loop of step 4 (R195): the leaves from the end of the heap take the longest lengths first. -/
def giveLengths : List Nat → List Nat → Build → Build
  | m :: ms, bits :: rest, b =>
    giveLengths ms rest
      (if wread b.len m ≠ bits then
        { b with
          optLen := b.optLen + ((bits : Int) - wread b.len m) * wread b.freq m
          len := wwrite b.len m bits }
      else b)
  | _, _, b => b

/-- The heap's leaves from place 572 downwards, at most `n` places (R195). -/
def leavesFromEnd (b : Build) : Nat → Nat → List Nat
  | 0, _ => []
  | n + 1, h =>
    if (wread b.heap h : Int) > b.maxCode then leavesFromEnd b n (h - 1)
    else wread b.heap h :: leavesFromEnd b n (h - 1)

/-- Steps 3 and 4 of `build_tree` (R194, R195). -/
def Build.genBitlen (t : TreeSpec) (b : Build) : Build :=
  let b := { b with len := wwrite b.len (wread b.heap b.heapMax) 0 }
  let below := Config.heapSize - 1 - b.heapMax
  let r := bitlenFrom t below (b.heapMax + 1) b (List.replicate 16 0) 0
  if r.2.2 = 0 then r.1
  else
    giveLengths (leavesFromEnd r.1 below (Config.heapSize - 1))
      (lengthsToGive (redistribute t.maxLength r.2.2 r.2.2 r.2.1) t.maxLength) r.1

/-- The bit-reversed codes of `k` symbols from `n` on, 0 where a symbol has no code; the entries are in symbol order. -/
def spreadCodes : Nat → Nat → Code → List Nat
  | 0, _, _ => []
  | k + 1, n, [] => 0 :: spreadCodes k (n + 1) []
  | k + 1, n, e :: es =>
    if e.sym = n then bitrev e.len e.canon :: spreadCodes k (n + 1) es else 0 :: spreadCodes k (n + 1) (e :: es)

/-- `gen_codes` over the symbols `0 .. max_code` (R196). -/
def reversedCodes (lens : List Nat) : List Nat := spreadCodes lens.length 0 (canonicalCode lens)

/-- `build_tree` (R192 to R196) from the frequencies of the symbols and the accumulators: the tree's results and the
accumulators after it. -/
def buildTree (t : TreeSpec) (freq : List Nat) (optLen staticLen : Int) : Tree × Int × Int :=
  let b : Build :=
    { freq := wload 0 freq .nil, len := .nil, dad := .nil, depth := .nil, heap := .nil, heapLen := 0,
      heapMax := Config.heapSize, maxCode := -1, optLen := optLen, staticLen := staticLen }
  let b := (addDummies t 2 (addLeaves 0 freq b)).merge t |>.genBitlen t
  let lens := wlist b.len 0 t.elems
  ({ len := lens, code := reversedCodes (lens.take (b.maxCode.toNat + 1)), maxCode := b.maxCode.toNat },
    b.optLen, b.staticLen)

end Sys2Proof.Machine
end

