-- ==== Sys2Proof/Machine/Window.lean ====
section
/-! DEFINITION. Sys2Proof/Machine/Window.lean: the encoder's window, hash chains, refill and match search (42_lz77.md R220 to
R236). -/

namespace Sys2Proof.Machine

open Sys2Proof

/-! ## Internal memories of the encoder -/

/-- `win[i]` (R40). -/
def Enc.winByte (e : Enc) (i : Nat) : Nat := Ram.get (e.ewbits + 1) e.win i

/-- `win[i] := b` (R40). -/
def Enc.winPut (e : Enc) (i : Nat) (b : Byte) : Enc := { e with win := Ram.set (e.ewbits + 1) e.win i b.toNat }

/-- `prev[p & wmask]` (R42). -/
def Enc.chainOf (e : Enc) (p : Nat) : Nat := Ram.get e.ewbits e.prev (p % e.ew)

/-! ## Hash chains -/

/-- `hash_shift` (R224). -/
def hashShift (p : Config.Params) : Nat := (p.hashBits + Config.minMatch - 1) / Config.minMatch

/-- `hash3(p)` (R225). -/
def Enc.hash3 (e : Enc) (ps : Config.Params) (p : Nat) : Nat :=
  ((e.winByte p <<< (2 * hashShift ps)) ^^^ (e.winByte (p + 1) <<< hashShift ps) ^^^ e.winByte (p + 2)) % 2 ^ ps.hashBits

/-- The head of the chain that position `p` belongs to: what `insert_string(p)` returns (R226). -/
def Enc.headAt (e : Enc) (ps : Config.Params) (p : Nat) : Nat := Ram.get ps.hashBits e.head (e.hash3 ps p)

/-- `insert_string(p)` (R226). -/
def Enc.insertString (e : Enc) (ps : Config.Params) (p : Nat) : Enc :=
  { e with
    prev := Ram.set e.ewbits e.prev (p % e.ew) (e.headAt ps p)
    head := Ram.set ps.hashBits e.head (e.hash3 ps p) p }

/-! ## Window refill -/

/-- A chain entry after a slide: it moves down with the window, or is NIL where its position has left (R230). -/
def slideEntry (ew m : Nat) : Nat := if ew ≤ m then m - ew else 0

/-- The slide (R230). Where EW cannot be taken off `match_start`, a natural (R13, R43), the difference is taken modulo 2*EW (DESIGN
CHOICE, log entry 22). -/
def Enc.slide (e : Enc) : Enc :=
  { e with
    win := e.win.slideDown
    matchStart := (e.matchStart + e.ew) % (2 * e.ew)
    strstart := e.strstart - e.ew
    blockStart := e.blockStart - (e.ew : Int)
    insert := min e.insert (e.strstart - e.ew)
    head := e.head.map (slideEntry e.ew)
    prev := e.prev.map (slideEntry e.ew) }

/-- Read `n` input bytes to the end of the lookahead (R231). -/
def EncRun.readBytes : Nat → EncRun → EncRun
  | 0, r => r
  | n + 1, r =>
    let e := r.e.winPut (r.e.strstart + r.e.lookahead) (r.io.inRead r.io.consumed)
    EncRun.readBytes n { r with e := { e with lookahead := e.lookahead + 1 }, io := r.io.consume 1 }

/-- The loop of the catch-up insertion, `n` positions being left (R232). -/
def Enc.catchUpLoop (ps : Config.Params) : Nat → Enc → Enc
  | 0, e => e
  | n + 1, e =>
    let e := { e.insertString ps (e.strstart - (n + 1)) with insert := n }
    if e.lookahead + n < Config.minMatch then e else Enc.catchUpLoop ps n e

/-- Catch-up insertion (R232). -/
def Enc.catchUp (e : Enc) (ps : Config.Params) : Enc :=
  if Config.minMatch ≤ e.lookahead + e.insert then Enc.catchUpLoop ps e.insert e else e

/-- The slide, where it is due (R230, R231): in any refill at this position, also in one that only the end of an input piece brings
about. R247 and R414 then do not hold of a match at distance MAX_DIST from index EW, nor of the stored choice of R270 for a block whose
`block_start` falls below 0 by such a slide (DESIGN CHOICE, log entry 35). -/
def Enc.slideIfDue (e : Enc) : Enc := if e.ew + e.maxDist ≤ e.strstart then e.slide else e

/-- The room `more` for input after the slide (R231). -/
def Enc.room (e : Enc) : Nat := 2 * e.ew - e.lookahead - e.strstart

/-- The lookahead is short and input is left (R231). -/
def EncRun.wantsInput (r : EncRun) : Bool := decide (r.e.lookahead < Config.minLookahead) && decide (0 < r.io.availIn)

/-- One turn of `fill_window` where input is left (R231): the slide, the reading, the catch-up insertion. -/
def EncRun.fillTurn (r : EncRun) : EncRun :=
  let r := { r with e := r.e.slideIfDue }
  let r := EncRun.readBytes (min r.io.availIn r.e.room) r
  { r with e := r.e.catchUp r.params }

/-- The loop of `fill_window` (R231), which slides first, whatever input is left (DESIGN CHOICE against R247 and R414, log entry 35).
Every turn that does not end it reads a byte, so one turn more than there are input bytes
always ends it. -/
def EncRun.fillLoop : Nat → EncRun → EncRun
  | 0, r => r
  | fuel + 1, r =>
    if r.io.availIn = 0 then { r with e := r.e.slideIfDue }
    else if r.fillTurn.wantsInput then EncRun.fillLoop fuel r.fillTurn
    else r.fillTurn

/-- `fill_window()` (R231). -/
def EncRun.fillWindow (r : EncRun) : EncRun := EncRun.fillLoop (r.io.availIn + 1) r

/-! ## Match search -/

/-- `matchlen` from byte `j` on, at most `n` bytes more (R235). -/
def Enc.matchFrom (e : Enc) (cur : Nat) : Nat → Nat → Nat
  | 0, j => j
  | n + 1, j => if e.winByte (cur + j) = e.winByte (e.strstart + j) then e.matchFrom cur n (j + 1) else j

/-- `matchlen(cur)` (R235). -/
def Enc.matchlen (e : Enc) (cur : Nat) : Nat := e.matchFrom cur (min Config.maxMatch e.lookahead) 0

/-- The loop of `longest_match` (R234): `chain` candidates are left, `best` and `start` are the best match so far. -/
def Enc.searchChain (e : Enc) (nice limit : Nat) : Nat → Nat → Nat → Nat → Nat × Nat
  | 0, _, best, start => (best, start)
  | chain + 1, cur, best, start =>
    let l := e.matchlen cur
    let better := decide (best < l)
    let best' := if better then l else best
    let start' := if better then cur else start
    if better ∧ nice ≤ l then (best', start')
    else if e.chainOf cur ≤ limit then (best', start')
    else e.searchChain nice limit chain (e.chainOf cur) best' start'

/-- `longest_match(cur)` (R234): the length and the `match_start` it leaves. -/
def Enc.longestMatch (e : Enc) (cur : Nat) : Nat × Nat :=
  let chain := if e.good ≤ e.prevLength then e.chain / 4 else e.chain
  let limit := e.strstart - e.maxDist
  let r := e.searchChain (min e.nice e.lookahead) limit chain cur e.prevLength e.matchStart
  (min r.1 e.lookahead, r.2)

/-- The distance from the match position `start` back from index `p` (R241, R242): `p - start`, modulo 2*EW where a slide has taken
`start` below 0 and left it so (R230; DESIGN CHOICE, log entry 22). -/
def Enc.distanceFrom (e : Enc) (p start : Nat) : Nat := (p + 2 * e.ew - start) % (2 * e.ew)

/-- Whether a candidate is searched (R236). -/
def Enc.searchable (e : Enc) (hashHead : Nat) : Bool := decide (hashHead ≠ 0) && decide (e.strstart - hashHead ≤ e.maxDist)

/-- The demotion test (R239). -/
def Enc.demote (e : Enc) (ps : Config.Params) (len dist : Nat) : Bool :=
  match ps.demotePolicy with
  | .doc => decide (e.strategy = .filtered) && decide (len = Config.minMatch) && decide (ps.tooFar < dist)
  | .reference =>
    decide (len ≤ 5) &&
      (decide (e.strategy = .filtered) || (decide (len = Config.minMatch) && decide (ps.tooFar < dist)))

end Sys2Proof.Machine
end

