-- ==== Sys2Proof/Machine/BlockEncoder.lean ====
section
/-! DEFINITION. Sys2Proof/Machine/BlockEncoder.lean: tallying, the choice of a block's type, the writing of blocks and the flush
markers (43_block_encoder.md). -/

namespace Sys2Proof.Machine

open Sys2Proof

/-! ## The symbol buffer -/

/-- `init_block()` (R260). -/
def Enc.initBlock (e : Enc) : Enc :=
  { e with
    lfreq := (List.replicate 286 0).set 256 1
    dfreq := List.replicate 30 0
    blfreq := List.replicate 19 0
    optLen := 0
    staticLen := 0
    syms := [] }

/-- Count one more of a symbol (R261). -/
def bump (freq : List Nat) (s : Nat) : List Nat := freq.set s (freq.getD s 0 + 1)

/-- `tally_lit(c)` (R261). -/
def Enc.tallyLit (e : Enc) (c : Nat) : Enc :=
  { e with syms := .lit (BitVec.ofNat 8 c) :: e.syms, lfreq := bump e.lfreq c }

/-- `tally_dist(dist, len)` (R261). -/
def Enc.tallyDist (e : Enc) (dist len : Nat) : Enc :=
  { e with
    syms := .copy dist len :: e.syms
    lfreq := bump e.lfreq (lcode len).1
    dfreq := bump e.dfreq (dcode dist).1 }

/-- `bflush`: the symbol buffer is full (R261, R262). -/
def Enc.symsFull (e : Enc) : Bool := decide (e.syms.length = Config.litBufSize - 1)

/-! ## Tree description -/

/-- A code-length symbol with the width and the value of its extra bits (R263). -/
structure ClSym where
  sym : Nat
  width : Nat
  extra : Nat
  deriving DecidableEq, Repr

/-- What `scan_tree` sends for a run of `count` lengths `cur` (R263). -/
def scanRun (prevlen : Option Nat) (cur count minCount : Nat) : List ClSym :=
  if count < minCount then List.replicate count { sym := cur, width := 0, extra := 0 }
  else if cur ≠ 0 then
    if prevlen ≠ some cur then
      [{ sym := cur, width := 0, extra := 0 }, { sym := 16, width := 2, extra := count - 1 - 3 }]
    else [{ sym := 16, width := 2, extra := count - 3 }]
  else if count ≤ 10 then [{ sym := 17, width := 3, extra := count - 3 }]
  else [{ sym := 18, width := 7, extra := count - 11 }]

/-- The loop of `scan_tree` (R263). `none` as the next length is GUARD, which differs from every length; `none` as the previous
one is the -1 before the first. -/
def scanFrom (prevlen : Option Nat) (count maxCount minCount : Nat) : List Nat → List ClSym
  | [] => []
  | cur :: rest =>
    let count := count + 1
    if count < maxCount ∧ rest.head? = some cur then scanFrom prevlen count maxCount minCount rest
    else
      let next := rest.head?
      let limits := if next = some 0 then (138, 3) else if next = some cur then (6, 3) else (7, 4)
      scanRun prevlen cur count minCount ++ scanFrom (some cur) 0 limits.1 limits.2 rest

/-- `scan_tree` over the lengths of symbols `0 .. max_code` (R263). -/
def scanTree (t : Tree) : List ClSym :=
  let lens := t.len.take (t.maxCode + 1)
  if lens.head? = some 0 then scanFrom none 0 138 3 lens else scanFrom none 0 7 4 lens

/-- The loop that finds `max_blindex` (R265). -/
def lastSent (lens : List Nat) : Nat → Nat
  | 0 => 0
  | n + 1 => if 3 ≤ n + 1 ∧ lens.getD (blOrder.getD (n + 1) 0) 0 = 0 then lastSent lens n else n + 1

/-- The code-length symbols of both trees, in the order they are sent (R265, R267). -/
def Enc.clSyms (e : Enc) : List ClSym := scanTree e.ltree ++ scanTree e.dtree

/-- `build_bl_tree()` (R265, R266). -/
def Enc.buildBlTree (e : Enc) : Enc :=
  let freq := e.clSyms.foldl (fun f s => bump f s.sym) e.blfreq
  let r := buildTree bltreeSpec freq e.optLen e.staticLen
  let last := lastSent r.1.len 18
  { e with blfreq := freq, bltree := r.1, maxBlindex := last,
           optLen := r.2.1 + (3 * (last + 1) + 5 + 5 + 4 : Nat), staticLen := r.2.2 }

/-- Tree construction at a flush (R264). -/
def Enc.buildTrees (e : Enc) : Enc :=
  let l := buildTree ltreeSpec e.lfreq e.optLen e.staticLen
  let d := buildTree dtreeSpec e.dfreq l.2.1 l.2.2
  { e with ltree := l.1, dtree := d.1, optLen := d.2.1, staticLen := d.2.2 }.buildBlTree

/-! ## Writing a block -/

/-- A symbol of a tree as its code and its length. -/
def BitWriter.sendCode (w : BitWriter) (code len : List Nat) (s : Nat) : BitWriter :=
  w.sendBits (code.getD s 0) (len.getD s 0)

/-- The code-length code's lengths in transmission order (R267). -/
def BitWriter.sendClLens (lens : List Nat) : List Nat → BitWriter → BitWriter
  | [], w => w
  | s :: rest, w => BitWriter.sendClLens lens rest (w.sendBits (lens.getD s 0) 3)

/-- The coded lengths (R267). -/
def BitWriter.sendClSyms (t : Tree) : List ClSym → BitWriter → BitWriter
  | [], w => w
  | s :: rest, w => BitWriter.sendClSyms t rest ((w.sendCode t.code t.len s.sym).sendField s.extra s.width)

/-- `send_all_trees` (R267). -/
def Enc.sendAllTrees (e : Enc) (w : BitWriter) : BitWriter :=
  let w := ((w.sendBits (e.ltree.maxCode + 1 - 257) 5).sendBits (e.dtree.maxCode + 1 - 1) 5).sendBits (e.maxBlindex + 1 - 4) 4
  BitWriter.sendClSyms e.bltree e.clSyms (BitWriter.sendClLens e.bltree.len (blOrder.take (e.maxBlindex + 1)) w)

/-- One symbol of the block body (R268). -/
def BitWriter.sendSym (lc ll dc dl : List Nat) (s : Sym) (w : BitWriter) : BitWriter :=
  match s with
  | .lit b => w.sendCode lc ll b.toNat
  | .copy dist len =>
    let l := lcode len
    let d := dcode dist
    (((w.sendCode lc ll l.1).sendField l.2.2 l.2.1).sendCode dc dl d.1).sendField d.2.2 d.2.1

/-- The symbols of the block body in order (R268). -/
def BitWriter.sendSyms (lc ll dc dl : List Nat) : List Sym → BitWriter → BitWriter
  | [], w => w
  | s :: rest, w => BitWriter.sendSyms lc ll dc dl rest (w.sendSym lc ll dc dl s)

/-- `compress_block` (R268); `syms` is the buffer, newest first. -/
def BitWriter.compressBlock (w : BitWriter) (syms : List Sym) (lc ll dc dl : List Nat) : BitWriter :=
  (BitWriter.sendSyms lc ll dc dl syms.reverse w).sendCode lc ll 256

/-- The fixed codes as the block writer uses them (R269). -/
def fixedLitReversed : List Nat := reversedCodes fixedLitLengths
def fixedDistReversed : List Nat := reversedCodes fixedDistLengths

/-- A block header of 3 bits, BFINAL lowest (R111, R270, R271). -/
def headerBits (btype : Nat) (last : Bool) : Nat := 2 * btype + (if last then 1 else 0)

/-- `stored_block(buf, len, last)` (R271). -/
def BitWriter.storedBlock (w : BitWriter) (buf : List Byte) (last : Bool) : BitWriter :=
  let len := BitVec.ofNat 16 buf.length
  ((((w.sendBits (headerBits 0 last) 3).biWindup).putShort len).putShort (~~~len)).putBytes buf

/-- The block's bytes in the window, where they are all still there (R237, R270). -/
def Enc.blockBytes (e : Enc) (len : Nat) : Option (List Byte) :=
  if e.blockStart < 0 then none
  else some ((List.range len).map (fun j => BitVec.ofNat 8 (e.winByte (e.blockStart.toNat + j))))

/-- `stored_len`, the bytes from `block_start` to `strstart` (R237, R270). -/
def Enc.storedLen (e : Enc) : Nat := ((e.strstart : Int) - e.blockStart).toNat

/-- Which of the three encodings a block gets (R270). -/
inductive BlockType where
  | stored (buf : List Byte)
  | fixed
  | dynamic
  deriving DecidableEq, Repr

/-- A bit count with the header's 3 bits, in whole bytes (R270). -/
def costBytes (bits : Int) : Int := (bits + 3 + 7) / 8

/-- The block type of least cost, at LEVEL > 0 after the trees are built (R270). -/
def Enc.chooseBlock (e : Enc) : BlockType :=
  let staticb := if e.level = 0 then (e.storedLen : Int) + 5 else costBytes e.staticLen
  let optb := if e.level = 0 then (e.storedLen : Int) + 5 else min (costBytes e.optLen) (costBytes e.staticLen)
  match e.blockBytes e.storedLen with
  | some buf =>
    if (e.storedLen : Int) + 4 ≤ optb then .stored buf else if staticb = optb then .fixed else .dynamic
  | none => if staticb = optb then .fixed else .dynamic

/-- The bits of a block of the chosen type (R270). -/
def Enc.writeBlock (e : Enc) (t : BlockType) (last : Bool) : BitWriter :=
  match t with
  | .stored buf => e.bw.storedBlock buf last
  | .fixed =>
    (e.bw.sendBits (headerBits 1 last) 3).compressBlock e.syms fixedLitReversed fixedLitLengths fixedDistReversed
      fixedDistLengths
  | .dynamic =>
    (e.sendAllTrees (e.bw.sendBits (headerBits 2 last) 3)).compressBlock e.syms e.ltree.code e.ltree.len e.dtree.code
      e.dtree.len

/-- `flush_block(buf, stored_len, last)` (R270), with `buf` and `stored_len` as R237 passes them. -/
def Enc.flushBlock (e : Enc) (last : Bool) : Enc :=
  let e := if e.level = 0 then e else e.buildTrees
  let w := e.writeBlock e.chooseBlock last
  { e.initBlock with bw := if last then w.biWindup else w }

/-! ## Flush markers -/

/-- `align()`, the PARTIAL marker (R290). -/
def BitWriter.align (w : BitWriter) : BitWriter := ((w.sendBits (headerBits 1 false) 3).sendBits 0 7).biFlush

/-- The SYNC marker: an empty stored block that is not final (R291). -/
def BitWriter.syncMarker (w : BitWriter) : BitWriter := w.storedBlock [] false

/-- A FULL flush forgets the history (R292): it clears `head`. Where it moves `strstart` back to 0 it clears `prev` too, which R292
does not name: the bound of R246 on nonzero `prev` entries is 0 then (DEDUCED, log entry 32). No search could read an older link: a
chain starts at a `head` entry, and inserting a position writes its own link. -/
def Enc.forgetHistory (e : Enc) : Enc :=
  if e.lookahead = 0 then { e with head := .nil, prev := .nil, strstart := 0, blockStart := 0, insert := 0 }
  else { e with head := .nil }

/-- The marker of a flush mode (R290 to R293). -/
def Enc.marker (e : Enc) (f : Flush) : Enc :=
  match f with
  | .partialFlush => { e with bw := e.bw.align }
  | .sync => { e with bw := e.bw.syncMarker }
  | .full => Enc.forgetHistory { e with bw := e.bw.syncMarker }
  | .no => e
  | .finish => e
  | .block => e

end Sys2Proof.Machine
end

