-- ==== Sys2Proof/Machine/BlockFunctions.lean ====
section
/-! DEFINITION. Sys2Proof/Machine/BlockFunctions.lean: the five block functions that turn input bytes into literals and matches
(42_lz77.md R237 to R244), dictionary priming (R245) and the action of ENC_STEP (45_host_commands.md R388). -/

namespace Sys2Proof.Machine

open Sys2Proof

/-- What a block function returns (42_lz77.md, section 5). -/
inductive BState where
  | needMore
  | blockDone
  | finishStarted
  | finishDone
  deriving DecidableEq, Repr

/-- How one turn of a block function's main loop ends: another turn, the loop's exit to the common tail, or a return. -/
inductive Turn where
  | again (r : EncRun)
  | tail (r : EncRun)
  | ret (b : BState) (r : EncRun)
  deriving DecidableEq, Repr

/-- Replace the encoder state of a run. -/
def EncRun.withEnc (r : EncRun) (e : Enc) : EncRun := { r with e := e }

/-- `FLUSH_BLOCK_ONLY(last)` (R237). -/
def EncRun.flushBlockOnly (r : EncRun) (last : Bool) : EncRun :=
  EncRun.flushPending (r.withEnc { r.e.flushBlock last with blockStart := r.e.strstart })

/-- `FLUSH_BLOCK(0)` inside a main loop, then the rest of the turn (R237). -/
def EncRun.flushThen (r : EncRun) (rest : EncRun → Turn) : Turn :=
  if (r.flushBlockOnly false).io.availOut = 0 then .ret .needMore (r.flushBlockOnly false)
  else rest (r.flushBlockOnly false)

/-- The end of a turn that tallied a symbol: a full buffer flushes the block (R241 to R244). -/
def EncRun.flushIfFull (r : EncRun) : Turn := if r.e.symsFull then r.flushThen .again else .again r

/-- The opening of every main loop: refill below `low` bytes of lookahead; then, under flush NO, return with fewer than `want`;
without lookahead, leave the loop (R240 to R244). -/
def EncRun.refillThen (r : EncRun) (f : Flush) (low want : Nat) (rest : EncRun → Turn) : Turn :=
  let r := if r.e.lookahead < low then r.fillWindow else r
  if r.e.lookahead < want ∧ f = .no then .ret .needMore r
  else if r.e.lookahead = 0 then .tail r
  else rest r

/-- One turn of `deflate_stored` (R240). -/
def storedTurn (f : Flush) (r : EncRun) : Turn :=
  r.refillThen f 2 1 fun r =>
    let strstart := r.e.strstart + r.e.lookahead
    let maxStart := r.e.blockStart + (Config.maxStored : Int)
    let second := fun (r : EncRun) =>
      if (r.e.maxDist : Int) ≤ (r.e.strstart : Int) - r.e.blockStart then r.flushThen .again else .again r
    if maxStart ≤ (strstart : Int) then
      (r.withEnc { r.e with lookahead := ((strstart : Int) - maxStart).toNat, strstart := maxStart.toNat }).flushThen second
    else second (r.withEnc { r.e with lookahead := 0, strstart := strstart })

/-- `hash_head` and the encoder after it: the position is inserted where three bytes of lookahead are there (R241, R242). -/
def EncRun.hashHead (r : EncRun) : Nat × Enc :=
  if Config.minMatch ≤ r.e.lookahead then (r.e.headAt r.params r.e.strstart, r.e.insertString r.params r.e.strstart)
  else (0, r.e)

/-- Step to the next position and insert it, `n` times (R241). -/
def Enc.insertRun (ps : Config.Params) : Nat → Enc → Enc
  | 0, e => e
  | n + 1, e => Enc.insertRun ps n ({ e with strstart := e.strstart + 1 }.insertString ps (e.strstart + 1))

/-- Tally the literal at `strstart` and step over it (R241, R243, R244). -/
def Enc.takeLit (e : Enc) : Enc :=
  { e.tallyLit (e.winByte e.strstart) with lookahead := e.lookahead - 1, strstart := e.strstart + 1 }

/-- The search of `deflate_fast` at the current position (R241). -/
def EncRun.fastSearch (r : EncRun) : Enc :=
  let hh := r.hashHead
  let e : Enc := { hh.2 with matchLength := 0 }
  let m := if e.searchable hh.1 then e.longestMatch hh.1 else (0, e.matchStart)
  { e with matchLength := m.1, matchStart := m.2 }

/-- Step over a match of `len` bytes, inserting its positions where it is short (R241). -/
def Enc.stepOver (e : Enc) (ps : Config.Params) (len : Nat) : Enc :=
  if len ≤ e.lazy ∧ Config.minMatch ≤ e.lookahead then
    let e := Enc.insertRun ps (len - 1) e
    { e with strstart := e.strstart + 1 }
  else { e with strstart := e.strstart + len }

/-- Tally the match found at `strstart` and step over it (R241). -/
def Enc.takeMatch (e : Enc) (ps : Config.Params) : Enc :=
  let len := e.matchLength
  let e := e.tallyDist (e.distanceFrom e.strstart e.matchStart) len
  { Enc.stepOver { e with lookahead := e.lookahead - len } ps len with matchLength := 0 }

/-- One turn of `deflate_fast` (R241). -/
def fastTurn (f : Flush) (r : EncRun) : Turn :=
  r.refillThen f Config.minLookahead Config.minLookahead fun r =>
    let e := r.fastSearch
    if Config.minMatch ≤ e.matchLength then (r.withEnc (e.takeMatch r.params)).flushIfFull
    else (r.withEnc e.takeLit).flushIfFull

/-- Step to the next position, `n` times, and insert it where it is at most `maxInsert` (R242). -/
def Enc.insertUpTo (ps : Config.Params) (maxInsert : Nat) : Nat → Enc → Enc
  | 0, e => e
  | n + 1, e =>
    let e := { e with strstart := e.strstart + 1 }
    Enc.insertUpTo ps maxInsert n (if e.strstart ≤ maxInsert then e.insertString ps e.strstart else e)

/-- The search of `deflate_slow` at the current position, the previous match kept in `prev_length` and `prev_match` (R242). -/
def EncRun.slowSearch (r : EncRun) : Enc :=
  let hh := r.hashHead
  let e : Enc := { hh.2 with prevLength := hh.2.matchLength, prevMatch := hh.2.matchStart, matchLength := Config.minMatch - 1 }
  if e.searchable hh.1 ∧ e.prevLength < e.lazy then
    let m := e.longestMatch hh.1
    { e with
      matchStart := m.2
      matchLength := if m.1 ≤ 5 ∧ e.demote r.params m.1 (e.distanceFrom e.strstart m.2) then Config.minMatch - 1 else m.1 }
  else e

/-- Emit the previous position's match (R242), at the distance it was found at, also where a slide since then has taken its position
below 0 (DESIGN CHOICE, log entry 22). -/
def Enc.emitPrevMatch (e : Enc) (ps : Config.Params) : Enc :=
  let maxInsert := e.strstart + e.lookahead - Config.minMatch
  let len := e.prevLength
  let e := e.tallyDist (e.distanceFrom (e.strstart - 1) e.prevMatch) len
  let e := { e with lookahead := e.lookahead - (len - 1) }
  let e := Enc.insertUpTo ps maxInsert (len - 2) e
  { e with matchAvailable := false, matchLength := Config.minMatch - 1, strstart := e.strstart + 1 }

/-- One turn of `deflate_slow` (R242). -/
def slowTurn (f : Flush) (r : EncRun) : Turn :=
  r.refillThen f Config.minLookahead Config.minLookahead fun r =>
    let e := r.slowSearch
    if Config.minMatch ≤ e.prevLength ∧ e.matchLength ≤ e.prevLength then
      (r.withEnc (e.emitPrevMatch r.params)).flushIfFull
    else if e.matchAvailable then
      let r := r.withEnc (e.tallyLit (e.winByte (e.strstart - 1)))
      let r := if r.e.symsFull then r.flushBlockOnly false else r
      let r := r.withEnc { r.e with strstart := r.e.strstart + 1, lookahead := r.e.lookahead - 1 }
      if r.io.availOut = 0 then .ret .needMore r else .again r
    else .again (r.withEnc { e with matchAvailable := true, strstart := e.strstart + 1, lookahead := e.lookahead - 1 })

/-- The bytes from `strstart + j` on that equal `b`, at most `n` bytes more (R243). -/
def Enc.runFrom (e : Enc) (b : Nat) : Nat → Nat → Nat
  | 0, j => j
  | n + 1, j => if e.winByte (e.strstart + j) = b then e.runFrom b n (j + 1) else j

/-- The length of the run at distance 1, 0 if it is shorter than three (R243). -/
def Enc.runLength (e : Enc) : Nat :=
  if Config.minMatch ≤ e.lookahead ∧ 0 < e.strstart then
    let b := e.winByte (e.strstart - 1)
    if e.winByte e.strstart = b ∧ e.winByte (e.strstart + 1) = b ∧ e.winByte (e.strstart + 2) = b then
      e.runFrom b (min Config.maxMatch e.lookahead) 0
    else 0
  else 0

/-- One turn of `deflate_rle` (R243). -/
def rleTurn (f : Flush) (r : EncRun) : Turn :=
  r.refillThen f (Config.maxMatch + 1) (Config.maxMatch + 1) fun r =>
    let len := r.e.runLength
    if Config.minMatch ≤ len then
      let e := r.e.tallyDist 1 len
      (r.withEnc { e with lookahead := e.lookahead - len, strstart := e.strstart + len, matchLength := 0 }).flushIfFull
    else (r.withEnc { r.e with matchLength := len }.takeLit).flushIfFull

/-- One turn of `deflate_huff` (R244). -/
def huffTurn (f : Flush) (r : EncRun) : Turn :=
  r.refillThen f 1 1 fun r => (r.withEnc { r.e with matchLength := 0 }.takeLit).flushIfFull

/-- The turn of a block function (R223). -/
def blockTurn (fn : BlockFn) (f : Flush) (r : EncRun) : Turn :=
  match fn with
  | .stored => storedTurn f r
  | .fast => fastTurn f r
  | .slow => slowTurn f r
  | .rle => rleTurn f r
  | .huff => huffTurn f r

/-- `deflate_slow`'s owed literal, before the common tail (R242). -/
def Enc.payLiteral (e : Enc) : Enc :=
  if e.matchAvailable then { e.tallyLit (e.winByte (e.strstart - 1)) with matchAvailable := false } else e

/-- "The block has data" (R238). -/
def Enc.hasData (e : Enc) (fn : BlockFn) : Bool :=
  match fn with
  | .stored => decide (e.blockStart < (e.strstart : Int))
  | _ => !e.syms.isEmpty

/-- The common tail (R238). -/
def blockTail (fn : BlockFn) (f : Flush) (r : EncRun) : BState × EncRun :=
  let e := if fn = .slow then r.e.payLiteral else r.e
  let e := { e with insert := if fn = .fast ∨ fn = .slow then min e.strstart (Config.minMatch - 1) else 0 }
  let r := r.withEnc e
  if f = .finish then
    let r := r.flushBlockOnly true
    (if r.io.availOut = 0 then .finishStarted else .finishDone, r)
  else if e.hasData fn then
    let r := r.flushBlockOnly false
    (if r.io.availOut = 0 then .needMore else .blockDone, r)
  else (.blockDone, r)

/-- The main loop of a block function. `none` is a loop that did not end within its fuel, which `blockFuel` rules out (R427). -/
def blockLoop (fn : BlockFn) (f : Flush) : Nat → EncRun → Option (BState × EncRun)
  | 0, _ => none
  | fuel + 1, r =>
    match blockTurn fn f r with
    | .again r => blockLoop fn f fuel r
    | .tail r => some (blockTail fn f r)
    | .ret b r => some (b, r)

/-- More turns than any block function takes: each but the first takes at least one byte of lookahead or input away
(Laws/EncoderStep.lean proves it). -/
def blockFuel (r : EncRun) : Nat := r.e.lookahead + r.io.availIn + ((r.e.strstart : Int) - r.e.blockStart).toNat + 3

/-- The stream's block function (R223), run with flush mode `f`. -/
def runBlock (f : Flush) (r : EncRun) : Option (BState × EncRun) := blockLoop r.e.blockFn f (blockFuel r) r

/-! ## ENC_STEP -/

/-- A step that ends with the output buffer full (R388). -/
def EncRun.outputFull (r : EncRun) : EncRun := r.withEnc { r.e with lastFlush := -1 }

/-- The end of a step whose block function, if it ran, has done all it was asked (R388). -/
def encEnd (f : Flush) (r : EncRun) : EncRun × Result :=
  if f ≠ .finish then (r, r.io.res) else (r.withEnc { r.e with status := .done }, .streamEnd)

/-- A step after its block function (R388). -/
def encAfterBlock (f : Flush) (b : BState) (r : EncRun) : EncRun × Result :=
  match b with
  | .needMore => (if r.io.availOut = 0 then r.outputFull else r, r.io.res)
  | .finishStarted =>
    let r := r.withEnc { r.e with status := .finishing }
    (if r.io.availOut = 0 then r.outputFull else r, r.io.res)
  | .finishDone => encEnd f (r.withEnc { r.e with status := .finishing })
  | .blockDone =>
    let r := EncRun.flushPending (r.withEnc (r.e.marker f))
    if r.io.availOut = 0 then (r.outputFull, .needMoreOutput) else encEnd f r

/-- Whether a step has anything for the block function to do (R388). -/
def encHasWork (f : Flush) (r : EncRun) : Bool :=
  decide (r.io.inLen ≠ 0) || decide (r.e.lookahead ≠ 0)
    || (decide (f ≠ .no) && decide (r.e.status ≠ .finishing) && decide (r.e.status ≠ .done))

/-- A step from the status on (R388). -/
def encWork (f : Flush) (r : EncRun) : Option (EncRun × Result) :=
  let r := if r.e.status = .init then r.withEnc { r.e with status := .busy } else r
  if encHasWork f r then
    match runBlock f r with
    | none => none
    | some (b, r) => some (encAfterBlock f b r)
  else some (encEnd f r)

/-- The action of `ENC_STEP f` (R388). -/
def encStepAction (f : Flush) (r : EncRun) : Option (EncRun × Result) :=
  if r.io.outLen = 0 then some (r, .needMoreOutput)
  else
    let old := r.e.lastFlush
    let r := r.withEnc { r.e with lastFlush := flushCode f }
    if r.e.bw.pending ≠ [] then
      let r := r.flushPending
      if r.io.availOut = 0 then some (r.outputFull, .needMoreOutput) else encWork f r
    else if r.io.inLen = 0 ∧ flushRank (flushCode f) ≤ flushRank old ∧ f ≠ .finish then some (r, .needMoreInput)
    else encWork f r

/-! ## Dictionary priming -/

/-- Insert positions `s .. s+n-1` (R245). -/
def Enc.insertRange (ps : Config.Params) : Nat → Nat → Enc → Enc
  | 0, _, e => e
  | n + 1, s, e => Enc.insertRange ps n (s + 1) (e.insertString ps s)

/-- The loop of `prime_dictionary` (R245). Every turn but the last reads a byte of the dictionary. -/
def EncRun.primeLoop : Nat → EncRun → EncRun
  | 0, r => r
  | fuel + 1, r =>
    if r.e.lookahead < Config.minMatch then r
    else
      let e := Enc.insertRange r.params (r.e.lookahead - (Config.minMatch - 1)) r.e.strstart r.e
      let e := { e with strstart := e.strstart + e.lookahead - (Config.minMatch - 1), lookahead := Config.minMatch - 1 }
      EncRun.primeLoop fuel (r.withEnc e).fillWindow

/-- `prime_dictionary(d)` (R245). The run's input is the dictionary: the last `EW` bytes of the input buffer. -/
def EncRun.prime (r : EncRun) : EncRun :=
  let r := EncRun.primeLoop (r.io.availIn + r.e.lookahead + 1) r.fillWindow
  r.withEnc
    { r.e with
      strstart := r.e.strstart + r.e.lookahead
      blockStart := ((r.e.strstart + r.e.lookahead : Nat) : Int)
      insert := r.e.lookahead
      lookahead := 0
      matchLength := Config.minMatch - 1
      prevLength := Config.minMatch - 1
      matchAvailable := false }

end Sys2Proof.Machine
end

