-- ==== Sys2Proof/Machine/EncoderCommands.lean ====
section
/-! DEFINITION. Sys2Proof/Machine/EncoderCommands.lean: the meanings of the encoder's commands (45_host_commands.md R384 to R392). -/

namespace Sys2Proof.Machine

open Sys2Proof

/-- A tree nothing has been built in; no rule reads it before a flush builds it (R48, log entry 10). -/
def Tree.none : Tree := { len := [], code := [], maxCode := 0 }

/-- The encoder as ENC_INIT makes it (R384, R40 to R52, R453). -/
def Enc.fresh (level : Nat) (strategy : Strategy) (wbits : Nat) : Enc :=
  { level := level, strategy := strategy, wbits := wbits, win := .nil, head := .nil, prev := .nil, strstart := 0, lookahead := 0,
    insert := 0, matchStart := 0, prevMatch := 0, matchLength := 2, prevLength := 2, matchAvailable := false, blockStart := 0,
    syms := [], lfreq := (List.replicate 286 0).set 256 1, dfreq := List.replicate 30 0, blfreq := List.replicate 19 0,
    ltree := Tree.none, dtree := Tree.none, bltree := Tree.none, optLen := 0, staticLen := 0, maxBlindex := 0,
    bw := { biBuf := 0, biValid := 0, pending := [] }, status := .init, lastFlush := -2 }

/-- ENC_INIT (R384): an existing stream is replaced, and kept where CFG is not legal (R382, R426). -/
def execEncInit (s : State) : Answer :=
  if cfgOkEnc s.cfg then
    .next { s.complete (.enc (Enc.fresh (cfgLevel s.cfg) (strategyOf (cfgStrategy s.cfg)) (cfgWbits s.cfg))) .ok with
      totalIn := 0, totalOut := 0 }
  else .next (s.complete s.stream .invalidConfiguration)

/-- The precondition of ENC_STEP on an encoder stream (R388): once finishing, only FINISH without input. After a FINISH whose output ran
full before its final block was in `pending` the status is still BUSY, and any step is taken, as R388 has it and against the words of
R390 and D19 (DESIGN CHOICE, log entry 37). -/
def encStepAllowed (f : Flush) (e : Enc) (inLen : Word) : Bool :=
  !((decide (e.status = .finishing) || decide (e.status = .done)) && (decide (f ≠ .finish) || decide (inLen ≠ 0)))

/-- `ENC_STEP f` (R388). -/
def encStep (f : Flush) (s : State) : Answer :=
  match s.stream with
  | .enc e =>
    if !encStepAllowed f e s.inLen then .next s.refuseCommand
    else if !s.rangesOk then .next s.refuseCommand
    else
      match encStepAction f { e := e, io := s.io 0 0, params := s.params } with
      | some (r, res) => .next (s.finish r.io (.enc r.e) res)
      | none => .fault .internalInvariant
  | _ => .next s.refuseCommand

/-- ENC_STEP NO (R152, R388): no flush. -/
def execEncStepNo (s : State) : Answer := encStep .no s

/-- ENC_STEP PARTIAL (R152, R290, R388). -/
def execEncStepPartial (s : State) : Answer := encStep .partialFlush s

/-- ENC_STEP SYNC (R152, R291, R388). -/
def execEncStepSync (s : State) : Answer := encStep .sync s

/-- ENC_STEP FULL (R152, R292, R388). -/
def execEncStepFull (s : State) : Answer := encStep .full s

/-- ENC_STEP FINISH (R152, R388, R390). -/
def execEncStepFinish (s : State) : Answer := encStep .finish s

/-- ENC_STEP BLOCK (R152, R293, R388). -/
def execEncStepBlock (s : State) : Answer := encStep .block s

/-- The cursors of a dictionary: the last `min(IN_LEN, EW)` bytes of the input buffer are the input (R245, R392). -/
def State.dictIo (s : State) (e : Enc) : Io :=
  let n := min s.inLen.toNat e.ew
  { s.io 0 0 with inAddr := s.inAddr + BitVec.ofNat 32 (s.inLen.toNat - n), inLen := n }

/-- ENC_SET_DICT (R392): nothing is consumed, and TOTAL_IN does not count the dictionary. -/
def execEncSetDict (s : State) : Answer :=
  match s.stream with
  | .enc e =>
    if e.status ≠ .init then .next s.refuseCommand
    else if !s.rangesOk then .next s.refuseCommand
    else .next (s.complete (.enc (EncRun.prime { e := e, io := s.dictIo e, params := s.params }).e) .ok)
  | _ => .next s.refuseCommand

end Sys2Proof.Machine
end

