-- ==== Sys2Proof/Machine/Dispatch.lean ====
section
/-! DEFINITION. Sys2Proof/Machine/Dispatch.lean: one arm per instruction, each one direct call of its meaning. -/

namespace Sys2Proof.Machine

open Sys2Proof

-- Host command words (R151) first, then the elements of the bitstream (R111 to R122).
def exec (i : Instr) (s : State) : Host.Outcome State Fault Refusal :=
  match i with
  | .encInit => Sys2Proof.Machine.execEncInit s
  | .encStepNo => Sys2Proof.Machine.execEncStepNo s
  | .encStepPartial => Sys2Proof.Machine.execEncStepPartial s
  | .encStepSync => Sys2Proof.Machine.execEncStepSync s
  | .encStepFull => Sys2Proof.Machine.execEncStepFull s
  | .encStepFinish => Sys2Proof.Machine.execEncStepFinish s
  | .encStepBlock => Sys2Proof.Machine.execEncStepBlock s
  | .encSetDict => Sys2Proof.Machine.execEncSetDict s
  | .decInit => Sys2Proof.Machine.execDecInit s
  | .decStep => Sys2Proof.Machine.execDecStep s
  | .decSetDict => Sys2Proof.Machine.execDecSetDict s
  | .decSync => Sys2Proof.Machine.execDecSync s
  | .endStream => Sys2Proof.Machine.execEndStream s
  | .blockStored final => Sys2Proof.Machine.execBlockStored final s
  | .blockFixed final => Sys2Proof.Machine.execBlockFixed final s
  | .blockDynamic final => Sys2Proof.Machine.execBlockDynamic final s
  | .blockReserved final => Sys2Proof.Machine.execBlockReserved final s
  | .storedLen len nlen => Sys2Proof.Machine.execStoredLen len nlen s
  | .dynamicCounts hlit hdist hclen => Sys2Proof.Machine.execDynamicCounts hlit hdist hclen s
  | .codeLengthCodeLengths lens => Sys2Proof.Machine.execCodeLengthCodeLengths lens s
  | .clLength len => Sys2Proof.Machine.execClLength len s
  | .clRepeatPrev extra => Sys2Proof.Machine.execClRepeatPrev extra s
  | .clRepeatZeroShort extra => Sys2Proof.Machine.execClRepeatZeroShort extra s
  | .clRepeatZeroLong extra => Sys2Proof.Machine.execClRepeatZeroLong extra s
  | .literal byte => Sys2Proof.Machine.execLiteral byte s
  | .endOfBlock => Sys2Proof.Machine.execEndOfBlock s
  | .length257 => Sys2Proof.Machine.execLength257 s
  | .length258 => Sys2Proof.Machine.execLength258 s
  | .length259 => Sys2Proof.Machine.execLength259 s
  | .length260 => Sys2Proof.Machine.execLength260 s
  | .length261 => Sys2Proof.Machine.execLength261 s
  | .length262 => Sys2Proof.Machine.execLength262 s
  | .length263 => Sys2Proof.Machine.execLength263 s
  | .length264 => Sys2Proof.Machine.execLength264 s
  | .length265 extra => Sys2Proof.Machine.execLength265 extra s
  | .length266 extra => Sys2Proof.Machine.execLength266 extra s
  | .length267 extra => Sys2Proof.Machine.execLength267 extra s
  | .length268 extra => Sys2Proof.Machine.execLength268 extra s
  | .length269 extra => Sys2Proof.Machine.execLength269 extra s
  | .length270 extra => Sys2Proof.Machine.execLength270 extra s
  | .length271 extra => Sys2Proof.Machine.execLength271 extra s
  | .length272 extra => Sys2Proof.Machine.execLength272 extra s
  | .length273 extra => Sys2Proof.Machine.execLength273 extra s
  | .length274 extra => Sys2Proof.Machine.execLength274 extra s
  | .length275 extra => Sys2Proof.Machine.execLength275 extra s
  | .length276 extra => Sys2Proof.Machine.execLength276 extra s
  | .length277 extra => Sys2Proof.Machine.execLength277 extra s
  | .length278 extra => Sys2Proof.Machine.execLength278 extra s
  | .length279 extra => Sys2Proof.Machine.execLength279 extra s
  | .length280 extra => Sys2Proof.Machine.execLength280 extra s
  | .length281 extra => Sys2Proof.Machine.execLength281 extra s
  | .length282 extra => Sys2Proof.Machine.execLength282 extra s
  | .length283 extra => Sys2Proof.Machine.execLength283 extra s
  | .length284 extra => Sys2Proof.Machine.execLength284 extra s
  | .length285 => Sys2Proof.Machine.execLength285 s
  | .litlenReserved odd => Sys2Proof.Machine.execLitlenReserved odd s
  | .distance0 => Sys2Proof.Machine.execDistance0 s
  | .distance1 => Sys2Proof.Machine.execDistance1 s
  | .distance2 => Sys2Proof.Machine.execDistance2 s
  | .distance3 => Sys2Proof.Machine.execDistance3 s
  | .distance4 extra => Sys2Proof.Machine.execDistance4 extra s
  | .distance5 extra => Sys2Proof.Machine.execDistance5 extra s
  | .distance6 extra => Sys2Proof.Machine.execDistance6 extra s
  | .distance7 extra => Sys2Proof.Machine.execDistance7 extra s
  | .distance8 extra => Sys2Proof.Machine.execDistance8 extra s
  | .distance9 extra => Sys2Proof.Machine.execDistance9 extra s
  | .distance10 extra => Sys2Proof.Machine.execDistance10 extra s
  | .distance11 extra => Sys2Proof.Machine.execDistance11 extra s
  | .distance12 extra => Sys2Proof.Machine.execDistance12 extra s
  | .distance13 extra => Sys2Proof.Machine.execDistance13 extra s
  | .distance14 extra => Sys2Proof.Machine.execDistance14 extra s
  | .distance15 extra => Sys2Proof.Machine.execDistance15 extra s
  | .distance16 extra => Sys2Proof.Machine.execDistance16 extra s
  | .distance17 extra => Sys2Proof.Machine.execDistance17 extra s
  | .distance18 extra => Sys2Proof.Machine.execDistance18 extra s
  | .distance19 extra => Sys2Proof.Machine.execDistance19 extra s
  | .distance20 extra => Sys2Proof.Machine.execDistance20 extra s
  | .distance21 extra => Sys2Proof.Machine.execDistance21 extra s
  | .distance22 extra => Sys2Proof.Machine.execDistance22 extra s
  | .distance23 extra => Sys2Proof.Machine.execDistance23 extra s
  | .distance24 extra => Sys2Proof.Machine.execDistance24 extra s
  | .distance25 extra => Sys2Proof.Machine.execDistance25 extra s
  | .distance26 extra => Sys2Proof.Machine.execDistance26 extra s
  | .distance27 extra => Sys2Proof.Machine.execDistance27 extra s
  | .distance28 extra => Sys2Proof.Machine.execDistance28 extra s
  | .distance29 extra => Sys2Proof.Machine.execDistance29 extra s
  | .distanceReserved odd => Sys2Proof.Machine.execDistanceReserved odd s

end Sys2Proof.Machine
end

