-- ==== Sys2Proof/Machine/HostAccess.lean ====
section
/-! DEFINITION. Sys2Proof/Machine/HostAccess.lean: what the host does to the machine: the register window (10_state.md R33 to R39,
20_memory.md R87), host memory, and reset (70_reset_and_hazards.md R450 to R452). -/

namespace Sys2Proof.Machine

open Sys2Proof

/-- The byte offset of a bus address in the register window (R80). -/
def State.regOffset (s : State) (addr : Word) : Nat := (addr - s.params.regBase).toNat

/-- TOTAL_IN and TOTAL_OUT at the start of the running command, and as they are between commands (R39). -/
def State.totalInSeen (s : State) : Word :=
  match s.phase with
  | .decoding c _ => s.totalIn - BitVec.ofNat 32 c
  | _ => s.totalIn
def State.totalOutSeen (s : State) : Word :=
  match s.phase with
  | .decoding _ p => s.totalOut - BitVec.ofNat 32 p
  | _ => s.totalOut

/-- The register at an offset as the host reads it (R33 to R39): CMD and what lies at 0x24 and above read 0. While a command runs
the other registers hold their values of its start, for a command writes them only when it completes. -/
def State.regRead (s : State) (off : Nat) : Word :=
  match off with
  | 0x04 => s.cfg
  | 0x08 => s.inAddr
  | 0x0C => s.inLen
  | 0x10 => s.outAddr
  | 0x14 => s.outLen
  | 0x18 => s.statusWord
  | 0x1C => s.totalInSeen
  | 0x20 => s.totalOutSeen
  | _ => 0

/-- A register write while no command runs (R33 to R39): a write of CMD starts a command, the read-only registers and what lies at
0x24 and above ignore it. -/
def State.regWrite (s : State) (off : Nat) (v : Word) : State :=
  match off with
  | 0x00 => { s with phase := .command v }
  | 0x04 => { s with cfg := v }
  | 0x08 => { s with inAddr := v }
  | 0x0C => { s with inLen := v }
  | 0x10 => { s with outAddr := v }
  | 0x14 => { s with outLen := v }
  | _ => s

/-- Address `a` lies in the `len` bytes from `base` on. -/
def inRange (a base : Word) (len : Word) : Bool := decide (base.toNat ≤ a.toNat) && decide (a.toNat < base.toNat + len.toNat)

/-- The running command uses the buffers (R84, R384 to R410): the inits, END and an illegal word use none, the dictionary commands
and DEC_SYNC only the input. -/
def Phase.usesInput : Phase → Bool
  | .idle => false
  | .decoding _ _ => true
  | .command w =>
    match decodeCommand w with
    | none => false
    | some .encInit => false
    | some .decInit => false
    | some .endStream => false
    | some _ => true
def Phase.usesOutput : Phase → Bool
  | .idle => false
  | .decoding _ _ => true
  | .command w =>
    match decodeCommand w with
    | some .encStepNo => true
    | some .encStepPartial => true
    | some .encStepSync => true
    | some .encStepFull => true
    | some .encStepFinish => true
    | some .encStepBlock => true
    | some .decStep => true
    | _ => false

/-- Two address ranges share a byte. -/
def rangesMeet (a la b lb : Word) : Bool :=
  decide (0 < la.toNat) && decide (0 < lb.toNat) && decide (a.toNat < b.toNat + lb.toNat) && decide (b.toNat < a.toNat + la.toNat)

/-- A buffer of the running command has a byte in a side-effecting range of the platform (R89). -/
def State.bufferOnDevice (s : State) : Bool :=
  s.params.devices.any fun d =>
    (s.phase.usesInput && rangesMeet s.inAddr s.inLen d.1 d.2) || (s.phase.usesOutput && rangesMeet s.outAddr s.outLen d.1 d.2)

/-- The host may not touch this byte of memory now (R92, R381). -/
def State.bufferInUse (s : State) (a : Word) : Bool :=
  (s.phase.usesInput && inRange a s.inAddr s.inLen) || (s.phase.usesOutput && inRange a s.outAddr s.outLen)

/-- The state of R451 with what a reset of the DFC does not reach: host memory, the parameters, the host's own accesses, and the
numbering of free values. -/
def State.resetDfc (s : State) : State :=
  { State.reset with params := s.params, mem := s.mem, hostq := s.hostq, readData := s.readData, freeCtr := s.freeCtr }

/-- Host memory after a reset in mid-command (R452): each byte that the command would have written has its new or its old value,
which one being the free value of reset `ctr`. -/
def abandonedMemory (ctr : Nat) (old new : Memory) (base : Word) : Nat → Memory
  | 0 => old
  | n + 1 =>
    let m := abandonedMemory ctr old new base n
    let a := (base + BitVec.ofNat 32 n).toNat
    if Config.resetKept ctr n then m.write a (new.read a) else m

/-- A reset while a command runs (R452): the command is abandoned. At a point inside a DEC_STEP the bytes written so far are
already in memory. A buffer on a device does not keep the reset from happening, though the command could not have run (R89; DESIGN
CHOICE, log entry 36). -/
def State.abandon (s : State) : State :=
  match s.phase with
  | .command w =>
    match decodeCommand w with
    | none => s.resetDfc
    | some i =>
      match exec i s with
      | .next t =>
        { s.resetDfc with
          mem := abandonedMemory s.freeCtr s.mem t.mem s.outAddr (s.outLen - t.outLen).toNat
          freeCtr := s.freeCtr + 1 }
      | _ => s.resetDfc
  | _ => s.resetDfc

/-- One host access (R33 to R39, R87, R381, R450). -/
def hostAccess (a : HostAccess) (s : State) : Answer :=
  match a with
  | .regWrite addr width v =>
    if width ≠ 4 ∨ s.regOffset addr % 4 ≠ 0 then .refused .narrowRegisterAccess
    else if s.busy then .next s
    else .next (s.regWrite (s.regOffset addr) v)
  | .regRead addr width =>
    if width ≠ 4 ∨ s.regOffset addr % 4 ≠ 0 then .refused .narrowRegisterAccess
    else .next { s with readData := s.regRead (s.regOffset addr) }
  | .memWrite addr v =>
    if s.bufferInUse addr then .refused .bufferAccessWhileBusy else .next { s with mem := s.mem.write addr.toNat v }
  | .memRead addr =>
    if s.bufferInUse addr then .refused .bufferAccessWhileBusy
    else .next { s with readData := (s.mem.read addr.toNat).setWidth 32 }
  | .reset => .next (if s.busy then s.abandon else s.resetDfc)

end Sys2Proof.Machine
end

