-- ==== Sys2Proof/Machine/Step.lean ====
section
/-! DEFINITION. Sys2Proof/Machine/Step.lean: one step of the machine. Between commands the host moves; the command a CMD write has
selected then runs as one atomic transition (45_host_commands.md R380). -/

namespace Sys2Proof.Machine

open Sys2Proof

/-- Run the command word (R380): the selected command, or INVALID_COMMAND for an illegal word (R153). -/
def runCommandWord (w : Word) (s : State) : Answer :=
  match decodeCommand w with
  | some i => exec i s
  | none => .next s.refuseCommand

/-- The engine's move in a phase: nothing while no command runs, the whole command at its start, one state action at a point inside
a DEC_STEP. A command whose buffers touch a device has no meaning (R89). -/
def engineStep (s : State) : Answer :=
  if s.bufferOnDevice then .refused .deviceBuffer
  else
    match s.phase with
    | .idle => .next s
    | .command w => runCommandWord w s
    | .decoding _ _ => decoderStep s

/-- One step: the host's next access, if the machine waits for the host or the host does not wait for the machine; else the
engine's move. -/
def step (s : State) : Host.Outcome State Fault Refusal :=
  match s.hostq with
  | [] => engineStep s
  | ev :: rest =>
    if ev.whileBusy ∨ s.phase = .idle then hostAccess ev.access { s with hostq := rest } else engineStep s

/-- The decoder of `s` at the start of an element, or a new one (R398) where `s` has none, with `n` bits held. -/
def State.decoderAt (s : State) (mode : DecMode) (n w : Nat) : Dec :=
  let d := match s.stream with
    | .dec d => d
    | _ => Dec.fresh 15 s.params.allowSingleCode s.freeCtr
  { d with mode := mode, last := false, started := true, hold := w % 2 ^ n, bits := n }

/-- `s` where the next instruction step runs is the one with these bits: a command word as a CMD write would have left it, an
element at the point of a DEC_STEP where the decoder awaits it, its bits held. -/
def State.withFetchWord (s : State) (nbits w : Nat) : State :=
  let s := { s with hostq := s.hostq.dropWhile (fun ev => ev.whileBusy) }
  if nbits = 8 then { s with stream := .dec (s.decoderAt .type 8 w), phase := .decoding 0 0 }
  else if nbits = 16 then { s with stream := .dec (s.decoderAt .stored 32 w), phase := .decoding 0 0 }
  else if (decodeCommand (BitVec.ofNat 32 w)).isNone && storedPairWord w then
    { s with stream := .dec (s.decoderAt .stored 32 w), phase := .decoding 0 0 }
  else { s with phase := .command (BitVec.ofNat 32 w) }

end Sys2Proof.Machine
end

