-- ==== Sys2Proof/Safety.lean ====
section
/-! DEFINITION. Sys2Proof/Safety.lean: the terms that statements about the machine use: prefix codes, the streams that the bit writer
and the bit reader stand for, the points inside a DEC_STEP and how a command ends there, what a command may do to the buffers, and
the invariants of the two engines. -/

namespace Sys2Proof

/-! ## Codes -/

/-- A code as the stream carries it: most significant code bit first (R114). -/
def CodeEntry.wire (e : CodeEntry) : List Bool := (bitsOf e.len e.canon).reverse

/-- A prefix code: lengths 1 to 15, codes that fit their length, one code per symbol and no code the beginning of another
(R126, R196). -/
abbrev Code.Proper (c : Code) : Prop :=
  (∀ e ∈ c, 1 ≤ e.len ∧ e.len ≤ 15 ∧ e.canon < 2 ^ e.len) ∧
    c.Pairwise (fun a b => a.sym ≠ b.sym ∧ ¬ a.wire <+: b.wire ∧ ¬ b.wire <+: a.wire)

/-- A prefix code over the symbols `0 .. n-1`. -/
abbrev Code.Over (n : Nat) (c : Code) : Prop := c.Proper ∧ ∀ e ∈ c, e.sym < n

/-- The Kraft sum of a code in units of `2^-15`. -/
def Code.kraft (c : Code) : Nat := (c.map (fun e => 2 ^ (15 - e.len))).sum

/-- A complete code: Kraft's equality (R197). -/
abbrev Code.Complete (c : Code) : Prop := c.kraft = 2 ^ 15

/-- The codes in force are prefix codes over the three alphabets (R66, R120, R121, R122). -/
abbrev Codes.Proper (k : Codes) : Prop := k.cl.Over 19 ∧ k.lit.Over 288 ∧ k.dist.Over 32

/-- The mode of the decoder in which an instruction is the next element (R311 to R343); a command word has none. -/
def Instr.mode (i : Instr) : Option Machine.DecMode :=
  match i.shape with
  | .command _ => none
  | .header _ _ => some .type
  | .stored _ _ => some .stored
  | .counts _ _ _ => some .table
  | .clLens _ => some .lenLens
  | .cl _ _ _ => some .codeLens
  | .lit _ _ _ => some .len
  | .dist _ _ _ => some .dist

/-- The command word `ENC_STEP` with a flush mode (R152). -/
def stepInstr : Flush → Instr
  | .no => .encStepNo
  | .partialFlush => .encStepPartial
  | .sync => .encStepSync
  | .full => .encStepFull
  | .finish => .encStepFinish
  | .block => .encStepBlock

/-- What DEC_INIT asks of CFG, bit by bit: WBITS at least 8, bit 7 and bits 31:12 all 0 (R34, R398). -/
abbrev legalDec (cfg : Word) : Prop :=
  8 ≤ (cfg.extractLsb' 8 4).toNat ∧ cfg.getLsbD 7 = false ∧ cfg.extractLsb' 12 20 = 0

/-- What ENC_INIT asks of CFG: besides, LEVEL at most 9 and STRATEGY at most 3 (R34, R384). -/
abbrev legalEnc (cfg : Word) : Prop :=
  (cfg.extractLsb' 0 4).toNat ≤ 9 ∧ (cfg.extractLsb' 4 3).toNat ≤ 3 ∧ legalDec cfg

namespace Machine

/-! ## Lists of code lengths -/

/-- The list with `c` entries from `k` on set to `v` (R326). -/
def setRun (lens : List Nat) (k c v : Nat) : List Nat := lens.take k ++ List.replicate c v ++ lens.drop (k + c)

/-- The lengths one code-length symbol stands for, `done` being the ones before it (R120). -/
def ClSym.expand (s : ClSym) (done : List Nat) : List Nat :=
  if s.sym < 16 then [s.sym]
  else if s.sym = 16 then List.replicate (3 + s.extra) (done.getLastD 0)
  else if s.sym = 17 then List.replicate (3 + s.extra) 0
  else List.replicate (11 + s.extra) 0

/-- The lengths a list of code-length symbols stands for (R120, R327). -/
def expandAll : List ClSym → List Nat → List Nat
  | [], done => done
  | s :: rest, done => expandAll rest (done ++ s.expand done)

/-- The elements of the bitstream that an entry of the symbol buffer is sent as (R113, R268). -/
def Sym.elements : Sym → List Instr
  | .lit b => [.literal b]
  | .copy dist len =>
    [lengthInstr ((lcode len).1 - 257) (lcode len).2.2, distanceInstr (dcode dist).1 (dcode dist).2.2]

/-- An entry that the symbol buffer may hold (R46). -/
abbrev Sym.legal : Sym → Prop
  | .lit _ => True
  | .copy dist len => 1 ≤ dist ∧ dist ≤ 32768 ∧ 3 ≤ len ∧ len ≤ 258

/-! ## The stream of the bit writer -/

/-- All bits produced and not yet written to the output buffer (R177): the pending bytes, then the held bits. -/
def BitWriter.stream (w : BitWriter) : List Bool := bitsOfBytes w.pending.reverse ++ bitsOf w.biValid w.biBuf.toNat

/-- The bit writer's invariant (R49, R171). -/
abbrev BitWriter.Ok (w : BitWriter) : Prop := w.biValid ≤ 16 ∧ w.biBuf.toNat < 2 ^ w.biValid

/-! ## The stream of the bit reader -/

/-- How many input bytes it takes to hold `n` bits (R181, R186). -/
def DecRun.pulls (n : Nat) (r : DecRun) : Nat := (n - r.d.bits + 7) / 8

/-- The held bits and the input that is left have `n` bits. -/
abbrev DecRun.offers (n : Nat) (r : DecRun) : Prop := n ≤ r.d.bits + 8 * r.io.availIn

/-- The decoder with the next `n` bits of the stream consumed and no more input bytes read than that takes (R181, R183, R186):
only `hold`, `bits`, the consumed count and TOTAL_IN differ. -/
def DecRun.after (n : Nat) (r : DecRun) : DecRun :=
  let bits := r.d.bits + 8 * r.pulls n - n
  { d := { r.d with hold := natOfBits ((r.stream.drop n).take bits), bits := bits }, io := r.io.consume (r.pulls n) }

/-- The decoder with all its input pulled: how an element that the input does not hold whole leaves it (R181, R335). -/
def DecRun.drained (r : DecRun) : DecRun :=
  { d := { r.d with hold := natOfBits r.stream, bits := r.d.bits + 8 * r.io.availIn }, io := r.io.consume r.io.availIn }

/-- The decoder holding `n` bits of the stream at least, none of them consumed (R181). -/
def DecRun.pulled (n : Nat) (r : DecRun) : DecRun :=
  { d := { r.d with hold := natOfBits (r.stream.take (r.d.bits + 8 * r.pulls n)), bits := r.d.bits + 8 * r.pulls n },
    io := r.io.consume (r.pulls n) }

/-! ## Points inside a DEC_STEP -/

/-- The codes a decoder holds. -/
def Dec.codes (d : Dec) : Codes := { cl := d.clcode, lit := d.lencode, dist := d.distcode }

/-- A decoder inside the state's DEC_STEP, `c` bytes being consumed and `p` produced. -/
def State.runAt (s : State) (d : Dec) (c p : Nat) : DecRun := { d := d, io := s.io c p }

/-- The point of a DEC_STEP that a run has come to: the decoder, host memory, the totals and the counts of bytes are the run's, and
everything else is as it was. -/
def State.point (s : State) (r : DecRun) : State :=
  { s with
    stream := .dec r.d
    mem := r.io.mem
    totalIn := r.io.totalIn
    totalOut := r.io.totalOut
    phase := .decoding r.io.consumed r.io.produced }

/-- The DEC_STEP ends at a run with a result and a sub-kind: the cursors move past the bytes consumed and produced, and STATUS tells
the result and the decoder's mode (R380). -/
def State.ended (s : State) (r : DecRun) (res : Result) (subkind : BitVec 4) : State :=
  { s with
    inAddr := s.inAddr + BitVec.ofNat 32 r.io.consumed
    inLen := s.inLen - BitVec.ofNat 32 r.io.consumed
    outAddr := s.outAddr + BitVec.ofNat 32 r.io.produced
    outLen := s.outLen - BitVec.ofNat 32 r.io.produced
    status := { result := res, subkind := subkind, mode := 2, estate := r.d.mode.code }
    totalIn := r.io.totalIn
    totalOut := r.io.totalOut
    stream := .dec r.d
    phase := .idle
    mem := r.io.mem }

/-- `SUSPEND(res)` (R181, R421). -/
def State.suspended (s : State) (r : DecRun) (res : Result) : State := s.ended r res 0

/-- `MALFORMED_STREAM` with sub-kind `k` (R356). -/
def State.malformed (s : State) (r : DecRun) (k : Nat) : State :=
  s.ended { r with d := { r.d with mode := .bad, err := k } } .malformedStream (BitVec.ofNat 4 k)

/-- Bytes are output and remembered (R312). -/
def DecRun.wrote (bs : List Byte) (r : DecRun) : DecRun := { d := Dec.rememberAll bs r.d, io := Io.outBytes bs r.io }

/-- The first `n` bytes of a match at distance `offset`: the history from `offset` back on, over and over (R352). -/
def Dec.matched (d : Dec) (offset n : Nat) : List Byte := (List.range n).map fun j => d.back (offset - j % offset)

/-- MATCH: what there is space for is copied; the block body goes on, or the output is full (R352). -/
def State.afterMatch (s : State) (r : DecRun) : State :=
  let r' := r.wrote (r.d.matched r.d.offset (min r.d.length r.io.availOut))
  if r.d.length ≤ r.io.availOut then s.point { r' with d := { r'.d with length := 0, mode := .len } }
  else s.suspended { r' with d := { r'.d with length := r.d.length - r.io.availOut, mode := .copyMatch } } .needMoreOutput

/-- The bytes COPY can move now (R322). -/
def DecRun.copyable (r : DecRun) : Nat := min r.d.length (min r.io.availOut r.io.availIn)

/-- COPY: what both buffers allow is copied; the block is over, or the output is full, or else the input is used up (R322). -/
def State.afterCopy (s : State) (r : DecRun) : State :=
  let r' := DecRun.wrote (r.io.inBytes r.io.consumed r.copyable) { r with io := r.io.consume r.copyable }
  if r.copyable = r.d.length then s.point { r' with d := { r'.d with length := 0, mode := .type } }
  else
    s.suspended { r' with d := { r'.d with length := r.d.length - r.copyable, mode := .copy } }
      (if r.copyable = r.io.availOut then .needMoreOutput else .needMoreInput)

/-! ## What a command does to the buffers -/

/-- The command is refused: STATUS tells INVALID_COMMAND and the stream, and nothing else changes (R425). -/
def State.invalid (s : State) : State :=
  { s with
    status := { result := .invalidCommand, subkind := 0, mode := s.stream.modeTag, estate := s.stream.estate }
    phase := .idle }

/-- A command that consumed `n` bytes and produced `m` has ended (R35, R36, R38, R81, R380): the cursors and the totals have moved so
far, no byte of host memory but the `m` output bytes is changed, and neither is anything else but the stream and STATUS. -/
structure State.Moved (s t : State) (n m : Nat) : Prop where
  input : n ≤ s.inLen.toNat ∧ t.inAddr = s.inAddr + BitVec.ofNat 32 n ∧ t.inLen = s.inLen - BitVec.ofNat 32 n ∧
    t.totalIn = s.totalIn + BitVec.ofNat 32 n
  output : m ≤ s.outLen.toNat ∧ t.outAddr = s.outAddr + BitVec.ofNat 32 m ∧ t.outLen = s.outLen - BitVec.ofNat 32 m ∧
    t.totalOut = s.totalOut + BitVec.ofNat 32 m
  memory : ∀ a, (∀ j < m, a ≠ (s.outAddr + BitVec.ofNat 32 j).toNat) → t.mem.read a = s.mem.read a
  rest : t.params = s.params ∧ t.cfg = s.cfg ∧ t.hostq = s.hostq ∧ t.readData = s.readData ∧ t.freeCtr = s.freeCtr
  idle : t.phase = .idle

/-- The output bytes that the running command has written when it comes to `t`, from a state where it had written `State.sent`. -/
def State.sent (s : State) : Nat :=
  match s.phase with
  | .decoding _ p => p
  | _ => 0
def State.sentTo (s t : State) : Nat :=
  match t.phase with
  | .decoding _ p => p
  | _ => (s.outLen - t.outLen).toNat

/-- Byte `a` of host memory lies in a buffer that the running command uses (R81, R84): in either one for an ENC_STEP or a DEC_STEP, in
the input buffer for ENC_SET_DICT, DEC_SET_DICT and DEC_SYNC. -/
def State.Uses (s : State) (a : Nat) : Prop :=
  let input := s.inAddr.toNat ≤ a ∧ a < s.inAddr.toNat + s.inLen.toNat
  let output := s.outAddr.toNat ≤ a ∧ a < s.outAddr.toNat + s.outLen.toNat
  ((∃ c p, s.phase = .decoding c p) ∧ (input ∨ output)) ∨
    ∃ w i, s.phase = .command w ∧ decodeCommand w = some i ∧
      (((i = .decStep ∨ ∃ f, i = stepInstr f) ∧ (input ∨ output)) ∨
        ((i = .encSetDict ∨ i = .decSetDict ∨ i = .decSync) ∧ input))

/-- The host's next access waits for the machine: it is not made while a command runs. -/
abbrev State.quiet (s : State) : Prop := ∀ ev ∈ s.hostq.head?, ev.whileBusy = false

/-- From `io` to `io'` by reading the next input bytes, each once, and writing bytes at the output cursor, within both buffers (R81
to R83). -/
def Io.Moves (io io' : Io) : Prop :=
  ∃ n bs, n ≤ io.availIn ∧ bs.length ≤ io.availOut ∧ io' = (Io.outBytes bs io).consume n

/-- Host memory differs at most in the `n` bytes from output byte `from` on (R81). -/
abbrev Io.writesOnly (io io' : Io) : Prop :=
  ∀ a, (∀ j, io.produced ≤ j → j < io'.produced → a ≠ io.outAt j) → io'.mem.read a = io.mem.read a

/-! ## The decoder's invariant -/

/-- What holds of a decoder between state actions: the ranges of 10_state.md R59 to R68, the bound of R185, and prefix codes where the
mode reads them (R66, R325, R329). -/
structure Dec.Ok (d : Dec) : Prop where
  wbits : 8 ≤ d.wbits ∧ d.wbits ≤ 15
  dwin : d.dwin.wf d.wbits = true
  wnext : d.wnext < d.w
  whave : d.whave ≤ d.w
  hold : d.hold < 2 ^ d.bits
  bits : d.bits ≤ 32
  bad : d.mode = .bad ↔ d.err ≠ 0
  err : d.err ≤ 11
  lens : d.lens.length = 320 ∧ ∀ v ∈ d.lens, v ≤ 15
  syncHave : d.syncHave ≤ 4
  extra : d.extra ≤ 13
  lenLens : d.mode = .lenLens → d.ncode ≤ 19 ∧ d.have_ ≤ d.ncode ∧ d.nlen ≤ 286 ∧ d.ndist ≤ 30 ∧ 257 ≤ d.nlen
  codeLens : d.mode = .codeLens →
    d.nlen ≤ 286 ∧ d.ndist ≤ 30 ∧ 257 ≤ d.nlen ∧ d.have_ ≤ d.nlen + d.ndist ∧ d.clcode.Over 19 ∧ d.clcode.Complete
  body : d.mode ∈ [DecMode.len, .lenExt, .dist, .distExt, .copyMatch, .lit] → d.lencode.Over 288 ∧ d.distcode.Over 32

/-- The decoder's part of the machine's invariant: the decoder is in order, and a point inside a DEC_STEP has a decoder and cursors
within the buffers. -/
structure State.DecOk (s : State) : Prop where
  dec : ∀ d, s.stream = .dec d → d.Ok
  point : ∀ c p, s.phase = .decoding c p → (∃ d, s.stream = .dec d) ∧ c ≤ s.inLen.toNat ∧ p ≤ s.outLen.toNat

/-- The state is at a point of a DEC_STEP, `c` bytes being consumed and `p` produced, where the decoder `d` awaits an element of mode
`m`; the decoder is in order. -/
structure State.At (s : State) (d : Dec) (c p : Nat) (m : DecMode) : Prop where
  stream : s.stream = .dec d
  phase : s.phase = .decoding c p
  mode : d.mode = m
  more : m = .type → d.last = false
  ok : d.Ok

/-! ## The encoder's invariant -/

/-- Every nonzero entry of an internal memory is below `n`. -/
def Ram.Below (d : Nat) (t : Ram) (n : Nat) : Prop := ∀ k, Ram.get d t k ≠ 0 → Ram.get d t k < n

/-- Every position in the hash chains is below `n` (R246), which the window holds, and the match registers are bounded by 2*EW (R43). -/
structure Enc.Bounded (ps : Config.Params) (e : Enc) (n : Nat) : Prop where
  head : e.head.Below ps.hashBits n
  prev : e.prev.Below e.ewbits n
  room : n ≤ 2 * e.ew
  starts : e.matchStart < 2 * e.ew ∧ e.prevMatch < 2 * e.ew
  lengths : e.matchLength ≤ 2 * e.ew ∧ e.prevLength ≤ 2 * e.ew

/-- What holds of an encoder between commands: a legal latched configuration (R44), internal memories in canonical form (R40 to
R42), the bound of R46, those of R43 and R246 on the registers, the chains and the owed literal (log entries 22 and 32), frequency tables of
their sizes (R47), the bit writer in order (R49, R171), the lookahead inside the window (R231), a stored block that is not due yet
(R240) and a found match inside the lookahead (R234, R242). -/
structure Enc.Ok (ps : Config.Params) (e : Enc) : Prop where
  level : e.level ≤ 9
  wbits : 8 ≤ e.wbits ∧ e.wbits ≤ 15
  win : e.win.wf (e.ewbits + 1) = true
  head : e.head.wf ps.hashBits = true
  prev : e.prev.wf e.ewbits = true
  insert : e.insert ≤ 2
  freqs : e.lfreq.length = 286 ∧ e.dfreq.length = 30 ∧ e.blfreq.length = 19
  syms : e.syms.length < Config.litBufSize - 1
  bits : e.bw.Ok
  block : e.blockStart ≤ (e.strstart : Int)
  fits : e.strstart + e.lookahead ≤ 2 * e.ew
  stored : e.level = 0 → (e.strstart : Int) - e.blockStart < (e.maxDist : Int)
  found : Config.minMatch ≤ e.matchLength → e.level ≠ 0 ∧ e.matchLength ≤ e.lookahead + 1
  bounded : e.Bounded ps (e.strstart + e.lookahead)
  owed : e.matchAvailable = true → e.blockFn = .slow

/-- The encoder's part of the machine's invariant. -/
abbrev State.EncOk (s : State) : Prop := ∀ e, s.stream = .enc e → e.Ok s.params

/-! ## STATUS -/

/-- STATUS tells the stream that exists and the engine's state, but for a point inside a DEC_STEP; the sub-kind is 1 to 11 with
MALFORMED_STREAM and 0 otherwise (R37, R380). -/
structure State.StatusOk (s : State) : Prop where
  engine : (∀ c p, s.phase ≠ .decoding c p) → s.status.mode = s.stream.modeTag ∧ s.status.estate = s.stream.estate
  malformed : s.status.result = .malformedStream → 1 ≤ s.status.subkind.toNat ∧ s.status.subkind.toNat ≤ 11
  other : s.status.result ≠ .malformedStream → s.status.subkind = 0

/-- One state action of a running DEC_STEP (R311). -/
def State.Acts (s t : State) : Prop := s.phase ≠ .idle ∧ decoderStep s = .next t

end Machine

end Sys2Proof
end

