-- ==== Sys2Proof/Certificates/Slice0/Obligations.lean ====
section
/-! DEFINITION. Sys2Proof/Certificates/Slice0/Obligations.lean: what is to be proved of the model. Every statement follows the numbered
rules of spec/ that its docstring names; where one rests on a choice of the model, it says so. -/

open Sys2Proof Sys2Proof.Machine

/-! ## Reset -/

/-- R451: the state after reset, as the host reads it and in the machine; it accepts a command. That any command but an init then fails
its precondition is the spec's own inference in R451, from R382. -/
def Obligations.ResetState : Prop :=
  (State.reset.regRead 0x00 = 0 ∧ State.reset.regRead 0x04 = 0x00000F06 ∧ State.reset.regRead 0x08 = 0 ∧
    State.reset.regRead 0x0C = 0 ∧ State.reset.regRead 0x10 = 0 ∧ State.reset.regRead 0x14 = 0 ∧
    State.reset.regRead 0x18 = 0x00000000 ∧ State.reset.regRead 0x1C = 0 ∧ State.reset.regRead 0x20 = 0) ∧
  State.reset.status = { result := .ok, subkind := 0, mode := 0, estate := 0 } ∧
  State.reset.stream = .none ∧ State.reset.phase = .idle ∧
  ∀ w, hostAccess (.regWrite State.reset.params.regBase 4 w) State.reset = .next { State.reset with phase := .command w } ∧
    ∀ i, decodeCommand w = some i → i ≠ .encInit → i ≠ .decInit →
      exec i { State.reset with phase := .command w } =
        .next { State.reset with status := { result := .invalidCommand, subkind := 0, mode := 0, estate := 0 } }

/-- The invariants that the other statements assume hold after reset. -/
def Obligations.ResetInvariants : Prop :=
  State.reset.mem.wf = true ∧ State.reset.DecOk ∧ State.reset.EncOk ∧ State.reset.StatusOk

/-- R452 (and R450): a reset leaves host memory alone; where it abandons a command, each byte of host memory is as it was or, if it is
one of the bytes the command would have produced, as the command would have left it. Where the running word is illegal, and so produces
nothing (R153), memory is as it was. The model's choices in this: the parameters are not reset (log entry 3); which of the bytes were
written is free, and at a point inside a DEC_STEP those written so far stay (log entries 7 and 12); a reset completes also where the
command's buffer lies on a device (log entry 36). -/
def Obligations.ResetAbandonsTheCommand : Prop :=
  ∀ s : State, s.mem.wf = true → ∃ t, hostAccess .reset s = .next t ∧
    (t.cfg = 0x00000F06 ∧ t.inAddr = 0 ∧ t.inLen = 0 ∧ t.outAddr = 0 ∧ t.outLen = 0 ∧ t.totalIn = 0 ∧ t.totalOut = 0 ∧
      t.status = { result := .ok, subkind := 0, mode := 0, estate := 0 } ∧ t.stream = .none ∧ t.phase = .idle ∧
      t.params = s.params) ∧
    (s.phase = .idle → t.mem = s.mem) ∧
    (∀ c p, s.phase = .decoding c p → t.mem = s.mem) ∧
    (∀ w, s.phase = .command w → decodeCommand w = none → t.mem = s.mem) ∧
    (∀ w i u, s.phase = .command w → decodeCommand w = some i → exec i s = .next u →
      ∀ a, t.mem.read a = s.mem.read a ∨
        (t.mem.read a = u.mem.read a ∧ ∃ j < (s.outLen - u.outLen).toNat, a = (s.outAddr + BitVec.ofNat 32 j).toNat))

/-! ## The register window -/

/-- R33 to R38: between commands a write of CFG or of a buffer register changes that register alone, whatever the value; a write of CMD
starts the command it selects and is held nowhere else; a read of a register other than CMD gives its value and changes nothing of the
machine. STATUS may be read at any time; the other registers are read between commands here. -/
def Obligations.RegisterWindow : Prop :=
  ∀ (s : State) (v : Word),
    (s.phase = .idle →
      hostAccess (.regWrite s.params.regBase 4 v) s = .next { s with phase := .command v } ∧
      hostAccess (.regWrite (s.params.regBase + 0x04) 4 v) s = .next { s with cfg := v } ∧
      hostAccess (.regWrite (s.params.regBase + 0x08) 4 v) s = .next { s with inAddr := v } ∧
      hostAccess (.regWrite (s.params.regBase + 0x0C) 4 v) s = .next { s with inLen := v } ∧
      hostAccess (.regWrite (s.params.regBase + 0x10) 4 v) s = .next { s with outAddr := v } ∧
      hostAccess (.regWrite (s.params.regBase + 0x14) 4 v) s = .next { s with outLen := v }) ∧
    hostAccess (.regRead (s.params.regBase + 0x18) 4) s = .next { s with readData := s.statusWord } ∧
    (s.phase = .idle →
      hostAccess (.regRead (s.params.regBase + 0x04) 4) s = .next { s with readData := s.cfg } ∧
      hostAccess (.regRead (s.params.regBase + 0x08) 4) s = .next { s with readData := s.inAddr } ∧
      hostAccess (.regRead (s.params.regBase + 0x0C) 4) s = .next { s with readData := s.inLen } ∧
      hostAccess (.regRead (s.params.regBase + 0x10) 4) s = .next { s with readData := s.outAddr } ∧
      hostAccess (.regRead (s.params.regBase + 0x14) 4) s = .next { s with readData := s.outLen } ∧
      hostAccess (.regRead (s.params.regBase + 0x1C) 4) s = .next { s with readData := s.totalIn } ∧
      hostAccess (.regRead (s.params.regBase + 0x20) 4) s = .next { s with readData := s.totalOut })

/-- R39: while a command runs a register write is ignored, and every register reads as it did at the start of the command (from one
state action of a DEC_STEP to the next nothing that the host reads changes); writes of the read-only registers are ignored, CMD reads
0, and offsets 0x24 and above read 0 and ignore writes. R39 speaks of offsets within the window; that the window has no end is the
model's choice (log entry 17). -/
def Obligations.RegistersStandStillWhileBusy : Prop :=
  (∀ (s : State) (off v : Word), s.phase ≠ .idle → off.toNat % 4 = 0 →
    hostAccess (.regWrite (s.params.regBase + off) 4 v) s = .next s) ∧
  (∀ (s t : State) (c p : Nat) (off : Nat), s.DecOk → s.phase = .decoding c p → engineStep s = .next t → t.phase ≠ .idle →
    t.regRead off = s.regRead off) ∧
  (∀ (s : State) (w : Word) (off : Nat), s.phase = .idle → off ≠ 0x18 →
    State.regRead { s with phase := .command w } off = s.regRead off) ∧
  (∀ (s : State) (off v : Word), off.toNat % 4 = 0 → off = 0x18 ∨ off = 0x1C ∨ off = 0x20 ∨ 0x24 ≤ off.toNat →
    hostAccess (.regWrite (s.params.regBase + off) 4 v) s = .next s) ∧
  (∀ (s : State) (off : Word), off.toNat % 4 = 0 → off = 0 ∨ 0x24 ≤ off.toNat →
    hostAccess (.regRead (s.params.regBase + off) 4) s = .next { s with readData := 0 })

/-- R37 with the codes of R420, R50 and R62: the fields of STATUS and where they stand. -/
def Obligations.StatusLayout : Prop :=
  (∀ s : State,
    s.statusWord.extractLsb' 0 4 = BitVec.ofNat 4 s.status.result.code ∧ s.statusWord.extractLsb' 4 4 = s.status.subkind ∧
    s.statusWord.extractLsb' 8 2 = s.status.mode ∧ s.statusWord.extractLsb' 10 2 = 0 ∧
    s.statusWord.extractLsb' 12 4 = s.status.estate ∧ s.statusWord.extractLsb' 16 15 = 0 ∧
    (s.statusWord.getLsbD 31 = true ↔ s.phase ≠ .idle)) ∧
  [Result.ok, .streamEnd, .needMoreInput, .needMoreOutput, .invalidCommand, .invalidConfiguration, .malformedStream,
    .resourceExhaustion].map Result.code = List.range 8 ∧
  [EncStatus.init, .busy, .finishing, .done].map (fun x => x.code.toNat) = List.range 4 ∧
  [DecMode.type, .stored, .copy, .table, .lenLens, .codeLens, .len, .lenExt, .dist, .distExt, .copyMatch, .lit, .done, .bad,
    .sync].map (fun x => x.code.toNat) = List.range 15

/-! ## Host memory -/

/-- R81, R92, R381: host memory is bytes at 32-bit addresses; outside the buffers of a running command a write changes its byte alone and
a read gives the byte. An access to a buffer that the running command uses has no meaning (the model refuses it), as a register access
that is no whole aligned word has none at any time (R87), and a command one of whose buffers has a byte in a side-effecting range of
the platform has none (R89). -/
def Obligations.HostMemoryAccess : Prop :=
  (∀ (s : State) (a : Word) (v : Byte), ¬ s.Uses a.toNat → s.mem.wf = true →
    ∃ m, hostAccess (.memWrite a v) s = .next { s with mem := m } ∧ m.wf = true ∧ m.read a.toNat = v ∧
      ∀ b, b ≠ a.toNat → m.read b = s.mem.read b) ∧
  (∀ (s : State) (a : Word), ¬ s.Uses a.toNat →
    hostAccess (.memRead a) s = .next { s with readData := (s.mem.read a.toNat).setWidth 32 }) ∧
  (∀ (s : State) (a : Word) (v : Byte), s.Uses a.toNat →
    hostAccess (.memWrite a v) s = .refused .bufferAccessWhileBusy ∧
      hostAccess (.memRead a) s = .refused .bufferAccessWhileBusy) ∧
  (∀ (s : State) (addr v : Word) (width : Nat), width ≠ 4 ∨ (addr - s.params.regBase).toNat % 4 ≠ 0 →
    hostAccess (.regWrite addr width v) s = .refused .narrowRegisterAccess ∧
      hostAccess (.regRead addr width) s = .refused .narrowRegisterAccess) ∧
  (∀ (s : State) (base len : Word) (a : Nat), (base, len) ∈ s.params.devices → base.toNat ≤ a → a < base.toNat + len.toNat →
    s.Uses a → s.quiet → step s = .refused .deviceBuffer)

/-! ## Steps -/

/-- R33, R380: a step of an idle machine makes the host's next access; a CMD write starts the command; the next step runs the whole
command its word selects, with whatever exec does, and nothing else. With nothing to do the machine stays as it is. -/
def Obligations.StepRunsTheCommand : Prop :=
  (∀ s : State, s.phase = .idle → s.hostq = [] → step s = .next s) ∧
  (∀ (s : State) (ev : HostEvent) (rest : List HostEvent), s.hostq = ev :: rest → s.phase = .idle →
    step s = hostAccess ev.access { s with hostq := rest }) ∧
  (∀ (s : State) (w : Word) (b : Bool) (rest : List HostEvent), s.phase = .idle →
    s.hostq = { access := .regWrite s.params.regBase 4 w, whileBusy := b } :: rest →
    step s = .next { s with hostq := rest, phase := .command w }) ∧
  (∀ (s : State) (w : Word) (i : Instr), s.phase = .command w → decodeCommand w = some i → s.quiet →
    s.bufferOnDevice = false → step s = exec i s)

/-- R311, R335: at a point of a DEC_STEP where the decoder's mode expects an element, and the bits it sees decode to the instruction
`i`, the step is `exec i` of that very state. -/
def Obligations.StepRunsTheDecodedElement : Prop :=
  ∀ (s : State) (d : Dec) (c p : Nat) (r : DecRun) (ctx : WireContext) (i : Instr) (n : Nat),
    s.stream = .dec d → s.phase = .decoding c p → s.quiet → s.bufferOnDevice = false →
    (s.runAt d c p).next = .fetch r ctx → decodeWire ctx r.sight = .element i n → i.mode = some d.mode → step s = exec i s

/-- R113 to R122, R311: whatever the decoder holds already and however much input follows, if the stream that is left begins with the
encoding of an instruction of the decoder's mode, in the codes it holds, the step is `exec` of that instruction. A stored block's
length pair begins at the next byte (R320). -/
def Obligations.StepRunsTheEncodedElement : Prop :=
  ∀ (s : State) (d : Dec) (c p : Nat) (m : DecMode) (i : Instr) (rest : List Bool),
    s.At d c p m → s.quiet → s.bufferOnDevice = false → i.mode = some m → i.wf = true → i.hasCode d.codes = true →
    (∀ lens, i = .codeLengthCodeLengths lens → lens.length = d.ncode - d.have_) →
    (m = .codeLens → d.have_ < d.nlen + d.ndist) →
    (if m = .stored then (s.runAt d c p).byteBits.stream else (s.runAt d c p).stream) = encode d.codes i ++ rest →
    step s = exec i s

/-! ## Encodings -/

/-- R150 to R153: a command word is illegal exactly where its OP is 0 or 9 to 15, its FLUSH is 6 or 7, its FLUSH is not 0 with an OP
other than 2, or a bit of 31:7 is set; it then gives INVALID_COMMAND with sub-kind 0 and nothing else changes. -/
def Obligations.IllegalCommandWord : Prop :=
  ∀ w : Word,
    (decodeCommand w = none ↔
      ((w.extractLsb' 0 4).toNat = 0 ∨ 9 ≤ (w.extractLsb' 0 4).toNat ∨ 6 ≤ (w.extractLsb' 4 3).toNat ∨
        (w.extractLsb' 4 3 ≠ 0 ∧ (w.extractLsb' 0 4).toNat ≠ 2) ∨ w.extractLsb' 7 25 ≠ 0)) ∧
    (decodeCommand w = none → ∀ s : State, s.phase = .command w → s.quiet → s.bufferOnDevice = false →
      step s = .next s.invalid)

/-- Words written out from the spec decode to what they stand for: some of V30 (command words, and illegal ones), R111 (headers, first bit first), R112 (LEN = 5
with its complement), R118 (HLIT 29, HDIST 30, HCLEN 15), V10 and V11 (the literal `a` and the end-of-block in the fixed code), V9
(symbol 284 with extra bits 31; the distance symbol 0), R117 (distance symbol 29, extra 8191). -/
def Obligations.WordsOfTheSpecDecode : Prop :=
  decodeCommand 0x01 = some .encInit ∧ decodeCommand 0x42 = some .encStepFinish ∧ decodeCommand 0x52 = some .encStepBlock ∧
  decodeCommand 0x05 = some .decStep ∧ decodeCommand 0x08 = some .endStream ∧ decodeCommand 0x62 = none ∧
  decodeCommand 0x15 = none ∧ decodeCommand 0x80000002 = none ∧
  decodeWire .header [true, true, false] = .element (.blockFixed true) 3 ∧
  decodeWire .header [false, false, true] = .element (.blockDynamic false) 3 ∧
  decodeWire .storedPair (bitsOf 16 0x0005 ++ bitsOf 16 0xFFFA) = .element (.storedLen 5 0xFFFA) 32 ∧
  decodeWire .counts [true, false, true, true, true, false, true, true, true, true, true, true, true, true] =
    .element (.dynamicCounts 29 30 15) 14 ∧
  decodeWire (.litSymbol fixedLitCode) [true, false, false, true, false, false, false, true] = .element (.literal 0x61) 8 ∧
  decodeWire (.litSymbol fixedLitCode) [false, false, false, false, false, false, false] = .element .endOfBlock 7 ∧
  decodeWire (.litSymbol fixedLitCode) [true, true, false, false, false, true, false, false, true, true, true, true, true] =
    .element (.length284 31) 13 ∧
  decodeWire (.distSymbol fixedDistCode) [false, false, false, false, false] = .element .distance0 5 ∧
  decodeWire (.distSymbol fixedDistCode) (([true, true, true, false, true] : List Bool) ++ List.replicate 13 true) =
    .element (.distance29 8191) 18

/-- R111 to R126, R151, R152: the encoding of every well-formed instruction decodes to that instruction with every operand: a command's
own word; an element's bits, in codes that are prefix codes and have its symbol, whatever bits follow, and it takes just its own. -/
def Obligations.EncodingRoundTrip : Prop :=
  ∀ (k : Codes) (i : Instr) (rest : List Bool), k.Proper → i.wf = true → i.hasCode k = true →
    (∀ w, i.shape = .command w → encode k i = bitsOf 32 w.toNat ∧ decodeCommand w = some i) ∧
    (∀ ctx, i.context k = some ctx → decodeWire ctx (encode k i ++ rest) = .element i (encode k i).length)

/-- R111 to R126, R151 to R153: whatever bits decode to an instruction, they are, or begin with, that instruction's encoding. So no two
instructions share an encoding, and no reserved one passes for another. -/
def Obligations.DecodedBitsAreTheEncoding : Prop :=
  ∀ (k : Codes) (i : Instr),
    (∀ w, decodeCommand w = some i → i.shape = .command w) ∧
    (∀ (ctx : WireContext) (bits : List Bool) (n : Nat), k.Proper → decodeWire ctx bits = .element i n →
      i.context k = some ctx → bits.take n = encode k i ∧ i.hasCode k = true)

/-! ## Codes -/

/-- R116, R117: the fixed codes, symbol by symbol; no other symbol has a code. The code ranges of the literal/length code are the spec's
own inference in R116, from its lengths and R196. The codes of the symbols 286 and 287, 30 and 31, decode to the reserved elements
(R341, R343). -/
def Obligations.FixedCodes : Prop :=
  (∀ s : Nat, fixedLitCode.entry s =
    if s < 144 then some { sym := s, len := 8, canon := 0x30 + s }
    else if s < 256 then some { sym := s, len := 9, canon := 0x190 + (s - 144) }
    else if s < 280 then some { sym := s, len := 7, canon := s - 256 }
    else if s < 288 then some { sym := s, len := 8, canon := 0xC0 + (s - 280) }
    else none) ∧
  (∀ s : Nat, fixedDistCode.entry s = if s < 32 then some { sym := s, len := 5, canon := s } else none) ∧
  (∀ b : Bool, decodeWire (.litSymbol fixedLitCode) (fixedLitCode.bitsFor (if b then 287 else 286)) =
      .element (.litlenReserved b) 8 ∧
    decodeWire (.distSymbol fixedDistCode) (fixedDistCode.bitsFor (if b then 31 else 30)) = .element (.distanceReserved b) 5)

/-- R196: in the canonical code of a length set every symbol has a code of its own length, and the code is the one the order makes it:
shorter codes come first, and within a length codes go in increasing symbol order, with no gap. The code of a symbol is the space
that all symbols before it take, in units of the symbol's own length. -/
def Obligations.CanonicalOrder : Prop :=
  ∀ lens : List Nat, (∀ l ∈ lens, l ≤ 15) →
    (∀ s : Nat, (canonicalCode lens).lengthOf s = lens.getD s 0) ∧
    ∀ e ∈ canonicalCode lens, e.canon * 2 ^ (15 - e.len) =
      Code.kraft ((canonicalCode lens).filter fun e' => decide (e'.len < e.len ∨ (e'.len = e.len ∧ e'.sym < e.sym)))

/-- R331, R332: which length sets the decoder accepts, in the rule's own terms: `left l` is the Kraft slack at depth `l`.
`ALLOW_SINGLE_CODE` is false by default. That an accepted set has a prefix code is inferred from R196 (R197 d and R336 say it of the
encoder's trees and of complete codes). -/
def Obligations.AcceptableSets : Prop :=
  Config.defaults.allowSingleCode = false ∧
  ∀ (allow : Bool) (lens : List Nat) (kind : SetKind), (∀ l ∈ lens, l ≤ 15) →
    let left : Nat → Int := fun l =>
      2 ^ l - (((List.range l).map fun j => (lens.count (j + 1) : Int) * 2 ^ (l - (j + 1))).sum)
    (acceptable allow lens kind = true ↔
      (((∀ l ∈ lens, l = 0) ∧ kind = .dists) ∨
        ((∃ l ∈ lens, l ≠ 0) ∧ (∀ l, 1 ≤ l → l ≤ 15 → 0 ≤ left l) ∧
          (left 15 = 0 ∨ (kind ≠ .codes ∧ allow = true ∧ ∀ l ∈ lens, l ≤ 1))))) ∧
    (acceptable allow lens kind = true → (canonicalCode lens).Proper)

/-- R123: `lcode` and `dcode` send every length of 3..258 and every distance of 1..32768 to exactly one symbol with extra bits that
stands for it, which is the spec's own inference in R123, from the tables of R121 and R122; length 258 is symbol 285 and never symbol 284 with extra value 31. -/
def Obligations.LengthAndDistanceCodes : Prop :=
  (∀ len, 3 ≤ len → len ≤ 258 → ∀ s e,
    (lcode len = (s, lenExtra.getD (s - 257) 0, e) ↔
      (257 ≤ s ∧ s ≤ 285 ∧ e < 2 ^ lenExtra.getD (s - 257) 0 ∧ lenBase.getD (s - 257) 0 + e = len ∧ (s, e) ≠ (284, 31)))) ∧
  (∀ dist, 1 ≤ dist → dist ≤ 32768 → ∀ d e,
    (dcode dist = (d, distExtra.getD d 0, e) ↔
      (d ≤ 29 ∧ e < 2 ^ distExtra.getD d 0 ∧ distBase.getD d 0 + e = dist)))

/-- R197 (the spec's own inference from R192 to R196): whatever the frequencies, every tree the builder makes has lengths within its limit,
at least two coded symbols, each used symbol among them and none above `max_code`, and is a complete code that the decoder accepts; its
codes are the reversed canonical ones. R199 (V20, also derived there): the four examples, with the lengths, the canonical codes and what
is added to `opt_len`. -/
def Obligations.TreeExamples : Prop :=
  (∀ (t : TreeSpec) (kind : SetKind) (freq : List Nat) (o st : Int),
    (t = ltreeSpec ∧ kind = .lens) ∨ (t = dtreeSpec ∧ kind = .dists) ∨ (t = bltreeSpec ∧ kind = .codes) →
    freq.length = t.elems →
    let r := (buildTree t freq o st).1
    r.len.length = t.elems ∧ (∀ l ∈ r.len, l ≤ t.maxLength) ∧ 2 ≤ r.len.countP (fun l => decide (l ≠ 0)) ∧
      (∀ n, freq.getD n 0 ≠ 0 → r.len.getD n 0 ≠ 0) ∧ r.maxCode < t.elems ∧ (∀ n, r.maxCode < n → r.len.getD n 0 = 0) ∧
      (canonicalCode r.len).Complete ∧ (canonicalCode r.len).Proper ∧ acceptable false r.len kind = true ∧
      ∀ n, r.code.getD n 0 = (reversedCodes r.len).getD n 0) ∧
  ((buildTree bltreeSpec [3, 0, 0, 0, 0, 0, 0, 0, 2, 0, 0, 0, 0, 0, 0, 0, 0, 1, 1] 0 0).1.len =
      [1, 0, 0, 0, 0, 0, 0, 0, 2, 0, 0, 0, 0, 0, 0, 0, 0, 3, 3] ∧
    (buildTree bltreeSpec [3, 0, 0, 0, 0, 0, 0, 0, 2, 0, 0, 0, 0, 0, 0, 0, 0, 1, 1] 0 0).2.1 = 23 ∧
    canonicalCode [1, 0, 0, 0, 0, 0, 0, 0, 2, 0, 0, 0, 0, 0, 0, 0, 0, 3, 3] =
      [{ sym := 0, len := 1, canon := 0 }, { sym := 8, len := 2, canon := 2 }, { sym := 17, len := 3, canon := 6 },
        { sym := 18, len := 3, canon := 7 }]) ∧
  ((buildTree bltreeSpec ((List.replicate 19 0).set 5 7) 0 0).1.len = [1, 0, 0, 0, 0, 1] ++ List.replicate 13 0 ∧
    (buildTree bltreeSpec ((List.replicate 19 0).set 5 7) 0 0).2.1 = 7 ∧
    (canonicalCode ([1, 0, 0, 0, 0, 1] ++ List.replicate 13 0)).map (fun e => (e.sym, e.len, e.canon)) = [(0, 1, 0), (5, 1, 1)]) ∧
  ((buildTree bltreeSpec (List.replicate 19 0) 0 0).1.len = [1, 1] ++ List.replicate 17 0 ∧
    (buildTree bltreeSpec (List.replicate 19 0) 0 0).1.maxCode = 1 ∧
    (buildTree bltreeSpec (List.replicate 19 0) 0 0).2.1 = 0 ∧
    (canonicalCode ([1, 1] ++ List.replicate 17 0)).map (fun e => (e.sym, e.len, e.canon)) = [(0, 1, 0), (1, 1, 1)]) ∧
  ((buildTree bltreeSpec [1, 1, 2, 3, 5, 8, 13, 21, 34, 55, 89, 144, 233, 377, 610, 987, 1597, 2584, 4181] 0 0).1.len =
      List.replicate 16 7 ++ [3, 2, 1] ∧
    (buildTree bltreeSpec [1, 1, 2, 3, 5, 8, 13, 21, 34, 55, 89, 144, 233, 377, 610, 987, 1597, 2584, 4181] 0 0).2.1 = 72434 ∧
    (canonicalCode (List.replicate 16 7 ++ [3, 2, 1])).map (fun e => e.canon) =
      [112, 113, 114, 115, 116, 117, 118, 119, 120, 121, 122, 123, 124, 125, 126, 127, 6, 2, 0])

/-! ## Commands -/

/-- R384, R453, R426 (ENC_INIT): with a legal CFG the stream is a new encoder with every field at its ENC_INIT value, whatever stream there
was before, STATUS tells OK and INIT, the totals are 0 and nothing else changes; else INVALID_CONFIGURATION, and the stream is kept. -/
def Obligations.EncInitMakesAnEncoder : Prop :=
  ∀ s : State,
    (legalEnc s.cfg → ∃ e : Enc,
      exec .encInit s = .next { s with
        stream := .enc e, status := { result := .ok, subkind := 0, mode := 1, estate := 0 }, totalIn := 0, totalOut := 0,
        phase := .idle } ∧
      (e.level = (s.cfg.extractLsb' 0 4).toNat ∧
        [Strategy.default, .filtered, .huffmanOnly, .runLength][(s.cfg.extractLsb' 4 3).toNat]? = some e.strategy ∧
        e.wbits = (s.cfg.extractLsb' 8 4).toNat ∧ e.ew = 2 ^ max e.wbits 9 ∧ e.maxDist = e.ew - 262) ∧
      ((∀ i, e.winByte i = 0) ∧ (∀ h, Ram.get s.params.hashBits e.head h = 0) ∧ ∀ p, e.chainOf p = 0) ∧
      (e.strstart = 0 ∧ e.lookahead = 0 ∧ e.insert = 0 ∧ e.matchStart = 0 ∧ e.prevMatch = 0 ∧ e.matchLength = 2 ∧
        e.prevLength = 2 ∧ e.matchAvailable = false ∧ e.blockStart = 0) ∧
      (e.syms = [] ∧ (∀ n, e.lfreq.getD n 0 = if n = 256 then 1 else 0) ∧ (∀ n, e.dfreq.getD n 0 = 0) ∧
        (∀ n, e.blfreq.getD n 0 = 0) ∧ e.optLen = 0 ∧ e.staticLen = 0) ∧
      (e.bw.biBuf = 0 ∧ e.bw.biValid = 0 ∧ e.bw.pending = [] ∧ e.status = .init ∧ e.lastFlush = -2)) ∧
    (¬ legalEnc s.cfg → exec .encInit s = .next { s with
      status := { result := .invalidConfiguration, subkind := 0, mode := s.stream.modeTag, estate := s.stream.estate },
      phase := .idle })

/-- R398, R426 (DEC_INIT): with a legal WBITS and clear reserved bits the stream is a new decoder with every field of R398 at its value,
whatever LEVEL and STRATEGY say; else INVALID_CONFIGURATION, and the stream is kept. (The count of free values is the model's own, log
entry 9.) -/
def Obligations.DecInitMakesADecoder : Prop :=
  ∀ s : State,
    (legalDec s.cfg → ∃ d : Dec,
      exec .decInit s = .next { s with
        stream := .dec d, status := { result := .ok, subkind := 0, mode := 2, estate := 0 }, totalIn := 0, totalOut := 0,
        phase := .idle, freeCtr := s.freeCtr + 1 } ∧
      d.w = 2 ^ (s.cfg.extractLsb' 8 4).toNat ∧ d.allowSingleCode = s.params.allowSingleCode ∧
      (d.mode = .type ∧ d.last = false ∧ d.hold = 0 ∧ d.bits = 0 ∧ d.wnext = 0 ∧ d.whave = 0) ∧
      (d.length = 0 ∧ d.offset = 0 ∧ d.extra = 0 ∧ d.nlen = 0 ∧ d.ndist = 0 ∧ d.ncode = 0 ∧ d.have_ = 0) ∧
      (d.lens.length = 320 ∧ ∀ v ∈ d.lens, v = 0) ∧ d.err = 0 ∧ d.started = false ∧ d.syncHave = 0) ∧
    (¬ legalDec s.cfg → exec .decInit s = .next { s with
      status := { result := .invalidConfiguration, subkind := 0, mode := s.stream.modeTag, estate := s.stream.estate },
      phase := .idle })

/-- R410 (END): where there is a stream, of whichever engine, it is gone, the totals keep their values, and nothing else changes; where
there is none the command is refused. -/
def Obligations.EndDestroysTheStream : Prop :=
  ∀ s : State,
    (s.stream ≠ .none → exec .endStream s = .next { s with
      stream := .none, status := { result := .ok, subkind := 0, mode := 0, estate := 0 }, phase := .idle }) ∧
    (s.stream = .none → exec .endStream s = .next s.invalid)

/-- R382, R388, R392, R400, R404, R406, R410 with R154 and R425: a command in the wrong state gives INVALID_COMMAND and changes nothing
else. An ENC_STEP is refused for its flush mode or its input once the status is FINISHING or DONE, as R388 has it; that a FINISH which
left the status BUSY does not bring this about, against the words of R390 and D19, is the model's choice (log entry 37). -/
def Obligations.WrongStateIsRefused : Prop :=
  ∀ s : State,
    ((∀ e, s.stream ≠ .enc e) →
      (∀ f, exec (stepInstr f) s = .next s.invalid) ∧ exec .encSetDict s = .next s.invalid) ∧
    ((∀ d, s.stream ≠ .dec d) →
      exec .decStep s = .next s.invalid ∧ exec .decSetDict s = .next s.invalid ∧ exec .decSync s = .next s.invalid) ∧
    (s.stream = .none → exec .endStream s = .next s.invalid) ∧
    (∀ e, s.stream = .enc e →
      (∀ f, e.status = .finishing ∨ e.status = .done → f ≠ .finish ∨ s.inLen ≠ 0 → exec (stepInstr f) s = .next s.invalid) ∧
      (e.status ≠ .init → exec .encSetDict s = .next s.invalid)) ∧
    (∀ d, s.stream = .dec d →
      (d.mode = .sync → exec .decStep s = .next s.invalid) ∧
      (d.started = true ∨ d.mode ≠ .type → exec .decSetDict s = .next s.invalid))

/-- R84: a command that may use the buffers gives INVALID_COMMAND and changes nothing else where a buffer passes the top of host memory,
or a byte lies in both buffers. -/
def Obligations.BufferRangesAreChecked : Prop :=
  ∀ (s : State) (i : Instr),
    (∃ f, i = stepInstr f) ∨ i = .encSetDict ∨ i = .decStep ∨ i = .decSetDict ∨ i = .decSync →
    s.inAddr.toNat + s.inLen.toNat > 2 ^ 32 ∨ s.outAddr.toNat + s.outLen.toNat > 2 ^ 32 ∨
      (∃ a : Nat, (s.inAddr.toNat ≤ a ∧ a < s.inAddr.toNat + s.inLen.toNat) ∧
        s.outAddr.toNat ≤ a ∧ a < s.outAddr.toNat + s.outLen.toNat) →
    exec i s = .next s.invalid

/-! ## The encoder's commands -/

/-- R388, R389, R390 with R35, R36, R38 and R81 (the six ENC_STEP commands): in every state that allows the step it completes. It has read
`n` bytes and written `m`; it gives NEED_MORE_OUTPUT exactly where the output buffer is full; else nothing is pending and all input
is consumed, and the result is STREAM_END for FINISH, the encoder then being DONE, and NEED_MORE_INPUT for every other mode. The
latched configuration is kept and the encoder is in order. Only the output bytes of host memory change. (The states that allow the step
are those of R388's precondition. That a step of any flush mode and input is allowed after a FINISH which filled the output and left
the status BUSY, where R390 and D19 say that it is refused, is the model's choice: log entry 37.) -/
def Obligations.EncStepCompletes : Prop :=
  ∀ (s : State) (e : Enc) (f : Flush), s.stream = .enc e → e.Ok s.params → s.mem.wf = true → s.rangesOk = true →
    ((e.status = .finishing ∨ e.status = .done) → f = .finish ∧ s.inLen = 0) →
    ∃ (t : State) (e' : Enc) (res : Result) (n m : Nat),
      exec (stepInstr f) s = .next t ∧ t.stream = .enc e' ∧ s.Moved t n m ∧
      t.status = { result := res, subkind := 0, mode := 1, estate := e'.status.code } ∧
      (t.outLen = 0 → res = .needMoreOutput) ∧
      (t.outLen ≠ 0 → res = (if f = .finish then .streamEnd else .needMoreInput) ∧ e'.bw.pending = [] ∧ t.inLen = 0 ∧
        (f = .finish → e'.status = .done)) ∧
      (e'.level = e.level ∧ e'.strategy = e.strategy ∧ e'.wbits = e.wbits) ∧ e'.Ok s.params

/-- R388, R391: a step with no output space, and a step with nothing new to do (no input, nothing pending and a flush no stronger than
the one before, by the ranks of R385, those before any step and after a full output among them), change nothing of the stream but the
flush mode that was asked for. (That this holds too after a FINISH which filled the output and left the status BUSY, where R390 and D19
say that another flush mode or input is refused, is the model's choice: log entry 37.) -/
def Obligations.EncStepWithNothingToDo : Prop :=
  [-2, -1, 0, 1, 2, 3, 4, 5].map flushRank = [-4, -2, 0, 2, 4, 6, 8, 1] ∧
  [Flush.no, .partialFlush, .sync, .full, .finish, .block].map flushCode = [0, 1, 2, 3, 4, 5] ∧
  ∀ (s : State) (e : Enc) (f : Flush), s.stream = .enc e → s.rangesOk = true →
    ((e.status = .finishing ∨ e.status = .done) → f = .finish ∧ s.inLen = 0) →
    (s.outLen = 0 → exec (stepInstr f) s = .next { s with
      status := { result := .needMoreOutput, subkind := 0, mode := 1, estate := e.status.code }, phase := .idle }) ∧
    (s.outLen ≠ 0 → s.inLen = 0 → e.bw.pending = [] → f ≠ .finish → flushRank (flushCode f) ≤ flushRank e.lastFlush →
      exec (stepInstr f) s = .next { s with
        stream := .enc { e with lastFlush := flushCode f },
        status := { result := .needMoreInput, subkind := 0, mode := 1, estate := e.status.code }, phase := .idle })

/-- R390: an encoder that has put its final block into the pending buffer writes it out, oldest byte first, as far as the output goes;
the FINISH that leaves space gives STREAM_END and DONE, and with nothing pending it writes nothing. -/
def Obligations.FinishWritesOutWhatIsPending : Prop :=
  ∀ (s : State) (e : Enc), s.stream = .enc e → e.status = .finishing ∨ e.status = .done → e.lookahead = 0 →
    e.bw.biValid < 8 → s.inLen = 0 → s.outLen ≠ 0 → s.rangesOk = true → s.mem.wf = true →
    (e.bw.pending = [] → exec .encStepFinish s = .next { s with
      stream := .enc { e with status := .done, lastFlush := 4 },
      status := { result := .streamEnd, subkind := 0, mode := 1, estate := 3 }, phase := .idle }) ∧
    (e.bw.pending ≠ [] → ∃ t e', exec .encStepFinish s = .next t ∧ t.stream = .enc e' ∧
      s.Moved t 0 (min e.bw.pending.length s.outLen.toNat) ∧
      (∀ j, ∀ h : j < e.bw.pending.length, j < s.outLen.toNat →
        t.mem.read (s.outAddr + BitVec.ofNat 32 j).toNat = e.bw.pending.reverse[j]'(by simpa using h)) ∧
      e'.bw.pending.reverse = e.bw.pending.reverse.drop s.outLen.toNat ∧
      (e.bw.pending.length < s.outLen.toNat → t.status.result = .streamEnd ∧ e'.status = .done ∧ e'.lastFlush = 4) ∧
      (s.outLen.toNat ≤ e.bw.pending.length → t.status.result = .needMoreOutput ∧ e'.status = e.status ∧ e'.lastFlush = -1))

/-- R392, R245 (ENC_SET_DICT): on an encoder that no step has got past its output check, the command completes: nothing is consumed or
written, and in the encoder only the window, its chains and the registers of its positions and of the current match may change. -/
def Obligations.EncSetDictCompletes : Prop :=
  ∀ (s : State) (e : Enc), s.stream = .enc e → e.status = .init → s.rangesOk = true → e.Ok s.params →
    ∃ e' : Enc, exec .encSetDict s = .next { s with
        stream := .enc e', status := { result := .ok, subkind := 0, mode := 1, estate := 0 }, phase := .idle } ∧
      e' = { e with
        win := e'.win, head := e'.head, prev := e'.prev, strstart := e'.strstart, lookahead := 0, insert := e'.insert,
        blockStart := (e'.strstart : Int), matchStart := e'.matchStart, matchLength := 2, prevLength := 2,
        matchAvailable := false } ∧
      e'.Ok s.params

/-- R245, R392 with R226: on a fresh stream the last `EW` bytes of the dictionary are in the window from index 0 on, in increasing address
order; every position but the last two is inserted: its chain's head leads to it, and its link is the last position before it with its
hash (position 0 is NIL, R41); and the next byte's position follows. -/
def Obligations.EncSetDictPrimesTheWindow : Prop :=
  ∀ (s : State) (e : Enc) (level : Nat) (st : Strategy) (wbits : Nat), s.stream = .enc e → e = Enc.fresh level st wbits →
    8 ≤ wbits → wbits ≤ 15 → s.rangesOk = true →
    let n := min s.inLen.toNat e.ew
    ∃ (t : State) (e' : Enc), exec .encSetDict s = .next t ∧ t.stream = .enc e' ∧
      (∀ j < n, e'.winByte j = (s.mem.read (s.inAddr + BitVec.ofNat 32 (s.inLen.toNat - n + j)).toNat).toNat) ∧
      (∀ p, p + 3 ≤ n →
        (∃ k, e'.chainOf^[k] (e'.headAt s.params p) = p) ∧ p ≤ e'.headAt s.params p ∧
        (∀ q < p, e'.hash3 s.params q = e'.hash3 s.params p → q ≤ e'.chainOf p) ∧
        (e'.chainOf p ≠ 0 → e'.chainOf p < p ∧ e'.hash3 s.params (e'.chainOf p) = e'.hash3 s.params p)) ∧
      e'.strstart = n ∧ e'.blockStart = (n : Int) ∧ e'.insert = min n 2 ∧ e'.lookahead = 0 ∧ e'.matchLength = 2 ∧
      e'.prevLength = 2 ∧ e'.matchAvailable = false

/-! ## The decoder's commands -/

/-- R366, R404 (DEC_SET_DICT): on a decoder that has not started, the last `W` bytes of the input buffer become the newest history, the
last byte newest, in front of what history there was; nothing is consumed, and nothing else changes. -/
def Obligations.DecSetDictBecomesHistory : Prop :=
  ∀ (s : State) (d : Dec), s.stream = .dec d → d.Ok → d.started = false → d.mode = .type → s.rangesOk = true →
    ∃ d' : Dec, exec .decSetDict s = .next { s with
        stream := .dec d', status := { result := .ok, subkind := 0, mode := 2, estate := 0 }, phase := .idle } ∧
      d' = { d with dwin := d'.dwin, wnext := d'.wnext, whave := min (d.whave + s.inLen.toNat) d.w } ∧
      (∀ j, 1 ≤ j → j ≤ min s.inLen.toNat d.w →
        d'.back j = s.mem.read (s.inAddr + BitVec.ofNat 32 (s.inLen.toNat - j)).toNat) ∧
      (∀ j, 1 ≤ j → min s.inLen.toNat d.w + j ≤ d.w → d'.back (min s.inLen.toNat d.w + j) = d.back j)

/-- R360, R361: the search over bytes finds the marker `00 00 FF FF` exactly where it stands first, and looks at no byte after it; where it
does not stand, all bytes are looked at. -/
def Obligations.MarkerSearchIsExact : Prop :=
  ∀ bytes : List Byte,
    (((searchMarker 0 bytes).1 = 4 ↔ [(0x00 : Byte), 0x00, 0xFF, 0xFF] <:+: bytes) ∧
      ((searchMarker 0 bytes).1 = 4 → [(0x00 : Byte), 0x00, 0xFF, 0xFF] <:+ bytes.take (searchMarker 0 bytes).2 ∧
        ∀ m < (searchMarker 0 bytes).2, ¬ [(0x00 : Byte), 0x00, 0xFF, 0xFF] <:+: bytes.take m) ∧
      ((searchMarker 0 bytes).1 < 4 → (searchMarker 0 bytes).2 = bytes.length)) ∧
    ∀ more, searchMarker 0 (bytes ++ more) =
      if (searchMarker 0 bytes).1 = 4 then searchMarker 0 bytes
      else ((searchMarker (searchMarker 0 bytes).1 more).1, bytes.length + (searchMarker (searchMarker 0 bytes).1 more).2)

/-- R360, R362, R363, R406 (DEC_SYNC): in any mode of the decoder the command completes. With no input and no whole byte held
only `started` is set; else the search goes on from where it stood, a new one first going over the whole bytes held. When the marker is found, the
decoder is reset as by DEC_INIT, its window size kept and `started` set, and the bytes looked at are consumed; else all input is, in
mode SYNC. (That the code tables and the window RAM are kept then, where DEC_INIT leaves them open, is the model's choice: log entries 5
and 6. `err` is 0 from then on: log entry 21. That `started` is set in every case follows R68 and D20, not R360's text: log entry
34.) -/
def Obligations.DecSyncSearches : Prop :=
  ∀ (s : State) (d : Dec) (got n : Nat) (matched : Nat), s.stream = .dec d → s.rangesOk = true →
    matched = (if d.mode = .sync then d.syncHave
      else (searchMarker 0 (heldBytes (d.bits / 8) (d.hold >>> (d.bits % 8)))).1) →
    (got, n) = searchMarker matched ((s.io 0 0).inBytes 0 s.inLen.toNat) →
    (s.inLen = 0 → d.bits < 8 → exec .decSync s = .next { s with
      stream := .dec { d with started := true },
      status := { result := .needMoreInput, subkind := 0, mode := 2, estate := d.mode.code }, phase := .idle }) ∧
    (s.inLen ≠ 0 ∨ 8 ≤ d.bits →
      (got < 4 → exec .decSync s = .next { s with
        inAddr := s.inAddr + BitVec.ofNat 32 n, inLen := s.inLen - BitVec.ofNat 32 n, totalIn := s.totalIn + BitVec.ofNat 32 n,
        stream := .dec { d with
          mode := .sync, syncHave := got, started := true,
          hold := if d.mode = .sync then d.hold else 0, bits := if d.mode = .sync then d.bits else 0,
          err := if d.mode = .sync then d.err else 0 },
        status := { result := .needMoreInput, subkind := 0, mode := 2, estate := 14 }, phase := .idle }) ∧
      (4 ≤ got → exec .decSync s = .next { s with
        inAddr := s.inAddr + BitVec.ofNat 32 n, inLen := s.inLen - BitVec.ofNat 32 n, totalIn := s.totalIn + BitVec.ofNat 32 n,
        stream := .dec { d with
          mode := .type, last := false, hold := 0, bits := 0, wnext := 0, whave := 0, length := 0, offset := 0, extra := 0,
          nlen := 0, ndist := 0, ncode := 0, have_ := 0, lens := List.replicate 320 0, err := 0, started := true,
          syncHave := 0 },
        status := { result := .ok, subkind := 0, mode := 2, estate := 0 }, phase := .idle }))

/-- R400, R401, R370 with R35, R36, R38, R81 (DEC_STEP): on every decoder not in SYNC the command completes. It has read `n` bytes and
written `m`. NEED_MORE_INPUT means that all input is consumed, NEED_MORE_OUTPUT that the output is full, STREAM_END that the decoder
is DONE, MALFORMED_STREAM that it is BAD with its sub-kind in STATUS; there is no other result. Only the output bytes of host memory
change, the latched configuration is kept and the decoder is in order. -/
def Obligations.DecStepCompletes : Prop :=
  ∀ (s : State) (d : Dec), s.stream = .dec d → d.Ok → s.mem.wf = true → d.mode ≠ .sync → s.rangesOk = true →
    ∃ (t : State) (d' : Dec) (n m : Nat), exec .decStep s = .next t ∧ t.stream = .dec d' ∧ s.Moved t n m ∧
      t.status.mode = 2 ∧ t.status.estate = d'.mode.code ∧
      ((t.status.result = .needMoreInput ∧ t.status.subkind = 0 ∧ t.inLen = 0) ∨
        (t.status.result = .needMoreOutput ∧ t.status.subkind = 0 ∧ t.outLen = 0) ∨
        (t.status.result = .streamEnd ∧ t.status.subkind = 0 ∧ d'.mode = .done) ∨
        (t.status.result = .malformedStream ∧ t.status.subkind = BitVec.ofNat 4 d'.err ∧ d'.mode = .bad ∧ 1 ≤ d'.err ∧
          d'.err ≤ 11)) ∧
      d'.started = true ∧ d'.wbits = d.wbits ∧ d'.allowSingleCode = d.allowSingleCode ∧ d'.Ok

/-- R311, R400: a DEC_STEP is the state actions of R311 one after another, from the decoder with `started` set and no byte consumed, until
one of them ends the command. -/
def Obligations.DecStepRunsStateActions : Prop :=
  ∀ (s : State) (d : Dec), s.stream = .dec d → d.Ok → d.mode ≠ .sync → s.rangesOk = true →
    ∃ t, exec .decStep s = .next t ∧ t.phase = .idle ∧
      Relation.ReflTransGen State.Acts { s with stream := .dec { d with started := true }, phase := .decoding 0 0 } t

/-- R355, R365, R400: a decoder in DONE answers every DEC_STEP with STREAM_END, one in BAD with MALFORMED_STREAM and the same sub-kind; nothing
is consumed or produced, and only `started` is set. -/
def Obligations.EndStatesAreSticky : Prop :=
  ∀ (s : State) (d : Dec), s.stream = .dec d → s.rangesOk = true →
    (d.mode = .done → exec .decStep s = .next { s with
      stream := .dec { d with started := true },
      status := { result := .streamEnd, subkind := 0, mode := 2, estate := 12 }, phase := .idle }) ∧
    (d.mode = .bad → exec .decStep s = .next { s with
      stream := .dec { d with started := true },
      status := { result := .malformedStream, subkind := BitVec.ofNat 4 d.err, mode := 2, estate := 13 }, phase := .idle })

/-! ## Elements of the bitstream -/

/-- R314, R315, R316 (BLOCK_STORED, BLOCK_FIXED, BLOCK_DYNAMIC, BLOCK_RESERVED): a header takes 3 bits and keeps BFINAL; then comes the
mode of its block, with the fixed codes for a fixed block, and the reserved type is malformed. With too little input the decoder
suspends, holding what there is (R181). -/
def Obligations.BlockHeaders : Prop :=
  ∀ (s : State) (d : Dec) (c p : Nat) (f : Bool), s.At d c p .type →
    let r := (s.runAt d c p).after 3
    ((s.runAt d c p).offers 3 →
      exec (.blockStored f) s = .next (s.point { r with d := { r.d with last := f, mode := .stored } }) ∧
      exec (.blockFixed f) s = .next (s.point { r with d := { r.d with
        last := f, mode := .len, lencode := fixedLitCode, distcode := fixedDistCode } }) ∧
      exec (.blockDynamic f) s = .next (s.point { r with d := { r.d with last := f, mode := .table } }) ∧
      exec (.blockReserved f) s = .next (s.malformed { r with d := { r.d with last := f } } 1)) ∧
    (¬ (s.runAt d c p).offers 3 → ∀ i, i.mode = some .type →
      exec i s = .next (s.suspended (s.runAt d c p).drained .needMoreInput))

/-- R320, R321, R322 (STORED_LEN): the rest of the byte is dropped and 32 bits are read; a pair that does not match is malformed with
sub-kind 2; else what both buffers allow of the LEN bytes is copied. -/
def Obligations.StoredLengthPair : Prop :=
  ∀ (s : State) (d : Dec) (c p : Nat) (len nlen : BitVec 16), s.At d c p .stored → s.DecOk → s.rangesOk = true →
    s.mem.wf = true →
    let r := (s.runAt d c p).after (d.bits % 8)
    (r.offers 32 →
      (nlen = ~~~len → exec (.storedLen len nlen) s =
        .next (s.afterCopy { r.after 32 with d := { (r.after 32).d with length := len.toNat, hold := 0, bits := 0 } })) ∧
      (nlen ≠ ~~~len → exec (.storedLen len nlen) s = .next (s.malformed (r.pulled 32) 2))) ∧
    (¬ r.offers 32 → exec (.storedLen len nlen) s = .next (s.suspended r.drained .needMoreInput))

/-- R323 (DYNAMIC_COUNTS): 14 bits give the three counts; more than 286 literal/length or 30 distance codes are malformed with sub-kind
3; with too little input the decoder suspends (R181). -/
def Obligations.DynamicCounts : Prop :=
  ∀ (s : State) (d : Dec) (c p : Nat) (hlit hdist : BitVec 5) (hclen : BitVec 4), s.At d c p .table →
    let r := (s.runAt d c p).after 14
    let d' : Dec := { r.d with nlen := hlit.toNat + 257, ndist := hdist.toNat + 1, ncode := hclen.toNat + 4 }
    ((s.runAt d c p).offers 14 → hlit.toNat + 257 ≤ 286 ∧ hdist.toNat + 1 ≤ 30 →
      exec (.dynamicCounts hlit hdist hclen) s = .next (s.point { r with d := { d' with have_ := 0, mode := .lenLens } })) ∧
    ((s.runAt d c p).offers 14 → 286 < hlit.toNat + 257 ∨ 30 < hdist.toNat + 1 →
      exec (.dynamicCounts hlit hdist hclen) s = .next (s.malformed { r with d := d' } 3)) ∧
    (¬ (s.runAt d c p).offers 14 →
      exec (.dynamicCounts hlit hdist hclen) s = .next (s.suspended (s.runAt d c p).drained .needMoreInput))

/-- R324, R325 (CODE_LENGTH_CODE_LENGTHS): the fields go to the symbols in transmission order, from the first that is still due; once all
are there the symbols not sent get length 0, and the 19 lengths must be a complete code: it is the code-length code from then on, or
the stream is malformed with sub-kind 4. Where the input has only the first `k` fields whole, those are taken, and the decoder
suspends holding the rest. -/
def Obligations.CodeLengthCodeLengths : Prop :=
  ∀ (s : State) (d : Dec) (c p : Nat) (v : List (BitVec 3)), s.At d c p .lenLens → 1 ≤ v.length →
    v.length ≤ d.ncode - d.have_ →
    ∃ (k : Nat) (lens : List Nat), k = min v.length ((d.bits + 8 * (s.runAt d c p).io.availIn) / 3) ∧ lens.length = 320 ∧
      (∀ j < 19, lens.getD (blOrder.getD j 0) 0 =
        if d.have_ ≤ j ∧ j < d.have_ + k then (v.getD (j - d.have_) 0).toNat
        else if d.have_ + k = d.ncode ∧ d.ncode ≤ j then 0
        else d.lens.getD (blOrder.getD j 0) 0) ∧
      (∀ n, 19 ≤ n → lens.getD n 0 = d.lens.getD n 0) ∧
      (let r := (s.runAt d c p).after (3 * k)
      (k = v.length → d.have_ + k < d.ncode → exec (.codeLengthCodeLengths v) s =
        .next (s.point { r with d := { r.d with lens := lens, have_ := d.have_ + k } })) ∧
      (k = v.length → d.have_ + k = d.ncode → acceptable d.allowSingleCode (lens.take 19) .codes = true →
        exec (.codeLengthCodeLengths v) s = .next (s.point { r with d := { r.d with
          lens := lens, clcode := canonicalCode (lens.take 19), have_ := 0, mode := .codeLens } })) ∧
      (k = v.length → d.have_ + k = d.ncode → acceptable d.allowSingleCode (lens.take 19) .codes = false →
        exec (.codeLengthCodeLengths v) s =
          .next (s.malformed { r with d := { r.d with lens := lens, have_ := d.ncode } } 4)) ∧
      (k < v.length → exec (.codeLengthCodeLengths v) s =
        .next (s.suspended { r.drained with d := { r.drained.d with lens := lens, have_ := d.have_ + k } } .needMoreInput)))

/-- R326, R327 (CL_LENGTH, CL_REPEAT_PREV, CL_REPEAT_ZERO_SHORT, CL_REPEAT_ZERO_LONG): while lengths are still due after it, a code-length
symbol takes its code and its extra bits and writes the one length, or the last length 3 to 6 times, or 0 for 3 to 10 or 11 to 138
times. -/
def Obligations.CodeLengthSymbols : Prop :=
  ∀ (s : State) (d : Dec) (c p : Nat) (i : Instr) (sym w v count : Nat), s.At d c p .codeLens →
    ((∃ l : BitVec 4, i = .clLength l ∧ sym = l.toNat ∧ w = 0 ∧ v = l.toNat ∧ count = 1) ∨
      (∃ e : BitVec 2, i = .clRepeatPrev e ∧ sym = 16 ∧ w = 2 ∧ 0 < d.have_ ∧ v = d.lens.getD (d.have_ - 1) 0 ∧
        count = 3 + e.toNat) ∨
      (∃ e : BitVec 3, i = .clRepeatZeroShort e ∧ sym = 17 ∧ w = 3 ∧ v = 0 ∧ count = 3 + e.toNat) ∨
      (∃ e : BitVec 7, i = .clRepeatZeroLong e ∧ sym = 18 ∧ w = 7 ∧ v = 0 ∧ count = 11 + e.toNat)) →
    d.have_ + count < d.nlen + d.ndist → (s.runAt d c p).offers (d.clcode.lengthOf sym + w) →
    let r := (s.runAt d c p).after (d.clcode.lengthOf sym + w)
    exec i s = .next (s.point { r with d := { r.d with
      lens := setRun d.lens d.have_ count v, have_ := d.have_ + count } })

/-- R328, R329 with R326: the symbol that gives the last length due ends the state. The end-of-block symbol must have a length (sub-kind
6), then both sets must be acceptable (sub-kinds 7 and 8); they are the codes of the block from then on. -/
def Obligations.LastCodeLength : Prop :=
  ∀ (s : State) (d : Dec) (c p : Nat) (i : Instr) (sym w v count : Nat), s.At d c p .codeLens →
    ((∃ l : BitVec 4, i = .clLength l ∧ sym = l.toNat ∧ w = 0 ∧ v = l.toNat ∧ count = 1) ∨
      (∃ e : BitVec 2, i = .clRepeatPrev e ∧ sym = 16 ∧ w = 2 ∧ 0 < d.have_ ∧ v = d.lens.getD (d.have_ - 1) 0 ∧
        count = 3 + e.toNat) ∨
      (∃ e : BitVec 3, i = .clRepeatZeroShort e ∧ sym = 17 ∧ w = 3 ∧ v = 0 ∧ count = 3 + e.toNat) ∨
      (∃ e : BitVec 7, i = .clRepeatZeroLong e ∧ sym = 18 ∧ w = 7 ∧ v = 0 ∧ count = 11 + e.toNat)) →
    d.have_ + count = d.nlen + d.ndist → (s.runAt d c p).offers (d.clcode.lengthOf sym + w) →
    let r := (s.runAt d c p).after (d.clcode.lengthOf sym + w)
    let lens := setRun d.lens d.have_ count v
    let lit := lens.take d.nlen
    let dist := (lens.drop d.nlen).take d.ndist
    let r' : DecRun := { r with d := { r.d with lens := lens, have_ := d.have_ + count } }
    (lens.getD 256 0 = 0 → exec i s = .next (s.malformed r' 6)) ∧
    (lens.getD 256 0 ≠ 0 → acceptable d.allowSingleCode lit .lens = false → exec i s = .next (s.malformed r' 7)) ∧
    (lens.getD 256 0 ≠ 0 → acceptable d.allowSingleCode lit .lens = true →
      acceptable d.allowSingleCode dist .dists = false → exec i s = .next (s.malformed r' 8)) ∧
    (lens.getD 256 0 ≠ 0 → acceptable d.allowSingleCode lit .lens = true →
      acceptable d.allowSingleCode dist .dists = true →
      exec i s = .next (s.point { r' with d := { r'.d with
        lencode := canonicalCode lit, distcode := canonicalCode dist, mode := .len } }))

/-- R326 (sub-kind 5), R181: a repeat of the last length where there is none, and a repeat past the lengths that are due, are malformed;
where the input has not the code and its extra bits whole, the entry is left unread, also the first of the sequence. A length's entry is
awaited as well. -/
def Obligations.BadRepeats : Prop :=
  ∀ (s : State) (d : Dec) (c p : Nat), s.At d c p .codeLens →
    (∀ e : BitVec 2, d.have_ = 0 → (s.runAt d c p).offers (d.clcode.lengthOf 16 + 2) →
      exec (.clRepeatPrev e) s =
        .next (s.malformed (((s.runAt d c p).pulled (d.clcode.lengthOf 16 + 2)).dropBits (d.clcode.lengthOf 16)) 5)) ∧
    (∀ (i : Instr) (sym w count : Nat),
      ((∃ e : BitVec 2, i = .clRepeatPrev e ∧ sym = 16 ∧ w = 2 ∧ count = 3 + e.toNat) ∨
        (∃ e : BitVec 3, i = .clRepeatZeroShort e ∧ sym = 17 ∧ w = 3 ∧ count = 3 + e.toNat) ∨
        (∃ e : BitVec 7, i = .clRepeatZeroLong e ∧ sym = 18 ∧ w = 7 ∧ count = 11 + e.toNat)) →
      ((sym = 16 → 0 < d.have_) → (s.runAt d c p).offers (d.clcode.lengthOf sym + w) → d.nlen + d.ndist < d.have_ + count →
        exec i s = .next (s.malformed ((s.runAt d c p).after (d.clcode.lengthOf sym + w)) 5)) ∧
      (¬ (s.runAt d c p).offers (d.clcode.lengthOf sym + w) →
        exec i s = .next (s.suspended (s.runAt d c p).drained .needMoreInput))) ∧
    (∀ l : BitVec 4, ¬ (s.runAt d c p).offers (d.clcode.lengthOf l.toNat) →
      exec (.clLength l) s = .next (s.suspended (s.runAt d c p).drained .needMoreInput))

/-- R340, R345, R312 (LITERAL, END_OF_BLOCK): the symbol's code is taken; a literal is written to the output and to the window, or owed in
mode LIT where the output is full; the end of the block leads back to TYPE. Where the input has not the code whole, the decoder
suspends holding what there is (R335). -/
def Obligations.LiteralAndEndOfBlock : Prop :=
  ∀ (s : State) (d : Dec) (c p : Nat), s.At d c p .len →
    (∀ b : Byte, let r := (s.runAt d c p).after (d.lencode.lengthOf b.toNat)
      ((s.runAt d c p).offers (d.lencode.lengthOf b.toNat) → p < s.outLen.toNat → exec (.literal b) s =
        .next (s.point (DecRun.wrote [b] { r with d := { r.d with length := b.toNat } }))) ∧
      ((s.runAt d c p).offers (d.lencode.lengthOf b.toNat) → s.outLen.toNat ≤ p → exec (.literal b) s =
        .next (s.suspended { r with d := { r.d with length := b.toNat, mode := .lit } } .needMoreOutput)) ∧
      (¬ (s.runAt d c p).offers (d.lencode.lengthOf b.toNat) →
        exec (.literal b) s = .next (s.suspended (s.runAt d c p).drained .needMoreInput))) ∧
    ((s.runAt d c p).offers (d.lencode.lengthOf 256) →
      exec .endOfBlock s = .next (s.point { (s.runAt d c p).after (d.lencode.lengthOf 256) with
        d := { ((s.runAt d c p).after (d.lencode.lengthOf 256)).d with mode := .type } })) ∧
    (¬ (s.runAt d c p).offers (d.lencode.lengthOf 256) →
      exec .endOfBlock s = .next (s.suspended (s.runAt d c p).drained .needMoreInput))

/-- R340, R342 with R121 (LENGTH_257 to LENGTH_285): a length symbol gives the length of its base and its extra bits, and the distance
follows; where only the code is there, the symbol is consumed and its extra bits are awaited in LENEXT. -/
def Obligations.LengthSymbols : Prop :=
  ∀ (s : State) (d : Dec) (c p : Nat) (i : Instr) (sym w e : Nat), s.At d c p .len → i.shape = .lit sym w e → 257 ≤ sym →
    sym ≤ 285 →
    w = lenExtra.getD (sym - 257) 0 ∧ e < 2 ^ w ∧
    ((s.runAt d c p).offers (d.lencode.lengthOf sym + w) →
      let r := (s.runAt d c p).after (d.lencode.lengthOf sym + w)
      exec i s = .next (s.point { r with d := { r.d with
        length := lenBase.getD (sym - 257) 0 + e, extra := w, mode := .dist } })) ∧
    ((s.runAt d c p).offers (d.lencode.lengthOf sym) → ¬ (s.runAt d c p).offers (d.lencode.lengthOf sym + w) →
      exec i s = .next (s.suspended { (s.runAt d c p).drained.dropBits (d.lencode.lengthOf sym) with
        d := { ((s.runAt d c p).drained.dropBits (d.lencode.lengthOf sym)).d with
          length := lenBase.getD (sym - 257) 0, extra := w, mode := .lenExt } } .needMoreInput)) ∧
    (¬ (s.runAt d c p).offers (d.lencode.lengthOf sym) →
      exec i s = .next (s.suspended (s.runAt d c p).drained .needMoreInput))

/-- R343, R344, R352 with R122 (DISTANCE_0 to DISTANCE_29): a distance symbol gives the distance of its base and its extra bits; one that
reaches behind the history is malformed with sub-kind 11; else the match is copied as far as there is space, byte by byte from the
history, repeating it where it is longer than its distance. Where only the code is there, DISTEXT awaits the extra bits; where not even
that is, the decoder suspends. -/
def Obligations.DistanceSymbols : Prop :=
  ∀ (s : State) (d : Dec) (c p : Nat) (i : Instr) (sym w e : Nat), s.At d c p .dist → i.shape = .dist sym w e → sym ≤ 29 →
    w = distExtra.getD sym 0 ∧ e < 2 ^ w ∧
    ((s.runAt d c p).offers (d.distcode.lengthOf sym + w) →
      let r := (s.runAt d c p).after (d.distcode.lengthOf sym + w)
      let r' : DecRun := { r with d := { r.d with offset := distBase.getD sym 0 + e, extra := w } }
      (distBase.getD sym 0 + e ≤ d.whave → exec i s = .next (s.afterMatch r')) ∧
      (d.whave < distBase.getD sym 0 + e → exec i s = .next (s.malformed r' 11))) ∧
    ((s.runAt d c p).offers (d.distcode.lengthOf sym) → ¬ (s.runAt d c p).offers (d.distcode.lengthOf sym + w) →
      exec i s = .next (s.suspended { (s.runAt d c p).drained.dropBits (d.distcode.lengthOf sym) with
        d := { ((s.runAt d c p).drained.dropBits (d.distcode.lengthOf sym)).d with
          offset := distBase.getD sym 0, extra := w, mode := .distExt } } .needMoreInput)) ∧
    (¬ (s.runAt d c p).offers (d.distcode.lengthOf sym) →
      exec i s = .next (s.suspended (s.runAt d c p).drained .needMoreInput))

/-- R125, R315, R321, R323, R341, R343, R356: each reserved or invalid encoding of the bitstream completes and is malformed, also after
output: the command ends with MALFORMED_STREAM and its sub-kind, the decoder is in BAD, nothing more is written, the cursors and the
totals have moved past the bytes that the DEC_STEP has consumed and produced, and no other register of the host but STATUS changes. -/
def Obligations.ReservedEncodingsAreMalformed : Prop :=
  ∀ (s : State) (d : Dec) (c p : Nat) (m : DecMode) (i : Instr) (k need : Nat), s.At d c p m →
    ((∃ f, i = .blockReserved f ∧ m = .type ∧ k = 1 ∧ need = 3) ∨
      (∃ l n, i = .storedLen l n ∧ n ≠ ~~~l ∧ m = .stored ∧ k = 2 ∧ need = d.bits % 8 + 32) ∨
      (∃ a b x, i = .dynamicCounts a b x ∧ (30 ≤ a.toNat ∨ 30 ≤ b.toNat) ∧ m = .table ∧ k = 3 ∧ need = 14) ∨
      (∃ odd, i = .litlenReserved odd ∧ m = .len ∧ k = 9 ∧ need = d.lencode.lengthOf (if odd then 287 else 286)) ∨
      (∃ odd, i = .distanceReserved odd ∧ m = .dist ∧ k = 10 ∧ need = d.distcode.lengthOf (if odd then 31 else 30))) →
    (s.runAt d c p).offers need →
    ∃ (t : State) (d' : Dec), exec i s = .next t ∧ t.stream = .dec d' ∧ d'.mode = .bad ∧ d'.err = k ∧
      t.status = { result := .malformedStream, subkind := BitVec.ofNat 4 k, mode := 2, estate := 13 } ∧ t.phase = .idle ∧
      t.mem = s.mem ∧ t.cfg = s.cfg ∧
      (let n := c + (s.runAt d c p).pulls need
      t.inAddr = s.inAddr + BitVec.ofNat 32 n ∧ t.inLen = s.inLen - BitVec.ofNat 32 n ∧
        t.totalIn = s.totalInSeen + BitVec.ofNat 32 n) ∧
      t.outAddr = s.outAddr + BitVec.ofNat 32 p ∧ t.outLen = s.outLen - BitVec.ofNat 32 p ∧
      t.totalOut = s.totalOutSeen + BitVec.ofNat 32 p

/-- R311, R313, R322, R342, R344, R345, R352, R355: the state actions that execute no whole element: the end of the stream after the
final block, and every mode in which a command may have suspended, taken up again where it stopped. Where the stream ends inside an
element, the step does what `exec` of that element does with the part that is there (R181, R324, R335; log entry 31). Bits that no code
begins with, and that begin no code, are malformed with sub-kind 9 or 10 and consumed up to the one that shows it (R332, R335, R336,
R341, R343). -/
def Obligations.SuspendedActionsResume : Prop :=
  ∀ (s : State) (d : Dec) (c p : Nat), s.stream = .dec d → s.phase = .decoding c p → d.Ok → s.DecOk → s.quiet →
    s.bufferOnDevice = false →
    let r := s.runAt d c p
    (d.mode = .type → d.last = true → step s = .next (s.point { r with d := { d with
      hold := d.hold >>> (d.bits % 8), bits := d.bits - d.bits % 8, mode := .done } })) ∧
    (d.mode = .copy → s.rangesOk = true → s.mem.wf = true → step s = .next (s.afterCopy r)) ∧
    (d.mode = .lenExt →
      (r.offers d.extra → step s = .next (s.point { r.after d.extra with d := { (r.after d.extra).d with
        length := d.length + natOfBits (r.stream.take d.extra), mode := .dist } })) ∧
      (¬ r.offers d.extra → step s = .next (s.suspended r.drained .needMoreInput))) ∧
    (d.mode = .distExt →
      (r.offers d.extra → 1 ≤ d.offset →
        let r' : DecRun := { r.after d.extra with d := { (r.after d.extra).d with
          offset := d.offset + natOfBits (r.stream.take d.extra) } }
        (r'.d.offset ≤ d.whave → step s = .next (s.afterMatch r')) ∧
        (d.whave < r'.d.offset → step s = .next (s.malformed r' 11))) ∧
      (¬ r.offers d.extra → step s = .next (s.suspended r.drained .needMoreInput))) ∧
    (d.mode = .copyMatch → 1 ≤ d.offset → d.offset ≤ d.w → step s = .next (s.afterMatch r)) ∧
    (d.mode = .lit →
      (p < s.outLen.toNat → step s = .next (s.point (DecRun.wrote [BitVec.ofNat 8 d.length]
        { r with d := { d with mode := .len } }))) ∧
      (s.outLen.toNat ≤ p → step s = .next (s.suspended r .needMoreOutput))) ∧
    (d.mode = .done → step s = .next (s.suspended r .streamEnd)) ∧
    (∀ (i : Instr) (rest : List Bool), i.mode = some d.mode → (d.mode = .type → d.last = false) → i.wf = true →
      i.hasCode d.codes = true → (∀ v, i = .codeLengthCodeLengths v → v.length = d.ncode - d.have_) →
      (d.mode = .codeLens → d.have_ < d.nlen + d.ndist) → rest ≠ [] →
      (if d.mode = .stored then r.byteBits.stream else r.stream) ++ rest = encode d.codes i → step s = exec i s) ∧
    (∀ (code : Code) (sub k : Nat), (d.mode = .len ∧ code = d.lencode ∧ sub = 9) ∨ (d.mode = .dist ∧ code = d.distcode ∧ sub = 10) →
      1 ≤ k → r.offers k → (∀ e ∈ code, ¬ e.wire <+: r.stream.take k ∧ ¬ r.stream.take k <+: e.wire) →
      (∀ j, 1 ≤ j → j < k → ∃ e ∈ code, r.stream.take j <+: e.wire) → step s = .next (s.malformed (r.after k) sub))

/-- Where an element runs: at a point of a DEC_STEP that awaits an element of its mode it always answers with a next state; anywhere else
it is out of place and refused by name (the model's choice, log entry 19: no such run exists, since a step executes only what it has
decoded). -/
def Obligations.ElementsRunWhereTheyBelong : Prop :=
  ∀ (s : State) (i : Instr) (m : DecMode), i.mode = some m →
    (∀ d c p, s.At d c p m → (∀ v, i = .codeLengthCodeLengths v → v.length ≤ d.ncode - d.have_) → ∃ t, exec i s = .next t) ∧
    ((¬ ∃ d c p, s.stream = .dec d ∧ s.phase = .decoding c p ∧ d.mode = m ∧ (m = .type → d.last = false)) →
      exec i s = .refused .elementOutOfPlace)

/-- R35, R36, R38, R81, R156: what no instruction changes. The parameters, CFG and the model's own fields stay (but the count of free
values, which only DEC_INIT advances, log entry 9), no byte of host memory changes but the output bytes the command writes now, and
the commands that move no bytes leave the cursors and all of host memory. A command writes from its first output byte on, an element
from the output byte its DEC_STEP has come to. -/
def Obligations.FrameOfEveryInstruction : Prop :=
  ∀ (s t : State) (i : Instr), s.DecOk → s.EncOk → s.mem.wf = true → exec i s = .next t →
    (t.params = s.params ∧ t.cfg = s.cfg ∧ t.hostq = s.hostq ∧ t.readData = s.readData) ∧
    (i ≠ .decInit → t.freeCtr = s.freeCtr) ∧
    ((i = .encInit ∨ i = .encSetDict ∨ i = .decInit ∨ i = .decSetDict ∨ i = .endStream) →
      t.inAddr = s.inAddr ∧ t.inLen = s.inLen ∧ t.outAddr = s.outAddr ∧ t.outLen = s.outLen ∧ t.mem = s.mem) ∧
    (i = .encSetDict ∨ i = .decSetDict ∨ i = .endStream → t.totalIn = s.totalIn ∧ t.totalOut = s.totalOut) ∧
    (i = .decSync → t.outAddr = s.outAddr ∧ t.outLen = s.outLen ∧ t.totalOut = s.totalOut ∧ t.mem = s.mem) ∧
    (∀ a, (∀ j, (if i.mode = none then 0 else s.sent) ≤ j → j < s.sentTo t → a ≠ (s.outAddr + BitVec.ofNat 32 j).toNat) → t.mem.read a = s.mem.read a)

/-! ## The encoder's parts -/

/-- R171 to R174: the bit writer. `send_bits` appends the bits of its value to the stream, least significant first; `bi_flush` moves whole
bytes and changes no bit of it; `bi_windup` pads it with fewer than eight zero bits to a whole number of bytes. The held bits above
`bi_valid` stay 0, which is the spec's own inference in R171, from R172 to R174. -/
def Obligations.BitWriterAppends : Prop :=
  ∀ w : BitWriter, w.Ok →
    (∀ v n, 1 ≤ n → n ≤ 16 → v < 2 ^ n →
      (w.sendBits v n).stream = w.stream ++ bitsOf n v ∧ (w.sendBits v n).Ok ∧
        (w.sendBits v n).biValid = if w.biValid + n ≤ 16 then w.biValid + n else w.biValid + n - 16) ∧
    (w.biFlush.stream = w.stream ∧ w.biFlush.Ok ∧ w.biFlush.biValid = w.biValid % 8) ∧
    (∃ pad < 8, (w.biValid + pad) % 8 = 0 ∧ w.biWindup.stream = w.stream ++ List.replicate pad false ∧ w.biWindup.biValid = 0 ∧
      w.biWindup.biBuf = 0)

/-- R271 with R111, R112, and R290 to R293: a stored block is its header, zero bits to the next byte, its length pair and its bytes. The
flush markers: PARTIAL is an empty fixed block; SYNC is an empty stored block and ends in `00 00 FF FF`; FULL is the same and forgets
the history; NO, FINISH and BLOCK write none. (That FULL clears `prev` with the position registers follows R246 and not R292: log entry
32.) -/
def Obligations.StoredBlocksAndMarkers : Prop :=
  (∀ (w : BitWriter) (buf : List Byte) (last : Bool) (k : Codes), w.Ok → buf.length ≤ 65535 →
    ∃ pad < 8, (w.biValid + 3 + pad) % 8 = 0 ∧ (w.storedBlock buf last).biValid = 0 ∧
      (w.storedBlock buf last).stream = w.stream ++ encode k (.blockStored last) ++ List.replicate pad false ++
        encode k (.storedLen (BitVec.ofNat 16 buf.length) (~~~(BitVec.ofNat 16 buf.length))) ++ bitsOfBytes buf) ∧
  (∀ (e : Enc) (ps : Config.Params) (k : Codes), e.bw.Ok → k.lit = fixedLitCode →
    ((e.marker .partialFlush).bw.stream = e.bw.stream ++ encode k (.blockFixed false) ++ encode k .endOfBlock ∧
      (e.marker .partialFlush).bw.biValid ≤ 7 ∧ e.marker .partialFlush = { e with bw := (e.marker .partialFlush).bw }) ∧
    ((e.marker .sync).bw = e.bw.storedBlock [] false ∧ e.marker .sync = { e with bw := (e.marker .sync).bw } ∧
      [(0x00 : Byte), 0x00, 0xFF, 0xFF] <:+ (e.marker .sync).bw.pending.reverse) ∧
    ((e.marker .full).bw = (e.marker .sync).bw ∧ (∀ h, Ram.get ps.hashBits (e.marker .full).head h = 0) ∧
      (e.lookahead = 0 → (∀ q, (e.marker .full).chainOf q = 0) ∧ e.marker .full = { e with
        bw := (e.marker .sync).bw, head := (e.marker .full).head, prev := (e.marker .full).prev, strstart := 0, blockStart := 0,
        insert := 0 }) ∧
      (e.lookahead ≠ 0 → e.marker .full = { e with bw := (e.marker .sync).bw, head := (e.marker .full).head })) ∧
    (e.marker .no = e ∧ e.marker .finish = e ∧ e.marker .block = e))

/-- R268, R269 with R113 and R123: `compress_block` appends the elements of the symbols, in the order they were tallied, and the
end-of-block, each encoded in the canonical codes of the two length sets; a fixed block has its header before them and uses the
fixed codes. -/
def Obligations.BlockBodyIsItsElements : Prop :=
  (∀ (w : BitWriter) (syms : List Sym) (ll dl : List Nat) (k : Codes), w.Ok → (∀ x ∈ syms, x.legal) → (∀ l ∈ ll, l ≤ 15) →
    (∀ l ∈ dl, l ≤ 15) → k.lit = canonicalCode ll → k.dist = canonicalCode dl →
    (w.compressBlock syms (reversedCodes ll) ll (reversedCodes dl) dl).stream =
      w.stream ++ (syms.reverse.flatMap Sym.elements ++ [Instr.endOfBlock]).flatMap (encode k)) ∧
  (∀ (e : Enc) (last : Bool) (k : Codes), e.bw.Ok → (∀ x ∈ e.syms, x.legal) → k.lit = fixedLitCode → k.dist = fixedDistCode →
    (e.writeBlock .fixed last).stream =
      e.bw.stream ++ (Instr.blockFixed last :: (e.syms.reverse.flatMap Sym.elements ++ [Instr.endOfBlock])).flatMap (encode k))

/-- R267 with R118, R119, R120: for trees as the builder makes them (TreeExamples, R197) `send_all_trees` appends the counts, the code-length code lengths in transmission order and the coded
lengths of both trees, which is the dynamic header whose elements these are. -/
def Obligations.TreeDescriptionIsADynamicHeader : Prop :=
  ∀ (e : Enc) (w : BitWriter) (k : Codes), w.Ok → 256 ≤ e.ltree.maxCode → e.ltree.maxCode ≤ 285 → e.dtree.maxCode ≤ 29 →
    3 ≤ e.maxBlindex → e.maxBlindex ≤ 18 → (∀ l ∈ e.ltree.len, l ≤ 15) → (∀ l ∈ e.dtree.len, l ≤ 15) →
    (∀ l ∈ e.bltree.len, l ≤ 7) → (∀ s, e.bltree.code.getD s 0 = (reversedCodes e.bltree.len).getD s 0) →
    k.cl = canonicalCode e.bltree.len →
    (e.sendAllTrees w).stream = w.stream ++
      (Instr.dynamicCounts (BitVec.ofNat 5 (e.ltree.maxCode - 256)) (BitVec.ofNat 5 e.dtree.maxCode)
          (BitVec.ofNat 4 (e.maxBlindex - 3)) ::
        .codeLengthCodeLengths ((blOrder.take (e.maxBlindex + 1)).map fun s => BitVec.ofNat 3 (e.bltree.len.getD s 0)) ::
        e.clSyms.map fun x => clInstr x.sym x.extra).flatMap (encode k)

/-- R263 with R120: the code-length symbols of `scan_tree` stand for just the lengths it scanned, each has the width of its symbol and an
extra value that fits it, and the first is no repeat of a length before it. -/
def Obligations.ScannedLengthsExpandBack : Prop :=
  ∀ t : Tree, (∀ l ∈ t.len, l ≤ 15) →
    expandAll (scanTree t) [] = t.len.take (t.maxCode + 1) ∧
    (∀ x ∈ scanTree t, x.sym ≤ 18 ∧ x.width = clExtra x.sym ∧ x.extra < 2 ^ x.width) ∧
    (∀ x, (scanTree t).head? = some x → x.sym ≠ 16)

/-- R222, R223 with R221: the level table, the block function of each LEVEL and STRATEGY, and the window geometry of each WBITS. -/
def Obligations.LevelsAndBlockFunctions : Prop :=
  ∀ e : Enc,
    (∀ n, e.level = n → n ≤ 9 → [(0, 0, 0, 0), (4, 4, 8, 4), (4, 5, 16, 8), (4, 6, 32, 32), (4, 4, 16, 16), (8, 16, 32, 32),
      (8, 16, 128, 128), (8, 32, 128, 256), (32, 128, 258, 1024), (32, 258, 258, 4096)][n]? =
        some (e.good, e.lazy, e.nice, e.chain)) ∧
    (e.level = 0 → e.blockFn = .stored) ∧
    (e.level ≠ 0 → (e.strategy = .huffmanOnly → e.blockFn = .huff) ∧ (e.strategy = .runLength → e.blockFn = .rle) ∧
      (e.strategy = .default ∨ e.strategy = .filtered → e.blockFn = if e.level ≤ 3 then .fast else .slow)) ∧
    (e.ew = 2 ^ max e.wbits 9 ∧ e.maxDist = e.ew - 262)

/-- R226, R230, R42: `insert_string` makes the position the head of its chain, the head before it its link, and touches no other entry. The
slide moves the upper half of the window down, and every position with it; an entry that pointed into the lower half is NIL. The
distance from a position in the upper half back to `match_start` stays what it was. (That `match_start`, a natural by R43, is taken
modulo 2*EW where it would fall below 0, is the model's choice: log entry 22.) -/
def Obligations.ChainsAndSlide : Prop :=
  ∀ (e : Enc) (ps : Config.Params),
    (∀ p : Nat, (e.insertString ps p).chainOf p = e.headAt ps p ∧
      (∀ q, q % e.ew ≠ p % e.ew → (e.insertString ps p).chainOf q = e.chainOf q) ∧
      (∀ h < 2 ^ ps.hashBits, Ram.get ps.hashBits (e.insertString ps p).head h =
        if h = e.hash3 ps p then p else Ram.get ps.hashBits e.head h) ∧
      e.insertString ps p = { e with head := (e.insertString ps p).head, prev := (e.insertString ps p).prev }) ∧
    (e.Ok ps →
      (∀ j < e.ew, e.slide.winByte j = e.winByte (e.ew + j) ∧ e.slide.winByte (e.ew + j) = e.winByte (e.ew + j)) ∧
      (∀ h, Ram.get ps.hashBits e.slide.head h =
        if e.ew ≤ Ram.get ps.hashBits e.head h then Ram.get ps.hashBits e.head h - e.ew else 0) ∧
      (∀ q, e.slide.chainOf q = if e.ew ≤ e.chainOf q then e.chainOf q - e.ew else 0) ∧
      e.slide.strstart = e.strstart - e.ew ∧
      (e.ew ≤ e.matchStart → e.slide.matchStart = e.matchStart - e.ew) ∧
      (e.matchStart < e.ew → e.slide.matchStart = e.matchStart + 2 * e.ew - e.ew) ∧
      (∀ p start, start ≤ p → p - start < 2 * e.ew → e.distanceFrom p start = p - start) ∧
      (∀ p, e.ew ≤ p → e.slide.distanceFrom (p - e.ew) e.slide.matchStart = e.distanceFrom p e.matchStart) ∧
      e.slide.blockStart = e.blockStart - e.ew ∧ e.slide.insert = min e.insert (e.strstart - e.ew))

/-- R234, R235: `longest_match(cur)` walks the chain from `cur` on, at most as many entries as its budget and never past one at or below
its limit. An entry agrees in `l` bytes where `l` is at most 258 and the lookahead and the bytes from it on equal those from `strstart`
on. No entry walked before a good enough one (`nice`, or the whole lookahead) agrees in more bytes than the result; and the result is
what an entry walked agrees in, and no entry before it, or else the match there was before is kept. -/
def Obligations.MatchesAreTrue : Prop :=
  ∀ (e : Enc) (cur : Nat),
    let budget := if e.good ≤ e.prevLength then e.chain / 4 else e.chain
    let entry : Nat → Nat := fun j => e.chainOf^[j] cur
    let reached : Nat → Prop := fun j => j < budget ∧ ∀ i, 1 ≤ i → i ≤ j → e.strstart - e.maxDist < entry i
    let agrees : Nat → Nat → Prop := fun j l => l ≤ min 258 e.lookahead ∧ ∀ i < l, e.winByte (entry j + i) = e.winByte (e.strstart + i)
    (∀ j, reached j → (∀ i < j, ∀ l, agrees i l → e.prevLength < l → l < min e.nice e.lookahead) →
      ∀ l, agrees j l → l ≤ (e.longestMatch cur).1) ∧
    (((e.longestMatch cur).2 = e.matchStart ∧ (e.longestMatch cur).1 = min e.prevLength e.lookahead) ∨
      ∃ j, reached j ∧ (e.longestMatch cur).2 = entry j ∧ e.prevLength < (e.longestMatch cur).1 ∧
        agrees j (e.longestMatch cur).1 ∧ (∀ i < j, ¬ agrees i (e.longestMatch cur).1) ∧
        ¬ agrees j ((e.longestMatch cur).1 + 1))

/-! ## Invariants -/

/-- R81, R89: every step keeps host memory in its canonical form, so that equal memories are equal data. -/
def Obligations.MemoryStaysCanonical : Prop :=
  ∀ s t : State, s.DecOk → s.EncOk → s.mem.wf = true → step s = .next t → t.mem.wf = true

/-- R40 to R52 (with the bounds of R43), R246, R59 to R68, R185, R196, R427: every step keeps both engines in order, and from such a state no step ends in the fault that
stands for a broken invariant. -/
def Obligations.EnginesStayInOrder : Prop :=
  ∀ s : State, s.DecOk → s.EncOk → (∀ t, step s = .next t → t.DecOk ∧ t.EncOk) ∧ ∀ f, step s ≠ .fault f

/-- R37, R380, R420, R423: after every step STATUS tells the stream that exists and the state of its engine, with a sub-kind of 1 to 11
where the stream is malformed and 0 otherwise. -/
def Obligations.StatusTellsTheStream : Prop :=
  ∀ s t : State, s.DecOk → s.EncOk → s.StatusOk → step s = .next t → t.StatusOk
end

