-- ==== Sys2Proof/Laws/Bits.lean ====
section
/-! SUPPORT. Sys2Proof/Laws/Bits.lean: fields as bit lists (R14), bit reversal (R15) and the reading of fields. -/

namespace Sys2Proof

@[simp] theorem bitsOf_zero (v : Nat) : bitsOf 0 v = [] := rfl

theorem bitsOf_succ (n v : Nat) : bitsOf (n + 1) v = decide (v % 2 = 1) :: bitsOf n (v / 2) := rfl

@[simp] theorem length_bitsOf (n v : Nat) : (bitsOf n v).length = n := by
  induction n generalizing v with
  | zero => rfl
  | succ n ih => simp [bitsOf_succ, ih]

@[simp] theorem natOfBits_nil : natOfBits [] = 0 := rfl

theorem natOfBits_cons (b : Bool) (bs : List Bool) : natOfBits (b :: bs) = (if b then 1 else 0) + 2 * natOfBits bs := rfl

theorem natOfBits_lt (bs : List Bool) : natOfBits bs < 2 ^ bs.length := by
  induction bs with
  | nil => simp
  | cons b bs ih => simp only [natOfBits_cons, List.length_cons, pow_succ]; split <;> omega

/-- Reading a field back gives its low bits. -/
theorem natOfBits_bitsOf (n v : Nat) : natOfBits (bitsOf n v) = v % 2 ^ n := by
  induction n generalizing v with
  | zero => simp [Nat.mod_one]
  | succ n ih =>
    have h : v % 2 ^ (n + 1) = v % 2 + 2 * (v / 2 % 2 ^ n) := by rw [pow_succ, Nat.mul_comm, Nat.mod_mul]
    rw [bitsOf_succ, natOfBits_cons, ih, h]
    rcases Nat.mod_two_eq_zero_or_one v with hv | hv <;> simp [hv]

theorem natOfBits_bitsOf_of_lt {n v : Nat} (h : v < 2 ^ n) : natOfBits (bitsOf n v) = v := by
  rw [natOfBits_bitsOf, Nat.mod_eq_of_lt h]

theorem bitsOf_natOfBits (bs : List Bool) : bitsOf bs.length (natOfBits bs) = bs := by
  induction bs with
  | nil => rfl
  | cons b bs ih =>
    rw [List.length_cons, bitsOf_succ, natOfBits_cons]
    cases b <;> simp [ih, Nat.add_mul_div_left]

theorem bitsOf_mod (n v : Nat) : bitsOf n (v % 2 ^ n) = bitsOf n v := by
  have h := bitsOf_natOfBits (bitsOf n v)
  rwa [natOfBits_bitsOf, length_bitsOf] at h

theorem bitsOf_inj {n v w : Nat} (hv : v < 2 ^ n) (hw : w < 2 ^ n) (h : bitsOf n v = bitsOf n w) : v = w := by
  rw [← natOfBits_bitsOf_of_lt hv, h, natOfBits_bitsOf_of_lt hw]

/-- A field splits into its low and its high part. -/
theorem bitsOf_add (m n v : Nat) : bitsOf (m + n) v = bitsOf m v ++ bitsOf n (v / 2 ^ m) := by
  induction m generalizing v with
  | zero => simp
  | succ m ih =>
    rw [Nat.add_right_comm, bitsOf_succ, bitsOf_succ, ih, Nat.div_div_eq_div_mul, ← pow_succ']
    rfl

theorem drop_bitsOf {m n : Nat} (h : m ≤ n) (v : Nat) : (bitsOf n v).drop m = bitsOf (n - m) (v / 2 ^ m) := by
  obtain ⟨k, rfl⟩ := Nat.exists_eq_add_of_le h
  rw [bitsOf_add, List.drop_left' (length_bitsOf m v), Nat.add_sub_cancel_left]

theorem take_bitsOf {m n : Nat} (h : m ≤ n) (v : Nat) : (bitsOf n v).take m = bitsOf m v := by
  obtain ⟨k, rfl⟩ := Nat.exists_eq_add_of_le h
  rw [bitsOf_add, List.take_left' (length_bitsOf m v)]

theorem or_shiftLeft_eq_add {m v : Nat} (w : Nat) (h : v < 2 ^ m) : v ||| (w <<< m) = v + w * 2 ^ m := by
  rw [Nat.or_comm, Nat.shiftLeft_eq, Nat.mul_comm, ← Nat.two_pow_add_eq_or_of_lt h, Nat.add_comm]

/-- A field put above another one follows it in the stream. -/
theorem bitsOf_or_shiftLeft {m v : Nat} (n w : Nat) (h : v < 2 ^ m) :
    bitsOf (m + n) (v ||| (w <<< m)) = bitsOf m v ++ bitsOf n w := by
  rw [or_shiftLeft_eq_add w h, bitsOf_add, ← bitsOf_mod m (v + _), Nat.add_mul_mod_self_right, Nat.mod_eq_of_lt h,
    Nat.add_mul_div_right _ _ (Nat.two_pow_pos m), Nat.div_eq_of_lt h, Nat.zero_add]

theorem bitsOf_zero_value (n : Nat) : bitsOf n 0 = List.replicate n false := by
  induction n with
  | zero => rfl
  | succ n ih => simp [bitsOf_succ, ih, List.replicate_succ]

theorem takeField_append {n v : Nat} (rest : List Bool) : takeField n (bitsOf n v ++ rest) = some (v % 2 ^ n) := by
  simp [takeField, List.take_left' (length_bitsOf n v), natOfBits_bitsOf]

theorem takeField_eq_none {n : Nat} {bits : List Bool} (h : bits.length < n) : takeField n bits = none := by
  simp [takeField, h]

theorem takeField_eq_some {n : Nat} {bits : List Bool} (h : n ≤ bits.length) :
    takeField n bits = some (natOfBits (bits.take n)) := by
  simp [takeField, Nat.not_lt.mpr h]

@[simp] theorem takeField_zero (bits : List Bool) : takeField 0 bits = some 0 := rfl

/-! ## Bit reversal -/

theorem bitrev_succ (l c : Nat) : bitrev (l + 1) c = (c % 2) * 2 ^ l + bitrev l (c / 2) := rfl

theorem bitrev_lt (l c : Nat) : bitrev l c < 2 ^ l := by
  induction l generalizing c with
  | zero => simp [bitrev]
  | succ l ih =>
    have h := ih (c / 2)
    rcases Nat.mod_two_eq_zero_or_one c with hc | hc <;> simp only [bitrev_succ, pow_succ, hc] <;> omega

/-- Sending the reversed code least significant bit first sends the code most significant bit first (R14, R196). -/
theorem bitsOf_bitrev (l c : Nat) : bitsOf l (bitrev l c) = (bitsOf l c).reverse := by
  induction l generalizing c with
  | zero => rfl
  | succ l ih =>
    rw [bitsOf_succ l c, List.reverse_cons, ← ih, bitsOf_add l 1, bitrev_succ, Nat.add_comm (c % 2 * 2 ^ l),
      Nat.add_mul_div_right _ _ (Nat.two_pow_pos l), Nat.div_eq_of_lt (bitrev_lt l _), Nat.zero_add,
      ← bitsOf_mod l (_ + _), Nat.add_mul_mod_self_right, bitsOf_mod]
    simp [bitsOf_succ]

end Sys2Proof
end

