-- ==== Sys2Proof/Laws/State.lean ====
section
/-! SUPPORT. Sys2Proof/Laws/State.lean: one lemma per field and update of the state and of the cursors, true by rfl, so that no proof
unfolds a record update. -/

namespace Sys2Proof.Machine

open Sys2Proof

/-! ## complete -/

@[simp] theorem State.complete_params (s : State) (c : StreamCtx) (r : Result) : (s.complete c r).params = s.params := rfl
@[simp] theorem State.complete_cfg (s : State) (c : StreamCtx) (r : Result) : (s.complete c r).cfg = s.cfg := rfl
@[simp] theorem State.complete_inAddr (s : State) (c : StreamCtx) (r : Result) : (s.complete c r).inAddr = s.inAddr := rfl
@[simp] theorem State.complete_inLen (s : State) (c : StreamCtx) (r : Result) : (s.complete c r).inLen = s.inLen := rfl
@[simp] theorem State.complete_outAddr (s : State) (c : StreamCtx) (r : Result) : (s.complete c r).outAddr = s.outAddr := rfl
@[simp] theorem State.complete_outLen (s : State) (c : StreamCtx) (r : Result) : (s.complete c r).outLen = s.outLen := rfl
@[simp] theorem State.complete_status (s : State) (c : StreamCtx) (r : Result) : (s.complete c r).status = Status.after r c := rfl
@[simp] theorem State.complete_totalIn (s : State) (c : StreamCtx) (r : Result) : (s.complete c r).totalIn = s.totalIn := rfl
@[simp] theorem State.complete_totalOut (s : State) (c : StreamCtx) (r : Result) : (s.complete c r).totalOut = s.totalOut := rfl
@[simp] theorem State.complete_stream (s : State) (c : StreamCtx) (r : Result) : (s.complete c r).stream = c := rfl
@[simp] theorem State.complete_phase (s : State) (c : StreamCtx) (r : Result) : (s.complete c r).phase = .idle := rfl
@[simp] theorem State.complete_mem (s : State) (c : StreamCtx) (r : Result) : (s.complete c r).mem = s.mem := rfl
@[simp] theorem State.complete_hostq (s : State) (c : StreamCtx) (r : Result) : (s.complete c r).hostq = s.hostq := rfl
@[simp] theorem State.complete_readData (s : State) (c : StreamCtx) (r : Result) : (s.complete c r).readData = s.readData := rfl
@[simp] theorem State.complete_freeCtr (s : State) (c : StreamCtx) (r : Result) : (s.complete c r).freeCtr = s.freeCtr := rfl

/-! ## refuseCommand -/

@[simp] theorem State.refuseCommand_params (s : State) : (s.refuseCommand).params = s.params := rfl
@[simp] theorem State.refuseCommand_cfg (s : State) : (s.refuseCommand).cfg = s.cfg := rfl
@[simp] theorem State.refuseCommand_inAddr (s : State) : (s.refuseCommand).inAddr = s.inAddr := rfl
@[simp] theorem State.refuseCommand_inLen (s : State) : (s.refuseCommand).inLen = s.inLen := rfl
@[simp] theorem State.refuseCommand_outAddr (s : State) : (s.refuseCommand).outAddr = s.outAddr := rfl
@[simp] theorem State.refuseCommand_outLen (s : State) : (s.refuseCommand).outLen = s.outLen := rfl
@[simp] theorem State.refuseCommand_status (s : State) : (s.refuseCommand).status = Status.after .invalidCommand s.stream := rfl
@[simp] theorem State.refuseCommand_totalIn (s : State) : (s.refuseCommand).totalIn = s.totalIn := rfl
@[simp] theorem State.refuseCommand_totalOut (s : State) : (s.refuseCommand).totalOut = s.totalOut := rfl
@[simp] theorem State.refuseCommand_stream (s : State) : (s.refuseCommand).stream = s.stream := rfl
@[simp] theorem State.refuseCommand_phase (s : State) : (s.refuseCommand).phase = .idle := rfl
@[simp] theorem State.refuseCommand_mem (s : State) : (s.refuseCommand).mem = s.mem := rfl
@[simp] theorem State.refuseCommand_hostq (s : State) : (s.refuseCommand).hostq = s.hostq := rfl
@[simp] theorem State.refuseCommand_readData (s : State) : (s.refuseCommand).readData = s.readData := rfl
@[simp] theorem State.refuseCommand_freeCtr (s : State) : (s.refuseCommand).freeCtr = s.freeCtr := rfl

/-! ## finish -/

@[simp] theorem State.finish_params (s : State) (io : Io) (c : StreamCtx) (r : Result) : (s.finish io c r).params = s.params := rfl
@[simp] theorem State.finish_cfg (s : State) (io : Io) (c : StreamCtx) (r : Result) : (s.finish io c r).cfg = s.cfg := rfl
@[simp] theorem State.finish_inAddr (s : State) (io : Io) (c : StreamCtx) (r : Result) : (s.finish io c r).inAddr = s.inAddr + BitVec.ofNat 32 io.consumed := rfl
@[simp] theorem State.finish_inLen (s : State) (io : Io) (c : StreamCtx) (r : Result) : (s.finish io c r).inLen = s.inLen - BitVec.ofNat 32 io.consumed := rfl
@[simp] theorem State.finish_outAddr (s : State) (io : Io) (c : StreamCtx) (r : Result) : (s.finish io c r).outAddr = s.outAddr + BitVec.ofNat 32 io.produced := rfl
@[simp] theorem State.finish_outLen (s : State) (io : Io) (c : StreamCtx) (r : Result) : (s.finish io c r).outLen = s.outLen - BitVec.ofNat 32 io.produced := rfl
@[simp] theorem State.finish_status (s : State) (io : Io) (c : StreamCtx) (r : Result) : (s.finish io c r).status = Status.after r c := rfl
@[simp] theorem State.finish_totalIn (s : State) (io : Io) (c : StreamCtx) (r : Result) : (s.finish io c r).totalIn = io.totalIn := rfl
@[simp] theorem State.finish_totalOut (s : State) (io : Io) (c : StreamCtx) (r : Result) : (s.finish io c r).totalOut = io.totalOut := rfl
@[simp] theorem State.finish_stream (s : State) (io : Io) (c : StreamCtx) (r : Result) : (s.finish io c r).stream = c := rfl
@[simp] theorem State.finish_phase (s : State) (io : Io) (c : StreamCtx) (r : Result) : (s.finish io c r).phase = .idle := rfl
@[simp] theorem State.finish_mem (s : State) (io : Io) (c : StreamCtx) (r : Result) : (s.finish io c r).mem = io.mem := rfl
@[simp] theorem State.finish_hostq (s : State) (io : Io) (c : StreamCtx) (r : Result) : (s.finish io c r).hostq = s.hostq := rfl
@[simp] theorem State.finish_readData (s : State) (io : Io) (c : StreamCtx) (r : Result) : (s.finish io c r).readData = s.readData := rfl
@[simp] theorem State.finish_freeCtr (s : State) (io : Io) (c : StreamCtx) (r : Result) : (s.finish io c r).freeCtr = s.freeCtr := rfl

/-! ## settle -/

@[simp] theorem State.settle_go_params (s : State) (r : DecRun) : (s.settle (.go r)).params = s.params := rfl
@[simp] theorem State.settle_go_cfg (s : State) (r : DecRun) : (s.settle (.go r)).cfg = s.cfg := rfl
@[simp] theorem State.settle_go_inAddr (s : State) (r : DecRun) : (s.settle (.go r)).inAddr = s.inAddr := rfl
@[simp] theorem State.settle_go_inLen (s : State) (r : DecRun) : (s.settle (.go r)).inLen = s.inLen := rfl
@[simp] theorem State.settle_go_outAddr (s : State) (r : DecRun) : (s.settle (.go r)).outAddr = s.outAddr := rfl
@[simp] theorem State.settle_go_outLen (s : State) (r : DecRun) : (s.settle (.go r)).outLen = s.outLen := rfl
@[simp] theorem State.settle_go_status (s : State) (r : DecRun) : (s.settle (.go r)).status = s.status := rfl
@[simp] theorem State.settle_go_totalIn (s : State) (r : DecRun) : (s.settle (.go r)).totalIn = r.io.totalIn := rfl
@[simp] theorem State.settle_go_totalOut (s : State) (r : DecRun) : (s.settle (.go r)).totalOut = r.io.totalOut := rfl
@[simp] theorem State.settle_go_stream (s : State) (r : DecRun) : (s.settle (.go r)).stream = .dec r.d := rfl
@[simp] theorem State.settle_go_phase (s : State) (r : DecRun) : (s.settle (.go r)).phase = .decoding r.io.consumed r.io.produced := rfl
@[simp] theorem State.settle_go_mem (s : State) (r : DecRun) : (s.settle (.go r)).mem = r.io.mem := rfl
@[simp] theorem State.settle_go_hostq (s : State) (r : DecRun) : (s.settle (.go r)).hostq = s.hostq := rfl
@[simp] theorem State.settle_go_readData (s : State) (r : DecRun) : (s.settle (.go r)).readData = s.readData := rfl
@[simp] theorem State.settle_go_freeCtr (s : State) (r : DecRun) : (s.settle (.go r)).freeCtr = s.freeCtr := rfl

@[simp] theorem State.settle_stop (s : State) (res : Result) (r : DecRun) :
    s.settle (.stop res r) = s.finish r.io (.dec r.d) res := rfl

/-! ## resetDfc -/

@[simp] theorem State.resetDfc_params (s : State) : (s.resetDfc).params = s.params := rfl
@[simp] theorem State.resetDfc_cfg (s : State) : (s.resetDfc).cfg = 0x00000F06 := rfl
@[simp] theorem State.resetDfc_inAddr (s : State) : (s.resetDfc).inAddr = 0 := rfl
@[simp] theorem State.resetDfc_inLen (s : State) : (s.resetDfc).inLen = 0 := rfl
@[simp] theorem State.resetDfc_outAddr (s : State) : (s.resetDfc).outAddr = 0 := rfl
@[simp] theorem State.resetDfc_outLen (s : State) : (s.resetDfc).outLen = 0 := rfl
@[simp] theorem State.resetDfc_status (s : State) : (s.resetDfc).status = Status.reset := rfl
@[simp] theorem State.resetDfc_totalIn (s : State) : (s.resetDfc).totalIn = 0 := rfl
@[simp] theorem State.resetDfc_totalOut (s : State) : (s.resetDfc).totalOut = 0 := rfl
@[simp] theorem State.resetDfc_stream (s : State) : (s.resetDfc).stream = .none := rfl
@[simp] theorem State.resetDfc_phase (s : State) : (s.resetDfc).phase = .idle := rfl
@[simp] theorem State.resetDfc_mem (s : State) : (s.resetDfc).mem = s.mem := rfl
@[simp] theorem State.resetDfc_hostq (s : State) : (s.resetDfc).hostq = s.hostq := rfl
@[simp] theorem State.resetDfc_readData (s : State) : (s.resetDfc).readData = s.readData := rfl
@[simp] theorem State.resetDfc_freeCtr (s : State) : (s.resetDfc).freeCtr = s.freeCtr := rfl

/-! ## The cursors -/

@[simp] theorem State.io_mem (s : State) (c p : Nat) : (s.io c p).mem = s.mem := rfl
@[simp] theorem State.io_inAddr (s : State) (c p : Nat) : (s.io c p).inAddr = s.inAddr := rfl
@[simp] theorem State.io_inLen (s : State) (c p : Nat) : (s.io c p).inLen = s.inLen.toNat := rfl
@[simp] theorem State.io_outAddr (s : State) (c p : Nat) : (s.io c p).outAddr = s.outAddr := rfl
@[simp] theorem State.io_outLen (s : State) (c p : Nat) : (s.io c p).outLen = s.outLen.toNat := rfl
@[simp] theorem State.io_consumed (s : State) (c p : Nat) : (s.io c p).consumed = c := rfl
@[simp] theorem State.io_produced (s : State) (c p : Nat) : (s.io c p).produced = p := rfl
@[simp] theorem State.io_totalIn (s : State) (c p : Nat) : (s.io c p).totalIn = s.totalIn := rfl
@[simp] theorem State.io_totalOut (s : State) (c p : Nat) : (s.io c p).totalOut = s.totalOut := rfl

@[simp] theorem Io.consume_mem (io : Io) (n : Nat) : (io.consume n).mem = io.mem := rfl
@[simp] theorem Io.consume_inAddr (io : Io) (n : Nat) : (io.consume n).inAddr = io.inAddr := rfl
@[simp] theorem Io.consume_inLen (io : Io) (n : Nat) : (io.consume n).inLen = io.inLen := rfl
@[simp] theorem Io.consume_outAddr (io : Io) (n : Nat) : (io.consume n).outAddr = io.outAddr := rfl
@[simp] theorem Io.consume_outLen (io : Io) (n : Nat) : (io.consume n).outLen = io.outLen := rfl
@[simp] theorem Io.consume_consumed (io : Io) (n : Nat) : (io.consume n).consumed = io.consumed + n := rfl
@[simp] theorem Io.consume_produced (io : Io) (n : Nat) : (io.consume n).produced = io.produced := rfl
@[simp] theorem Io.consume_totalIn (io : Io) (n : Nat) : (io.consume n).totalIn = io.totalIn + BitVec.ofNat 32 n := rfl
@[simp] theorem Io.consume_totalOut (io : Io) (n : Nat) : (io.consume n).totalOut = io.totalOut := rfl

@[simp] theorem Io.outWrite_mem (io : Io) (b : Byte) : (io.outWrite b).mem = io.mem.write (io.outAt io.produced) b := rfl
@[simp] theorem Io.outWrite_inAddr (io : Io) (b : Byte) : (io.outWrite b).inAddr = io.inAddr := rfl
@[simp] theorem Io.outWrite_inLen (io : Io) (b : Byte) : (io.outWrite b).inLen = io.inLen := rfl
@[simp] theorem Io.outWrite_outAddr (io : Io) (b : Byte) : (io.outWrite b).outAddr = io.outAddr := rfl
@[simp] theorem Io.outWrite_outLen (io : Io) (b : Byte) : (io.outWrite b).outLen = io.outLen := rfl
@[simp] theorem Io.outWrite_consumed (io : Io) (b : Byte) : (io.outWrite b).consumed = io.consumed := rfl
@[simp] theorem Io.outWrite_produced (io : Io) (b : Byte) : (io.outWrite b).produced = io.produced + 1 := rfl
@[simp] theorem Io.outWrite_totalIn (io : Io) (b : Byte) : (io.outWrite b).totalIn = io.totalIn := rfl
@[simp] theorem Io.outWrite_totalOut (io : Io) (b : Byte) : (io.outWrite b).totalOut = io.totalOut + 1 := rfl

@[simp] theorem Io.consume_inAt (io : Io) (n i : Nat) : (io.consume n).inAt i = io.inAt i := rfl
@[simp] theorem Io.consume_outAt (io : Io) (n i : Nat) : (io.consume n).outAt i = io.outAt i := rfl
@[simp] theorem Io.consume_inRead (io : Io) (n i : Nat) : (io.consume n).inRead i = io.inRead i := rfl
@[simp] theorem Io.outWrite_inAt (io : Io) (b : Byte) (i : Nat) : (io.outWrite b).inAt i = io.inAt i := rfl
@[simp] theorem Io.outWrite_outAt (io : Io) (b : Byte) (i : Nat) : (io.outWrite b).outAt i = io.outAt i := rfl
@[simp] theorem Io.consume_availOut (io : Io) (n : Nat) : (io.consume n).availOut = io.availOut := rfl
@[simp] theorem Io.outWrite_availIn (io : Io) (b : Byte) : (io.outWrite b).availIn = io.availIn := rfl
@[simp] theorem Io.consume_availIn (io : Io) (n : Nat) : (io.consume n).availIn = io.availIn - n := by
  simp [Io.availIn, Nat.sub_sub]
@[simp] theorem Io.outWrite_availOut (io : Io) (b : Byte) : (io.outWrite b).availOut = io.availOut - 1 := by
  simp [Io.availOut, Nat.sub_sub]

@[simp] theorem Io.consume_zero (io : Io) : io.consume 0 = io := by simp [Io.consume]
theorem Io.consume_consume (io : Io) (m n : Nat) : (io.consume m).consume n = io.consume (m + n) := by
  simp only [Io.consume, Nat.add_assoc, BitVec.ofNat_add, BitVec.add_assoc]

/-! ## STATUS -/

@[simp] theorem Status.after_result (r : Result) (c : StreamCtx) : (Status.after r c).result = r := rfl
@[simp] theorem Status.after_mode (r : Result) (c : StreamCtx) : (Status.after r c).mode = c.modeTag := rfl
@[simp] theorem Status.after_estate (r : Result) (c : StreamCtx) : (Status.after r c).estate = c.estate := rfl
theorem Status.after_subkind (r : Result) (c : StreamCtx) :
    (Status.after r c).subkind = if r = .malformedStream then BitVec.ofNat 4 c.err else 0 := rfl

end Sys2Proof.Machine
end

