-- ==== Sys2Proof/Laws/BitReader.lean ====
section
/-! SUPPORT. Sys2Proof/Laws/BitReader.lean: what the decoder's bit reader does, in terms of the stream it reads (40_bitio.md R180 to
R186): NEEDBITS settles how many bytes are pulled, DROPBITS drops the front of the stream. -/

namespace Sys2Proof

theorem natOfBits_append (a b : List Bool) : natOfBits (a ++ b) = natOfBits a + natOfBits b * 2 ^ a.length := by
  induction a with
  | nil => simp
  | cons x a ih => simp only [List.cons_append, natOfBits_cons, ih, List.length_cons, pow_succ]; ring

theorem natOfBits_take (n : Nat) (l : List Bool) : natOfBits (l.take n) = natOfBits l % 2 ^ n := by
  rcases Nat.lt_or_ge n l.length with h | h
  · conv_rhs => rw [← List.take_append_drop n l, natOfBits_append, List.length_take, Nat.min_eq_left h.le,
      Nat.add_mul_mod_self_right]
    rw [Nat.mod_eq_of_lt]
    have := natOfBits_lt (l.take n)
    rwa [List.length_take, Nat.min_eq_left h.le] at this
  · rw [List.take_of_length_le h, Nat.mod_eq_of_lt]
    exact lt_of_lt_of_le (natOfBits_lt l) (Nat.pow_le_pow_right (by decide) h)

theorem natOfBits_drop (n : Nat) (l : List Bool) : natOfBits (l.drop n) = natOfBits l >>> n := by
  rw [Nat.shiftRight_eq_div_pow]
  rcases Nat.lt_or_ge n l.length with h | h
  · have hl : (l.take n).length = n := by simp [h.le]
    conv_rhs => rw [← List.take_append_drop n l, natOfBits_append, hl]
    rw [Nat.add_mul_div_right _ _ (Nat.two_pow_pos n), Nat.div_eq_of_lt, Nat.zero_add]
    simpa [hl] using natOfBits_lt (l.take n)
  · rw [List.drop_of_length_le h, Nat.div_eq_of_lt]
    · rfl
    · exact lt_of_lt_of_le (natOfBits_lt l) (Nat.pow_le_pow_right (by decide) h)

theorem bitsOf_natOfBits_of_length {l : List Bool} {n : Nat} (h : l.length = n) : bitsOf n (natOfBits l) = l := by
  subst h; exact bitsOf_natOfBits l

namespace Machine

@[simp] theorem bitsOfBytes_nil : bitsOfBytes [] = [] := rfl

theorem bitsOfBytes_cons (b : Byte) (bs : List Byte) : bitsOfBytes (b :: bs) = bitsOf 8 b.toNat ++ bitsOfBytes bs := rfl

theorem bitsOfBytes_append (a b : List Byte) : bitsOfBytes (a ++ b) = bitsOfBytes a ++ bitsOfBytes b := by
  simp [bitsOfBytes]

@[simp] theorem length_bitsOfBytes (bs : List Byte) : (bitsOfBytes bs).length = 8 * bs.length := by
  induction bs with
  | nil => rfl
  | cons b bs ih => simp [bitsOfBytes_cons, ih]; omega

/-! ## The input bytes -/

@[simp] theorem Io.length_inBytes (io : Io) (i n : Nat) : (io.inBytes i n).length = n := by
  induction n generalizing i with
  | zero => rfl
  | succ n ih => simp [Io.inBytes, ih]

theorem Io.inBytes_add (io : Io) (i m n : Nat) : io.inBytes i (m + n) = io.inBytes i m ++ io.inBytes (i + m) n := by
  induction m generalizing i with
  | zero => simp [Io.inBytes]
  | succ m ih =>
    rw [Nat.add_right_comm, Io.inBytes, Io.inBytes, ih, List.cons_append]
    congr 3; omega

@[simp] theorem Io.consume_inBytes (io : Io) (k i n : Nat) : (io.consume k).inBytes i n = io.inBytes i n := by
  induction n generalizing i with
  | zero => rfl
  | succ n ih => simp [Io.inBytes, ih]

/-! ## Pulling -/

theorem DecRun.length_stream (r : DecRun) : r.stream.length = r.d.bits + 8 * r.io.availIn := by
  simp [DecRun.stream]

/-- The decoder with `j` more bytes held. -/
def DecRun.holding (j : Nat) (r : DecRun) : DecRun :=
  { d := { r.d with hold := natOfBits (r.stream.take (r.d.bits + 8 * j)), bits := r.d.bits + 8 * j }, io := r.io.consume j }

theorem DecRun.stream_take (r : DecRun) {j : Nat} (hj : j ≤ r.io.availIn) :
    r.stream.take (r.d.bits + 8 * j) = bitsOf r.d.bits r.d.hold ++ bitsOfBytes (r.io.inBytes r.io.consumed j) := by
  obtain ⟨k, hk⟩ := Nat.exists_eq_add_of_le hj
  rw [DecRun.stream, hk, Io.inBytes_add, bitsOfBytes_append, ← List.append_assoc]
  apply List.take_left'
  simp

theorem DecRun.stream_drop (r : DecRun) {j : Nat} (hj : j ≤ r.io.availIn) :
    r.stream.drop (r.d.bits + 8 * j) = bitsOfBytes (r.io.inBytes (r.io.consumed + j) (r.io.availIn - j)) := by
  obtain ⟨k, hk⟩ := Nat.exists_eq_add_of_le hj
  rw [DecRun.stream, hk, Io.inBytes_add, bitsOfBytes_append, ← List.append_assoc]
  rw [List.drop_left' (by simp), Nat.add_sub_cancel_left]

theorem DecRun.holding_zero {r : DecRun} (hh : r.d.hold < 2 ^ r.d.bits) : r.holding 0 = r := by
  rw [DecRun.holding, DecRun.stream_take r (Nat.zero_le _)]
  simp [Io.inBytes, natOfBits_bitsOf_of_lt hh]

theorem DecRun.pullByte_holding {r : DecRun} {j : Nat} (hj : j < r.io.availIn) :
    (r.holding j).pullByte = r.holding (j + 1) := by
  have h1 := r.stream_take (Nat.le_of_lt hj)
  have h2 := r.stream_take (Nat.succ_le_of_lt hj)
  have hlen : (r.stream.take (r.d.bits + 8 * j)).length = r.d.bits + 8 * j := by
    rw [List.length_take, DecRun.length_stream]; omega
  have hsplit : r.stream.take (r.d.bits + 8 * (j + 1)) =
      r.stream.take (r.d.bits + 8 * j) ++ bitsOf 8 (r.io.inRead (r.io.consumed + j)).toNat := by
    rw [h1, h2, Nat.succ_eq_add_one, Io.inBytes_add, bitsOfBytes_append]
    simp [Io.inBytes, bitsOfBytes_cons]
  have hb : natOfBits (r.stream.take (r.d.bits + 8 * (j + 1))) =
      natOfBits (r.stream.take (r.d.bits + 8 * j)) ||| ((r.io.inRead (r.io.consumed + j)).toNat <<< (r.d.bits + 8 * j)) := by
    have hlt := natOfBits_lt (r.stream.take (r.d.bits + 8 * j))
    rw [hlen] at hlt
    rw [or_shiftLeft_eq_add _ hlt, hsplit, natOfBits_append, hlen, natOfBits_bitsOf_of_lt]
    exact (r.io.inRead _).isLt
  simp only [DecRun.pullByte, DecRun.holding, Io.consume_inRead, Io.consume_consumed, Io.consume_consume, hb]
  rfl

/-- The loop of NEEDBITS holds as many more bytes as it takes, as the input has, or as its fuel allows. -/
theorem DecRun.pullUpTo_holding (n : Nat) {r : DecRun} : ∀ (k j : Nat), j ≤ r.io.availIn → j ≤ r.pulls n →
    DecRun.pullUpTo k n (r.holding j) = r.holding (min (j + k) (min (r.pulls n) r.io.availIn))
  | 0, j, hj, hp => by
    have : min (j + 0) (min (r.pulls n) r.io.availIn) = j := by omega
    rw [this]; rfl
  | k + 1, j, hj, hp => by
    have hbits : (r.holding j).d.bits = r.d.bits + 8 * j := rfl
    have hcons : (r.holding j).io.consumed = r.io.consumed + j := rfl
    have hlen : (r.holding j).io.inLen = r.io.inLen := rfl
    have hav : r.io.availIn = r.io.inLen - r.io.consumed := rfl
    have hpl : r.pulls n = (n - r.d.bits + 7) / 8 := rfl
    rw [DecRun.pullUpTo, hbits, hcons, hlen]
    split
    · next h =>
      have h1 : j < r.io.availIn := by omega
      rw [DecRun.pullByte_holding h1, DecRun.pullUpTo_holding n k (j + 1) (by omega) (by omega)]
      congr 1; omega
    · next h =>
      have : min (j + (k + 1)) (min (r.pulls n) r.io.availIn) = j := by omega
      rw [this]

theorem DecRun.fill_eq {r : DecRun} (n : Nat) (hh : r.d.hold < 2 ^ r.d.bits) :
    r.fill n = r.holding (min (r.pulls n) r.io.availIn) := by
  have h := DecRun.pullUpTo_holding n (r := r) n 0 (Nat.zero_le _) (Nat.zero_le _)
  rw [DecRun.holding_zero hh] at h
  rw [DecRun.fill, h]
  have hpl : r.pulls n = (n - r.d.bits + 7) / 8 := rfl
  congr 1; omega

/-- NEEDBITS with enough input (R181): exactly the bytes it takes are pulled. -/
theorem DecRun.fill_of_offers {r : DecRun} {n : Nat} (hh : r.d.hold < 2 ^ r.d.bits) (h : r.offers n) :
    r.fill n = r.holding (r.pulls n) := by
  have hpl : r.pulls n = (n - r.d.bits + 7) / 8 := rfl
  rw [DecRun.fill_eq n hh]
  congr 1; unfold DecRun.offers at h; omega

theorem DecRun.bits_fill_of_offers {r : DecRun} {n : Nat} (hh : r.d.hold < 2 ^ r.d.bits) (h : r.offers n) :
    n ≤ (r.fill n).d.bits := by
  have hpl : r.pulls n = (n - r.d.bits + 7) / 8 := rfl
  rw [DecRun.fill_of_offers hh h]
  show n ≤ r.d.bits + 8 * r.pulls n
  omega

/-- All input pulled is one way of holding more bytes. -/
theorem DecRun.drained_eq_holding (r : DecRun) : r.drained = r.holding r.io.availIn := by
  rw [DecRun.drained, DecRun.holding, List.take_of_length_le]
  rw [DecRun.length_stream]

/-- NEEDBITS with too little input (R181): every byte is pulled and it is not enough. -/
theorem DecRun.fill_of_not_offers {r : DecRun} {n : Nat} (hh : r.d.hold < 2 ^ r.d.bits) (h : ¬ r.offers n) :
    r.fill n = r.drained := by
  have hpl : r.pulls n = (n - r.d.bits + 7) / 8 := rfl
  rw [DecRun.fill_eq n hh, DecRun.drained_eq_holding]
  congr 1; unfold DecRun.offers at h; omega

theorem DecRun.needBits_of_offers {r : DecRun} {n : Nat} (hh : r.d.hold < 2 ^ r.d.bits) (h : r.offers n) (rest : DecRun → Act) :
    r.needBits n rest = rest (r.holding (r.pulls n)) := by
  have hb := DecRun.bits_fill_of_offers hh h
  rw [DecRun.needBits, if_neg (Nat.not_lt.mpr hb), DecRun.fill_of_offers hh h]

theorem DecRun.needBits_of_not_offers {r : DecRun} {n : Nat} (hh : r.d.hold < 2 ^ r.d.bits) (h : ¬ r.offers n)
    (rest : DecRun → Act) : r.needBits n rest = .stop .needMoreInput r.drained := by
  have hb : (r.drained).d.bits < n := by
    show r.d.bits + 8 * r.io.availIn < n
    unfold DecRun.offers at h; omega
  rw [DecRun.needBits, DecRun.fill_of_not_offers hh h, if_pos hb]

/-- DROPBITS after NEEDBITS: the next `n` bits of the stream are consumed. -/
theorem DecRun.dropBits_holding {r : DecRun} {n : Nat} (h : r.offers n) :
    (r.holding (r.pulls n)).dropBits n = r.after n := by
  have hpl : r.pulls n = (n - r.d.bits + 7) / 8 := rfl
  have hav : r.pulls n ≤ r.io.availIn := by unfold DecRun.offers at h; omega
  have hle : n ≤ r.d.bits + 8 * r.pulls n := by omega
  simp only [DecRun.dropBits, DecRun.holding, DecRun.after, ← natOfBits_drop]
  rw [List.drop_take]

theorem DecRun.needBits_dropBits {r : DecRun} {n : Nat} (hh : r.d.hold < 2 ^ r.d.bits) (h : r.offers n) (rest : DecRun → Act) :
    (r.needBits n fun r => rest (r.dropBits n)) = rest (r.after n) := by
  rw [DecRun.needBits_of_offers hh h, DecRun.dropBits_holding h]

/-! ## The decoder after the next `n` bits -/

@[simp] theorem DecRun.after_io (n : Nat) (r : DecRun) : (r.after n).io = r.io.consume (r.pulls n) := rfl
@[simp] theorem DecRun.after_bits (n : Nat) (r : DecRun) : (r.after n).d.bits = r.d.bits + 8 * r.pulls n - n := rfl
theorem DecRun.after_d (n : Nat) (r : DecRun) :
    (r.after n).d = { r.d with hold := (r.after n).d.hold, bits := (r.after n).d.bits } := rfl

theorem DecRun.after_hold_lt {r : DecRun} (n : Nat) : (r.after n).d.hold < 2 ^ (r.after n).d.bits := by
  have hpl : r.pulls n = (n - r.d.bits + 7) / 8 := rfl
  refine lt_of_lt_of_le (natOfBits_lt _) (Nat.pow_le_pow_right (by decide) ?_)
  rw [List.length_take]
  exact Nat.min_le_left _ _

theorem DecRun.holding_hold_lt {r : DecRun} (j : Nat) : (r.holding j).d.hold < 2 ^ (r.holding j).d.bits := by
  refine lt_of_lt_of_le (natOfBits_lt _) (Nat.pow_le_pow_right (by decide) ?_)
  rw [List.length_take]
  exact Nat.min_le_left _ _

/-- The stream that is left is the rest of the stream. -/
theorem DecRun.stream_after {r : DecRun} {n : Nat} (h : r.offers n) : (r.after n).stream = r.stream.drop n := by
  have hpl : r.pulls n = (n - r.d.bits + 7) / 8 := rfl
  have hav : r.pulls n ≤ r.io.availIn := by unfold DecRun.offers at h; omega
  have hle : n ≤ r.d.bits + 8 * r.pulls n := by omega
  have hlen : ((r.stream.drop n).take (r.d.bits + 8 * r.pulls n - n)).length = r.d.bits + 8 * r.pulls n - n := by
    rw [List.length_take, List.length_drop, DecRun.length_stream]; omega
  have hd : r.stream.drop n = (r.stream.drop n).take (r.d.bits + 8 * r.pulls n - n) ++
      r.stream.drop (r.d.bits + 8 * r.pulls n) := by
    conv_lhs => rw [← List.take_append_drop (r.d.bits + 8 * r.pulls n - n) (r.stream.drop n), List.drop_drop]
    congr 2; omega
  rw [hd, DecRun.stream_drop r hav, DecRun.stream]
  congr 1
  · exact bitsOf_natOfBits_of_length hlen
  · simp

theorem DecRun.stream_holding {r : DecRun} {j : Nat} (h : j ≤ r.io.availIn) : (r.holding j).stream = r.stream := by
  have hlen : (r.stream.take (r.d.bits + 8 * j)).length = r.d.bits + 8 * j := by
    rw [List.length_take, DecRun.length_stream]; omega
  rw [← List.take_append_drop (r.d.bits + 8 * j) r.stream, DecRun.stream_drop r h, DecRun.stream]
  congr 1
  · exact bitsOf_natOfBits_of_length hlen
  · simp [DecRun.holding]

theorem DecRun.after_offers {r : DecRun} {a b : Nat} (h : r.offers (a + b)) : (r.after a).offers b := by
  have hpl : r.pulls a = (a - r.d.bits + 7) / 8 := rfl
  simp only [DecRun.offers, DecRun.after_bits, DecRun.after_io, Io.consume_availIn] at *
  omega

theorem DecRun.offers_of_le {r : DecRun} {a b : Nat} (h : r.offers b) (hab : a ≤ b) : r.offers a := Nat.le_trans hab h

/-- Two fields read one after the other are one longer field read at once. -/
theorem DecRun.after_after {r : DecRun} {a b : Nat} (h : r.offers (a + b)) : (r.after a).after b = r.after (a + b) := by
  have ha : r.offers a := DecRun.offers_of_le h (Nat.le_add_right a b)
  have hpl : r.pulls a = (a - r.d.bits + 7) / 8 := rfl
  have hplb : (r.after a).pulls b = (b - (r.d.bits + 8 * r.pulls a - a) + 7) / 8 := rfl
  have hplab : r.pulls (a + b) = (a + b - r.d.bits + 7) / 8 := rfl
  have hp : r.pulls a + (r.after a).pulls b = r.pulls (a + b) := by omega
  have hbits : (r.after a).d.bits + 8 * (r.after a).pulls b - b = r.d.bits + 8 * r.pulls (a + b) - (a + b) := by
    rw [DecRun.after_bits]; omega
  have hhold : ((r.after a).stream.drop b).take ((r.after a).d.bits + 8 * (r.after a).pulls b - b) =
      (r.stream.drop (a + b)).take (r.d.bits + 8 * r.pulls (a + b) - (a + b)) := by
    rw [DecRun.stream_after ha, hbits, List.drop_drop]
  have hd : ((r.after a).after b).d = (r.after (a + b)).d := by
    rw [DecRun.after_d b, DecRun.after_d a, DecRun.after_d (a + b)]
    have h1 : ((r.after a).after b).d.hold = (r.after (a + b)).d.hold := congrArg natOfBits hhold
    have h2 : ((r.after a).after b).d.bits = (r.after (a + b)).d.bits := hbits
    rw [h1, h2]
  have hio : ((r.after a).after b).io = (r.after (a + b)).io := by
    rw [DecRun.after_io, DecRun.after_io, DecRun.after_io, Io.consume_consume, hp]
  calc (r.after a).after b = ⟨((r.after a).after b).d, ((r.after a).after b).io⟩ := rfl
    _ = ⟨(r.after (a + b)).d, (r.after (a + b)).io⟩ := by rw [hd, hio]
    _ = r.after (a + b) := rfl

theorem DecRun.after_zero {r : DecRun} (hh : r.d.hold < 2 ^ r.d.bits) : r.after 0 = r := by
  have hpl : r.pulls 0 = (0 - r.d.bits + 7) / 8 := rfl
  have h0 : r.pulls 0 = 0 := by omega
  have := DecRun.dropBits_holding (r := r) (n := 0) (Nat.zero_le _)
  rw [h0, DecRun.holding_zero hh] at this
  rw [← this]
  simp [DecRun.dropBits]

/-- BITS(n) where `n` bits are held is the front of the stream (R182). -/
theorem DecRun.peekBits_holding {r : DecRun} {n : Nat} :
    (r.holding (r.pulls n)).peekBits n = natOfBits (r.stream.take n) := by
  have hpl : r.pulls n = (n - r.d.bits + 7) / 8 := rfl
  have hle : n ≤ r.d.bits + 8 * r.pulls n := by omega
  rw [DecRun.peekBits, DecRun.holding, ← natOfBits_take, List.take_take, Nat.min_eq_left hle]

/-- A step that no input can settle pulls all of it. -/
theorem DecRun.starve_eq {r : DecRun} (hh : r.d.hold < 2 ^ r.d.bits) : r.starve = .stop .needMoreInput r.drained := by
  have h := DecRun.pullUpTo_holding (r.d.bits + 8 * r.io.availIn) (r := r) r.io.availIn 0 (Nat.zero_le _) (Nat.zero_le _)
  rw [DecRun.holding_zero hh] at h
  have hpl : r.pulls (r.d.bits + 8 * r.io.availIn) = (r.d.bits + 8 * r.io.availIn - r.d.bits + 7) / 8 := rfl
  rw [DecRun.starve, h, DecRun.drained_eq_holding]
  congr 2; omega

@[simp] theorem DecRun.drained_io (r : DecRun) : r.drained.io = r.io.consume r.io.availIn := rfl
@[simp] theorem DecRun.drained_bits (r : DecRun) : r.drained.d.bits = r.d.bits + 8 * r.io.availIn := rfl

/-- BYTEBITS drops the rest of the current byte (R184). -/
theorem DecRun.byteBits_eq_after {r : DecRun} (hh : r.d.hold < 2 ^ r.d.bits) : r.byteBits = r.after (r.d.bits % 8) := by
  have hpl : r.pulls (r.d.bits % 8) = (r.d.bits % 8 - r.d.bits + 7) / 8 := rfl
  have hle := Nat.mod_le r.d.bits 8
  have h0 : r.pulls (r.d.bits % 8) = 0 := by omega
  have ho : r.offers (r.d.bits % 8) := by unfold DecRun.offers; omega
  have := DecRun.dropBits_holding ho
  rw [h0, DecRun.holding_zero hh] at this
  exact this

end Machine

end Sys2Proof
end

