-- ==== Sys2Proof/Laws/Ram.lean ====
section
/-! SUPPORT. Sys2Proof/Laws/Ram.lean: the internal memories read back what was written, keep their canonical form, and slide. -/

namespace Sys2Proof.Machine

@[simp] theorem Ram.low_mk (l h : Ram) : (Ram.mk l h).low = l := by cases l <;> cases h <;> rfl

@[simp] theorem Ram.high_mk (l h : Ram) : (Ram.mk l h).high = h := by cases l <;> cases h <;> rfl

@[simp] theorem Ram.get_nil (d k : Nat) : Ram.get d .nil k = 0 := by
  induction d with
  | zero => rfl
  | succ d ih => simp [Ram.get, Ram.low, Ram.high, ih]

theorem Ram.get_succ (d : Nat) (t : Ram) (k : Nat) :
    Ram.get (d + 1) t k = if k.testBit d then Ram.get d t.high k else Ram.get d t.low k := rfl

theorem Ram.set_succ (d : Nat) (t : Ram) (k v : Nat) :
    Ram.set (d + 1) t k v =
      if k.testBit d then Ram.mk t.low (Ram.set d t.high k v) else Ram.mk (Ram.set d t.low k v) t.high := rfl

theorem mod_pow_of_mod_pow_succ {d k k' : Nat} (h : k % 2 ^ (d + 1) = k' % 2 ^ (d + 1)) : k % 2 ^ d = k' % 2 ^ d := by
  have hd : 2 ^ d ∣ 2 ^ (d + 1) := pow_dvd_pow 2 (Nat.le_succ d)
  rw [← Nat.mod_mod_of_dvd k hd, h, Nat.mod_mod_of_dvd _ hd]

/-- The low `d` bits of two indices agree: they name the same entry. -/
theorem Ram.get_congr {d : Nat} (t : Ram) {k k' : Nat} (h : k % 2 ^ d = k' % 2 ^ d) : Ram.get d t k = Ram.get d t k' := by
  induction d generalizing t with
  | zero => cases t <;> rfl
  | succ d ih =>
    have hbit : k.testBit d = k'.testBit d := by
      have h1 := congrArg (·.testBit d) h
      simpa [Nat.testBit_mod_two_pow] using h1
    have hlow : k % 2 ^ d = k' % 2 ^ d := mod_pow_of_mod_pow_succ h
    rw [Ram.get_succ, Ram.get_succ, hbit, ih _ hlow, ih _ hlow]

/-- A written entry reads back, and every other entry reads as before. -/
theorem Ram.get_set (d : Nat) (t : Ram) (k k' v : Nat) :
    Ram.get d (Ram.set d t k v) k' = if k' % 2 ^ d = k % 2 ^ d then v else Ram.get d t k' := by
  induction d generalizing t with
  | zero =>
    simp only [pow_zero, Nat.mod_one, if_true]
    by_cases hv : v = 0 <;> simp [Ram.set, Ram.get, hv]
  | succ d ih =>
    have hiff : (k' % 2 ^ (d + 1) = k % 2 ^ (d + 1)) ↔ (k'.testBit d = k.testBit d ∧ k' % 2 ^ d = k % 2 ^ d) := by
      constructor
      · intro h
        refine ⟨?_, ?_⟩
        · simpa [Nat.testBit_mod_two_pow] using congrArg (·.testBit d) h
        · exact mod_pow_of_mod_pow_succ h
      · rintro ⟨hb, hl⟩
        apply Nat.eq_of_testBit_eq
        intro i
        rw [Nat.testBit_mod_two_pow, Nat.testBit_mod_two_pow]
        by_cases hi : i < d
        · have := congrArg (·.testBit i) hl
          simpa [Nat.testBit_mod_two_pow, hi, Nat.lt_succ_of_lt hi] using this
        · by_cases hid : i = d
          · subst hid; simp [hb]
          · have : ¬ i < d + 1 := by omega
            simp [this]
    rw [Ram.get_succ, Ram.set_succ, Ram.get_succ]
    cases hk : k.testBit d <;> cases hk' : k'.testBit d <;> simp [hiff, hk, hk', ih]

theorem Ram.get_map (f : Nat → Nat) (hf : f 0 = 0) (d : Nat) (t : Ram) (k : Nat) (h : t.wf d = true) :
    Ram.get d (Ram.map f t) k = f (Ram.get d t k) := by
  induction d generalizing t with
  | zero =>
    cases t with
    | nil => simp [Ram.map, hf]
    | leaf v => by_cases hv : f v = 0 <;> simp [Ram.map, Ram.get, hv]
    | node l h' => simp [Ram.wf] at h
  | succ d ih =>
    cases t with
    | nil => simp [Ram.map, hf]
    | leaf v => simp [Ram.wf] at h
    | node l h' =>
      simp only [Ram.wf, Bool.and_eq_true] at h
      rw [Ram.map, Ram.get_succ, Ram.low_mk, Ram.high_mk, Ram.get_succ]
      split
      · exact ih h' h.1.2
      · exact ih l h.1.1

/-- After the copy of the upper half over the lower one, an entry of either half reads as the upper half's. -/
theorem Ram.get_slideDown (d : Nat) (t : Ram) (k : Nat) : Ram.get (d + 1) t.slideDown k = Ram.get d t.high k := by
  simp [Ram.get_succ, Ram.slideDown]

/-! ## The canonical form -/

@[simp] theorem Ram.wf_nil (d : Nat) : Ram.wf d .nil = true := by cases d <;> rfl

theorem Ram.wf_mk {d : Nat} {l h : Ram} (hl : l.wf d = true) (hh : h.wf d = true) : (Ram.mk l h).wf (d + 1) = true := by
  unfold Ram.mk
  split
  · rfl
  · next hn =>
    simp only [Ram.wf, hl, hh, Bool.true_and, Bool.not_eq_true', Bool.and_eq_false_iff, decide_eq_false_iff_not]
    by_contra hc
    push Not at hc
    exact hn hc.1 hc.2

theorem Ram.wf_low {d : Nat} {t : Ram} (h : t.wf (d + 1) = true) : t.low.wf d = true := by
  cases t with
  | nil => simp [Ram.low]
  | leaf v => simp [Ram.wf] at h
  | node l h' => simp only [Ram.wf, Bool.and_eq_true] at h; exact h.1.1

theorem Ram.wf_high {d : Nat} {t : Ram} (h : t.wf (d + 1) = true) : t.high.wf d = true := by
  cases t with
  | nil => simp [Ram.high]
  | leaf v => simp [Ram.wf] at h
  | node l h' => simp only [Ram.wf, Bool.and_eq_true] at h; exact h.1.2

/-- Every write keeps the canonical form. -/
theorem Ram.wf_set (d : Nat) (t : Ram) (k v : Nat) (h : t.wf d = true) : (Ram.set d t k v).wf d = true := by
  induction d generalizing t with
  | zero => by_cases hv : v = 0 <;> simp [Ram.set, Ram.wf, hv]
  | succ d ih =>
    rw [Ram.set_succ]
    split
    · exact Ram.wf_mk (Ram.wf_low h) (ih _ (Ram.wf_high h))
    · exact Ram.wf_mk (ih _ (Ram.wf_low h)) (Ram.wf_high h)

theorem Ram.wf_map (f : Nat → Nat) (d : Nat) (t : Ram) (h : t.wf d = true) : (Ram.map f t).wf d = true := by
  induction d generalizing t with
  | zero =>
    cases t with
    | nil => rfl
    | leaf v => by_cases hv : f v = 0 <;> simp [Ram.map, Ram.wf, hv]
    | node l h' => simp [Ram.wf] at h
  | succ d ih =>
    cases t with
    | nil => rfl
    | leaf v => simp [Ram.wf] at h
    | node l h' =>
      simp only [Ram.wf, Bool.and_eq_true] at h
      exact Ram.wf_mk (ih l h.1.1) (ih h' h.1.2)

theorem Ram.wf_slideDown (d : Nat) (t : Ram) (h : t.wf (d + 1) = true) : t.slideDown.wf (d + 1) = true :=
  Ram.wf_mk (Ram.wf_high h) (Ram.wf_high h)

/-- Equal contents are equal data. -/
theorem Ram.eq_of_get_eq (d : Nat) (t t' : Ram) (h : t.wf d = true) (h' : t'.wf d = true)
    (hget : ∀ k, Ram.get d t k = Ram.get d t' k) : t = t' := by
  induction d generalizing t t' with
  | zero =>
    have h0 := hget 0
    cases t <;> cases t' <;> simp_all [Ram.wf, Ram.get]
  | succ d ih =>
    have hl : t.low = t'.low := by
      refine ih _ _ (Ram.wf_low h) (Ram.wf_low h') (fun k => ?_)
      have hk := hget (k % 2 ^ d)
      have hb : (k % 2 ^ d).testBit d = false := by simp
      simp only [Ram.get_succ, hb] at hk
      rwa [Ram.get_congr t.low (Nat.mod_mod k _), Ram.get_congr t'.low (Nat.mod_mod k _)] at hk
    have hh : t.high = t'.high := by
      refine ih _ _ (Ram.wf_high h) (Ram.wf_high h') (fun k => ?_)
      have hk := hget (2 ^ d + k % 2 ^ d)
      have hb : (2 ^ d + k % 2 ^ d).testBit d = true := by simp [Nat.testBit_two_pow_add_eq]
      simp only [Ram.get_succ, hb, if_true] at hk
      have hm : (2 ^ d + k % 2 ^ d) % 2 ^ d = k % 2 ^ d := by simp
      rwa [Ram.get_congr t.high hm, Ram.get_congr t'.high hm] at hk
    cases t <;> cases t' <;> simp_all [Ram.wf, Ram.low, Ram.high]

end Sys2Proof.Machine
end

