-- ==== Sys2Proof/Laws/BitWriter.lean ====
section
/-! SUPPORT. Sys2Proof/Laws/BitWriter.lean: everything that is written to the bit writer keeps its invariant (40_bitio.md R171), since
no tree the builder makes has a length over its limit (41_huffman.md R197). -/

namespace Sys2Proof.Machine

open Sys2Proof

/-! ## The operations of the bit writer -/

theorem BitWriter.Ok.sendBits {w : BitWriter} (h : w.Ok) (v : Nat) {n : Nat} (hn : n ≤ 16) : (w.sendBits v n).Ok := by
  have hv : v % 2 ^ n < 2 ^ n := Nat.mod_lt _ (Nat.two_pow_pos n)
  obtain ⟨hb, hlt⟩ := h
  unfold BitWriter.sendBits
  dsimp only
  generalize v % 2 ^ n = u at hv ⊢
  split
  · next hc =>
    have hk : 2 ^ (16 - w.biValid) * 2 ^ (w.biValid + n - 16) = 2 ^ n := by rw [← pow_add]; congr 1; omega
    refine ⟨by show w.biValid + n - 16 ≤ 16; omega, ?_⟩
    show (BitVec.ofNat 16 (u >>> (16 - w.biValid))).toNat < 2 ^ (w.biValid + n - 16)
    rw [BitVec.toNat_ofNat, Nat.shiftRight_eq_div_pow]
    exact lt_of_le_of_lt (Nat.mod_le _ _) (Nat.div_lt_of_lt_mul (by rw [hk]; exact hv))
  · next hc =>
    refine ⟨by show w.biValid + n ≤ 16; omega, ?_⟩
    show (w.biBuf ||| (BitVec.ofNat 16 u <<< w.biValid)).toNat < 2 ^ (w.biValid + n)
    rw [BitVec.toNat_or, BitVec.toNat_shiftLeft, BitVec.toNat_ofNat, Nat.shiftLeft_eq]
    refine Nat.or_lt_two_pow (lt_of_lt_of_le hlt (Nat.pow_le_pow_right (by decide) (Nat.le_add_right _ _))) ?_
    refine lt_of_le_of_lt (Nat.mod_le _ _) ?_
    rw [Nat.add_comm, pow_add]
    exact Nat.mul_lt_mul_of_pos_right (lt_of_le_of_lt (Nat.mod_le _ _) hv) (Nat.two_pow_pos _)

theorem BitWriter.Ok.sendField {w : BitWriter} (h : w.Ok) (v : Nat) {n : Nat} (hn : n ≤ 16) : (w.sendField v n).Ok := by
  unfold BitWriter.sendField
  split
  · exact h
  · exact h.sendBits v hn

theorem BitWriter.Ok.biFlush {w : BitWriter} (h : w.Ok) : w.biFlush.Ok := by
  obtain ⟨hb, hlt⟩ := h
  unfold BitWriter.biFlush
  split
  · exact ⟨Nat.zero_le _, by show (0 : Nat) < 1; decide⟩
  · split
    · next h8 =>
      refine ⟨by show w.biValid - 8 ≤ 16; omega, ?_⟩
      show (w.biBuf >>> 8).toNat < 2 ^ (w.biValid - 8)
      rw [BitVec.toNat_ushiftRight, Nat.shiftRight_eq_div_pow]
      refine Nat.div_lt_of_lt_mul ?_
      rw [← pow_add]
      exact lt_of_lt_of_eq hlt (by congr 1; omega)
    · exact ⟨hb, hlt⟩

theorem BitWriter.ok_biWindup (w : BitWriter) : w.biWindup.Ok := ⟨Nat.zero_le _, by show (0 : Nat) < 1; decide⟩

theorem BitWriter.ok_storedBlock (w : BitWriter) (buf : List Byte) (last : Bool) : (w.storedBlock buf last).Ok :=
  BitWriter.ok_biWindup (w.sendBits (headerBits 0 last) 3)

theorem BitWriter.Ok.align {w : BitWriter} (h : w.Ok) : w.align.Ok :=
  ((h.sendBits (headerBits 1 false) (by decide)).sendBits 0 (by decide)).biFlush

/-! ## Lengths of codes -/

/-- No entry of a work array is over `m`. -/
def workLe (m : Nat) (t : Ram) : Prop := ∀ k, wread t k ≤ m

theorem workLe.write {m : Nat} {t : Ram} (h : workLe m t) (k : Nat) {v : Nat} (hv : v ≤ m) : workLe m (wwrite t k v) := by
  intro j
  unfold wread wwrite
  rw [Ram.get_set]
  split
  · exact hv
  · exact h j

theorem workLe.wlist {m : Nat} {t : Ram} (h : workLe m t) : ∀ (n k : Nat), ∀ l ∈ Machine.wlist t k n, l ≤ m
  | 0, _, _, hl => absurd hl List.not_mem_nil
  | n + 1, k, l, hl => by
    rcases List.mem_cons.1 hl with rfl | hl
    · exact h k
    · exact workLe.wlist h n (k + 1) l hl

theorem addLeaves_len {m : Nat} : ∀ (fs : List Nat) (n : Nat) {b : Build}, workLe m b.len → workLe m (addLeaves n fs b).len
  | [], _, _, h => h
  | f :: fs, n, b, h => by
    rw [addLeaves]
    refine addLeaves_len fs (n + 1) ?_
    split
    · exact h
    · exact h.write n (Nat.zero_le _)

theorem addDummies_len (t : TreeSpec) : ∀ (n : Nat) (b : Build), (addDummies t n b).len = b.len
  | 0, _ => rfl
  | n + 1, b => by
    rw [addDummies]
    split
    · rw [addDummies_len t n]; rfl
    · rfl

theorem siftDown_len (v : Nat) : ∀ (fuel k : Nat) (b : Build), (siftDown v fuel k b).len = b.len
  | 0, _, _ => rfl
  | fuel + 1, k, b => by
    rw [siftDown]
    split
    · rfl
    · dsimp only
      split <;> split <;> first | rfl | rw [siftDown_len v fuel]

@[simp] theorem Build.downheap_len (b : Build) (k : Nat) : (b.downheap k).len = b.len := siftDown_len _ _ _ _

theorem heapify_len : ∀ (k : Nat) (b : Build), (heapify k b).len = b.len
  | 0, _ => rfl
  | k + 1, b => by rw [heapify, heapify_len k, Build.downheap_len]

@[simp] theorem mergeLeast_len (node : Nat) (b : Build) : (mergeLeast node b).len = b.len := by
  unfold mergeLeast
  rw [Build.downheap_len]
  show (Build.downheap _ 1).len = b.len
  rw [Build.downheap_len]

theorem mergeAll_len : ∀ (fuel node : Nat) (b : Build), (mergeAll fuel node b).len = b.len
  | 0, _, _ => rfl
  | fuel + 1, node, b => by
    rw [mergeAll]
    split
    · exact mergeLeast_len node b
    · rw [mergeAll_len fuel, mergeLeast_len]

@[simp] theorem Build.merge_len (t : TreeSpec) (b : Build) : (b.merge t).len = b.len := by
  unfold Build.merge
  show (mergeAll _ _ _).len = b.len
  rw [mergeAll_len, heapify_len]

theorem bitlenNode_len (t : TreeSpec) (n : Nat) {b : Build} (count : List Nat) (o : Nat) (h : workLe t.maxLength b.len) :
    workLe t.maxLength (bitlenNode t n b count o).1.len := by
  unfold bitlenNode
  dsimp only
  have hb : (if wread b.len (wread b.dad n) + 1 > t.maxLength then t.maxLength else wread b.len (wread b.dad n) + 1) ≤
      t.maxLength := by split <;> omega
  generalize (if wread b.len (wread b.dad n) + 1 > t.maxLength then t.maxLength else wread b.len (wread b.dad n) + 1) = v at *
  split
  · exact h.write n hb
  · exact h.write n hb

theorem bitlenFrom_len (t : TreeSpec) : ∀ (k h : Nat) {b : Build} (count : List Nat) (o : Nat), workLe t.maxLength b.len →
    workLe t.maxLength (bitlenFrom t k h b count o).1.len
  | 0, _, _, _, _, hb => hb
  | k + 1, _, _, count, o, hb => bitlenFrom_len t k _ _ _ (bitlenNode_len t _ count o hb)

theorem lengthsToGive_le (count : List Nat) : ∀ (n : Nat), ∀ l ∈ lengthsToGive count n, l ≤ n
  | 0, _, hl => absurd hl List.not_mem_nil
  | n + 1, l, hl => by
    rcases List.mem_append.1 hl with hl | hl
    · exact Nat.le_of_eq (List.eq_of_mem_replicate hl)
    · exact Nat.le_succ_of_le (lengthsToGive_le count n l hl)

theorem giveLengths_len {m : Nat} : ∀ (ms ls : List Nat) {b : Build}, (∀ l ∈ ls, l ≤ m) → workLe m b.len →
    workLe m (giveLengths ms ls b).len
  | [], _, _, _, hb => by rw [giveLengths]; exact hb; nofun
  | _ :: _, [], _, _, hb => by rw [giveLengths]; exact hb; nofun
  | k :: ms, l :: ls, b, hl, hb => by
    rw [giveLengths]
    refine giveLengths_len ms ls (fun x hx => hl x (List.mem_cons_of_mem _ hx)) ?_
    split
    · exact hb.write k (hl l List.mem_cons_self)
    · exact hb

theorem Build.genBitlen_len (t : TreeSpec) {b : Build} (h : workLe t.maxLength b.len) :
    workLe t.maxLength (b.genBitlen t).len := by
  have h0 : workLe t.maxLength (wwrite b.len (wread b.heap b.heapMax) 0) := h.write _ (Nat.zero_le _)
  have h1 := bitlenFrom_len t (Config.heapSize - 1 - b.heapMax) (b.heapMax + 1)
    (b := { b with len := wwrite b.len (wread b.heap b.heapMax) 0 }) (List.replicate 16 0) 0 h0
  unfold Build.genBitlen
  dsimp only
  split
  · exact h1
  · exact giveLengths_len _ _ (lengthsToGive_le _ _) h1

/-- No length of a tree is over its limit (R197 a). -/
theorem buildTree_len_le (t : TreeSpec) (freq : List Nat) (o s : Int) : ∀ l ∈ (buildTree t freq o s).1.len, l ≤ t.maxLength := by
  unfold buildTree
  dsimp only
  refine workLe.wlist (Build.genBitlen_len t ?_) _ _
  rw [Build.merge_len, addDummies_len]
  exact addLeaves_len freq 0 (fun k => by show Ram.get 10 .nil k ≤ _; rw [Ram.get_nil]; exact Nat.zero_le _)

/-! ## Blocks -/

theorem getD_le {m : Nat} {l : List Nat} (h : ∀ x ∈ l, x ≤ m) (k : Nat) : l.getD k 0 ≤ m := by
  rw [List.getD_eq_getElem?_getD]
  cases hk : l[k]? with
  | none => exact Nat.zero_le _
  | some x => exact h x (List.mem_of_getElem? hk)

theorem BitWriter.Ok.sendCode {w : BitWriter} (h : w.Ok) (code : List Nat) {len : List Nat} (hl : ∀ l ∈ len, l ≤ 15) (s : Nat) :
    (w.sendCode code len s).Ok :=
  h.sendBits _ (le_trans (getD_le hl s) (by decide))

theorem lcode_width (len : Nat) : (lcode len).2.1 ≤ 16 := by
  unfold lcode
  split
  · decide
  · exact le_trans (getD_le (m := 5) (by decide) _) (by decide)

theorem dcode_width (dist : Nat) : (dcode dist).2.1 ≤ 16 := le_trans (getD_le (m := 13) (by decide) _) (by decide)

theorem BitWriter.Ok.sendSym {w : BitWriter} (h : w.Ok) (lc dc : List Nat) {ll dl : List Nat} (hl : ∀ l ∈ ll, l ≤ 15)
    (hd : ∀ l ∈ dl, l ≤ 15) (s : Sym) : (w.sendSym lc ll dc dl s).Ok := by
  cases s with
  | lit b => exact h.sendCode lc hl _
  | copy dist len => exact (((h.sendCode lc hl _).sendField _ (lcode_width len)).sendCode dc hd _).sendField _ (dcode_width dist)

theorem BitWriter.ok_sendSyms (lc dc : List Nat) {ll dl : List Nat} (hl : ∀ l ∈ ll, l ≤ 15) (hd : ∀ l ∈ dl, l ≤ 15) :
    ∀ (syms : List Sym) {w : BitWriter}, w.Ok → (BitWriter.sendSyms lc ll dc dl syms w).Ok
  | [], _, h => h
  | s :: rest, _, h => BitWriter.ok_sendSyms lc dc hl hd rest (h.sendSym lc dc hl hd s)

theorem BitWriter.Ok.compressBlock {w : BitWriter} (h : w.Ok) (syms : List Sym) (lc dc : List Nat) {ll dl : List Nat}
    (hl : ∀ l ∈ ll, l ≤ 15) (hd : ∀ l ∈ dl, l ≤ 15) : (w.compressBlock syms lc ll dc dl).Ok :=
  (BitWriter.ok_sendSyms lc dc hl hd syms.reverse h).sendCode lc hl 256

theorem BitWriter.ok_sendClLens (lens : List Nat) : ∀ (order : List Nat) {w : BitWriter}, w.Ok →
    (BitWriter.sendClLens lens order w).Ok
  | [], _, h => h
  | _ :: rest, _, h => BitWriter.ok_sendClLens lens rest (h.sendBits _ (by decide))

theorem BitWriter.ok_sendClSyms {t : Tree} (ht : ∀ l ∈ t.len, l ≤ 15) : ∀ (l : List ClSym) {w : BitWriter},
    (∀ s ∈ l, s.width ≤ 16) → w.Ok → (BitWriter.sendClSyms t l w).Ok
  | [], _, _, h => h
  | s :: rest, _, hl, h => BitWriter.ok_sendClSyms ht rest (fun x hx => hl x (List.mem_cons_of_mem _ hx))
      ((h.sendCode t.code ht s.sym).sendField s.extra (hl s List.mem_cons_self))

theorem scanRun_width (p : Option Nat) (cur count minCount : Nat) : ∀ s ∈ scanRun p cur count minCount, s.width ≤ 16 := by
  intro s hs
  unfold scanRun at hs
  split at hs
  · rw [List.eq_of_mem_replicate hs]; exact Nat.zero_le _
  · split at hs
    · split at hs
      · rcases List.mem_cons.1 hs with rfl | hs
        · exact Nat.zero_le _
        · rw [List.mem_singleton.1 hs]; exact Nat.le_of_ble_eq_true rfl
      · rw [List.mem_singleton.1 hs]; exact Nat.le_of_ble_eq_true rfl
    · split at hs <;> rw [List.mem_singleton.1 hs] <;> exact Nat.le_of_ble_eq_true rfl

theorem scanFrom_width : ∀ (l : List Nat) (p : Option Nat) (count maxCount minCount : Nat),
    ∀ s ∈ scanFrom p count maxCount minCount l, s.width ≤ 16
  | [], _, _, _, _, _, hs => absurd hs List.not_mem_nil
  | cur :: rest, p, count, maxCount, minCount, s, hs => by
    rw [scanFrom] at hs
    split at hs
    · exact scanFrom_width rest _ _ _ _ s hs
    · rcases List.mem_append.1 hs with hs | hs
      · exact scanRun_width _ _ _ _ s hs
      · exact scanFrom_width rest _ _ _ _ s hs

theorem scanTree_width (t : Tree) : ∀ s ∈ scanTree t, s.width ≤ 16 := by
  unfold scanTree
  dsimp only
  split <;> exact scanFrom_width _ _ _ _ _

theorem BitWriter.Ok.sendAllTrees {e : Enc} {w : BitWriter} (h : w.Ok) (hb : ∀ l ∈ e.bltree.len, l ≤ 15) : (e.sendAllTrees w).Ok := by
  refine BitWriter.ok_sendClSyms hb _ (fun s hs => ?_) (BitWriter.ok_sendClLens _ _
    (((h.sendBits _ (by decide)).sendBits _ (by decide)).sendBits _ (by decide)))
  rcases List.mem_append.1 hs with hs | hs <;> exact scanTree_width _ s hs

/-- The trees of a flush have no length over 15 (R197 a). -/
theorem Enc.buildTrees_len_le (e : Enc) : (∀ l ∈ e.buildTrees.ltree.len, l ≤ 15) ∧ (∀ l ∈ e.buildTrees.dtree.len, l ≤ 15) ∧
    ∀ l ∈ e.buildTrees.bltree.len, l ≤ 15 :=
  ⟨buildTree_len_le ltreeSpec _ _ _, buildTree_len_le dtreeSpec _ _ _,
    fun l hl => le_trans (buildTree_len_le bltreeSpec _ _ _ l hl) (by decide)⟩

theorem fixedLengths_le : (∀ l ∈ fixedLitLengths, l ≤ 15) ∧ ∀ l ∈ fixedDistLengths, l ≤ 15 := by
  refine ⟨fun l hl => ?_, fun l hl => ?_⟩
  · unfold fixedLitLengths at hl
    simp only [List.mem_append, List.mem_replicate] at hl
    omega
  · unfold fixedDistLengths at hl
    rw [List.eq_of_mem_replicate hl]; decide

theorem Enc.ok_writeFixed {e : Enc} (h : e.bw.Ok) (last : Bool) : (e.writeBlock .fixed last).Ok :=
  (h.sendBits (headerBits 1 last) (by decide)).compressBlock e.syms fixedLitReversed fixedDistReversed fixedLengths_le.1
    fixedLengths_le.2

/-- No block is a dynamic one at level 0 (R270). -/
theorem Enc.chooseBlock_level_zero {e : Enc} (h : e.level = 0) : e.chooseBlock ≠ .dynamic := by
  unfold Enc.chooseBlock
  rw [h]
  dsimp only
  split
  · rw [if_pos (by rw [if_pos rfl]; omega)]; nofun
  · rw [if_pos rfl, if_pos rfl, if_pos rfl]; nofun

/-- A flushed block leaves the bit writer in order (R270). At level 0 there are no trees, and the block is not a dynamic one. -/
theorem Enc.ok_flushBlock {e : Enc} (h : e.bw.Ok) (last : Bool) : (e.flushBlock last).bw.Ok := by
  unfold Enc.flushBlock
  dsimp only
  have hw : ((if e.level = 0 then e else e.buildTrees).writeBlock (if e.level = 0 then e else e.buildTrees).chooseBlock last).Ok := by
    split
    · next h0 =>
      cases ht : e.chooseBlock with
      | stored buf => exact BitWriter.ok_storedBlock _ _ _
      | fixed => exact Enc.ok_writeFixed h last
      | dynamic => exact absurd ht (Enc.chooseBlock_level_zero h0)
    · have hbw : e.buildTrees.bw.Ok := h
      obtain ⟨hl, hd, hb⟩ := e.buildTrees_len_le
      cases e.buildTrees.chooseBlock with
      | stored buf => exact BitWriter.ok_storedBlock _ _ _
      | fixed => exact Enc.ok_writeFixed hbw last
      | dynamic => exact ((hbw.sendBits _ (by decide)).sendAllTrees hb).compressBlock _ _ _ hl hd
  show (if last = true then BitWriter.biWindup _ else _ : BitWriter).Ok
  split
  · exact BitWriter.ok_biWindup _
  · exact hw

end Sys2Proof.Machine
end

