-- ==== Sys2Proof/Laws/Code.lean ====
section
/-! SUPPORT. Sys2Proof/Laws/Code.lean: prefix codes and PEEK (R335): a code in front of the bits is found, a complete code always finds
one (R336), and the canonical code of an acceptable length set is a prefix code (R196, R331). -/

namespace Sys2Proof

/-! ## Codes as bit strings -/

@[simp] theorem CodeEntry.length_wire (e : CodeEntry) : e.wire.length = e.len := by simp [CodeEntry.wire]

/-- The value of a bit string read most significant bit first. -/
def msbValue (bits : List Bool) : Nat := natOfBits bits.reverse

theorem msbValue_append_singleton (bits : List Bool) (b : Bool) :
    msbValue (bits ++ [b]) = 2 * msbValue bits + (if b then 1 else 0) := by
  simp [msbValue, natOfBits_cons, Nat.add_comm]

theorem msbValue_lt (bits : List Bool) : msbValue bits < 2 ^ bits.length := by
  simpa [msbValue] using natOfBits_lt bits.reverse

theorem CodeEntry.msbValue_wire {e : CodeEntry} (h : e.canon < 2 ^ e.len) : msbValue e.wire = e.canon := by
  simp [msbValue, CodeEntry.wire, natOfBits_bitsOf_of_lt h]

theorem eq_of_msbValue_eq {a b : List Bool} (hl : a.length = b.length) (h : msbValue a = msbValue b) : a = b := by
  have h1 := bitsOf_natOfBits a.reverse
  have h2 := bitsOf_natOfBits b.reverse
  simp only [msbValue] at h
  rw [h, List.length_reverse, hl] at h1
  rw [List.length_reverse] at h2
  exact List.reverse_injective (h1.symm.trans h2)

theorem take_wire {e : CodeEntry} {k : Nat} (h : k ≤ e.len) :
    e.wire.take k = (bitsOf k (e.canon / 2 ^ (e.len - k))).reverse := by
  rw [CodeEntry.wire, List.take_reverse, length_bitsOf, drop_bitsOf (Nat.sub_le _ _), Nat.sub_sub_self h]

theorem msbValue_take_wire {e : CodeEntry} (hc : e.canon < 2 ^ e.len) {k : Nat} (h : k ≤ e.len) :
    msbValue (e.wire.take k) = e.canon / 2 ^ (e.len - k) := by
  rw [take_wire h, msbValue, List.reverse_reverse, natOfBits_bitsOf_of_lt]
  rw [Nat.div_lt_iff_lt_mul (Nat.two_pow_pos _), ← pow_add]
  rwa [Nat.add_sub_cancel' h]

/-- A bit string begins a code exactly where the code's high bits are its value. -/
theorem prefix_wire_iff {e : CodeEntry} (hc : e.canon < 2 ^ e.len) {pre : List Bool} (h : pre.length ≤ e.len) :
    pre <+: e.wire ↔ e.canon / 2 ^ (e.len - pre.length) = msbValue pre := by
  rw [List.prefix_iff_eq_take, ← msbValue_take_wire hc h]
  constructor
  · intro he; rw [← he]
  · intro hv
    refine eq_of_msbValue_eq ?_ hv.symm
    simp [h]

theorem match_iff {e : CodeEntry} (hc : e.canon < 2 ^ e.len) (pre : List Bool) :
    (e.len == pre.length && e.canon == msbValue pre) = true ↔ e.wire = pre := by
  simp only [Bool.and_eq_true, beq_iff_eq]
  constructor
  · rintro ⟨hl, hv⟩
    refine eq_of_msbValue_eq (by simpa using hl) ?_
    rw [CodeEntry.msbValue_wire hc, hv]
  · intro h
    subst h
    exact ⟨by simp, (CodeEntry.msbValue_wire hc).symm⟩

theorem extends_iff {e : CodeEntry} (hc : e.canon < 2 ^ e.len) (pre : List Bool) :
    (decide (pre.length < e.len) && (e.canon >>> (e.len - pre.length) == msbValue pre)) = true ↔
      pre <+: e.wire ∧ pre.length < e.len := by
  simp only [Bool.and_eq_true, decide_eq_true_eq, beq_iff_eq, Nat.shiftRight_eq_div_pow]
  constructor
  · rintro ⟨hl, hv⟩; exact ⟨(prefix_wire_iff hc hl.le).2 hv, hl⟩
  · rintro ⟨hp, hl⟩; exact ⟨hl, (prefix_wire_iff hc hl.le).1 hp⟩

/-! ## PEEK -/

theorem Code.Proper.canon_lt {c : Code} (h : c.Proper) {e : CodeEntry} (he : e ∈ c) : e.canon < 2 ^ e.len := (h.1 e he).2.2

theorem Code.Proper.len_le {c : Code} (h : c.Proper) {e : CodeEntry} (he : e ∈ c) : e.len ≤ 15 := (h.1 e he).2.1

theorem Code.Proper.len_pos {c : Code} (h : c.Proper) {e : CodeEntry} (he : e ∈ c) : 1 ≤ e.len := (h.1 e he).1

/-- In a prefix code no code begins another one. -/
theorem Code.Proper.eq_of_prefix {c : Code} (h : c.Proper) {a b : CodeEntry} (ha : a ∈ c) (hb : b ∈ c)
    (hp : a.wire <+: b.wire) : a = b := by
  by_contra hne
  have : Std.Symm (fun a b : CodeEntry => ¬ a.wire <+: b.wire ∧ ¬ b.wire <+: a.wire) := ⟨fun a b hab => hab.symm⟩
  have hpair : c.Pairwise (fun a b : CodeEntry => ¬ a.wire <+: b.wire ∧ ¬ b.wire <+: a.wire) := h.2.imp (fun {_ _} hab => hab.2)
  exact (hpair.forall ha hb hne).1 hp

theorem peekFrom_cons (c : Code) (pre : List Bool) (b : Bool) (bs : List Bool) :
    peekFrom c (msbValue pre) pre.length (b :: bs) =
      match c.find? (fun e => e.len == (pre ++ [b]).length && e.canon == msbValue (pre ++ [b])) with
      | some e => .symbol e.sym (pre ++ [b]).length
      | none =>
        if c.any (fun e => decide ((pre ++ [b]).length < e.len) &&
            (e.canon >>> (e.len - (pre ++ [b]).length) == msbValue (pre ++ [b]))) then
          peekFrom c (msbValue (pre ++ [b])) (pre ++ [b]).length bs
        else .invalid (pre ++ [b]).length := by
  rw [peekFrom]
  simp only [msbValue_append_singleton, List.length_append, List.length_singleton]
  all_goals rfl

/-- A whole code in front of the bits is the symbol found (R335). -/
theorem peekFrom_wire {c : Code} (h : c.Proper) {e : CodeEntry} (he : e ∈ c) (rest : List Bool) :
    ∀ (suf pre : List Bool), e.wire = pre ++ suf → suf ≠ [] →
      peekFrom c (msbValue pre) pre.length (suf ++ rest) = .symbol e.sym e.len
  | [], _, _, hs => absurd rfl hs
  | b :: suf, pre, hw, _ => by
    rw [List.cons_append, peekFrom_cons]
    have hw' : e.wire = (pre ++ [b]) ++ suf := by simpa using hw
    cases suf with
    | nil =>
      rw [List.append_nil] at hw'
      have hfind : ∀ e', c.find? (fun e => e.len == (pre ++ [b]).length && e.canon == msbValue (pre ++ [b])) = some e' →
          e' = e := by
        intro e' hf
        have hm := List.mem_of_find?_eq_some hf
        have hp := List.find?_some hf
        have hwe := (match_iff (h.canon_lt hm) (pre ++ [b])).1 hp
        exact h.eq_of_prefix hm he (by rw [hwe, hw'])
      have hsome : c.find? (fun e => e.len == (pre ++ [b]).length && e.canon == msbValue (pre ++ [b])) ≠ none := by
        intro hn
        have := List.find?_eq_none.1 hn e he
        exact this ((match_iff (h.canon_lt he) (pre ++ [b])).2 hw')
      obtain ⟨e', hf⟩ := Option.ne_none_iff_exists'.1 hsome
      rw [hf, hfind e' hf]
      have : (pre ++ [b]).length = e.len := by rw [← hw', CodeEntry.length_wire]
      simp only [this]
    | cons b' suf' =>
      have hpre : (pre ++ [b]) <+: e.wire := ⟨_, hw'.symm⟩
      have hlt : (pre ++ [b]).length < e.len := by
        rw [← CodeEntry.length_wire e, hw']; simp
      have hnone : c.find? (fun e => e.len == (pre ++ [b]).length && e.canon == msbValue (pre ++ [b])) = none := by
        rw [List.find?_eq_none]
        intro e' hm hp
        have hwe := (match_iff (h.canon_lt hm) (pre ++ [b])).1 hp
        have hee := h.eq_of_prefix hm he (by rw [hwe]; exact hpre)
        rw [hee] at hwe
        rw [← hwe, CodeEntry.length_wire] at hlt
        exact absurd hlt (Nat.lt_irrefl _)
      have hany : c.any (fun e => decide ((pre ++ [b]).length < e.len) &&
          (e.canon >>> (e.len - (pre ++ [b]).length) == msbValue (pre ++ [b]))) = true :=
        List.any_eq_true.2 ⟨e, he, (extends_iff (h.canon_lt he) _).2 ⟨hpre, hlt⟩⟩
      rw [hnone, hany]
      exact peekFrom_wire h he rest (b' :: suf') (pre ++ [b]) hw' (by simp)

/-- PEEK finds the code in front of the bits, whatever follows it (R335). -/
theorem peek_wire {c : Code} (h : c.Proper) {e : CodeEntry} (he : e ∈ c) (rest : List Bool) :
    peek c (e.wire ++ rest) = .symbol e.sym e.len := by
  have := peekFrom_wire h he rest e.wire [] rfl (by
    intro hn
    have h1 := CodeEntry.length_wire e
    rw [hn] at h1
    have := h.len_pos he
    simp at h1; omega)
  simpa [msbValue, peek] using this

/-- What PEEK's answers mean. -/
theorem peekFrom_spec {c : Code} (hc : ∀ e ∈ c, e.canon < 2 ^ e.len) : ∀ (bits pre : List Bool),
    match peekFrom c (msbValue pre) pre.length bits with
    | .symbol s k => ∃ e ∈ c, e.sym = s ∧ e.len = k ∧ e.wire <+: pre ++ bits ∧ pre.length < k
    | .more => bits = [] ∨ ∃ e ∈ c, pre ++ bits <+: e.wire ∧ (pre ++ bits).length < e.len
    | .invalid k => pre.length < k ∧ k ≤ (pre ++ bits).length ∧ (∀ e ∈ c, ¬ (pre ++ bits).take k <+: e.wire) ∧
        ∀ e ∈ c, e.wire <+: (pre ++ bits).take k → e.wire <+: pre
  | [], pre => Or.inl rfl
  | b :: bs, pre => by
    have hsplit : pre ++ b :: bs = (pre ++ [b]) ++ bs := by simp
    rw [peekFrom_cons]
    cases hf : c.find? (fun e => e.len == (pre ++ [b]).length && e.canon == msbValue (pre ++ [b])) with
    | some e =>
      have hm := List.mem_of_find?_eq_some hf
      have hp := List.find?_some hf
      have hwe := (match_iff (hc e hm) (pre ++ [b])).1 hp
      refine ⟨e, hm, rfl, ?_, ?_, ?_⟩
      · rw [← hwe, CodeEntry.length_wire]
      · rw [hwe, hsplit]; exact List.prefix_append _ _
      · simp
    | none =>
      have hno : ∀ e ∈ c, e.wire ≠ pre ++ [b] := fun e hm hwe =>
        List.find?_eq_none.1 hf e hm ((match_iff (hc e hm) (pre ++ [b])).2 hwe)
      cases hany : c.any (fun e => decide ((pre ++ [b]).length < e.len) &&
          (e.canon >>> (e.len - (pre ++ [b]).length) == msbValue (pre ++ [b]))) with
      | true =>
        have ih := peekFrom_spec hc bs (pre ++ [b])
        simp only [if_true]
        obtain ⟨e₀, hm₀, hx₀⟩ := List.any_eq_true.1 hany
        have hx₀ := (extends_iff (hc e₀ hm₀) _).1 hx₀
        cases hr : peekFrom c (msbValue (pre ++ [b])) (pre ++ [b]).length bs with
        | symbol s k =>
          rw [hr] at ih
          obtain ⟨e, hm, hs, hk, hp, hlt⟩ := ih
          refine ⟨e, hm, hs, hk, by rwa [hsplit], ?_⟩
          simp at hlt; omega
        | more =>
          rw [hr] at ih
          right
          rcases ih with rfl | ⟨e, hm, hp, hlt⟩
          · exact ⟨e₀, hm₀, by rw [hsplit, List.append_nil]; exact hx₀.1, by rw [hsplit, List.append_nil]; exact hx₀.2⟩
          · exact ⟨e, hm, by rwa [hsplit], by rwa [hsplit]⟩
        | invalid k =>
          rw [hr] at ih
          obtain ⟨h1, h2, h3, h4⟩ := ih
          rw [hsplit]
          refine ⟨by simp at h1; omega, h2, h3, fun e hm hp => ?_⟩
          have hp' := h4 e hm hp
          rcases List.prefix_concat_iff.1 hp' with heq | hp''
          · exact absurd heq (hno e hm)
          · exact hp''
      | false =>
        have hall : ∀ e ∈ c, ¬ ((pre ++ [b]) <+: e.wire ∧ (pre ++ [b]).length < e.len) := by
          intro e hm hx
          have : c.any (fun e => decide ((pre ++ [b]).length < e.len) &&
            (e.canon >>> (e.len - (pre ++ [b]).length) == msbValue (pre ++ [b]))) = true :=
            List.any_eq_true.2 ⟨e, hm, (extends_iff (hc e hm) _).2 hx⟩
          rw [hany] at this; exact absurd this (by decide)
        have htake : (pre ++ b :: bs).take (pre ++ [b]).length = pre ++ [b] := by
          rw [hsplit]; exact List.take_left' rfl
        simp only [Bool.false_eq_true, if_false]
        rw [htake]
        refine ⟨by simp, by simp, fun e hm hp => ?_, fun e hm hp => ?_⟩
        · have hle : (pre ++ [b]).length ≤ e.len := by
            have := hp.length_le; rwa [CodeEntry.length_wire] at this
          rcases Nat.lt_or_eq_of_le hle with hlt | heq
          · exact hall e hm ⟨hp, hlt⟩
          · exact hno e hm (hp.eq_of_length (by rw [heq, CodeEntry.length_wire])).symm
        · rcases List.prefix_concat_iff.1 hp with heq | hp''
          · exact absurd heq (hno e hm)
          · exact hp''

/-- The symbol PEEK finds is one of the code whose code stands in front of the bits. -/
theorem peek_symbol {c : Code} (h : c.Proper) {bits : List Bool} {s k : Nat} (hp : peek c bits = .symbol s k) :
    ∃ e ∈ c, e.sym = s ∧ e.len = k ∧ e.wire <+: bits := by
  have := peekFrom_spec (fun e he => h.canon_lt he) bits []
  simp only [peek, msbValue] at this hp
  simp only [List.reverse_nil, natOfBits_nil, List.length_nil, List.nil_append] at this
  rw [hp] at this
  obtain ⟨e, he, hs, hk, hw, _⟩ := this
  exact ⟨e, he, hs, hk, hw⟩

/-- PEEK asks for more only while fewer than 15 bits are in sight. -/
theorem peek_more {c : Code} (h : c.Proper) {bits : List Bool} (hp : peek c bits = .more) : bits.length < 15 := by
  have := peekFrom_spec (fun e he => h.canon_lt he) bits []
  simp only [peek, msbValue] at this hp
  simp only [List.reverse_nil, natOfBits_nil, List.length_nil, List.nil_append] at this
  rw [hp] at this
  rcases this with rfl | ⟨e, he, _, hlt⟩
  · simp
  · have := h.len_le he; omega

theorem peek_invalid {c : Code} (h : c.Proper) {bits : List Bool} {k : Nat} (hp : peek c bits = .invalid k) :
    1 ≤ k ∧ k ≤ bits.length ∧ ∀ e ∈ c, ¬ bits.take k <+: e.wire ∧ ¬ e.wire <+: bits.take k := by
  have := peekFrom_spec (fun e he => h.canon_lt he) bits []
  simp only [peek, msbValue] at this hp
  simp only [List.reverse_nil, natOfBits_nil, List.length_nil, List.nil_append] at this
  rw [hp] at this
  obtain ⟨h1, h2, h3, h4⟩ := this
  refine ⟨h1, h2, fun e he => ⟨h3 e he, fun hw => ?_⟩⟩
  have hnil := List.prefix_nil.1 (h4 e he hw)
  have := h.len_pos he
  rw [← CodeEntry.length_wire, hnil] at this
  simp at this

/-! ## Kraft's inequality -/

/-- The 15-bit strings that begin with a code. -/
def CodeEntry.cover (e : CodeEntry) : Finset Nat := (Finset.range (2 ^ 15)).filter (fun x => x / 2 ^ (15 - e.len) = e.canon)

theorem CodeEntry.mem_cover {e : CodeEntry} (hc : e.canon < 2 ^ e.len) (hl : e.len ≤ 15) {x : Nat} :
    x ∈ e.cover ↔ x / 2 ^ (15 - e.len) = e.canon := by
  simp only [CodeEntry.cover, Finset.mem_filter, Finset.mem_range, and_iff_right_iff_imp]
  intro hx
  have h1 : x < (e.canon + 1) * 2 ^ (15 - e.len) := by
    rw [← Nat.div_lt_iff_lt_mul (Nat.two_pow_pos _)]; omega
  have h2 : (e.canon + 1) * 2 ^ (15 - e.len) ≤ 2 ^ e.len * 2 ^ (15 - e.len) := Nat.mul_le_mul_right _ hc
  rw [← pow_add, Nat.add_sub_cancel' hl] at h2
  omega

theorem CodeEntry.card_cover {e : CodeEntry} (hc : e.canon < 2 ^ e.len) (hl : e.len ≤ 15) :
    e.cover.card = 2 ^ (15 - e.len) := by
  have : e.cover = Finset.Ico (e.canon * 2 ^ (15 - e.len)) (e.canon * 2 ^ (15 - e.len) + 2 ^ (15 - e.len)) := by
    ext x
    rw [CodeEntry.mem_cover hc hl, Finset.mem_Ico, Nat.div_eq_iff (Nat.two_pow_pos _)]
    have := Nat.two_pow_pos (15 - e.len)
    constructor <;> rintro ⟨h1, h2⟩ <;> constructor <;> omega
  rw [this, Nat.card_Ico, Nat.add_sub_cancel_left]

theorem CodeEntry.prefix_of_common {a b : CodeEntry} (ha : a.canon < 2 ^ a.len) (hb : b.canon < 2 ^ b.len) (hla : a.len ≤ 15)
    (hlb : b.len ≤ 15) (hab : a.len ≤ b.len) {x : Nat} (hxa : x ∈ a.cover) (hxb : x ∈ b.cover) : a.wire <+: b.wire := by
  rw [CodeEntry.mem_cover ha hla] at hxa
  rw [CodeEntry.mem_cover hb hlb] at hxb
  rw [prefix_wire_iff hb (by simpa using hab), CodeEntry.length_wire, CodeEntry.msbValue_wire ha, ← hxb, Nat.div_div_eq_div_mul,
    ← pow_add, ← hxa]
  congr 2; omega

theorem Code.Proper.tail {e : CodeEntry} {c : Code} (h : Code.Proper (e :: c)) : Code.Proper c :=
  ⟨fun x hx => h.1 x (List.mem_cons_of_mem _ hx), (List.pairwise_cons.1 h.2).2⟩

/-- Kraft's inequality. -/
theorem Code.Proper.kraft_le {c : Code} (h : c.Proper) : c.kraft ≤ 2 ^ 15 := by
  suffices hs : ∃ u : Finset Nat, u.card = c.kraft ∧ u ⊆ Finset.range (2 ^ 15) ∧ ∀ x ∈ u, ∃ e ∈ c, x ∈ e.cover by
    obtain ⟨u, hu, hsub, _⟩ := hs
    rw [← hu]
    simpa using Finset.card_le_card hsub
  induction c with
  | nil => exact ⟨∅, rfl, Finset.empty_subset _, by simp⟩
  | cons e c ih =>
    obtain ⟨u, hu, hsub, hcov⟩ := ih h.tail
    have hmem : e ∈ e :: c := List.mem_cons_self
    have hce := h.canon_lt hmem
    have hle := h.len_le hmem
    have hdis : Disjoint e.cover u := by
      rw [Finset.disjoint_left]
      intro x hx hxu
      obtain ⟨e', he', hx'⟩ := hcov x hxu
      have hin : e' ∈ e :: c := List.mem_cons_of_mem _ he'
      have hpair := (List.pairwise_cons.1 h.2).1 e' he'
      rcases Nat.le_total e.len e'.len with hl | hl
      · exact hpair.2.1 (CodeEntry.prefix_of_common hce (h.canon_lt hin) hle (h.len_le hin) hl hx hx')
      · exact hpair.2.2 (CodeEntry.prefix_of_common (h.canon_lt hin) hce (h.len_le hin) hle hl hx' hx)
    refine ⟨e.cover ∪ u, ?_, ?_, ?_⟩
    · rw [Finset.card_union_of_disjoint hdis, CodeEntry.card_cover hce hle, hu]
      simp [Code.kraft]
    · exact Finset.union_subset (Finset.filter_subset _ _) hsub
    · intro x hx
      rcases Finset.mem_union.1 hx with h1 | h1
      · exact ⟨e, hmem, h1⟩
      · obtain ⟨e', he', hx'⟩ := hcov x h1
        exact ⟨e', List.mem_cons_of_mem _ he', hx'⟩

/-- With a complete code PEEK never finds bits that match no code (R336). -/
theorem peek_ne_invalid {c : Code} (h : c.Proper) (hcomp : c.Complete) (bits : List Bool) (k : Nat) :
    peek c bits ≠ .invalid k := by
  intro hp
  obtain ⟨hk1, hk2, hno⟩ := peek_invalid h hp
  -- the bits, cut to 15, would be one more code beside the others
  set w := bits.take (min k 15) with hw
  have hwl : w.length = min k 15 := by rw [hw, List.length_take]; omega
  have hwk : w <+: bits.take k := by
    rw [hw, List.prefix_take_iff]; exact ⟨List.take_prefix _ _, by rw [List.length_take]; omega⟩
  have hinc : ∀ e ∈ c, ¬ w <+: e.wire ∧ ¬ e.wire <+: w := by
    intro e he
    refine ⟨fun hx => ?_, fun hx => (hno e he).2 (hx.trans hwk)⟩
    rcases Nat.le_total k 15 with hk | hk
    · rw [hw, Nat.min_eq_left hk] at hx; exact (hno e he).1 hx
    · have hl := hx.length_le
      rw [hwl, Nat.min_eq_right hk, CodeEntry.length_wire] at hl
      have hle := h.len_le he
      have heq : w = e.wire := hx.eq_of_length (by rw [hwl, CodeEntry.length_wire]; omega)
      exact (hno e he).2 (by rw [← heq]; exact hwk)
  let e' : CodeEntry := { sym := (c.map (·.sym)).sum + 1, len := w.length, canon := msbValue w }
  have he'w : e'.wire = w := (match_iff (e := e') (msbValue_lt w) w).1 (by simp [e'])
  have hproper : Code.Proper (e' :: c) := by
    refine ⟨fun e he => ?_, List.pairwise_cons.2 ⟨fun e he => ?_, h.2⟩⟩
    · rcases List.mem_cons.1 he with rfl | he
      · exact ⟨by show 1 ≤ w.length; omega, by show w.length ≤ 15; omega, msbValue_lt w⟩
      · exact h.1 e he
    · refine ⟨?_, by rw [he'w]; exact (hinc e he).1, by rw [he'w]; exact (hinc e he).2⟩
      have : e.sym ≤ (c.map (·.sym)).sum := List.single_le_sum (by simp) _ (List.mem_map_of_mem he)
      show (c.map (·.sym)).sum + 1 ≠ e.sym
      omega
  have hk := hproper.kraft_le
  have : Code.kraft (e' :: c) = 2 ^ (15 - w.length) + c.kraft := by simp [Code.kraft, e']
  have hpos := Nat.two_pow_pos (15 - w.length)
  have hc : c.kraft = 2 ^ 15 := hcomp
  omega

end Sys2Proof
end

