-- ==== Sys2Proof/Laws/Canonical.lean ====
section
/-! SUPPORT. Sys2Proof/Laws/Canonical.lean: canonical codes (R196): the code of a symbol is the first code of its length plus the number
of earlier symbols of that length, and an acceptable length set (R331) gives a prefix code, complete for the code-length code. -/

namespace Sys2Proof

/-! ## The closed form of gen_codes -/

theorem length_nextCodes (lens : List Nat) (n bits code : Nat) : (nextCodes lens n bits code).length = n := by
  induction n generalizing bits code with
  | zero => rfl
  | succ n ih => simp [nextCodes, ih]

theorem getD_nextCodes (lens : List Nat) (n bits i : Nat) (hi : i < n) :
    (nextCodes lens n bits (firstCode lens bits)).getD i 0 = firstCode lens (bits + i) := by
  induction n generalizing bits i with
  | zero => exact absurd hi (Nat.not_lt_zero i)
  | succ n ih =>
    have hstep : (firstCode lens bits + blCount lens bits) * 2 = firstCode lens (bits + 1) := rfl
    cases i with
    | zero => simp [nextCodes]
    | succ i =>
      rw [nextCodes, hstep, List.getD_cons_succ, ih (bits + 1) i (by omega)]
      congr 1; omega

/-- The entries a run of `gen_codes` makes: symbol by symbol, each code the next one of its length. -/
theorem assignCodes_eq (ls : List Nat) : ∀ (n : Nat) (next : List Nat), (∀ l ∈ ls, l < next.length) → ∀ e : CodeEntry,
    e ∈ assignCodes n ls next ↔
      ∃ i, ∃ h : i < ls.length, ls[i] = e.len ∧ e.len ≠ 0 ∧ e.sym = n + i ∧
        e.canon = next.getD e.len 0 + (ls.take i).count e.len := by
  induction ls with
  | nil => intro n next _ e; simp [assignCodes]
  | cons l rest ih =>
    intro n next hlt e
    have hrest : ∀ x ∈ rest, x < next.length := fun x hx => hlt x (List.mem_cons_of_mem _ hx)
    have hl : l < next.length := hlt l List.mem_cons_self
    rw [assignCodes]
    by_cases h0 : l = 0
    · rw [if_pos h0, ih (n + 1) next hrest e]
      constructor
      · rintro ⟨i, hi, h1, h2, h3, h4⟩
        refine ⟨i + 1, by simpa using hi, by simpa using h1, h2, by omega, ?_⟩
        rw [h4, List.take_succ_cons, List.count_cons_of_ne (by omega)]
      · rintro ⟨i, hi, h1, h2, h3, h4⟩
        cases i with
        | zero => exact absurd (h1.symm.trans (by simpa using h0)) h2
        | succ i =>
          refine ⟨i, by simpa using hi, by simpa using h1, h2, by omega, ?_⟩
          rw [h4, List.take_succ_cons, List.count_cons_of_ne (by omega)]
    · rw [if_neg h0, List.mem_cons, ih (n + 1) _ (by simpa using hrest) e]
      have hget : ∀ k, (next.set l (next.getD l 0 + 1)).getD k 0 = next.getD k 0 + if k = l then 1 else 0 := by
        intro k
        by_cases hk : k = l
        · subst hk; simp [List.getD_eq_getElem?_getD, hl]
        · have hk' : l ≠ k := fun h => hk h.symm
          simp [List.getD_eq_getElem?_getD, List.getElem?_set_ne hk', hk]
      constructor
      · rintro (rfl | ⟨i, hi, h1, h2, h3, h4⟩)
        · exact ⟨0, by simp, rfl, h0, rfl, by simp⟩
        · refine ⟨i + 1, by simpa using hi, by simpa using h1, h2, by omega, ?_⟩
          rw [h4, hget, List.take_succ_cons, List.count_cons]
          by_cases hk : e.len = l
          · simp [hk]; omega
          · have hk' : l ≠ e.len := fun h => hk h.symm
            simp [hk, hk']
      · rintro ⟨i, hi, h1, h2, h3, h4⟩
        cases i with
        | zero =>
          left
          have h1' : l = e.len := by simpa using h1
          have hs : e.sym = n := by simpa using h3
          have hc : e.canon = next.getD l 0 := by simpa [h1'] using h4
          cases e
          simp_all
        | succ i =>
          right
          refine ⟨i, by simpa using hi, by simpa using h1, h2, by omega, ?_⟩
          rw [h4, hget, List.take_succ_cons, List.count_cons]
          by_cases hk : e.len = l
          · simp [hk]; omega
          · have hk' : l ≠ e.len := fun h => hk h.symm
            simp [hk, hk']

/-- A symbol's canonical code is the first code of its length plus its rank among the symbols of that length (R196). -/
theorem mem_canonicalCode {lens : List Nat} (hl : ∀ l ∈ lens, l ≤ 15) (e : CodeEntry) :
    e ∈ canonicalCode lens ↔
      ∃ h : e.sym < lens.length, lens[e.sym] = e.len ∧ e.len ≠ 0 ∧
        e.canon = firstCode lens e.len + (lens.take e.sym).count e.len := by
  have hlen : ∀ l ∈ lens, l < (nextCodes lens 16 0 0).length := by
    intro l h; rw [length_nextCodes]; exact Nat.lt_succ_of_le (hl l h)
  rw [canonicalCode, assignCodes_eq lens 0 _ hlen e]
  constructor
  · rintro ⟨i, hi, h1, h2, h3, h4⟩
    rw [Nat.zero_add] at h3
    have hle : e.len < 16 := by have := hl _ (List.getElem_mem hi); omega
    refine ⟨by omega, by simpa [h3] using h1, h2, ?_⟩
    rw [h4, h3]
    congr 1
    exact (getD_nextCodes lens 16 0 e.len hle).trans (by rw [Nat.zero_add])
  · rintro ⟨hi, h1, h2, h3⟩
    have hle : e.len < 16 := by have := hl _ (List.getElem_mem hi); omega
    refine ⟨e.sym, hi, h1, h2, by omega, ?_⟩
    rw [h3]
    congr 1
    exact ((getD_nextCodes lens 16 0 e.len hle).trans (by rw [Nat.zero_add])).symm

theorem assignCodes_pairwise_sym (ls : List Nat) : ∀ (n : Nat) (next : List Nat),
    (∀ e ∈ assignCodes n ls next, n ≤ e.sym) ∧ (assignCodes n ls next).Pairwise (fun a b => a.sym < b.sym) := by
  induction ls with
  | nil => intro n next; exact ⟨by simp [assignCodes], List.Pairwise.nil⟩
  | cons l rest ih =>
    intro n next
    rw [assignCodes]
    split
    · obtain ⟨h1, h2⟩ := ih (n + 1) next
      exact ⟨fun e he => Nat.le_of_succ_le (h1 e he), h2⟩
    · obtain ⟨h1, h2⟩ := ih (n + 1) (next.set l (next.getD l 0 + 1))
      refine ⟨fun e he => ?_, List.pairwise_cons.2 ⟨fun e he => h1 e he, h2⟩⟩
      rcases List.mem_cons.1 he with rfl | he
      · exact Nat.le_refl _
      · exact Nat.le_of_succ_le (h1 e he)

theorem canonicalCode_pairwise_sym (lens : List Nat) : (canonicalCode lens).Pairwise (fun a b => a.sym < b.sym) :=
  (assignCodes_pairwise_sym lens 0 _).2

/-! ## First codes and the Kraft slack -/

theorem firstCode_succ (lens : List Nat) (l : Nat) :
    firstCode lens (l + 1) = (firstCode lens l + blCount lens l) * 2 := rfl

/-- A longer length's first code lies past every code of a shorter length, extended. -/
theorem firstCode_add (lens : List Nat) (l d : Nat) :
    (firstCode lens l + blCount lens l) * 2 ^ (d + 1) ≤ firstCode lens (l + (d + 1)) := by
  induction d with
  | zero => simp [firstCode_succ]
  | succ d ih =>
    rw [show l + (d + 1 + 1) = l + (d + 1) + 1 by omega, firstCode_succ, pow_succ, ← Nat.mul_assoc]
    exact Nat.mul_le_mul_right 2 (le_trans ih (Nat.le_add_right _ _))

/-- The slack at a depth is what the codes up to that length leave free. -/
theorem kraftLeft_eq (lens : List Nat) (l : Nat) :
    Machine.kraftLeft lens l = (2 : Int) ^ l - (firstCode lens l + blCount lens l : Nat) := by
  induction l with
  | zero => simp [Machine.kraftLeft, firstCode, blCount]
  | succ l ih =>
    rw [Machine.kraftLeft, ih, firstCode_succ]
    push_cast
    ring

theorem not_overSubscribed {lens : List Nat} {n : Nat} (h : Machine.overSubscribed lens n = false) :
    ∀ l, 1 ≤ l → l ≤ n → firstCode lens l + blCount lens l ≤ 2 ^ l := by
  induction n with
  | zero => intro l h1 h2; omega
  | succ n ih =>
    rw [Machine.overSubscribed, Bool.or_eq_false_iff, decide_eq_false_iff_not] at h
    intro l h1 h2
    rcases Nat.lt_or_eq_of_le h2 with hlt | rfl
    · exact ih h.2 l h1 (by omega)
    · have := h.1
      rw [kraftLeft_eq] at this
      have h3 : ((firstCode lens (n + 1) + blCount lens (n + 1) : Nat) : Int) ≤ (2 : Int) ^ (n + 1) := by omega
      exact_mod_cast h3

theorem count_take_lt {lens : List Nat} {i : Nat} (hi : i < lens.length) {l : Nat} (h : lens[i] = l) :
    (lens.take i).count l < lens.count l := by
  conv_rhs => rw [← List.take_append_drop i lens, List.count_append]
  have : lens.drop i = l :: lens.drop (i + 1) := by rw [← h]; exact List.drop_eq_getElem_cons hi
  rw [this]; simp

theorem count_take_mono {lens : List Nat} {i j : Nat} (hij : i ≤ j) (l : Nat) :
    (lens.take i).count l ≤ (lens.take j).count l := by
  have h : lens.take i = (lens.take j).take i := by rw [List.take_take, Nat.min_eq_left hij]
  rw [h]
  exact (List.take_sublist i _).count_le l

/-- Two symbols of one length: the earlier one has the smaller code (R196). -/
theorem count_take_strict {lens : List Nat} {i j : Nat} (hij : i < j) (hi : i < lens.length) {l : Nat} (h : lens[i] = l) :
    (lens.take i).count l < (lens.take j).count l := by
  refine lt_of_lt_of_le ?_ (count_take_mono (Nat.succ_le_of_lt hij) l)
  rw [List.take_succ_eq_append_getElem hi, List.count_append, h]
  simp

/-! ## Prefix codes -/

/-- The canonical code of lengths that are not over-subscribed is a prefix code (R196, R197). -/
theorem canonicalCode_proper {lens : List Nat} (hl : ∀ l ∈ lens, l ≤ 15) (hk : Machine.overSubscribed lens 15 = false) :
    (canonicalCode lens).Proper := by
  have hbound : ∀ e ∈ canonicalCode lens, 1 ≤ e.len ∧ e.len ≤ 15 ∧ e.canon < 2 ^ e.len ∧
      e.canon < firstCode lens e.len + blCount lens e.len ∧ firstCode lens e.len ≤ e.canon := by
    intro e he
    obtain ⟨hi, h1, h2, h3⟩ := (mem_canonicalCode hl e).1 he
    have hle : e.len ≤ 15 := by rw [← h1]; exact hl _ (List.getElem_mem hi)
    have hc := count_take_lt hi h1
    have hb : blCount lens e.len = lens.count e.len := by simp [blCount, h2]
    have := not_overSubscribed hk e.len (by omega) hle
    exact ⟨by omega, hle, by omega, by omega, by omega⟩
  refine ⟨fun e he => ⟨(hbound e he).1, (hbound e he).2.1, (hbound e he).2.2.1⟩, ?_⟩
  refine (canonicalCode_pairwise_sym lens).imp_of_mem ?_
  intro a b ha hb hab
  have hpre : ∀ x y : CodeEntry, x ∈ canonicalCode lens → y ∈ canonicalCode lens → x.sym ≠ y.sym → ¬ x.wire <+: y.wire := by
    intro x y hx hy hne hp
    obtain ⟨hx1, hx2, hx3, hx4, hx5⟩ := hbound x hx
    obtain ⟨hy1, hy2, hy3, hy4, hy5⟩ := hbound y hy
    have hle : x.len ≤ y.len := by simpa using hp.length_le
    rw [prefix_wire_iff hy3 (by simpa using hle), CodeEntry.length_wire, CodeEntry.msbValue_wire hx3] at hp
    rcases Nat.lt_or_eq_of_le hle with hlt | heq
    · obtain ⟨d, hd⟩ := Nat.exists_eq_add_of_lt hlt
      have h1 := firstCode_add lens x.len d
      rw [show x.len + (d + 1) = y.len by omega] at h1
      have h2 : y.len - x.len = d + 1 := by omega
      rw [h2] at hp
      have h3 : (firstCode lens x.len + blCount lens x.len) ≤ y.canon / 2 ^ (d + 1) := by
        rw [Nat.le_div_iff_mul_le (Nat.two_pow_pos _)]; omega
      omega
    · rw [heq, Nat.sub_self, pow_zero, Nat.div_one] at hp
      obtain ⟨hix, hx6, _, hx7⟩ := (mem_canonicalCode hl x).1 hx
      obtain ⟨hiy, hy6, _, hy7⟩ := (mem_canonicalCode hl y).1 hy
      rw [heq] at hx6 hx7
      rcases Nat.lt_or_gt_of_ne hne with h | h
      · have := count_take_strict h hix hx6; omega
      · have := count_take_strict h hiy hy6; omega
  exact ⟨Nat.ne_of_lt hab, hpre a b ha hb (Nat.ne_of_lt hab), hpre b a hb ha (Nat.ne_of_gt hab)⟩

/-- The symbols of a canonical code are the positions of its lengths. -/
theorem canonicalCode_sym_lt {lens : List Nat} (hl : ∀ l ∈ lens, l ≤ 15) {e : CodeEntry} (he : e ∈ canonicalCode lens) :
    e.sym < lens.length := ((mem_canonicalCode hl e).1 he).1

/-! ## Kraft's equality -/

/-- What a symbol of length `v` takes of the codes of length `l`. -/
def share (l v : Nat) : Nat := if v = 0 ∨ l < v then 0 else 2 ^ (l - v)

theorem sum_share (lens : List Nat) (l : Nat) : (lens.map (share l)).sum = firstCode lens l + blCount lens l := by
  induction l with
  | zero =>
    have : share 0 = fun _ => 0 := funext fun v => by unfold share; split <;> first | rfl | omega
    simp [this, firstCode, blCount]
  | succ l ih =>
    rw [firstCode_succ, ← ih]
    have hstep : ∀ v, share (l + 1) v = share l v * 2 + if v = l + 1 then 1 else 0 := by
      intro v
      unfold share
      by_cases h0 : v = 0
      · simp [h0]
      · by_cases h1 : v = l + 1
        · simp [h1]
        · by_cases h2 : l + 1 < v
          · have : l < v := by omega
            simp [h0, h1, h2, this]
          · have h3 : ¬ l < v := by omega
            simp only [h0, h1, h2, h3, or_self, if_false, Nat.add_zero]
            rw [show l + 1 - v = l - v + 1 by omega, pow_succ]
    have hb : blCount lens (l + 1) = (lens.map (fun v => if v = l + 1 then 1 else 0)).sum := by
      rw [blCount, if_neg (Nat.succ_ne_zero l)]
      clear ih hstep
      induction lens with
      | nil => rfl
      | cons v vs ih =>
        rw [List.count_cons, List.map_cons, List.sum_cons, ← ih]
        by_cases h : v = l + 1 <;> simp [h, Nat.add_comm]
    rw [hb]
    clear ih hb
    induction lens with
    | nil => rfl
    | cons v vs ih =>
      simp only [List.map_cons, List.sum_cons, hstep v] at ih ⊢
      omega

theorem kraft_assignCodes (ls : List Nat) : ∀ (n : Nat) (next : List Nat), (∀ l ∈ ls, l ≤ 15) →
    Code.kraft (assignCodes n ls next) = (ls.map (share 15)).sum := by
  induction ls with
  | nil => intro n next _; rfl
  | cons l rest ih =>
    intro n next hl
    have hrest : ∀ x ∈ rest, x ≤ 15 := fun x hx => hl x (List.mem_cons_of_mem _ hx)
    have h15 : l ≤ 15 := hl l List.mem_cons_self
    rw [assignCodes, List.map_cons, List.sum_cons]
    by_cases h0 : l = 0
    · rw [if_pos h0, ih _ _ hrest]; simp [share, h0]
    · rw [if_neg h0]
      have : ¬ 15 < l := by omega
      have ih' := ih (n + 1) (next.set l (next.getD l 0 + 1)) hrest
      simp only [Code.kraft] at ih' ⊢
      rw [List.map_cons, List.sum_cons, ih']
      simp [share, h0, this]

theorem kraft_canonicalCode {lens : List Nat} (hl : ∀ l ∈ lens, l ≤ 15) :
    (canonicalCode lens).kraft = firstCode lens 15 + blCount lens 15 := by
  rw [canonicalCode, kraft_assignCodes lens 0 _ hl, sum_share]

/-! ## Acceptable length sets (R331) -/

theorem acceptable_not_overSubscribed {allow : Bool} {lens : List Nat} {kind : Machine.SetKind}
    (h : Machine.acceptable allow lens kind = true) : Machine.overSubscribed lens 15 = false := by
  unfold Machine.acceptable at h
  split at h
  · next hall =>
    -- with every length 0 nothing is subscribed
    have hcount : ∀ l, blCount lens l = 0 := by
      intro l
      unfold blCount
      split
      · rfl
      · next hl0 =>
        refine List.count_eq_zero.2 (fun hm => hl0 ?_)
        simpa using List.all_eq_true.1 hall l hm
    have hfirst : ∀ l, firstCode lens l = 0 := by
      intro l
      induction l with
      | zero => rfl
      | succ l ih => rw [firstCode_succ, ih, hcount]
    have hover : ∀ n, Machine.overSubscribed lens n = false := by
      intro n
      induction n with
      | zero => rfl
      | succ n ih =>
        rw [Machine.overSubscribed, ih, Bool.or_false, decide_eq_false_iff_not, kraftLeft_eq, hfirst, hcount]
        have : (0 : Int) ≤ 2 ^ (n + 1) := by positivity
        push_cast
        omega
    exact hover 15
  · split at h
    · exact absurd h (by decide)
    · next hover => simpa using hover

/-- A length set the decoder accepts gives a prefix code. -/
theorem acceptable_proper {allow : Bool} {lens : List Nat} {kind : Machine.SetKind} (hl : ∀ l ∈ lens, l ≤ 15)
    (h : Machine.acceptable allow lens kind = true) : (canonicalCode lens).Proper :=
  canonicalCode_proper hl (acceptable_not_overSubscribed h)

/-- The code-length code that the decoder accepts is complete (R325, R331). -/
theorem acceptable_codes_complete {allow : Bool} {lens : List Nat} (hl : ∀ l ∈ lens, l ≤ 15)
    (h : Machine.acceptable allow lens .codes = true) : (canonicalCode lens).Complete := by
  have hn := not_overSubscribed (acceptable_not_overSubscribed h) 15 (by decide) (Nat.le_refl _)
  unfold Machine.acceptable at h
  split at h
  · exact absurd h (by decide)
  · split at h
    · exact absurd h (by decide)
    · split at h
      · simp at h
      · next hleft =>
        rw [kraftLeft_eq] at hleft
        show (canonicalCode lens).kraft = 2 ^ 15
        rw [kraft_canonicalCode hl]
        have h2 : ((2 : Int) ^ 15) = ((2 ^ 15 : Nat) : Int) := by norm_num
        omega

end Sys2Proof
end

