-- ==== Sys2Proof/Laws/Elements.lean ====
section
/-! SUPPORT. Sys2Proof/Laws/Elements.lean: the meanings of the seventy-four elements by their shape, so that what holds of all of them is
proved over eight shapes; and what decodeWire's answers say about the bits. -/

namespace Sys2Proof

/-! ## Entries of a prefix code -/

theorem Code.Proper.entry_eq {c : Code} (h : c.Proper) {e : CodeEntry} (he : e ∈ c) : c.entry e.sym = some e := by
  have : Std.Symm (fun a b : CodeEntry => a.sym ≠ b.sym) := ⟨fun a b hab => hab.symm⟩
  have hpair : c.Pairwise (fun a b : CodeEntry => a.sym ≠ b.sym) := h.2.imp (fun {_ _} hab => hab.1)
  cases hf : c.entry e.sym with
  | none =>
    have := List.find?_eq_none.1 hf e he
    simp at this
  | some e' =>
    have hm := List.mem_of_find?_eq_some hf
    have hs : e'.sym = e.sym := by simpa using List.find?_some hf
    by_contra hne
    exact hpair.forall hm he (fun heq => hne (by rw [heq])) hs

theorem Code.Proper.lengthOf_eq {c : Code} (h : c.Proper) {e : CodeEntry} (he : e ∈ c) : c.lengthOf e.sym = e.len := by
  rw [Code.lengthOf, h.entry_eq he]

theorem Code.Proper.bitsFor_eq {c : Code} (h : c.Proper) {e : CodeEntry} (he : e ∈ c) : c.bitsFor e.sym = e.wire := by
  rw [Code.bitsFor, h.entry_eq he]; rfl

theorem Code.mem_of_entry {c : Code} {s : Nat} {e : CodeEntry} (h : c.entry s = some e) : e ∈ c ∧ e.sym = s :=
  ⟨List.mem_of_find?_eq_some h, by simpa using List.find?_some h⟩

theorem Code.Proper.lengthOf_le {c : Code} (h : c.Proper) (s : Nat) : c.lengthOf s ≤ 15 := by
  unfold Code.lengthOf
  split
  · next e he => exact h.len_le (Code.mem_of_entry he).1
  · exact Nat.zero_le _

@[simp] theorem Code.length_bitsFor (c : Code) (s : Nat) : (c.bitsFor s).length = c.lengthOf s := by
  unfold Code.bitsFor Code.lengthOf
  split <;> simp

/-- PEEK's symbol has a code, as long as PEEK says. -/
theorem peek_symbol_lengthOf {c : Code} (h : c.Proper) {bits : List Bool} {s k : Nat} (hp : peek c bits = .symbol s k) :
    c.lengthOf s = k ∧ 1 ≤ k ∧ k ≤ 15 ∧ k ≤ bits.length ∧ (∃ e ∈ c, e.sym = s) := by
  obtain ⟨e, he, hs, hk, hw⟩ := peek_symbol h hp
  have hl := hw.length_le
  rw [CodeEntry.length_wire, hk] at hl
  refine ⟨by rw [← hs, h.lengthOf_eq he, hk], ?_, ?_, hl, ⟨e, he, hs⟩⟩
  · rw [← hk]; exact h.len_pos he
  · rw [← hk]; exact h.len_le he

/-! ## Shapes -/

theorem shape_lengthInstr : ∀ c ≤ 28, ∀ e, (lengthInstr c e).shape =
    .lit (257 + c) (lenExtra.getD c 0) (e % 2 ^ lenExtra.getD c 0) := by
  intro c hc e
  interval_cases c <;> simp [lengthInstr, Instr.shape, lenExtra, Nat.mod_one]

theorem shape_distanceInstr : ∀ c ≤ 29, ∀ e, (distanceInstr c e).shape =
    .dist c (distExtra.getD c 0) (e % 2 ^ distExtra.getD c 0) := by
  intro c hc e
  interval_cases c <;> simp [distanceInstr, Instr.shape, distExtra, Nat.mod_one]

theorem shape_clInstr {s : Nat} (hs : s < 19) (e : Nat) : (clInstr s e).shape = .cl s (clExtra s) (e % 2 ^ clExtra s) := by
  interval_cases s <;> simp [clInstr, Instr.shape, clExtra, Nat.mod_one]

theorem shape_litlenReserved {s : Nat} (h1 : 286 ≤ s) (h2 : s < 288) :
    (Instr.litlenReserved (decide (s % 2 = 1))).shape = .lit s 0 0 := by
  interval_cases s <;> simp [Instr.shape]

theorem shape_distanceReserved {s : Nat} (h1 : 30 ≤ s) (h2 : s < 32) :
    (Instr.distanceReserved (decide (s % 2 = 1))).shape = .dist s 0 0 := by
  interval_cases s <;> simp [Instr.shape]

theorem shape_headerInstr (f : Bool) {t : Nat} (ht : t < 4) : (headerInstr f t).shape = .header f (BitVec.ofNat 2 t) := by
  interval_cases t <;> simp [headerInstr, Instr.shape]

theorem takeClLens_eq_some {n : Nat} {bits : List Bool} {vs : List (BitVec 3)} (h : takeClLens n bits = some vs) :
    vs.length = n ∧ 3 * n ≤ bits.length := by
  induction n generalizing bits vs with
  | zero => simp [takeClLens] at h; subst h; simp
  | succ n ih =>
    rw [takeClLens] at h
    split at h
    · next v vs' hv hvs =>
      obtain ⟨h1, h2⟩ := ih hvs
      have h3 : ¬ bits.length < 3 := by
        intro hlt; rw [takeField_eq_none hlt] at hv; exact absurd hv (by simp)
      simp only [Option.some.injEq] at h
      subst h
      rw [List.length_drop] at h2
      simp; omega
    · exact absurd h (by simp)

theorem takeClLens_eq_none {n : Nat} {bits : List Bool} (h : takeClLens n bits = none) : bits.length < 3 * n := by
  induction n generalizing bits with
  | zero => simp [takeClLens] at h
  | succ n ih =>
    rw [takeClLens] at h
    by_cases hb : bits.length < 3
    · omega
    · rw [takeField_eq_some (Nat.le_of_not_lt hb)] at h
      cases hn : takeClLens n (bits.drop 3) with
      | none =>
        have := ih hn
        rw [List.length_drop] at this
        omega
      | some vs => rw [hn] at h; simp at h

theorem takeField_isSome {n : Nat} {bits : List Bool} {v : Nat} (h : takeField n bits = some v) : n ≤ bits.length := by
  by_contra hc
  rw [takeField_eq_none (by omega)] at h
  exact absurd h (by simp)

theorem takeField_isNone {n : Nat} {bits : List Bool} (h : takeField n bits = none) : bits.length < n := by
  by_contra hc
  rw [takeField_eq_some (by omega)] at h
  exact absurd h (by simp)

/-! ## The answers of decodeWire -/

/-- What the bits in sight are, by context: the kind of element and its size. -/
theorem decodeWire_header {bits : List Bool} :
    (∃ f t, decodeWire .header bits = .element (headerInstr f t) 3 ∧ t < 4 ∧ 3 ≤ bits.length) ∨
      (decodeWire .header bits = .more ∧ bits.length < 3) := by
  by_cases hb : bits.length < 3
  · right
    refine ⟨?_, hb⟩
    rw [decodeWire]
    split
    · next f t hf ht =>
      have := takeField_isSome ht
      rw [List.length_drop] at this
      have := takeField_isSome hf
      omega
    · rfl
  · left
    have h1 : 1 ≤ bits.length := by omega
    have h2 : 2 ≤ (bits.drop 1).length := by rw [List.length_drop]; omega
    refine ⟨decide (natOfBits (bits.take 1) = 1), natOfBits ((bits.drop 1).take 2), ?_, ?_, by omega⟩
    · rw [decodeWire, takeField_eq_some h1, takeField_eq_some h2]
    · have := natOfBits_lt ((bits.drop 1).take 2)
      rw [List.length_take, Nat.min_eq_left h2] at this
      exact this

theorem decodeWire_storedPair {bits : List Bool} :
    (∃ l n, decodeWire .storedPair bits = .element (.storedLen l n) 32 ∧ 32 ≤ bits.length) ∨
      (decodeWire .storedPair bits = .more ∧ bits.length < 32) := by
  by_cases hb : bits.length < 32
  · right
    refine ⟨?_, hb⟩
    rw [decodeWire]
    split
    · next f t hf ht =>
      have := takeField_isSome ht
      rw [List.length_drop] at this
      have := takeField_isSome hf
      omega
    · rfl
  · left
    have h1 : 16 ≤ bits.length := by omega
    have h2 : 16 ≤ (bits.drop 16).length := by rw [List.length_drop]; omega
    refine ⟨BitVec.ofNat 16 (natOfBits (bits.take 16)), BitVec.ofNat 16 (natOfBits ((bits.drop 16).take 16)), ?_, by omega⟩
    rw [decodeWire, takeField_eq_some h1, takeField_eq_some h2]

theorem decodeWire_counts {bits : List Bool} :
    (∃ h d c, decodeWire .counts bits = .element (.dynamicCounts h d c) 14 ∧ 14 ≤ bits.length) ∨
      (decodeWire .counts bits = .more ∧ bits.length < 14) := by
  by_cases hb : bits.length < 14
  · right
    refine ⟨?_, hb⟩
    rw [decodeWire]
    split
    · next f t c hf ht hc =>
      have := takeField_isSome hc
      rw [List.length_drop] at this
      have := takeField_isSome ht
      rw [List.length_drop] at this
      have := takeField_isSome hf
      omega
    · rfl
  · left
    have h1 : 5 ≤ bits.length := by omega
    have h2 : 5 ≤ (bits.drop 5).length := by rw [List.length_drop]; omega
    have h3 : 4 ≤ (bits.drop 10).length := by rw [List.length_drop]; omega
    refine ⟨BitVec.ofNat 5 (natOfBits (bits.take 5)), BitVec.ofNat 5 (natOfBits ((bits.drop 5).take 5)),
      BitVec.ofNat 4 (natOfBits ((bits.drop 10).take 4)), ?_, by omega⟩
    rw [decodeWire, takeField_eq_some h1, takeField_eq_some h2, takeField_eq_some h3]

theorem decodeWire_clLens {n : Nat} {bits : List Bool} :
    (∃ ls, decodeWire (.clLens n) bits = .element (.codeLengthCodeLengths ls) (3 * n) ∧ ls.length = n ∧ 3 * n ≤ bits.length) ∨
      (decodeWire (.clLens n) bits = .more ∧ bits.length < 3 * n) := by
  rw [decodeWire]
  cases h : takeClLens n bits with
  | some vs =>
    obtain ⟨h1, h2⟩ := takeClLens_eq_some h
    exact .inl ⟨vs, rfl, h1, h2⟩
  | none => exact .inr ⟨rfl, takeClLens_eq_none h⟩

theorem decodeWire_clSymbol {c : Code} (h : c.Over 19) {bits : List Bool} :
    (∃ s e, decodeWire (.clSymbol c) bits = .element (clInstr s e) (c.lengthOf s + clExtra s) ∧ s < 19 ∧ 1 ≤ c.lengthOf s ∧
      e < 2 ^ clExtra s ∧ c.lengthOf s + clExtra s ≤ bits.length) ∨
      (∃ k, decodeWire (.clSymbol c) bits = .noCode k ∧ 1 ≤ k ∧ k ≤ bits.length ∧ peek c bits = .invalid k) ∨
      (decodeWire (.clSymbol c) bits = .more ∧ bits.length < 22) := by
  rw [decodeWire, decodeCl]
  cases hp : peek c bits with
  | more => exact .inr (.inr ⟨rfl, by have := peek_more h.1 hp; omega⟩)
  | invalid k =>
    obtain ⟨h1, h2, _⟩ := peek_invalid h.1 hp
    exact .inr (.inl ⟨k, rfl, h1, h2, rfl⟩)
  | symbol s k =>
    obtain ⟨h1, h2, h3, h4, e₀, he₀, hs₀⟩ := peek_symbol_lengthOf h.1 hp
    have hs : s < 19 := by rw [← hs₀]; exact h.2 e₀ he₀
    have hx : clExtra s ≤ 7 := by unfold clExtra; split <;> [omega; split <;> [omega; split <;> omega]]
    by_cases hb : (bits.drop k).length < clExtra s
    · right; right
      simp only [takeField_eq_none hb]
      rw [List.length_drop] at hb
      exact ⟨trivial, by omega⟩
    · left
      have hb' : clExtra s ≤ (bits.drop k).length := Nat.le_of_not_lt hb
      simp only [takeField_eq_some hb']
      refine ⟨s, _, by rw [h1], hs, by omega, ?_, ?_⟩
      · have := natOfBits_lt ((bits.drop k).take (clExtra s))
        rwa [List.length_take, Nat.min_eq_left hb'] at this
      · rw [List.length_drop] at hb'; omega

/-- What the literal/length alphabet's bits are: a whole element that is not a length, a length with its extra bits, a length without
them, no code, or too few bits. -/
theorem decodeWire_litSymbol {c : Code} (h : c.Over 288) {bits : List Bool} :
    (∃ i s w e, decodeWire (.litSymbol c) bits = .element i (c.lengthOf s + w) ∧ i.shape = .lit s w e ∧ s < 288 ∧
      1 ≤ c.lengthOf s ∧ e < 2 ^ w ∧ w ≤ 5 ∧ c.lengthOf s + w ≤ bits.length) ∨
      (∃ s, decodeWire (.litSymbol c) bits = .symbolOnly s (c.lengthOf s) ∧ 257 ≤ s ∧ s ≤ 285 ∧ 1 ≤ c.lengthOf s ∧
        c.lengthOf s ≤ bits.length ∧ bits.length < c.lengthOf s + lenExtra.getD (s - 257) 0) ∨
      (∃ k, decodeWire (.litSymbol c) bits = .noCode k ∧ 1 ≤ k ∧ k ≤ bits.length) ∨
      (decodeWire (.litSymbol c) bits = .more ∧ bits.length < 15) := by
  rw [decodeWire, decodeLit]
  cases hp : peek c bits with
  | more => exact .inr (.inr (.inr ⟨rfl, peek_more h.1 hp⟩))
  | invalid k =>
    obtain ⟨h1, h2, _⟩ := peek_invalid h.1 hp
    exact .inr (.inr (.inl ⟨k, rfl, h1, h2⟩))
  | symbol s k =>
    obtain ⟨h1, h2, h3, h4, e₀, he₀, hs₀⟩ := peek_symbol_lengthOf h.1 hp
    have hs : s < 288 := by rw [← hs₀]; exact h.2 e₀ he₀
    simp only
    by_cases hlit : s < 256
    · left
      rw [if_pos hlit]
      refine ⟨_, s, 0, 0, by rw [h1, Nat.add_zero], ?_, hs, by omega, by decide, by decide, by omega⟩
      simp [Instr.shape, Nat.mod_eq_of_lt hlit]
    rw [if_neg hlit]
    by_cases heob : s = 256
    · left
      rw [if_pos heob]
      exact ⟨_, s, 0, 0, by rw [h1, Nat.add_zero], by rw [heob]; rfl, hs, by omega, by decide, by decide, by omega⟩
    rw [if_neg heob]
    by_cases hlen : s ≤ 285
    · rw [if_pos hlen]
      obtain ⟨q, hq⟩ : ∃ q, s = 257 + q := ⟨s - 257, by omega⟩
      have hq28 : q ≤ 28 := by omega
      have hsub : s - 257 = q := by omega
      have hw : lenExtra.getD q 0 ≤ 5 := by interval_cases q <;> decide
      rw [hsub]
      by_cases hb : (bits.drop k).length < lenExtra.getD q 0
      · right; left
        simp only [takeField_eq_none hb]
        rw [List.length_drop] at hb
        exact ⟨s, by rw [h1], by omega, hlen, by omega, by omega, by rw [hsub]; omega⟩
      · left
        have hb' := Nat.le_of_not_lt hb
        simp only [takeField_eq_some hb']
        have hlt := natOfBits_lt ((bits.drop k).take (lenExtra.getD q 0))
        rw [List.length_take, Nat.min_eq_left hb'] at hlt
        refine ⟨_, s, _, _, by rw [h1], ?_, hs, by omega, hlt, hw, ?_⟩
        · rw [shape_lengthInstr q hq28, Nat.mod_eq_of_lt hlt, hq]
        · rw [List.length_drop] at hb'; omega
    · left
      rw [if_neg hlen]
      exact ⟨_, s, 0, 0, by rw [h1, Nat.add_zero], shape_litlenReserved (by omega) hs, hs, by omega, by decide, by decide,
        by omega⟩

theorem decodeWire_distSymbol {c : Code} (h : c.Over 32) {bits : List Bool} :
    (∃ i s w e, decodeWire (.distSymbol c) bits = .element i (c.lengthOf s + w) ∧ i.shape = .dist s w e ∧ s < 32 ∧
      1 ≤ c.lengthOf s ∧ e < 2 ^ w ∧ w ≤ 13 ∧ c.lengthOf s + w ≤ bits.length) ∨
      (∃ s, decodeWire (.distSymbol c) bits = .symbolOnly s (c.lengthOf s) ∧ s ≤ 29 ∧ 1 ≤ c.lengthOf s ∧
        c.lengthOf s ≤ bits.length ∧ bits.length < c.lengthOf s + distExtra.getD s 0) ∨
      (∃ k, decodeWire (.distSymbol c) bits = .noCode k ∧ 1 ≤ k ∧ k ≤ bits.length) ∨
      (decodeWire (.distSymbol c) bits = .more ∧ bits.length < 15) := by
  rw [decodeWire, decodeDist]
  cases hp : peek c bits with
  | more => exact .inr (.inr (.inr ⟨rfl, peek_more h.1 hp⟩))
  | invalid k =>
    obtain ⟨h1, h2, _⟩ := peek_invalid h.1 hp
    exact .inr (.inr (.inl ⟨k, rfl, h1, h2⟩))
  | symbol s k =>
    obtain ⟨h1, h2, h3, h4, e₀, he₀, hs₀⟩ := peek_symbol_lengthOf h.1 hp
    have hs : s < 32 := by rw [← hs₀]; exact h.2 e₀ he₀
    simp only
    by_cases hlen : s < 30
    · rw [if_pos hlen]
      have hw : distExtra.getD s 0 ≤ 13 := by interval_cases s <;> decide
      by_cases hb : (bits.drop k).length < distExtra.getD s 0
      · right; left
        simp only [takeField_eq_none hb]
        rw [List.length_drop] at hb
        exact ⟨s, by rw [h1], by omega, by omega, by omega, by omega⟩
      · left
        have hb' := Nat.le_of_not_lt hb
        simp only [takeField_eq_some hb']
        have hlt := natOfBits_lt ((bits.drop k).take (distExtra.getD s 0))
        rw [List.length_take, Nat.min_eq_left hb'] at hlt
        refine ⟨_, s, _, _, by rw [h1], ?_, hs, by omega, hlt, hw, ?_⟩
        · rw [shape_distanceInstr s (by omega), Nat.mod_eq_of_lt hlt]
        · rw [List.length_drop] at hb'; omega
    · left
      rw [if_neg hlen]
      exact ⟨_, s, 0, 0, by rw [h1, Nat.add_zero], shape_distanceReserved (by omega) hs, hs, by omega, by decide, by decide,
        by omega⟩

namespace Machine

/-! ## The meanings by shape -/

/-- The mode in which the decoder expects an element of a shape. -/
def modeOf : Shape → DecMode
  | .command _ => .sync
  | .header _ _ => .type
  | .stored _ _ => .stored
  | .counts _ _ _ => .table
  | .clLens _ => .lenLens
  | .cl _ _ _ => .codeLens
  | .lit _ _ _ => .len
  | .dist _ _ _ => .dist

/-- The decoder's action on an element of a shape. -/
def actionOf : Shape → DecRun → Act
  | .command _, r => .go r
  | .header f t, r => r.takeHeader f fun r =>
    if t = 0 then .go (r.withDec { r.d with mode := .stored })
    else if t = 1 then .go (r.withDec { r.d with lencode := fixedLitCode, distcode := fixedDistCode, mode := .len })
    else if t = 2 then .go (r.withDec { r.d with mode := .table })
    else r.raise 1
  | .stored l n, r => r.storedPair l n
  | .counts h d c, r => r.counts h d c
  | .clLens ls, r => DecRun.takeLenLens ls r
  | .cl s _ e, r =>
    if s < 16 then r.clLength s
    else if s = 16 then r.clRepeatPrev (3 + e)
    else r.clRepeatZero s ((if s = 17 then 3 else 11) + e)
  | .lit s _ e, r =>
    if s < 256 then r.literal (BitVec.ofNat 8 s)
    else if s = 256 then r.endOfBlock
    else if s ≤ 285 then r.lengthSym (s - 257) e
    else r.takeLitSym s fun r => r.raise 9
  | .dist s _ e, r => if s < 30 then r.distanceSym s e else r.takeDistSym s fun r => r.raise 10

theorem execElement_header (f : Bool) {t : Nat} (ht : t < 4) (s : State) :
    execElement (headerInstr f t) s = s.onElement .type (actionOf (.header f (BitVec.ofNat 2 t))) := by
  interval_cases t <;> rfl

theorem execElement_stored (l n : BitVec 16) (s : State) :
    execElement (.storedLen l n) s = s.onElement .stored (actionOf (.stored l n)) := rfl

theorem execElement_counts (h d : BitVec 5) (c : BitVec 4) (s : State) :
    execElement (.dynamicCounts h d c) s = s.onElement .table (actionOf (.counts h d c)) := rfl

theorem execElement_clLens {ls : List (BitVec 3)} {s : State} {d : Dec} (hd : s.stream = .dec d)
    (hl : ls.length ≤ d.ncode - d.have_) :
    execElement (.codeLengthCodeLengths ls) s = s.onElement .lenLens (actionOf (.clLens ls)) := by
  show execCodeLengthCodeLengths ls s = _
  rw [execCodeLengthCodeLengths, hd]
  exact if_pos hl

/-- Every element but the code-length code lengths is its shape's action in its shape's mode. -/
theorem execElement_eq {i : Instr} {s : State} (hc : ∀ w, i.shape ≠ .command w) (hl : ∀ ls, i.shape ≠ .clLens ls) :
    execElement i s = s.onElement (modeOf i.shape) (actionOf i.shape) := by
  cases i
  case codeLengthCodeLengths ls => exact absurd rfl (hl ls)
  case encInit => exact absurd rfl (hc _)
  case encStepNo => exact absurd rfl (hc _)
  case encStepPartial => exact absurd rfl (hc _)
  case encStepSync => exact absurd rfl (hc _)
  case encStepFull => exact absurd rfl (hc _)
  case encStepFinish => exact absurd rfl (hc _)
  case encStepBlock => exact absurd rfl (hc _)
  case encSetDict => exact absurd rfl (hc _)
  case decInit => exact absurd rfl (hc _)
  case decStep => exact absurd rfl (hc _)
  case decSetDict => exact absurd rfl (hc _)
  case decSync => exact absurd rfl (hc _)
  case endStream => exact absurd rfl (hc _)
  case literal b =>
    have : b.toNat < 256 := b.isLt
    show s.onElement .len (fun r => r.literal b) = s.onElement .len (actionOf (.lit b.toNat 0 0))
    congr 1; funext r; simp [actionOf, this]
  case clLength l =>
    have : l.toNat < 16 := l.isLt
    show s.onElement .codeLens (fun r => r.clLength l.toNat) = s.onElement .codeLens (actionOf (.cl l.toNat 0 0))
    congr 1; funext r; simp [actionOf, this]
  case litlenReserved odd => cases odd <;> rfl
  case distanceReserved odd => cases odd <;> rfl
  all_goals rfl

/-- The elements' meanings are those that exec gives them. -/
theorem execElement_eq_exec {i : Instr} (hc : ∀ w, i.shape ≠ .command w) (s : State) : execElement i s = exec i s := by
  cases i
  case encInit => exact absurd rfl (hc _)
  case encStepNo => exact absurd rfl (hc _)
  case encStepPartial => exact absurd rfl (hc _)
  case encStepSync => exact absurd rfl (hc _)
  case encStepFull => exact absurd rfl (hc _)
  case encStepFinish => exact absurd rfl (hc _)
  case encStepBlock => exact absurd rfl (hc _)
  case encSetDict => exact absurd rfl (hc _)
  case decInit => exact absurd rfl (hc _)
  case decStep => exact absurd rfl (hc _)
  case decSetDict => exact absurd rfl (hc _)
  case decSync => exact absurd rfl (hc _)
  case endStream => exact absurd rfl (hc _)
  all_goals rfl

/-- An element in its place is carried out (R311). -/
theorem State.onElement_of {s : State} {d : Dec} {c p : Nat} {m : DecMode} (hd : s.stream = .dec d)
    (hp : s.phase = .decoding c p) (ha : d.awaits m = true) (f : DecRun → Act) :
    s.onElement m f = .next (s.settle (f { d := d, io := s.io c p })) := by
  rw [State.onElement, hd, hp]
  exact if_pos ha

/-- An element answers a next state in its place, and is refused elsewhere. -/
theorem State.onElement_cases (s : State) (m : DecMode) (f : DecRun → Act) :
    (∃ d c p, s.stream = .dec d ∧ s.phase = .decoding c p ∧ d.awaits m = true ∧
        s.onElement m f = .next (s.settle (f { d := d, io := s.io c p }))) ∨
      s.onElement m f = .refused .elementOutOfPlace := by
  unfold State.onElement
  split
  · next d c p hd hp =>
    split
    · next ha => exact .inl ⟨d, c, p, hd, hp, ha, rfl⟩
    · exact .inr rfl
  · exact .inr rfl

end Machine

end Sys2Proof
end

