-- ==== Sys2Proof/Laws/Memory.lean ====
section
/-! SUPPORT. Sys2Proof/Laws/Memory.lean: host memory reads back what was written, and every write keeps the canonical form. -/

namespace Sys2Proof.Machine

open Sys2Proof

@[simp] theorem Memory.read_nil (a : Nat) : Memory.read [] a = Memory.blank := rfl

theorem Memory.wfAbove_mono {lo lo' : Nat} (h : lo' ≤ lo) : ∀ {m : Memory}, Memory.wfAbove lo m = true →
    Memory.wfAbove lo' m = true
  | [], _ => rfl
  | (k, b) :: t, hm => by
    simp only [Memory.wfAbove, Bool.and_eq_true, decide_eq_true_eq] at hm ⊢
    exact ⟨⟨⟨by omega, hm.1.1.2⟩, hm.1.2⟩, hm.2⟩

theorem Memory.read_below {lo a : Nat} (h : a < lo) : ∀ {m : Memory}, Memory.wfAbove lo m = true → m.read a = Memory.blank
  | [], _ => rfl
  | (k, b) :: t, hm => by
    simp only [Memory.wfAbove, Bool.and_eq_true, decide_eq_true_eq] at hm
    have h1 : k ≠ a := by omega
    have h2 : a < k := by omega
    simp [Memory.read, h1, h2]

/-- A byte written reads back. -/
theorem Memory.read_write_self {lo a : Nat} (v : Byte) : ∀ {m : Memory}, Memory.wfAbove lo m = true → (m.write a v).read a = v
  | [], _ => by
    by_cases hv : v = Memory.blank <;> simp [Memory.write, Memory.read, hv]
  | (k, b) :: t, hm => by
    simp only [Memory.wfAbove, Bool.and_eq_true, decide_eq_true_eq] at hm
    rw [Memory.write]
    split
    · next h =>
      have h1 : k ≠ a := by omega
      by_cases hv : v = Memory.blank <;> simp [Memory.read, hv, h, h1]
    · split
      · next h =>
        subst h
        by_cases hv : v = Memory.blank
        · rw [if_pos hv, hv]; exact Memory.read_below (Nat.lt_succ_self a) hm.2
        · simp [hv, Memory.read]
      · next h1 h2 =>
        have h3 : k ≠ a := fun h => h2 h.symm
        rw [Memory.read, if_neg h3, if_neg h1]
        exact Memory.read_write_self v hm.2

/-- A write leaves every other byte alone. -/
theorem Memory.read_write_other {lo a a' : Nat} (v : Byte) (h : a' ≠ a) :
    ∀ {m : Memory}, Memory.wfAbove lo m = true → (m.write a v).read a' = m.read a'
  | [], _ => by
    have h1 : a ≠ a' := fun e => h e.symm
    by_cases hv : v = Memory.blank <;> simp [Memory.write, Memory.read, hv, h1]
  | (k, b) :: t, hm => by
    simp only [Memory.wfAbove, Bool.and_eq_true, decide_eq_true_eq] at hm
    have h1 : a ≠ a' := fun e => h e.symm
    rw [Memory.write]
    split
    · next hk =>
      by_cases hv : v = Memory.blank
      · simp [hv]
      · rw [if_neg hv, Memory.read, if_neg h1]
        split
        · next h2 =>
          have h3 : k ≠ a' := by omega
          have h4 : a' < k := by omega
          simp [Memory.read, h3, h4]
        · rfl
    · split
      · next _ hk =>
        subst hk
        by_cases hv : v = Memory.blank
        · rw [if_pos hv, Memory.read, if_neg h1]
          split
          · next h2 => exact Memory.read_below (by omega) hm.2
          · rfl
        · rw [if_neg hv, Memory.read, if_neg h1, Memory.read, if_neg h1]
      · rw [Memory.read, Memory.read]
        split
        · rfl
        · split
          · rfl
          · exact Memory.read_write_other v h hm.2

theorem Memory.wfAbove_write {lo a : Nat} (v : Byte) (ha : a < Config.memSize) :
    ∀ {m : Memory}, lo ≤ a → Memory.wfAbove lo m = true → Memory.wfAbove lo (m.write a v) = true
  | [], hlo, _ => by
    by_cases hv : v = Memory.blank <;> simp [Memory.write, Memory.wfAbove, hv, ha, hlo]
  | (k, b) :: t, hlo, hm => by
    have hm' := hm
    simp only [Memory.wfAbove, Bool.and_eq_true, decide_eq_true_eq] at hm
    rw [Memory.write]
    split
    · next hk =>
      by_cases hv : v = Memory.blank
      · rwa [if_pos hv]
      · rw [if_neg hv]
        simp only [Memory.wfAbove, Bool.and_eq_true, decide_eq_true_eq]
        exact ⟨⟨⟨hlo, ha⟩, hv⟩, ⟨⟨⟨hk, hm.1.1.2⟩, hm.1.2⟩, hm.2⟩⟩
    · split
      · by_cases hv : v = Memory.blank
        · rw [if_pos hv]; exact Memory.wfAbove_mono (by omega) hm.2
        · rw [if_neg hv]
          simp only [Memory.wfAbove, Bool.and_eq_true, decide_eq_true_eq]
          exact ⟨⟨hm.1.1, hv⟩, hm.2⟩
      · next hk hk' =>
        simp only [Memory.wfAbove, Bool.and_eq_true, decide_eq_true_eq]
        exact ⟨hm.1, Memory.wfAbove_write v ha (by omega) hm.2⟩

/-- Every write of host memory keeps its canonical form. -/
theorem Memory.wf_write {m : Memory} {a : Nat} (v : Byte) (ha : a < Config.memSize) (h : m.wf = true) : (m.write a v).wf = true :=
  Memory.wfAbove_write v ha (Nat.zero_le a) h

/-- What an address reads as after a write. -/
theorem Memory.read_write {m : Memory} (h : m.wf = true) (a a' : Nat) (v : Byte) :
    (m.write a v).read a' = if a' = a then v else m.read a' := by
  split
  · next e => rw [e]; exact Memory.read_write_self v h
  · next e => exact Memory.read_write_other v e h

theorem Memory.wfAbove_eq_of_read_eq : ∀ {lo : Nat} {m m' : Memory}, Memory.wfAbove lo m = true → Memory.wfAbove lo m' = true →
    (∀ a, m.read a = m'.read a) → m = m'
  | _, [], [], _, _, _ => rfl
  | lo, [], (k, b) :: t, _, hm', h => by
    simp only [Memory.wfAbove, Bool.and_eq_true, decide_eq_true_eq] at hm'
    have := h k
    simp [Memory.read] at this
    exact absurd this.symm hm'.1.2
  | lo, (k, b) :: t, [], hm, _, h => by
    simp only [Memory.wfAbove, Bool.and_eq_true, decide_eq_true_eq] at hm
    have := h k
    simp [Memory.read] at this
    exact absurd this hm.1.2
  | lo, (k, b) :: t, (k', b') :: t', hm, hm', h => by
    have hw := hm
    have hw' := hm'
    simp only [Memory.wfAbove, Bool.and_eq_true, decide_eq_true_eq] at hm hm'
    have hk : k = k' := by
      rcases Nat.lt_trichotomy k k' with hlt | heq | hgt
      · have h1 := h k
        have h2 : k' ≠ k := by omega
        simp [Memory.read, h2, hlt] at h1
        exact absurd h1 hm.1.2
      · exact heq
      · have h1 := h k'
        have h2 : k ≠ k' := by omega
        simp [Memory.read, h2, hgt] at h1
        exact absurd h1.symm hm'.1.2
    subst hk
    have hb : b = b' := by simpa [Memory.read] using h k
    subst hb
    congr 1
    refine Memory.wfAbove_eq_of_read_eq hm.2 hm'.2 (fun a => ?_)
    by_cases ha : a < k + 1
    · rw [Memory.read_below ha hm.2, Memory.read_below ha hm'.2]
    · have h1 := h a
      have h2 : k ≠ a := by omega
      have h3 : ¬ a < k := by omega
      simpa [Memory.read, h2, h3] using h1

/-- Equal memories are equal data. -/
theorem Memory.eq_of_read_eq {m m' : Memory} (hm : m.wf = true) (hm' : m'.wf = true) (h : ∀ a, m.read a = m'.read a) : m = m' :=
  Memory.wfAbove_eq_of_read_eq hm hm' h

end Sys2Proof.Machine
end

