-- ==== Sys2Proof/Laws/Io.lean ====
section
/-! SUPPORT. Sys2Proof/Laws/Io.lean: the buffer cursors of a command (20_memory.md R81 to R83): what writing a run of bytes does, and
that moves within the buffers compose. -/

namespace Sys2Proof.Machine

open Sys2Proof

/-! ## Runs of output bytes -/

@[simp] theorem Io.outBytes_nil (io : Io) : Io.outBytes [] io = io := rfl

theorem Io.outBytes_cons (b : Byte) (bs : List Byte) (io : Io) :
    Io.outBytes (b :: bs) io = Io.outBytes bs (io.outWrite b) := rfl

theorem Io.outBytes_append (as bs : List Byte) (io : Io) :
    Io.outBytes (as ++ bs) io = Io.outBytes bs (Io.outBytes as io) := by
  induction as generalizing io with
  | nil => rfl
  | cons a as ih => exact ih (io.outWrite a)

@[simp] theorem Io.outBytes_inAddr (bs : List Byte) (io : Io) : (Io.outBytes bs io).inAddr = io.inAddr := by
  induction bs generalizing io with
  | nil => rfl
  | cons b bs ih => exact ih (io.outWrite b)
@[simp] theorem Io.outBytes_inLen (bs : List Byte) (io : Io) : (Io.outBytes bs io).inLen = io.inLen := by
  induction bs generalizing io with
  | nil => rfl
  | cons b bs ih => exact ih (io.outWrite b)
@[simp] theorem Io.outBytes_outAddr (bs : List Byte) (io : Io) : (Io.outBytes bs io).outAddr = io.outAddr := by
  induction bs generalizing io with
  | nil => rfl
  | cons b bs ih => exact ih (io.outWrite b)
@[simp] theorem Io.outBytes_outLen (bs : List Byte) (io : Io) : (Io.outBytes bs io).outLen = io.outLen := by
  induction bs generalizing io with
  | nil => rfl
  | cons b bs ih => exact ih (io.outWrite b)
@[simp] theorem Io.outBytes_consumed (bs : List Byte) (io : Io) : (Io.outBytes bs io).consumed = io.consumed := by
  induction bs generalizing io with
  | nil => rfl
  | cons b bs ih => exact ih (io.outWrite b)
@[simp] theorem Io.outBytes_totalIn (bs : List Byte) (io : Io) : (Io.outBytes bs io).totalIn = io.totalIn := by
  induction bs generalizing io with
  | nil => rfl
  | cons b bs ih => exact ih (io.outWrite b)
@[simp] theorem Io.outBytes_produced (bs : List Byte) (io : Io) :
    (Io.outBytes bs io).produced = io.produced + bs.length := by
  induction bs generalizing io with
  | nil => rfl
  | cons b bs ih => rw [Io.outBytes_cons, ih, Io.outWrite_produced, List.length_cons]; omega
@[simp] theorem Io.outBytes_totalOut (bs : List Byte) (io : Io) :
    (Io.outBytes bs io).totalOut = io.totalOut + BitVec.ofNat 32 bs.length := by
  induction bs generalizing io with
  | nil => simp
  | cons b bs ih =>
    rw [Io.outBytes_cons, ih, Io.outWrite_totalOut, List.length_cons, Nat.add_comm bs.length, BitVec.ofNat_add,
      BitVec.add_assoc]
    rfl
@[simp] theorem Io.outBytes_availIn (bs : List Byte) (io : Io) : (Io.outBytes bs io).availIn = io.availIn := by
  simp [Io.availIn]
@[simp] theorem Io.outBytes_availOut (bs : List Byte) (io : Io) :
    (Io.outBytes bs io).availOut = io.availOut - bs.length := by
  simp [Io.availOut, Nat.sub_sub]

@[simp] theorem Io.outBytes_outAt (bs : List Byte) (io : Io) (i : Nat) : (Io.outBytes bs io).outAt i = io.outAt i := by
  simp [Io.outAt]

theorem Io.outBytes_consume (bs : List Byte) (n : Nat) (io : Io) :
    Io.outBytes bs (io.consume n) = (Io.outBytes bs io).consume n := by
  induction bs generalizing io with
  | nil => rfl
  | cons b bs ih => exact ih (io.outWrite b)

theorem Io.outAt_lt (io : Io) (i : Nat) : io.outAt i < Config.memSize := BitVec.isLt _

/-- Different output bytes have different addresses. -/
theorem Io.outAt_inj {io : Io} {i j : Nat} (hi : i < 2 ^ 32) (hj : j < 2 ^ 32) (h : io.outAt i = io.outAt j) : i = j := by
  have h1 : io.outAddr + BitVec.ofNat 32 i = io.outAddr + BitVec.ofNat 32 j := BitVec.eq_of_toNat_eq h
  have h2 : BitVec.ofNat 32 i = BitVec.ofNat 32 j := by
    have := congrArg (fun x => x - io.outAddr) h1
    simpa [BitVec.add_comm, BitVec.add_sub_cancel] using this
  have h3 := congrArg BitVec.toNat h2
  rwa [BitVec.toNat_ofNat, BitVec.toNat_ofNat, Nat.mod_eq_of_lt hi, Nat.mod_eq_of_lt hj] at h3

theorem Io.wf_outBytes (bs : List Byte) {io : Io} (h : io.mem.wf = true) : (Io.outBytes bs io).mem.wf = true := by
  induction bs generalizing io with
  | nil => exact h
  | cons b bs ih => exact ih (io := io.outWrite b) (Memory.wf_write b (io.outAt_lt _) h)

/-- Bytes outside the run are as before. -/
theorem Io.read_outBytes_other (bs : List Byte) {io : Io} (h : io.mem.wf = true) {a : Nat}
    (ha : ∀ j, io.produced ≤ j → j < io.produced + bs.length → a ≠ io.outAt j) :
    (Io.outBytes bs io).mem.read a = io.mem.read a := by
  induction bs generalizing io with
  | nil => rfl
  | cons b bs ih =>
    rw [Io.outBytes_cons, ih (io := io.outWrite b) (Memory.wf_write b (io.outAt_lt _) h)]
    · rw [Io.outWrite_mem, Memory.read_write h, if_neg]
      exact ha io.produced (Nat.le_refl _) (by simp)
    · intro j h1 h2
      simp only [Io.outWrite_produced, Io.outWrite_outAt] at *
      exact ha j (by omega) (by simp only [List.length_cons]; omega)

/-- Byte `j` of the run stands at output byte `produced + j`. -/
theorem Io.read_outBytes (bs : List Byte) {io : Io} (h : io.mem.wf = true) (hlen : io.produced + bs.length ≤ 2 ^ 32) {j : Nat}
    (hj : j < bs.length) : (Io.outBytes bs io).mem.read (io.outAt (io.produced + j)) = bs[j] := by
  induction bs generalizing io j with
  | nil => simp at hj
  | cons b bs ih =>
    rw [List.length_cons] at hlen hj
    rw [Io.outBytes_cons]
    have hw : (io.outWrite b).mem.wf = true := Memory.wf_write b (io.outAt_lt _) h
    cases j with
    | zero =>
      rw [Io.read_outBytes_other bs hw]
      · simp [Memory.read_write h]
      · intro j h1 h2 heq
        simp only [Io.outWrite_produced, Io.outWrite_outAt] at *
        have := Io.outAt_inj (by omega) (by omega) heq
        omega
    | succ j =>
      have := ih (io := io.outWrite b) hw (j := j) (by simp only [Io.outWrite_produced]; omega) (by omega)
      simp only [Io.outWrite_produced, Io.outWrite_outAt] at this
      rw [show io.produced + (j + 1) = io.produced + 1 + j by omega, this]
      rfl

/-! ## Moves -/

theorem Io.Moves.refl (io : Io) : io.Moves io := ⟨0, [], Nat.zero_le _, Nat.zero_le _, (Io.consume_zero _).symm⟩

theorem Io.Moves.trans {a b c : Io} (h1 : a.Moves b) (h2 : b.Moves c) : a.Moves c := by
  obtain ⟨n, bs, hn, hb, rfl⟩ := h1
  obtain ⟨m, cs, hm, hc, rfl⟩ := h2
  refine ⟨n + m, bs ++ cs, ?_, ?_, ?_⟩
  · simp at hm; omega
  · simp at hc; simp; omega
  · rw [Io.outBytes_consume, Io.consume_consume, Io.outBytes_append]

theorem Io.Moves.consume {io : Io} {n : Nat} (h : n ≤ io.availIn) : io.Moves (io.consume n) :=
  ⟨n, [], h, Nat.zero_le _, rfl⟩

theorem Io.Moves.outBytes {io : Io} {bs : List Byte} (h : bs.length ≤ io.availOut) : io.Moves (Io.outBytes bs io) :=
  ⟨0, bs, Nat.zero_le _, h, (Io.consume_zero _).symm⟩

theorem Io.Moves.outWrite {io : Io} (b : Byte) (h : 1 ≤ io.availOut) : io.Moves (io.outWrite b) :=
  Io.Moves.outBytes (bs := [b]) h

theorem Io.Moves.inAddr {a b : Io} (h : a.Moves b) : b.inAddr = a.inAddr := by obtain ⟨n, bs, _, _, rfl⟩ := h; simp
theorem Io.Moves.inLen {a b : Io} (h : a.Moves b) : b.inLen = a.inLen := by obtain ⟨n, bs, _, _, rfl⟩ := h; simp
theorem Io.Moves.outAddr {a b : Io} (h : a.Moves b) : b.outAddr = a.outAddr := by obtain ⟨n, bs, _, _, rfl⟩ := h; simp
theorem Io.Moves.outLen {a b : Io} (h : a.Moves b) : b.outLen = a.outLen := by obtain ⟨n, bs, _, _, rfl⟩ := h; simp
theorem Io.Moves.availIn_le {a b : Io} (h : a.Moves b) : b.availIn ≤ a.availIn := by
  obtain ⟨n, bs, _, _, rfl⟩ := h; simp
theorem Io.Moves.availOut_le {a b : Io} (h : a.Moves b) : b.availOut ≤ a.availOut := by
  obtain ⟨n, bs, _, _, rfl⟩ := h; simp
theorem Io.Moves.consumed {a b : Io} (h : a.Moves b) (ha : a.consumed ≤ a.inLen) :
    a.consumed ≤ b.consumed ∧ b.consumed ≤ b.inLen := by
  obtain ⟨n, bs, hn, _, rfl⟩ := h
  simp [Io.availIn] at *; omega
theorem Io.Moves.produced {a b : Io} (h : a.Moves b) (ha : a.produced ≤ a.outLen) :
    a.produced ≤ b.produced ∧ b.produced ≤ b.outLen := by
  obtain ⟨n, bs, _, hb, rfl⟩ := h
  simp [Io.availOut] at *; omega
theorem Io.Moves.totalIn {a b : Io} (h : a.Moves b) : b.totalIn = a.totalIn + BitVec.ofNat 32 (b.consumed - a.consumed) := by
  obtain ⟨n, bs, _, _, rfl⟩ := h; simp
theorem Io.Moves.totalOut {a b : Io} (h : a.Moves b) :
    b.totalOut = a.totalOut + BitVec.ofNat 32 (b.produced - a.produced) := by
  obtain ⟨n, bs, _, _, rfl⟩ := h; simp
theorem Io.Moves.wf {a b : Io} (h : a.Moves b) (hm : a.mem.wf = true) : b.mem.wf = true := by
  obtain ⟨n, bs, _, _, rfl⟩ := h
  exact Io.wf_outBytes bs hm
/-- Only output bytes are written. -/
theorem Io.Moves.writesOnly {a b : Io} (h : a.Moves b) (hm : a.mem.wf = true) : a.writesOnly b := by
  obtain ⟨n, bs, _, _, rfl⟩ := h
  intro x hx
  refine Io.read_outBytes_other bs hm (fun j h1 h2 => hx j h1 ?_)
  simpa using h2

end Sys2Proof.Machine
end

