-- ==== Sys2Proof/Laws/Decoder.lean ====
section
/-! SUPPORT. Sys2Proof/Laws/Decoder.lean: every state action of the decoder keeps the decoder's invariant, moves the cursors within the
buffers, ends a command only as R370 says, and otherwise comes nearer to the end (R311). -/

namespace Sys2Proof.Machine

open Sys2Proof

/-! ## Measures -/

/-- The bits of the stream that are left. -/
def DecRun.left (r : DecRun) : Nat := r.d.bits + 8 * r.io.availIn

/-- How many actions a mode may take before the next bit is consumed. -/
def DecMode.rank : DecMode → Nat
  | .type => 1
  | .copy => 2
  | .lenLens => 2
  | .codeLens => 1
  | .lenExt => 1
  | .distExt => 1
  | .copyMatch => 1
  | .lit => 1
  | _ => 0

theorem DecMode.rank_le (m : DecMode) : m.rank ≤ 2 := by cases m <;> decide

/-- A bound on the state actions that are left. -/
def DecRun.todo (r : DecRun) : Nat := 3 * r.left + r.d.mode.rank

theorem DecRun.todo_lt_of_left_lt {r r' : DecRun} (h : r'.left < r.left) : r'.todo < 3 * r.left := by
  have := r'.d.mode.rank_le
  unfold DecRun.todo; omega

/-! ## Soundness of an action -/

/-- A run that started from a decoder and cursors: the cursors have moved within the buffers, the decoder is in order, and what
DEC_INIT latched is as it was. -/
structure DecRun.Good (d0 : Dec) (io0 : Io) (r : DecRun) : Prop where
  moves : io0.Moves r.io
  ok : r.d.Ok
  latched : r.d.wbits = d0.wbits ∧ r.d.allowSingleCode = d0.allowSingleCode ∧ r.d.seed = d0.seed ∧ r.d.started = d0.started

/-- What a result says of the run it ends (R370, R401). -/
def DecRun.Ending (d0 : Dec) (r : DecRun) : Result → Prop
  | .needMoreInput => r.io.availIn = 0
  | .needMoreOutput => r.io.availOut = 0
  | .streamEnd => r.d.mode = .done
  | .malformedStream => r.d.mode = .bad
  | .invalidCommand => d0.mode = .sync
  | _ => False

/-- An action is sound: it goes on with a good run that is nearer to the end than `bound`, or it ends the command as R370 says. -/
def Act.Sound (d0 : Dec) (io0 : Io) (bound : Nat) : Act → Prop
  | .go r => r.Good d0 io0 ∧ r.d.mode ≠ .sync ∧ r.todo < bound
  | .stop res r => r.Good d0 io0 ∧ r.Ending d0 res

theorem Act.Sound.mono {d0 : Dec} {io0 : Io} {b b' : Nat} (h : b ≤ b') : ∀ {a : Act}, a.Sound d0 io0 b → a.Sound d0 io0 b'
  | .go _, ha => ⟨ha.1, ha.2.1, lt_of_lt_of_le ha.2.2 h⟩
  | .stop _ _, ha => ha

/-! ## The invariant under updates -/

theorem Dec.Ok.err_eq {d : Dec} (h : d.Ok) (hm : d.mode ≠ .bad) : d.err = 0 := by
  by_contra hne
  exact hm (h.bad.2 hne)

/-- Reading bits keeps the invariant. -/
theorem Dec.Ok.reader {d : Dec} (h : d.Ok) {hold bits : Nat} (hh : hold < 2 ^ bits) (hb : bits ≤ 32) :
    Dec.Ok { d with hold := hold, bits := bits } :=
  { h with hold := hh, bits := hb }

/-- The modes that ask nothing of the codes or the counts. -/
abbrev DecMode.free (m : DecMode) : Prop :=
  m ∉ [DecMode.bad, .lenLens, .codeLens, .len, .lenExt, .dist, .distExt, .copyMatch, .lit]

/-- Moving to a mode that asks nothing. -/
theorem Dec.Ok.toFree {d : Dec} (h : d.Ok) {m : DecMode} (hm : m.free) (herr : d.err = 0) : Dec.Ok { d with mode := m } :=
  { h with
    bad := by
      constructor
      · intro he; exact absurd (show m = .bad from he) (fun hb => hm (by simp [hb]))
      · intro he; exact absurd herr he
    lenLens := fun he => absurd (show m = .lenLens from he) (fun hb => hm (by simp [hb]))
    codeLens := fun he => absurd (show m = .codeLens from he) (fun hb => hm (by simp [hb]))
    body := fun he => absurd (show m ∈ _ from he) (fun hb => hm (by
      simp only [List.mem_cons, List.not_mem_nil, or_false] at hb ⊢
      rcases hb with hb | hb | hb | hb | hb | hb <;> simp [hb])) }

/-- Raising an error keeps the invariant (R356). -/
theorem Dec.Ok.toBad {d : Dec} (h : d.Ok) {k : Nat} (hk : 1 ≤ k ∧ k ≤ 11) : Dec.Ok { d with mode := .bad, err := k } :=
  { h with
    bad := ⟨fun _ => by show k ≠ 0; omega, fun _ => rfl⟩
    err := hk.2
    lenLens := fun he => by simp at he
    codeLens := fun he => by simp at he
    body := fun he => by simp at he }

/-- Moving to a mode of the block body with codes that are prefix codes. -/
theorem Dec.Ok.toBody {d : Dec} (h : d.Ok) {m : DecMode} (hm : m ∈ [DecMode.len, .lenExt, .dist, .distExt, .copyMatch, .lit])
    (herr : d.err = 0) (hl : d.lencode.Over 288) (hd : d.distcode.Over 32) : Dec.Ok { d with mode := m } :=
  { h with
    bad := by
      constructor
      · intro he
        have he : m = .bad := he
        rw [he] at hm; simp at hm
      · intro he; exact absurd herr he
    lenLens := fun he => by
      have he : m = .lenLens := he
      rw [he] at hm; simp at hm
    codeLens := fun he => by
      have he : m = .codeLens := he
      rw [he] at hm; simp at hm
    body := fun _ => ⟨hl, hd⟩ }

/-- A byte put into the window keeps the invariant. -/
theorem Dec.Ok.remember {d : Dec} (h : d.Ok) (b : Byte) : (d.remember b).Ok := by
  have hw : 0 < d.w := Nat.two_pow_pos _
  exact { h with
    dwin := Ram.wf_set _ _ _ _ h.dwin
    wnext := Nat.mod_lt _ hw
    whave := Nat.min_le_right _ _ }

theorem DecRun.bits_after_le {r : DecRun} {n : Nat} (hb : r.d.bits ≤ 32) : (r.after n).d.bits ≤ 32 := by
  have hpl : r.pulls n = (n - r.d.bits + 7) / 8 := rfl
  rw [DecRun.after_bits]; omega

theorem DecRun.pulls_le {r : DecRun} {n : Nat} (h : r.offers n) : r.pulls n ≤ r.io.availIn := by
  have hpl : r.pulls n = (n - r.d.bits + 7) / 8 := rfl
  unfold DecRun.offers at h; omega

theorem DecRun.Good.after {d0 : Dec} {io0 : Io} {r : DecRun} (h : r.Good d0 io0) {n : Nat} (ho : r.offers n) :
    (r.after n).Good d0 io0 where
  moves := h.moves.trans (Io.Moves.consume (DecRun.pulls_le ho))
  ok := h.ok.reader (DecRun.after_hold_lt n) (DecRun.bits_after_le h.ok.bits)
  latched := h.latched

theorem DecRun.left_after {r : DecRun} {n : Nat} (ho : r.offers n) : (r.after n).left = r.left - n := by
  have hpl : r.pulls n = (n - r.d.bits + 7) / 8 := rfl
  have := DecRun.pulls_le ho
  unfold DecRun.left
  rw [DecRun.after_bits, DecRun.after_io, Io.consume_availIn]
  unfold DecRun.offers at ho; omega

theorem DecRun.Good.holding {d0 : Dec} {io0 : Io} {r : DecRun} (h : r.Good d0 io0) {j : Nat} (hj : j ≤ r.io.availIn)
    (hb : r.d.bits + 8 * j ≤ 32) : (r.holding j).Good d0 io0 where
  moves := h.moves.trans (Io.Moves.consume hj)
  ok := h.ok.reader (DecRun.holding_hold_lt j) hb
  latched := h.latched

theorem DecRun.Good.drained {d0 : Dec} {io0 : Io} {r : DecRun} (h : r.Good d0 io0) (hb : r.left ≤ 32) :
    r.drained.Good d0 io0 := by
  rw [DecRun.drained_eq_holding]; exact h.holding (Nat.le_refl _) hb

theorem DecRun.left_holding {r : DecRun} {j : Nat} (hj : j ≤ r.io.availIn) : (r.holding j).left = r.left := by
  show r.d.bits + 8 * j + 8 * (r.io.consume j).availIn = r.d.bits + 8 * r.io.availIn
  rw [Io.consume_availIn]; omega

theorem DecRun.holding_after {r : DecRun} {n : Nat} (ho : r.offers n) : (r.holding (r.pulls n)).after n = r.after n := by
  have hpl : r.pulls n = (n - r.d.bits + 7) / 8 := rfl
  have hpl' : (r.holding (r.pulls n)).pulls n = (n - (r.d.bits + 8 * r.pulls n) + 7) / 8 := rfl
  have h0 : (r.holding (r.pulls n)).pulls n = 0 := by omega
  have ho' : (r.holding (r.pulls n)).offers n := by
    show n ≤ r.d.bits + 8 * r.pulls n + _
    omega
  rw [← DecRun.dropBits_holding ho, ← DecRun.dropBits_holding ho', h0, DecRun.holding_zero (DecRun.holding_hold_lt _)]

/-- A suspension for want of input is sound. -/
theorem DecRun.Good.suspend {d0 : Dec} {io0 : Io} {r : DecRun} (h : r.Good d0 io0) (hb : r.left ≤ 32) (bound : Nat) :
    Act.Sound d0 io0 bound (.stop .needMoreInput r.drained) :=
  ⟨h.drained hb, by show (r.io.consume r.io.availIn).availIn = 0; rw [Io.consume_availIn, Nat.sub_self]⟩

/-- NEEDBITS, then a sound rest. -/
theorem DecRun.Good.need {d0 : Dec} {io0 : Io} {r : DecRun} (h : r.Good d0 io0) {n : Nat} (hn : n ≤ 33) {bound : Nat}
    {rest : DecRun → Act} (hrest : r.offers n → Act.Sound d0 io0 bound (rest (r.holding (r.pulls n)))) :
    Act.Sound d0 io0 bound (r.needBits n rest) := by
  by_cases ho : r.offers n
  · rw [DecRun.needBits_of_offers h.ok.hold ho]; exact hrest ho
  · rw [DecRun.needBits_of_not_offers h.ok.hold ho]
    exact h.suspend (by unfold DecRun.offers at ho; unfold DecRun.left; omega) bound

theorem DecRun.Good.raise {d0 : Dec} {io0 : Io} {r : DecRun} (h : r.Good d0 io0) {k : Nat} (hk : 1 ≤ k ∧ k ≤ 11) (bound : Nat) :
    Act.Sound d0 io0 bound (r.raise k) :=
  ⟨⟨h.moves, h.ok.toBad hk, h.latched⟩, rfl⟩

theorem DecRun.Good.starve {d0 : Dec} {io0 : Io} {r : DecRun} (h : r.Good d0 io0) (hb : r.left ≤ 32) (bound : Nat) :
    Act.Sound d0 io0 bound r.starve := by
  rw [DecRun.starve_eq h.ok.hold]; exact h.suspend hb bound

theorem DecRun.Good.emit {d0 : Dec} {io0 : Io} {r : DecRun} (h : r.Good d0 io0) (b : Byte) (ho : 1 ≤ r.io.availOut) :
    (DecRun.emit b r).Good d0 io0 :=
  ⟨h.moves.trans (Io.Moves.outWrite b ho), h.ok.remember b, h.latched⟩

/-- A good run with a decoder that is in order and keeps what DEC_INIT latched. -/
theorem DecRun.Good.withDec {d0 : Dec} {io0 : Io} {r : DecRun} (h : r.Good d0 io0) {d' : Dec} (hok : d'.Ok)
    (hl : d'.wbits = r.d.wbits ∧ d'.allowSingleCode = r.d.allowSingleCode ∧ d'.seed = r.d.seed ∧ d'.started = r.d.started) :
    (r.withDec d').Good d0 io0 :=
  ⟨h.moves, hok, hl.1.trans h.latched.1, hl.2.1.trans h.latched.2.1, hl.2.2.1.trans h.latched.2.2.1,
    hl.2.2.2.trans h.latched.2.2.2⟩

theorem fixedLitLengths_le : ∀ l ∈ fixedLitLengths, l ≤ 15 := by
  simp only [fixedLitLengths, List.mem_append, List.mem_replicate]
  omega

theorem fixedDistLengths_le : ∀ l ∈ fixedDistLengths, l ≤ 15 := by
  simp only [fixedDistLengths, List.mem_replicate]
  omega

/-- The fixed codes are prefix codes over their alphabets (R116, R117, R316). -/
theorem fixedLitCode_over : fixedLitCode.Over 288 := by
  refine ⟨canonicalCode_proper fixedLitLengths_le (by decide +kernel), fun e he => ?_⟩
  have := canonicalCode_sym_lt fixedLitLengths_le he
  rwa [show fixedLitLengths.length = 288 by simp only [fixedLitLengths, List.length_append, List.length_replicate]] at this

theorem fixedDistCode_over : fixedDistCode.Over 32 := by
  refine ⟨canonicalCode_proper fixedDistLengths_le (by decide +kernel), fun e he => ?_⟩
  have := canonicalCode_sym_lt fixedDistLengths_le he
  rwa [show fixedDistLengths.length = 32 by simp only [fixedDistLengths, List.length_replicate]] at this

theorem DecRun.todo_of_left {r r' : DecRun} (h : r'.left < r.left) : r'.todo < 3 * r.left := DecRun.todo_lt_of_left_lt h

/-! ## Block headers -/

theorem DecRun.Good.header {d0 : Dec} {io0 : Io} {r : DecRun} (h : r.Good d0 io0) (hm : r.d.mode = .type) (f : Bool)
    (t : BitVec 2) : Act.Sound d0 io0 (3 * r.left) (actionOf (.header f t) r) := by
  rw [actionOf, DecRun.takeHeader]
  refine h.need (by decide) (fun ho => ?_)
  dsimp only
  rw [DecRun.dropBits_holding ho]
  have ha := h.after ho
  have hleft : (r.after 3).left < r.left := by
    rw [DecRun.left_after ho]; unfold DecRun.offers at ho; unfold DecRun.left; omega
  have herr : (r.after 3).d.err = 0 := ha.ok.err_eq (by show r.d.mode ≠ .bad; rw [hm]; decide)
  -- BFINAL is kept
  have hlast : Dec.Ok { (r.after 3).d with last := f } := { ha.ok with }
  have hb := ha.withDec hlast ⟨rfl, rfl, rfl, rfl⟩
  split
  · exact ⟨hb.withDec (hb.ok.toFree (by decide) herr) ⟨rfl, rfl, rfl, rfl⟩, nofun, DecRun.todo_of_left hleft⟩
  · split
    · have hc : Dec.Ok { (r.after 3).d with last := f, lencode := fixedLitCode, distcode := fixedDistCode } :=
        { hlast with body := fun _ => ⟨fixedLitCode_over, fixedDistCode_over⟩ }
      exact ⟨hb.withDec (hc.toBody (by decide) herr fixedLitCode_over fixedDistCode_over) ⟨rfl, rfl, rfl, rfl⟩,
        nofun, DecRun.todo_of_left hleft⟩
    · split
      · exact ⟨hb.withDec (hb.ok.toFree (by decide) herr) ⟨rfl, rfl, rfl, rfl⟩, nofun, DecRun.todo_of_left hleft⟩
      · exact hb.raise (by decide) _

/-! ## Held bits -/

theorem DecRun.dropBits_eq_after {r : DecRun} {n : Nat} (hh : r.d.hold < 2 ^ r.d.bits) (hn : n ≤ r.d.bits) :
    r.dropBits n = r.after n := by
  have hpl : r.pulls n = (n - r.d.bits + 7) / 8 := rfl
  have h0 : r.pulls n = 0 := by omega
  have ho : r.offers n := by unfold DecRun.offers; omega
  rw [← DecRun.dropBits_holding ho, h0, DecRun.holding_zero hh]

theorem DecRun.Good.held {d0 : Dec} {io0 : Io} {r : DecRun} (h : r.Good d0 io0) {n : Nat} (hn : n ≤ 25) (ho : r.offers n) :
    (r.holding (r.pulls n)).Good d0 io0 ∧ n ≤ (r.holding (r.pulls n)).d.bits ∧ (r.holding (r.pulls n)).left = r.left := by
  have hpl : r.pulls n = (n - r.d.bits + 7) / 8 := rfl
  have hb := h.ok.bits
  refine ⟨h.holding (DecRun.pulls_le ho) (by omega), ?_, DecRun.left_holding (DecRun.pulls_le ho)⟩
  show n ≤ r.d.bits + 8 * r.pulls n
  omega

/-! ## Stored blocks -/

theorem DecRun.copyBytes_good {d0 : Dec} {io0 : Io} : ∀ (n : Nat) {r : DecRun}, r.Good d0 io0 → n ≤ r.io.availOut →
    n ≤ r.io.availIn →
    (DecRun.copyBytes n r).Good d0 io0 ∧ (DecRun.copyBytes n r).d.mode = r.d.mode ∧
      (DecRun.copyBytes n r).d.length = r.d.length - n ∧ (DecRun.copyBytes n r).left ≤ r.left ∧
      (DecRun.copyBytes n r).io.availOut = r.io.availOut - n ∧ (DecRun.copyBytes n r).io.availIn = r.io.availIn - n
  | 0, r, h, _, _ => ⟨h, rfl, rfl, Nat.le_refl _, rfl, rfl⟩
  | n + 1, r, h, h1, h2 => by
    have hc : DecRun.Good d0 io0 { r with io := r.io.consume 1 } :=
      ⟨h.moves.trans (Io.Moves.consume (by omega)), h.ok, h.latched⟩
    have he := hc.emit (r.io.inRead r.io.consumed) (by simpa using (by omega : 1 ≤ r.io.availOut))
    have hl : Dec.Ok { (DecRun.emit (r.io.inRead r.io.consumed) { r with io := r.io.consume 1 }).d with
        length := r.d.length - 1 } := { he.ok with }
    have ih := DecRun.copyBytes_good n (he.withDec hl ⟨rfl, rfl, rfl, rfl⟩)
      (by show n ≤ ((r.io.consume 1).outWrite _).availOut; simp; omega)
      (by show n ≤ ((r.io.consume 1).outWrite _).availIn; simp; omega)
    refine ⟨ih.1, ih.2.1, ?_, ?_, ?_, ?_⟩
    · rw [DecRun.copyBytes]; refine ih.2.2.1.trans ?_
      show r.d.length - 1 - n = _; omega
    · rw [DecRun.copyBytes]; refine ih.2.2.2.1.trans ?_
      show r.d.bits + 8 * ((r.io.consume 1).outWrite _).availIn ≤ r.left
      simp only [Io.outWrite_availIn, Io.consume_availIn]
      unfold DecRun.left; omega
    · rw [DecRun.copyBytes]; refine ih.2.2.2.2.1.trans ?_
      show ((r.io.consume 1).outWrite _).availOut - n = _
      simp; omega
    · rw [DecRun.copyBytes]; refine ih.2.2.2.2.2.trans ?_
      show ((r.io.consume 1).outWrite _).availIn - n = _
      simp; omega

theorem DecRun.Good.copy {d0 : Dec} {io0 : Io} {r : DecRun} (h : r.Good d0 io0) (hm : r.d.mode = .copy) :
    Act.Sound d0 io0 r.todo r.copy := by
  obtain ⟨h1, h2, h3, h4, h5, h6⟩ :=
    DecRun.copyBytes_good (min r.d.length (min r.io.availOut r.io.availIn)) h (by omega) (by omega)
  unfold DecRun.copy
  dsimp only
  have herr := h1.ok.err_eq (by rw [h2, hm]; decide)
  split
  · refine ⟨h1.withDec (h1.ok.toFree (by decide) herr) ⟨rfl, rfl, rfl, rfl⟩, nofun, ?_⟩
    show 3 * (DecRun.copyBytes _ r).left + 1 < 3 * r.left + r.d.mode.rank
    rw [hm]; simp only [DecMode.rank]; omega
  · split
    · next _ ho => exact ⟨h1, ho⟩
    · refine ⟨h1, ?_⟩
      show (DecRun.copyBytes _ r).io.availIn = 0
      rw [h6]; omega

theorem DecRun.Good.stored {d0 : Dec} {io0 : Io} {r : DecRun} (h : r.Good d0 io0) (hm : r.d.mode = .stored)
    (l n : BitVec 16) : Act.Sound d0 io0 (3 * r.left) (actionOf (.stored l n) r) := by
  rw [actionOf, DecRun.storedPair]
  have hmod := Nat.mod_le r.d.bits 8
  have ho8 : r.offers (r.d.bits % 8) := by unfold DecRun.offers; omega
  rw [DecRun.byteBits_eq_after h.ok.hold]
  have hb := h.after ho8
  have hpl8 : r.pulls (r.d.bits % 8) = (r.d.bits % 8 - r.d.bits + 7) / 8 := rfl
  have hbits : (r.after (r.d.bits % 8)).d.bits = r.d.bits - r.d.bits % 8 := by rw [DecRun.after_bits]; omega
  have hleft8 := DecRun.left_after ho8
  refine hb.need (by decide) (fun ho => ?_)
  have hpl : (r.after (r.d.bits % 8)).pulls 32 = (32 - (r.after (r.d.bits % 8)).d.bits + 7) / 8 := rfl
  have hb32 := h.ok.bits
  have hg := hb.holding (DecRun.pulls_le ho) (by omega)
  have hleft := DecRun.left_holding (DecRun.pulls_le ho)
  split
  · exact hg.raise (by decide) _
  · have herr : r.d.err = 0 := h.ok.err_eq (by rw [hm]; decide)
    have hok : Dec.Ok { ((r.after (r.d.bits % 8)).holding ((r.after (r.d.bits % 8)).pulls 32)).d with
        length := l.toNat, hold := 0, bits := 0 } := { hg.ok with hold := Nat.one_pos, bits := Nat.zero_le _ }
    have hc := hg.withDec (hok.toFree (m := .copy) (by decide) herr) ⟨rfl, rfl, rfl, rfl⟩
    refine (hc.copy rfl).mono ?_
    have hav := DecRun.left_holding (DecRun.pulls_le ho)
    have hbit : ((r.after (r.d.bits % 8)).holding ((r.after (r.d.bits % 8)).pulls 32)).d.bits =
      (r.after (r.d.bits % 8)).d.bits + 8 * (r.after (r.d.bits % 8)).pulls 32 := rfl
    unfold DecRun.left at hav hleft8
    rw [hbit] at hav
    unfold DecRun.offers at ho
    show 3 * (0 + 8 * ((r.after (r.d.bits % 8)).holding _).io.availIn) + 2 ≤ 3 * (r.d.bits + 8 * r.io.availIn)
    omega

/-! ## The dynamic header -/

theorem DecRun.Good.counts {d0 : Dec} {io0 : Io} {r : DecRun} (h : r.Good d0 io0) (hm : r.d.mode = .table)
    (hl hd : BitVec 5) (hc : BitVec 4) : Act.Sound d0 io0 (3 * r.left) (actionOf (.counts hl hd hc) r) := by
  rw [actionOf, DecRun.counts]
  refine h.need (by decide) (fun ho => ?_)
  dsimp only
  rw [DecRun.dropBits_holding ho]
  have ha := h.after ho
  have hmode : (r.after 14).d.mode = .table := hm
  have herr : (r.after 14).d.err = 0 := ha.ok.err_eq (by rw [hmode]; decide)
  have hleft : (r.after 14).left < r.left := by
    rw [DecRun.left_after ho]; unfold DecRun.offers at ho; unfold DecRun.left; omega
  have hcl := hc.isLt
  split
  · have hok : Dec.Ok { (r.after 14).d with nlen := hl.toNat + 257, ndist := hd.toNat + 1, ncode := hc.toNat + 4 } :=
      { ha.ok with
        lenLens := fun he => absurd (show (r.after 14).d.mode = _ from he) (by rw [hmode]; decide)
        codeLens := fun he => absurd (show (r.after 14).d.mode = _ from he) (by rw [hmode]; decide) }
    exact (ha.withDec hok ⟨rfl, rfl, rfl, rfl⟩).raise (by decide) _
  · next hn =>
    refine ⟨ha.withDec ?_ ⟨rfl, rfl, rfl, rfl⟩, nofun, DecRun.todo_of_left hleft⟩
    exact { ha.ok with
      bad := ⟨fun he => by simp at he, fun he => absurd herr he⟩
      lenLens := fun _ => ⟨by show hc.toNat + 4 ≤ 19; omega, Nat.zero_le _, by show hl.toNat + 257 ≤ 286; omega,
        by show hd.toNat + 1 ≤ 30; omega, by show 257 ≤ hl.toNat + 257; omega⟩
      codeLens := fun he => by simp at he
      body := fun he => by simp at he }

theorem Dec.Ok.setLens {d : Dec} (h : d.Ok) {k v : Nat} (hv : v ≤ 15) :
    (d.lens.set k v).length = 320 ∧ ∀ x ∈ d.lens.set k v, x ≤ 15 := by
  refine ⟨by rw [List.length_set]; exact h.lens.1, fun x hx => ?_⟩
  rcases List.mem_or_eq_of_mem_set hx with h1 | h1
  · exact h.lens.2 x h1
  · rw [h1]; exact hv

theorem zeroUnsent_ok : ∀ (ks lens : List Nat), (lens.length = 320 ∧ ∀ x ∈ lens, x ≤ 15) →
    (zeroUnsent ks lens).length = 320 ∧ ∀ x ∈ zeroUnsent ks lens, x ≤ 15
  | [], lens, h => h
  | k :: ks, lens, h => by
    refine zeroUnsent_ok ks _ ⟨by rw [List.length_set]; exact h.1, fun x hx => ?_⟩
    rcases List.mem_or_eq_of_mem_set hx with h1 | h1
    · exact h.2 x h1
    · rw [h1]; exact Nat.zero_le _

theorem DecRun.Good.endLenLens {d0 : Dec} {io0 : Io} {r : DecRun} (h : r.Good d0 io0) (hm : r.d.mode = .lenLens) :
    Act.Sound d0 io0 r.todo r.endLenLens := by
  have hz := zeroUnsent_ok (blOrder.drop r.d.ncode) r.d.lens h.ok.lens
  have hok : Dec.Ok { r.d with lens := zeroUnsent (blOrder.drop r.d.ncode) r.d.lens } := { h.ok with lens := hz }
  have hg := h.withDec hok ⟨rfl, rfl, rfl, rfl⟩
  obtain ⟨_, _, h3, h4, h5⟩ := h.ok.lenLens hm
  unfold DecRun.endLenLens
  dsimp only
  split
  · next hacc =>
    have hle : ∀ l ∈ (zeroUnsent (blOrder.drop r.d.ncode) r.d.lens).take 19, l ≤ 15 :=
      fun l hl => hz.2 l (List.mem_of_mem_take hl)
    have herr : r.d.err = 0 := h.ok.err_eq (by rw [hm]; decide)
    refine ⟨hg.withDec ?_ ⟨rfl, rfl, rfl, rfl⟩, nofun, ?_⟩
    · exact { hok with
        bad := ⟨fun he => by simp at he, fun he => absurd herr he⟩
        lenLens := fun he => by simp at he
        codeLens := fun _ => ⟨h3, h4, h5, Nat.zero_le _, ⟨acceptable_proper hle hacc, fun e he => by
          have := canonicalCode_sym_lt hle he
          rw [List.length_take] at this
          exact lt_of_lt_of_le this (Nat.min_le_left _ _)⟩, acceptable_codes_complete hle hacc⟩
        body := fun he => by simp at he }
    · show 3 * r.left + 1 < 3 * r.left + r.d.mode.rank
      rw [hm]; simp [DecMode.rank]
  · exact hg.raise (by decide) _

/-- One code-length code length is read. -/
theorem DecRun.Good.lenLensField {d0 : Dec} {io0 : Io} {r : DecRun} (h : r.Good d0 io0) (hm : r.d.mode = .lenLens)
    (hlt : r.d.have_ < r.d.ncode) (ho : r.offers 3) {k v : Nat} (hv : v ≤ 15) :
    DecRun.Good d0 io0 ((r.after 3).withDec { (r.after 3).d.setLen k v with have_ := (r.after 3).d.have_ + 1 }) := by
  have ha := h.after ho
  obtain ⟨h1, h2, h3, h4, h5⟩ := h.ok.lenLens hm
  refine ha.withDec ?_ ⟨rfl, rfl, rfl, rfl⟩
  exact { ha.ok with
    lens := ha.ok.setLens hv
    lenLens := fun _ => ⟨h1, by show r.d.have_ + 1 ≤ r.d.ncode; omega, h3, h4, h5⟩
    codeLens := fun he => absurd (show r.d.mode = _ from he) (by rw [hm]; decide) }

theorem DecRun.takeLenLens_sound {d0 : Dec} {io0 : Io} : ∀ (vs : List (BitVec 3)) {r : DecRun}, r.Good d0 io0 →
    r.d.mode = .lenLens → vs.length ≤ r.d.ncode - r.d.have_ → Act.Sound d0 io0 (r.todo + 1) (DecRun.takeLenLens vs r)
  | [], r, h, hm, _ => by
    rw [DecRun.takeLenLens]
    split
    · exact (h.endLenLens hm).mono (Nat.le_succ _)
    · exact ⟨h, by rw [hm]; decide, Nat.lt_succ_self _⟩
  | v :: vs, r, h, hm, hl => by
    rw [List.length_cons] at hl
    rw [DecRun.takeLenLens]
    refine h.need (by decide) (fun ho => ?_)
    dsimp only
    rw [DecRun.dropBits_holding ho]
    have hv := v.isLt
    have hf := h.lenLensField hm (by omega) ho (k := blOrder.getD (r.after 3).d.have_ 0) (v := v.toNat) (by omega)
    refine (DecRun.takeLenLens_sound vs hf hm (by show vs.length ≤ r.d.ncode - (r.d.have_ + 1); omega)).mono ?_
    have hleft := DecRun.left_after ho
    have h3 : 3 ≤ r.left := by unfold DecRun.offers at ho; unfold DecRun.left; exact ho
    show 3 * (r.after 3).left + r.d.mode.rank + 1 ≤ 3 * r.left + r.d.mode.rank + 1
    omega

theorem DecRun.Good.clLens {d0 : Dec} {io0 : Io} {r : DecRun} (h : r.Good d0 io0) (hm : r.d.mode = .lenLens)
    {vs : List (BitVec 3)} (hne : vs ≠ []) (hl : vs.length ≤ r.d.ncode - r.d.have_) :
    Act.Sound d0 io0 (3 * r.left) (actionOf (.clLens vs) r) := by
  cases vs with
  | nil => exact absurd rfl hne
  | cons v vs =>
    rw [List.length_cons] at hl
    rw [actionOf, DecRun.takeLenLens]
    refine h.need (by decide) (fun ho => ?_)
    dsimp only
    rw [DecRun.dropBits_holding ho]
    have hv := v.isLt
    have hf := h.lenLensField hm (by omega) ho (k := blOrder.getD (r.after 3).d.have_ 0) (v := v.toNat) (by omega)
    refine (DecRun.takeLenLens_sound vs hf hm (by show vs.length ≤ r.d.ncode - (r.d.have_ + 1); omega)).mono ?_
    have hleft := DecRun.left_after ho
    have h3 : 3 ≤ r.left := by unfold DecRun.offers at ho; unfold DecRun.left; exact ho
    show 3 * (r.after 3).left + r.d.mode.rank + 1 ≤ 3 * r.left
    rw [hm]; simp only [DecMode.rank]; omega

/-- The fields that are there, read while the input lasts (R324). -/
theorem DecRun.readLenLens_sound {d0 : Dec} {io0 : Io} : ∀ (n : Nat) {r : DecRun}, r.Good d0 io0 → r.d.mode = .lenLens →
    r.d.ncode - r.d.have_ < n → Act.Sound d0 io0 r.todo (DecRun.readLenLens n r)
  | 0, _, _, _, hn => absurd hn (Nat.not_lt_zero _)
  | n + 1, r, h, hm, hn => by
    rw [DecRun.readLenLens]
    split
    · exact h.endLenLens hm
    · next hlt =>
      refine h.need (by decide) (fun ho => ?_)
      dsimp only
      rw [DecRun.dropBits_holding ho]
      have hv : (r.holding (r.pulls 3)).peekBits 3 ≤ 15 := by
        have : (r.holding (r.pulls 3)).peekBits 3 < 2 ^ 3 := Nat.mod_lt _ (by decide)
        omega
      have hf := h.lenLensField hm (by omega) ho (k := blOrder.getD (r.after 3).d.have_ 0) hv
      refine (DecRun.readLenLens_sound n hf hm (by show r.d.ncode - (r.d.have_ + 1) < n; omega)).mono ?_
      have hleft := DecRun.left_after ho
      show 3 * (r.after 3).left + r.d.mode.rank ≤ 3 * r.left + r.d.mode.rank
      omega

theorem DecRun.Good.endCodeLens {d0 : Dec} {io0 : Io} {r : DecRun} (h : r.Good d0 io0) (hm : r.d.mode = .codeLens) :
    Act.Sound d0 io0 r.todo r.endCodeLens := by
  obtain ⟨h1, h2, h3, _⟩ := h.ok.codeLens hm
  unfold DecRun.endCodeLens
  dsimp only
  split
  · exact h.raise (by decide) _
  split
  · exact h.raise (by decide) _
  next hlit =>
  split
  · exact h.raise (by decide) _
  next hdist =>
  have hlit : acceptable r.d.allowSingleCode (r.d.lens.take r.d.nlen) .lens = true := by simpa using hlit
  have hdist : acceptable r.d.allowSingleCode ((r.d.lens.drop r.d.nlen).take r.d.ndist) .dists = true := by simpa using hdist
  have hll : ∀ l ∈ r.d.lens.take r.d.nlen, l ≤ 15 := fun l hl => h.ok.lens.2 l (List.mem_of_mem_take hl)
  have hdl : ∀ l ∈ (r.d.lens.drop r.d.nlen).take r.d.ndist, l ≤ 15 :=
    fun l hl => h.ok.lens.2 l (List.mem_of_mem_drop (List.mem_of_mem_take hl))
  have herr : r.d.err = 0 := h.ok.err_eq (by rw [hm]; decide)
  have hlo : (canonicalCode (r.d.lens.take r.d.nlen)).Over 288 := ⟨acceptable_proper hll hlit, fun e he => by
    have := canonicalCode_sym_lt hll he
    rw [List.length_take] at this; omega⟩
  have hdo : (canonicalCode ((r.d.lens.drop r.d.nlen).take r.d.ndist)).Over 32 := ⟨acceptable_proper hdl hdist, fun e he => by
    have := canonicalCode_sym_lt hdl he
    rw [List.length_take] at this; omega⟩
  refine ⟨h.withDec ?_ ⟨rfl, rfl, rfl, rfl⟩, nofun, ?_⟩
  · exact { h.ok with
      bad := ⟨fun he => by simp at he, fun he => absurd herr he⟩
      lenLens := fun he => by simp at he
      codeLens := fun he => by simp at he
      body := fun _ => ⟨hlo, hdo⟩ }
  · show 3 * r.left + 0 < 3 * r.left + r.d.mode.rank
    rw [hm]; simp [DecMode.rank]

theorem DecRun.Good.afterEntry {d0 : Dec} {io0 : Io} {r : DecRun} (h : r.Good d0 io0) (hm : r.d.mode = .codeLens) :
    Act.Sound d0 io0 (r.todo + 1) r.afterEntry := by
  unfold DecRun.afterEntry
  split
  · exact (h.endCodeLens hm).mono (Nat.le_succ _)
  · exact ⟨h, by rw [hm]; decide, Nat.lt_succ_self _⟩

theorem Dec.Ok.setLenCode {d : Dec} (h : d.Ok) (hm : d.mode = .codeLens) (hlt : d.have_ < d.nlen + d.ndist) {v : Nat}
    (hv : v ≤ 15) : Dec.Ok { d.setLen d.have_ v with have_ := d.have_ + 1 } := by
  obtain ⟨h1, h2, h3, _, h5⟩ := h.codeLens hm
  exact { h with
    lens := h.setLens hv
    lenLens := fun he => absurd (show d.mode = _ from he) (by rw [hm]; decide)
    codeLens := fun _ => ⟨h1, h2, h3, by show d.have_ + 1 ≤ d.nlen + d.ndist; omega, h5⟩ }

theorem Dec.repeatLen_ok {v : Nat} (hv : v ≤ 15) : ∀ (n : Nat) {d : Dec}, d.Ok → d.mode = .codeLens →
    d.have_ + n ≤ d.nlen + d.ndist → (Dec.repeatLen v n d).Ok ∧ (Dec.repeatLen v n d).mode = .codeLens ∧
      ((Dec.repeatLen v n d).wbits = d.wbits ∧ (Dec.repeatLen v n d).allowSingleCode = d.allowSingleCode ∧
        (Dec.repeatLen v n d).seed = d.seed ∧ (Dec.repeatLen v n d).started = d.started) ∧
      (Dec.repeatLen v n d).bits = d.bits
  | 0, d, h, hm, _ => ⟨h, hm, ⟨rfl, rfl, rfl, rfl⟩, rfl⟩
  | n + 1, d, h, hm, hn => by
    have h1 := h.setLenCode hm (by omega) hv
    have := Dec.repeatLen_ok hv n h1 hm (by show d.have_ + 1 + n ≤ d.nlen + d.ndist; omega)
    rw [Dec.repeatLen]
    exact this

theorem DecRun.Good.clRepeat {d0 : Dec} {io0 : Io} {r : DecRun} (h : r.Good d0 io0) (hm : r.d.mode = .codeLens) {w v c : Nat}
    (hw : w ≤ r.d.bits) (hv : v ≤ 15) : Act.Sound d0 io0 (3 * r.left + 2) (r.clRepeat w v c) := by
  unfold DecRun.clRepeat
  rw [DecRun.dropBits_eq_after h.ok.hold hw]
  have ho : r.offers w := by unfold DecRun.offers; omega
  have ha := h.after ho
  dsimp only
  split
  · exact ha.raise (by decide) _
  · next hle =>
    obtain ⟨h1, h2, h3, h4⟩ := Dec.repeatLen_ok hv c ha.ok hm (by omega)
    refine ((ha.withDec h1 h3).afterEntry h2).mono ?_
    have hleft := DecRun.left_after ho
    show 3 * ((Dec.repeatLen v c (r.after w).d).bits + 8 * (r.after w).io.availIn) + (Dec.repeatLen v c (r.after w).d).mode.rank + 1 ≤
      3 * r.left + 2
    rw [h4, h2]
    have : (r.after w).left = (r.after w).d.bits + 8 * (r.after w).io.availIn := rfl
    simp only [DecMode.rank]; omega

theorem DecRun.Good.cl {d0 : Dec} {io0 : Io} {r : DecRun} (h : r.Good d0 io0) (hm : r.d.mode = .codeLens)
    (hlt : r.d.have_ < r.d.nlen + r.d.ndist) {s w e : Nat} (hs : s < 19) (hk : 1 ≤ r.d.clcode.lengthOf s) :
    Act.Sound d0 io0 (3 * r.left) (actionOf (.cl s w e) r) := by
  have hcl := (h.ok.codeLens hm).2.2.2.2.1
  have hk15 := hcl.1.lengthOf_le s
  rw [actionOf]
  split
  · next hs16 =>
    unfold DecRun.clLength
    refine h.need (by omega) (fun ho => ?_)
    dsimp only
    rw [show (r.holding (r.pulls (r.d.clcode.lengthOf s))).d.clcode = r.d.clcode from rfl, DecRun.dropBits_holding ho]
    have ha := h.after ho
    have hok := ha.ok.setLenCode hm hlt (v := s) (by omega)
    refine ((ha.withDec hok ⟨rfl, rfl, rfl, rfl⟩).afterEntry hm).mono ?_
    have hleft := DecRun.left_after ho
    have : r.d.clcode.lengthOf s ≤ r.left := by unfold DecRun.offers at ho; exact ho
    show 3 * (r.after _).left + r.d.mode.rank + 1 ≤ 3 * r.left
    rw [hm]; simp only [DecMode.rank]; omega
  · split
    · next hs16 =>
      subst hs16
      unfold DecRun.clRepeatPrev
      refine h.need (by omega) (fun ho => ?_)
      obtain ⟨hg, hbits, hleft⟩ := h.held (by omega) ho
      dsimp only
      rw [show (r.holding (r.pulls (r.d.clcode.lengthOf 16 + 2))).d.clcode = r.d.clcode from rfl,
        DecRun.dropBits_eq_after hg.ok.hold (by omega)]
      have ho' : (r.holding (r.pulls (r.d.clcode.lengthOf 16 + 2))).offers (r.d.clcode.lengthOf 16) := by
        unfold DecRun.offers; omega
      have ha := hg.after ho'
      split
      · exact ha.raise (by decide) _
      · have hpl : (r.holding (r.pulls (r.d.clcode.lengthOf 16 + 2))).pulls (r.d.clcode.lengthOf 16) =
          (r.d.clcode.lengthOf 16 - (r.holding (r.pulls (r.d.clcode.lengthOf 16 + 2))).d.bits + 7) / 8 := rfl
        refine (ha.clRepeat hm (by rw [DecRun.after_bits]; omega) ?_).mono ?_
        · have : (((r.holding (r.pulls (r.d.clcode.lengthOf 16 + 2))).after (r.d.clcode.lengthOf 16)).d.lens) = r.d.lens := rfl
          rw [this, List.getD_eq_getElem?_getD]
          cases hg2 : r.d.lens[r.d.have_ - 1]? with
          | none =>
            show (r.d.lens[r.d.have_ - 1]?).getD 0 ≤ 15
            rw [hg2]; decide
          | some x =>
            show (r.d.lens[r.d.have_ - 1]?).getD 0 ≤ 15
            rw [hg2]; exact h.ok.lens.2 x (List.mem_of_getElem? hg2)
        · have := DecRun.left_after ho'
          unfold DecRun.offers at ho
          have hl2 : r.left = r.d.bits + 8 * r.io.availIn := rfl
          omega
    · next hs16 hs16' =>
      have hx : clExtra s ≤ 7 := by unfold clExtra; split <;> [omega; split <;> [omega; split <;> omega]]
      unfold DecRun.clRepeatZero
      refine h.need (by omega) (fun ho => ?_)
      obtain ⟨hg, hbits, hleft⟩ := h.held (by omega) ho
      rw [show (r.holding (r.pulls (r.d.clcode.lengthOf s + clExtra s))).d.clcode = r.d.clcode from rfl,
        DecRun.dropBits_eq_after hg.ok.hold (by omega)]
      have ho' : (r.holding (r.pulls (r.d.clcode.lengthOf s + clExtra s))).offers (r.d.clcode.lengthOf s) := by
        unfold DecRun.offers; omega
      have ha := hg.after ho'
      have hpl : (r.holding (r.pulls (r.d.clcode.lengthOf s + clExtra s))).pulls (r.d.clcode.lengthOf s) =
        (r.d.clcode.lengthOf s - (r.holding (r.pulls (r.d.clcode.lengthOf s + clExtra s))).d.bits + 7) / 8 := rfl
      refine (ha.clRepeat hm (by rw [DecRun.after_bits]; omega) (by decide)).mono ?_
      have := DecRun.left_after ho'
      unfold DecRun.offers at ho
      have hl2 : r.left = r.d.bits + 8 * r.io.availIn := rfl
      omega

end Sys2Proof.Machine
end

