-- ==== Sys2Proof/Laws/DecoderStep.lean ====
section
/-! SUPPORT. Sys2Proof/Laws/DecoderStep.lean: the block body's actions are sound, so every state action of a DEC_STEP is, and a DEC_STEP
comes to its end (R311, R370). -/

namespace Sys2Proof.Machine

open Sys2Proof

theorem DecRun.Good.body {d0 : Dec} {io0 : Io} {r : DecRun} (h : r.Good d0 io0)
    (hm : r.d.mode ∈ [DecMode.len, .lenExt, .dist, .distExt, .copyMatch, .lit]) :
    r.d.err = 0 ∧ r.d.lencode.Over 288 ∧ r.d.distcode.Over 32 :=
  ⟨h.ok.err_eq (fun he => by rw [he] at hm; simp at hm), h.ok.body hm⟩

/-- Moving inside the block body. -/
theorem DecRun.Good.toBody {d0 : Dec} {io0 : Io} {r : DecRun} (h : r.Good d0 io0)
    (hm : r.d.mode ∈ [DecMode.len, .lenExt, .dist, .distExt, .copyMatch, .lit]) {m : DecMode}
    (hm' : m ∈ [DecMode.len, .lenExt, .dist, .distExt, .copyMatch, .lit]) (l o : Nat) {x : Nat} (hx : x ≤ 13) :
    DecRun.Good d0 io0 (r.withDec { r.d with length := l, offset := o, extra := x, mode := m }) := by
  obtain ⟨herr, hl, hd⟩ := h.body hm
  have h1 : Dec.Ok { r.d with length := l, offset := o, extra := x } := { h.ok with extra := hx }
  exact h.withDec (h1.toBody hm' herr hl hd) ⟨rfl, rfl, rfl, rfl⟩

/-! ## Literals and lengths -/

/-- A literal/length code is consumed, then a sound rest. -/
theorem DecRun.Good.takeLitSym {d0 : Dec} {io0 : Io} {r : DecRun} (h : r.Good d0 io0) (hm : r.d.mode = .len) (s : Nat)
    {bound : Nat} {rest : DecRun → Act}
    (hrest : r.offers (r.d.lencode.lengthOf s) → Act.Sound d0 io0 bound (rest (r.after (r.d.lencode.lengthOf s)))) :
    Act.Sound d0 io0 bound (r.takeLitSym s rest) := by
  have hc := (h.body (by rw [hm]; decide)).2.1
  have h15 := hc.1.lengthOf_le s
  unfold DecRun.takeLitSym
  refine h.need (by omega) (fun ho => ?_)
  rw [show (r.holding (r.pulls (r.d.lencode.lengthOf s))).d.lencode = r.d.lencode from rfl, DecRun.dropBits_holding ho]
  exact hrest ho

theorem DecRun.Good.lit {d0 : Dec} {io0 : Io} {r : DecRun} (h : r.Good d0 io0) (hm : r.d.mode = .lit) :
    Act.Sound d0 io0 r.todo r.lit := by
  unfold DecRun.lit
  split
  · next ho => exact ⟨h, ho⟩
  · next ho =>
    have he := h.emit (BitVec.ofNat 8 r.d.length) (by omega)
    have hb := he.toBody (m := .len) (by show r.d.mode ∈ _; rw [hm]; decide) (by decide) r.d.length r.d.offset h.ok.extra
    refine ⟨hb, nofun, ?_⟩
    show 3 * (r.d.bits + 8 * (r.io.outWrite _).availIn) + 0 < 3 * r.left + r.d.mode.rank
    rw [hm, Io.outWrite_availIn]
    unfold DecRun.left; simp only [DecMode.rank]; omega

/-- LENEXT with the bits it needs already offered, or not. -/
theorem DecRun.Good.lenExt {d0 : Dec} {io0 : Io} {r : DecRun} (h : r.Good d0 io0) (hm : r.d.mode = .lenExt) (e : Nat) :
    Act.Sound d0 io0 r.todo (r.lenExt e) := by
  have hx := h.ok.extra
  unfold DecRun.lenExt
  refine h.need (by omega) (fun ho => ?_)
  dsimp only
  rw [show (r.holding (r.pulls r.d.extra)).d.extra = r.d.extra from rfl, DecRun.dropBits_holding ho]
  have ha := h.after ho
  have hb := ha.toBody (m := .dist) (by show r.d.mode ∈ _; rw [hm]; decide) (by decide) (r.d.length + e) r.d.offset hx
  refine ⟨hb, nofun, ?_⟩
  have := DecRun.left_after ho
  show 3 * (r.after r.d.extra).left + 0 < 3 * r.left + r.d.mode.rank
  rw [hm]; simp only [DecMode.rank]; omega

theorem lenExtra_le (c : Nat) : lenExtra.getD c 0 ≤ 13 := by
  rcases Nat.lt_or_ge c 29 with h | h
  · interval_cases c <;> decide
  · rw [List.getD_eq_default]; exact Nat.zero_le _
    exact h

theorem distExtra_le (c : Nat) : distExtra.getD c 0 ≤ 13 := by
  rcases Nat.lt_or_ge c 30 with h | h
  · interval_cases c <;> decide
  · rw [List.getD_eq_default]; exact Nat.zero_le _
    exact h

@[simp] theorem DecRun.lenBegin_mode (r : DecRun) (c : Nat) : (r.lenBegin c).d.mode = .lenExt := rfl

theorem DecRun.Good.lenBegin {d0 : Dec} {io0 : Io} {r : DecRun} (h : r.Good d0 io0) (hm : r.d.mode = .len) (c : Nat) :
    (r.lenBegin c).Good d0 io0 :=
  h.toBody (by rw [hm]; decide) (by decide) (lenBase.getD c 0) r.d.offset (lenExtra_le c)

theorem DecRun.todo_after_lt {r : DecRun} {n : Nat} (ho : r.offers n) (hn : 1 ≤ n) :
    3 * (r.after n).left + 2 < 3 * r.left := by
  have := DecRun.left_after ho
  unfold DecRun.offers at ho
  have hl : r.left = r.d.bits + 8 * r.io.availIn := rfl
  omega

theorem DecRun.Good.litSymbol {d0 : Dec} {io0 : Io} {r : DecRun} (h : r.Good d0 io0) (hm : r.d.mode = .len) {s w e : Nat}
    (hk : 1 ≤ r.d.lencode.lengthOf s) : Act.Sound d0 io0 (3 * r.left) (actionOf (.lit s w e) r) := by
  have herr := (h.body (by rw [hm]; decide)).1
  rw [actionOf]
  split
  · next hs =>
    unfold DecRun.literal
    have hb : (BitVec.ofNat 8 s).toNat = s := by rw [BitVec.toNat_ofNat, Nat.mod_eq_of_lt hs]
    rw [hb]
    refine h.takeLitSym hm s (fun ho => ?_)
    have ha := h.after ho
    have hl := ha.toBody (m := .lit) (by show r.d.mode ∈ _; rw [hm]; decide) (by decide) s r.d.offset h.ok.extra
    exact (hl.lit rfl).mono (by
      have := DecRun.todo_after_lt ho hk
      show 3 * (r.after (r.d.lencode.lengthOf s)).left + 1 ≤ 3 * r.left
      omega)
  · split
    · next hs =>
      unfold DecRun.endOfBlock
      rw [← hs]
      refine h.takeLitSym hm s (fun ho => ?_)
      have ha := h.after ho
      refine ⟨ha.withDec (ha.ok.toFree (by decide) herr) ⟨rfl, rfl, rfl, rfl⟩, nofun, ?_⟩
      have := DecRun.todo_after_lt ho hk
      show 3 * (r.after (r.d.lencode.lengthOf s)).left + 1 < 3 * r.left
      omega
    · split
      · next h1 h2 h3 =>
        unfold DecRun.lengthSym
        have hs : 257 + (s - 257) = s := by omega
        rw [hs]
        clear hs h1 h2 h3
        generalize s - 257 = c
        refine h.takeLitSym hm s (fun ho => ?_)
        have hb := (h.after ho).lenBegin hm c
        refine (hb.lenExt (DecRun.lenBegin_mode _ _) e).mono ?_
        have := DecRun.todo_after_lt ho hk
        show 3 * (r.after (r.d.lencode.lengthOf s)).left + 1 ≤ 3 * r.left
        omega
      · exact h.takeLitSym hm s (fun ho => (h.after ho).raise (by decide) _)

/-! ## Distances and copies -/

theorem DecRun.matchBytes_good {d0 : Dec} {io0 : Io} : ∀ (n : Nat) {r : DecRun}, r.Good d0 io0 → n ≤ r.io.availOut →
    (DecRun.matchBytes n r).Good d0 io0 ∧ (DecRun.matchBytes n r).d.mode = r.d.mode ∧
      (DecRun.matchBytes n r).d.length = r.d.length - n ∧ (DecRun.matchBytes n r).left = r.left ∧
      (DecRun.matchBytes n r).io.availOut = r.io.availOut - n
  | 0, r, h, _ => ⟨h, rfl, rfl, rfl, rfl⟩
  | n + 1, r, h, h1 => by
    have he := h.emit (r.d.back r.d.offset) (by omega)
    have hl : Dec.Ok { (DecRun.emit (r.d.back r.d.offset) r).d with length := r.d.length - 1 } := { he.ok with }
    have ih := DecRun.matchBytes_good n (he.withDec hl ⟨rfl, rfl, rfl, rfl⟩)
      (by show n ≤ (r.io.outWrite _).availOut; simp; omega)
    refine ⟨ih.1, ih.2.1, ?_, ?_, ?_⟩
    · rw [DecRun.matchBytes]; refine ih.2.2.1.trans ?_
      show r.d.length - 1 - n = _; omega
    · rw [DecRun.matchBytes]; exact ih.2.2.2.1
    · rw [DecRun.matchBytes]; refine ih.2.2.2.2.trans ?_
      show (r.io.outWrite _).availOut - n = _
      simp; omega

theorem DecRun.Good.copyMatch {d0 : Dec} {io0 : Io} {r : DecRun} (h : r.Good d0 io0) (hm : r.d.mode = .copyMatch) :
    Act.Sound d0 io0 r.todo r.copyMatch := by
  obtain ⟨h1, h2, h3, h4, h5⟩ := DecRun.matchBytes_good (min r.d.length r.io.availOut) h (Nat.min_le_right _ _)
  unfold DecRun.copyMatch
  dsimp only
  split
  · have hb := h1.toBody (m := .len) (by rw [h2, hm]; decide) (by decide) (DecRun.matchBytes (min r.d.length r.io.availOut) r).d.length
      (DecRun.matchBytes (min r.d.length r.io.availOut) r).d.offset h1.ok.extra
    refine ⟨hb, nofun, ?_⟩
    show 3 * (DecRun.matchBytes (min r.d.length r.io.availOut) r).left + 0 < 3 * r.left + r.d.mode.rank
    rw [h4, hm]; simp [DecMode.rank]
  · refine ⟨h1, ?_⟩
    show (DecRun.matchBytes (min r.d.length r.io.availOut) r).io.availOut = 0
    rw [h5]; omega

theorem DecRun.Good.distExt {d0 : Dec} {io0 : Io} {r : DecRun} (h : r.Good d0 io0) (hm : r.d.mode = .distExt) (e : Nat) :
    Act.Sound d0 io0 r.todo (r.distExt e) := by
  have hx := h.ok.extra
  unfold DecRun.distExt
  refine h.need (by omega) (fun ho => ?_)
  dsimp only
  rw [show (r.holding (r.pulls r.d.extra)).d.extra = r.d.extra from rfl, DecRun.dropBits_holding ho]
  have ha := h.after ho
  have hleft := DecRun.left_after ho
  have hmem : r.d.mode ∈ [DecMode.len, .lenExt, .dist, .distExt, .copyMatch, .lit] := by rw [hm]; decide
  split
  · have hb := ha.toBody (m := r.d.mode) hmem hmem r.d.length (r.d.offset + e) hx
    exact DecRun.Good.raise (r := (r.after r.d.extra).withDec { (r.after r.d.extra).d with offset := (r.after r.d.extra).d.offset + e })
      hb (by decide) _
  · have hb := ha.toBody (m := .copyMatch) hmem (by decide) r.d.length (r.d.offset + e) hx
    refine (hb.copyMatch rfl).mono ?_
    show 3 * (r.after r.d.extra).left + 1 ≤ 3 * r.left + r.d.mode.rank
    rw [hm]; simp only [DecMode.rank]; omega

theorem DecRun.Good.takeDistSym {d0 : Dec} {io0 : Io} {r : DecRun} (h : r.Good d0 io0) (hm : r.d.mode = .dist) (s : Nat)
    {bound : Nat} {rest : DecRun → Act}
    (hrest : r.offers (r.d.distcode.lengthOf s) → Act.Sound d0 io0 bound (rest (r.after (r.d.distcode.lengthOf s)))) :
    Act.Sound d0 io0 bound (r.takeDistSym s rest) := by
  have hc := (h.body (by rw [hm]; decide)).2.2
  have h15 := hc.1.lengthOf_le s
  unfold DecRun.takeDistSym
  refine h.need (by omega) (fun ho => ?_)
  rw [show (r.holding (r.pulls (r.d.distcode.lengthOf s))).d.distcode = r.d.distcode from rfl, DecRun.dropBits_holding ho]
  exact hrest ho

theorem DecRun.Good.distBegin {d0 : Dec} {io0 : Io} {r : DecRun} (h : r.Good d0 io0) (hm : r.d.mode = .dist) (c : Nat) :
    (r.distBegin c).Good d0 io0 :=
  h.toBody (by rw [hm]; decide) (by decide) r.d.length (distBase.getD c 0) (distExtra_le c)

theorem DecRun.Good.distSymbol {d0 : Dec} {io0 : Io} {r : DecRun} (h : r.Good d0 io0) (hm : r.d.mode = .dist) {s w e : Nat}
    (hk : 1 ≤ r.d.distcode.lengthOf s) : Act.Sound d0 io0 (3 * r.left) (actionOf (.dist s w e) r) := by
  rw [actionOf]
  split
  · unfold DecRun.distanceSym
    refine h.takeDistSym hm s (fun ho => ?_)
    have hb := (h.after ho).distBegin hm s
    refine (hb.distExt rfl e).mono ?_
    have := DecRun.todo_after_lt ho hk
    show 3 * (r.after (r.d.distcode.lengthOf s)).left + 1 ≤ 3 * r.left
    omega
  · exact h.takeDistSym hm s (fun ho => (h.after ho).raise (by decide) _)

/-! ## The sight -/

/-- The bits in sight are the front of the stream. -/
theorem DecRun.sight_eq (r : DecRun) : r.sight = r.stream.take (r.d.bits + 8 * min 8 r.io.availIn) := by
  rw [DecRun.stream_take r (Nat.min_le_right _ _)]; rfl

theorem DecRun.length_sight (r : DecRun) : r.sight.length = r.d.bits + 8 * min 8 r.io.availIn := by simp [DecRun.sight]

theorem DecRun.offers_of_sight {r : DecRun} {n : Nat} (h : n ≤ r.sight.length) : r.offers n := by
  rw [DecRun.length_sight] at h; unfold DecRun.offers; omega

/-- Where fewer than 64 bits are in sight, all of the stream is. -/
theorem DecRun.left_of_sight {r : DecRun} (h : r.sight.length < 64) : r.left = r.sight.length := by
  rw [DecRun.length_sight] at *; unfold DecRun.left; omega

/-! ## The decoder's own actions -/

theorem DecRun.Good.noCode {d0 : Dec} {io0 : Io} {r : DecRun} (h : r.Good d0 io0) {n : Nat} (ho : r.offers n) (bound : Nat) :
    Act.Sound d0 io0 bound (r.noCode n) := by
  unfold DecRun.noCode
  rw [DecRun.needBits_of_offers h.ok.hold ho, DecRun.dropBits_holding ho]
  refine (h.after ho).raise ?_ _
  split <;> decide

theorem DecRun.Good.symbolOnly_len {d0 : Dec} {io0 : Io} {r : DecRun} (h : r.Good d0 io0) (hm : r.d.mode = .len) {s n : Nat}
    (ho : r.offers n) (hlt : r.left < n + 32) (bound : Nat) : Act.Sound d0 io0 bound (r.symbolOnly s n) := by
  unfold DecRun.symbolOnly
  rw [DecRun.needBits_of_offers h.ok.hold ho, DecRun.dropBits_holding ho]
  dsimp only
  rw [if_pos (show (r.after n).d.mode = .len from hm)]
  have hleft := DecRun.left_after ho
  refine ((h.after ho).lenBegin hm (s - 257)).starve ?_ bound
  show (r.after n).left ≤ 32
  omega

theorem DecRun.Good.symbolOnly_dist {d0 : Dec} {io0 : Io} {r : DecRun} (h : r.Good d0 io0) (hm : r.d.mode = .dist) {s n : Nat}
    (ho : r.offers n) (hlt : r.left < n + 32) (bound : Nat) : Act.Sound d0 io0 bound (r.symbolOnly s n) := by
  unfold DecRun.symbolOnly
  rw [DecRun.needBits_of_offers h.ok.hold ho, DecRun.dropBits_holding ho]
  dsimp only
  rw [if_neg (show ¬ (r.after n).d.mode = .len by show ¬ r.d.mode = .len; rw [hm]; decide)]
  have hleft := DecRun.left_after ho
  refine ((h.after ho).distBegin hm s).starve ?_ bound
  show (r.after n).left ≤ 32
  omega

theorem DecRun.Good.partElement {d0 : Dec} {io0 : Io} {r : DecRun} (h : r.Good d0 io0)
    (hb : r.d.mode = .lenLens ∨ r.left ≤ 32) : Act.Sound d0 io0 (r.todo + 1) r.partElement := by
  unfold DecRun.partElement
  split
  · next hm =>
    have := h.ok.lenLens hm
    exact (DecRun.readLenLens_sound 20 h hm (by omega)).mono (Nat.le_succ _)
  · next hm =>
    exact h.starve (hb.resolve_left hm) _

/-- The end of the stream, after the final block (R313). -/
theorem DecRun.Good.endOfStream {d0 : Dec} {io0 : Io} {r : DecRun} (h : r.Good d0 io0) (hm : r.d.mode = .type) :
    Act.Sound d0 io0 r.todo r.endOfStream := by
  have hmod := Nat.mod_le r.d.bits 8
  have ho : r.offers (r.d.bits % 8) := by unfold DecRun.offers; omega
  unfold DecRun.endOfStream
  rw [DecRun.byteBits_eq_after h.ok.hold]
  have ha := h.after ho
  have herr : r.d.err = 0 := h.ok.err_eq (by rw [hm]; decide)
  refine ⟨ha.withDec (ha.ok.toFree (by decide) herr) ⟨rfl, rfl, rfl, rfl⟩, nofun, ?_⟩
  have := DecRun.left_after ho
  show 3 * (r.after (r.d.bits % 8)).left + 0 < 3 * r.left + r.d.mode.rank
  rw [hm]; simp only [DecMode.rank]; omega

/-! ## One state action -/

theorem State.io_good {s : State} {d : Dec} {c p : Nat} (hd : d.Ok) :
    DecRun.Good d (s.io c p) { d := d, io := s.io c p } :=
  ⟨Io.Moves.refl _, hd, rfl, rfl, rfl, rfl⟩

/-- One state action of a decoder that is in order (R311): it answers a next state, reached by a sound action. -/
theorem decoderStep_sound {s : State} {d : Dec} {c p : Nat} (hs : s.stream = .dec d) (hp : s.phase = .decoding c p)
    (hd : d.Ok) :
    ∃ a : Act, decoderStep s = .next (s.settle a) ∧
      a.Sound d (s.io c p) (DecRun.todo { d := d, io := s.io c p }) := by
  set r : DecRun := { d := d, io := s.io c p } with hr
  have hg : r.Good d (s.io c p) := State.io_good hd
  have hrd : r.d = d := rfl
  have hbound : 3 * r.left ≤ r.todo := by unfold DecRun.todo; omega
  -- the answer where an element is executed
  have helem : ∀ {i : Instr} {m : DecMode}, (∀ w, i.shape ≠ .command w) → (∀ ls, i.shape ≠ .clLens ls) → modeOf i.shape = m →
      d.awaits m = true → execElement i s = .next (s.settle (actionOf i.shape r)) := by
    intro i m h1 h2 hm ha
    rw [execElement_eq h1 h2, hm, State.onElement_of hs hp ha]
  unfold decoderStep
  rw [hs, hp]
  dsimp only
  rw [← hr]
  cases hm : d.mode with
  | type =>
    cases hl : d.last with
    | true =>
      have : r.next = .act r.endOfStream := by simp only [DecRun.next, hrd, hm, hl, if_true]
      rw [this]
      exact ⟨_, rfl, hg.endOfStream hm⟩
    | false =>
      have : r.next = .fetch r .header := by simp only [DecRun.next, hrd, hm, hl]; rfl
      rw [this]
      dsimp only
      rcases decodeWire_header (bits := r.sight) with ⟨f, t, hw, ht, hlen⟩ | ⟨hw, hlen⟩
      · rw [hw]
        have ha : d.awaits .type = true := by simp [Dec.awaits, hm, hl]
        exact ⟨_, by
          show execElement (headerInstr f t) s = _
          rw [execElement_header f ht, State.onElement_of hs hp ha], (hg.header hm f _).mono hbound⟩
      · rw [hw]
        have hle := DecRun.left_of_sight (r := r) (by omega)
        refine ⟨_, rfl, ?_⟩
        unfold DecRun.partElement
        rw [if_neg (by rw [hrd, hm]; decide)]
        exact hg.starve (by omega) _
  | stored =>
    have hnext : r.next = .fetch r.byteBits .storedPair := by simp only [DecRun.next, hrd, hm]
    rw [hnext]
    dsimp only
    have hmod := Nat.mod_le r.d.bits 8
    have ho8 : r.offers (r.d.bits % 8) := by unfold DecRun.offers; omega
    have hgb : r.byteBits.Good d (s.io c p) := by rw [DecRun.byteBits_eq_after hg.ok.hold]; exact hg.after ho8
    rcases decodeWire_storedPair (bits := r.byteBits.sight) with ⟨l, n, hw, hlen⟩ | ⟨hw, hlen⟩
    · rw [hw]
      have ha : d.awaits .stored = true := by simp [Dec.awaits, hm]
      exact ⟨_, by
        show execElement (.storedLen l n) s = _
        rw [execElement_stored, State.onElement_of hs hp ha], (hg.stored hm l n).mono hbound⟩
    · rw [hw]
      have hle := DecRun.left_of_sight (r := r.byteBits) (by omega)
      refine ⟨_, rfl, ?_⟩
      unfold DecRun.partElement
      rw [if_neg (by show ¬ d.mode = .lenLens; rw [hm]; decide)]
      exact hgb.starve (by omega) _
  | copy =>
    have : r.next = .act r.copy := by simp only [DecRun.next, hrd, hm]
    rw [this]
    exact ⟨_, rfl, hg.copy hm⟩
  | table =>
    have : r.next = .fetch r .counts := by simp only [DecRun.next, hrd, hm]
    rw [this]
    dsimp only
    rcases decodeWire_counts (bits := r.sight) with ⟨a, b, c', hw, hlen⟩ | ⟨hw, hlen⟩
    · rw [hw]
      have ha : d.awaits .table = true := by simp [Dec.awaits, hm]
      exact ⟨_, by
        show execElement (.dynamicCounts a b c') s = _
        rw [execElement_counts, State.onElement_of hs hp ha], (hg.counts hm a b c').mono hbound⟩
    · rw [hw]
      have hle := DecRun.left_of_sight (r := r) (by omega)
      refine ⟨_, rfl, ?_⟩
      unfold DecRun.partElement
      rw [if_neg (by rw [hrd, hm]; decide)]
      exact hg.starve (by omega) _
  | lenLens =>
    have hok := hd.lenLens hm
    by_cases hle : d.ncode ≤ d.have_
    · have : r.next = .act r.endLenLens := by simp only [DecRun.next, hrd, hm, hle, if_true]
      rw [this]
      exact ⟨_, rfl, hg.endLenLens hm⟩
    · have : r.next = .fetch r (.clLens (d.ncode - d.have_)) := by simp only [DecRun.next, hrd, hm, hle, if_false]
      rw [this]
      dsimp only
      rcases decodeWire_clLens (n := d.ncode - d.have_) (bits := r.sight) with ⟨ls, hw, hl, hlen⟩ | ⟨hw, hlen⟩
      · rw [hw]
        have ha : d.awaits .lenLens = true := by simp [Dec.awaits, hm]
        refine ⟨_, by
          show execElement (.codeLengthCodeLengths ls) s = _
          rw [execElement_clLens hs (by omega), State.onElement_of hs hp ha], (hg.clLens hm ?_ ?_).mono hbound⟩
        · intro hnil; rw [hnil] at hl; simp at hl; omega
        · rw [hrd]; omega
      · rw [hw]
        refine ⟨_, rfl, ?_⟩
        unfold DecRun.partElement
        rw [if_pos (by rw [hrd, hm])]
        exact DecRun.readLenLens_sound 20 hg hm (by rw [hrd]; omega)
  | codeLens =>
    obtain ⟨h1, h2, h3, h4, h5, h6⟩ := hd.codeLens hm
    by_cases hle : d.nlen + d.ndist ≤ d.have_
    · have : r.next = .act r.endCodeLens := by simp only [DecRun.next, hrd, hm, hle, if_true]
      rw [this]
      exact ⟨_, rfl, hg.endCodeLens hm⟩
    · have : r.next = .fetch r (.clSymbol d.clcode) := by simp only [DecRun.next, hrd, hm, hle, if_false]
      rw [this]
      dsimp only
      rcases decodeWire_clSymbol h5 (bits := r.sight) with ⟨sym, e, hw, hs19, hk, he, hlen⟩ | ⟨k, hw, _, _, hinv⟩ | ⟨hw, hlen⟩
      · rw [hw]
        have ha : d.awaits .codeLens = true := by simp [Dec.awaits, hm]
        have hshape := shape_clInstr hs19 e
        refine ⟨_, helem (i := clInstr sym e) (m := .codeLens) (by rw [hshape]; simp) (by rw [hshape]; simp) (by rw [hshape]; rfl) ha, ?_⟩
        rw [hshape]
        exact (hg.cl hm (by rw [hrd]; omega) hs19 hk).mono hbound
      · exact absurd hinv (peek_ne_invalid h5.1 h6 _ _)
      · rw [hw]
        have hle' := DecRun.left_of_sight (r := r) (by omega)
        refine ⟨_, rfl, ?_⟩
        unfold DecRun.partElement
        rw [if_neg (by rw [hrd, hm]; decide)]
        exact hg.starve (by omega) _
  | len =>
    have hc := (hg.body (by rw [hrd, hm]; decide)).2.1
    have : r.next = .fetch r (.litSymbol d.lencode) := by simp only [DecRun.next, hrd, hm]
    rw [this]
    dsimp only
    rcases decodeWire_litSymbol hc (bits := r.sight) with ⟨i, sym, w, e, hw, hshape, hs', hk, he, hw5, hlen⟩ |
      ⟨sym, hw, h257, h285, hk, hlen, hlen'⟩ | ⟨k, hw, hk, hlen⟩ | ⟨hw, hlen⟩
    · rw [hw]
      have ha : d.awaits .len = true := by simp [Dec.awaits, hm]
      refine ⟨_, helem (i := i) (m := .len) (by rw [hshape]; simp) (by rw [hshape]; simp) (by rw [hshape]; rfl) ha, ?_⟩
      rw [hshape]
      exact (hg.litSymbol hm hk).mono hbound
    · rw [hw]
      have h15 := hc.1.lengthOf_le sym
      have hx := lenExtra_le (sym - 257)
      have hle := DecRun.left_of_sight (r := r) (by rw [hrd] at *; omega)
      exact ⟨_, rfl, hg.symbolOnly_len hm (DecRun.offers_of_sight hlen) (by rw [hrd] at *; omega) _⟩
    · rw [hw]
      refine ⟨_, if_neg (by decide), hg.noCode (DecRun.offers_of_sight hlen) _⟩
    · rw [hw]
      have hle' := DecRun.left_of_sight (r := r) (by omega)
      refine ⟨_, rfl, ?_⟩
      unfold DecRun.partElement
      rw [if_neg (by rw [hrd, hm]; decide)]
      exact hg.starve (by omega) _
  | lenExt =>
    have : r.next = .act (r.needBits r.d.extra fun r => r.lenExt (r.peekBits r.d.extra)) := by simp only [DecRun.next, hrd, hm]
    rw [this]
    refine ⟨_, rfl, ?_⟩
    have hx := hg.ok.extra
    refine hg.need (by omega) (fun ho => ?_)
    obtain ⟨hg', _, hleft⟩ := hg.held (by omega) ho
    refine (hg'.lenExt hm _).mono ?_
    show 3 * (r.holding _).left + r.d.mode.rank ≤ 3 * r.left + r.d.mode.rank
    omega
  | dist =>
    have hc := (hg.body (by rw [hrd, hm]; decide)).2.2
    have : r.next = .fetch r (.distSymbol d.distcode) := by simp only [DecRun.next, hrd, hm]
    rw [this]
    dsimp only
    rcases decodeWire_distSymbol hc (bits := r.sight) with ⟨i, sym, w, e, hw, hshape, hs', hk, he, hw5, hlen⟩ |
      ⟨sym, hw, h29, hk, hlen, hlen'⟩ | ⟨k, hw, hk, hlen⟩ | ⟨hw, hlen⟩
    · rw [hw]
      have ha : d.awaits .dist = true := by simp [Dec.awaits, hm]
      refine ⟨_, helem (i := i) (m := .dist) (by rw [hshape]; simp) (by rw [hshape]; simp) (by rw [hshape]; rfl) ha, ?_⟩
      rw [hshape]
      exact (hg.distSymbol hm hk).mono hbound
    · rw [hw]
      have h15 := hc.1.lengthOf_le sym
      have hx := distExtra_le sym
      have hle := DecRun.left_of_sight (r := r) (by rw [hrd] at *; omega)
      exact ⟨_, rfl, hg.symbolOnly_dist hm (DecRun.offers_of_sight hlen) (by rw [hrd] at *; omega) _⟩
    · rw [hw]
      refine ⟨_, if_neg (by decide), hg.noCode (DecRun.offers_of_sight hlen) _⟩
    · rw [hw]
      have hle' := DecRun.left_of_sight (r := r) (by omega)
      refine ⟨_, rfl, ?_⟩
      unfold DecRun.partElement
      rw [if_neg (by rw [hrd, hm]; decide)]
      exact hg.starve (by omega) _
  | distExt =>
    have : r.next = .act (r.needBits r.d.extra fun r => r.distExt (r.peekBits r.d.extra)) := by simp only [DecRun.next, hrd, hm]
    rw [this]
    refine ⟨_, rfl, ?_⟩
    have hx := hg.ok.extra
    refine hg.need (by omega) (fun ho => ?_)
    obtain ⟨hg', _, hleft⟩ := hg.held (by omega) ho
    refine (hg'.distExt hm _).mono ?_
    show 3 * (r.holding _).left + r.d.mode.rank ≤ 3 * r.left + r.d.mode.rank
    omega
  | copyMatch =>
    have : r.next = .act r.copyMatch := by simp only [DecRun.next, hrd, hm]
    rw [this]
    exact ⟨_, rfl, hg.copyMatch hm⟩
  | lit =>
    have : r.next = .act r.lit := by simp only [DecRun.next, hrd, hm]
    rw [this]
    exact ⟨_, rfl, hg.lit hm⟩
  | done =>
    have : r.next = .act (.stop .streamEnd r) := by simp only [DecRun.next, hrd, hm]
    rw [this]
    exact ⟨_, rfl, hg, hm⟩
  | bad =>
    have : r.next = .act (.stop .malformedStream r) := by simp only [DecRun.next, hrd, hm]
    rw [this]
    exact ⟨_, rfl, hg, hm⟩
  | sync =>
    have : r.next = .act (.stop .invalidCommand r) := by simp only [DecRun.next, hrd, hm]
    rw [this]
    exact ⟨_, rfl, hg, hm⟩

/-! ## A whole DEC_STEP -/

theorem Io.Moves.eq_io {s : State} {c p : Nat} {io : Io} (h : (s.io c p).Moves io) :
    io = { s.io io.consumed io.produced with mem := io.mem, totalIn := io.totalIn, totalOut := io.totalOut } := by
  have h1 := h.inAddr
  have h2 := h.inLen
  have h3 := h.outAddr
  have h4 := h.outLen
  cases io
  simp_all [State.io]

theorem State.io_settle_go {s : State} {c p : Nat} {r : DecRun} (h : (s.io c p).Moves r.io) :
    (s.settle (.go r)).io r.io.consumed r.io.produced = r.io := by
  rw [h.eq_io]; rfl

theorem State.finish_settle_go (s : State) (r : DecRun) (io : Io) (c : StreamCtx) (res : Result) :
    (s.settle (.go r)).finish io c res = s.finish io c res := rfl

theorem DecRun.Ending.of_not_sync {d0 d1 : Dec} {r : DecRun} {res : Result} (h : r.Ending d1 res) (hm : d1.mode ≠ .sync) :
    r.Ending d0 res := by
  cases res <;> first | exact h | exact absurd h hm

/-- State actions until the end (R311): with enough fuel the command ends, by a sound ending. -/
theorem runDecoder_sound : ∀ (fuel : Nat) {s : State} {d : Dec} {c p : Nat}, s.stream = .dec d → s.phase = .decoding c p →
    d.Ok → DecRun.todo { d := d, io := s.io c p } < fuel →
    ∃ (res : Result) (r : DecRun), runDecoder fuel s = .next (s.finish r.io (.dec r.d) res) ∧ r.Good d (s.io c p) ∧
      r.Ending d res
  | 0, _, _, _, _, _, _, _, hf => absurd hf (Nat.not_lt_zero _)
  | fuel + 1, s, d, c, p, hs, hp, hd, hf => by
    obtain ⟨a, hstep, hsound⟩ := decoderStep_sound hs hp hd
    rw [runDecoder, hstep]
    cases a with
    | stop res r =>
      obtain ⟨hg, he⟩ := hsound
      refine ⟨res, r, ?_, hg, he⟩
      show (if (s.settle (.stop res r)).phase = .idle then _ else _) = _
      rw [if_pos (show (s.settle (.stop res r)).phase = .idle from rfl)]; rfl
    | go r =>
      obtain ⟨hg, hsync, ht⟩ := hsound
      show ∃ (res : Result) (r' : DecRun), (if (s.settle (.go r)).phase = .idle then _ else _) = _ ∧ _
      rw [if_neg (by simp)]
      have hio := State.io_settle_go (s := s) hg.moves
      have hlt : DecRun.todo { d := r.d, io := (s.settle (.go r)).io r.io.consumed r.io.produced } < fuel := by
        rw [hio]; exact lt_of_lt_of_le ht (Nat.le_of_lt_succ hf)
      obtain ⟨res, r', h1, h2, h3⟩ := runDecoder_sound fuel (s := s.settle (.go r)) rfl rfl hg.ok hlt
      rw [hio] at h2
      refine ⟨res, r', ?_, ⟨hg.moves.trans h2.moves, h2.ok, h2.latched.1.trans hg.latched.1,
        h2.latched.2.1.trans hg.latched.2.1, h2.latched.2.2.1.trans hg.latched.2.2.1, h2.latched.2.2.2.trans hg.latched.2.2.2⟩, ?_⟩
      · rw [h1, State.finish_settle_go]
      · exact h3.of_not_sync hsync

/-- DEC_STEP on a decoder in order, outside a search and with buffers in range (R400): the command ends, moving the cursors within the
buffers, with one of the four results of R401. -/
theorem execDecStep_ends {s : State} {d : Dec} (hs : s.stream = .dec d) (hd : d.Ok) (hm : d.mode ≠ .sync)
    (hr : s.rangesOk = true) :
    ∃ (res : Result) (r : DecRun), execDecStep s = .next (s.finish r.io (.dec r.d) res) ∧
      r.Good { d with started := true } (s.io 0 0) ∧ r.Ending d res := by
  have hd' : Dec.Ok { d with started := true } := { hd with }
  have hrank := d.mode.rank_le
  have hfuel : DecRun.todo { d := { d with started := true }, io := s.io 0 0 } < decoderFuel s d := by
    show 3 * (d.bits + 8 * (s.inLen.toNat - 0)) + d.mode.rank < 5 * (d.bits + 8 * s.inLen.toNat) + 5
    omega
  obtain ⟨res, r, h1, h2, h3⟩ := runDecoder_sound (decoderFuel s d)
    (s := { s with stream := .dec { d with started := true }, phase := .decoding 0 0 }) rfl rfl hd' hfuel
  refine ⟨res, r, ?_, h2, h3.of_not_sync hm⟩
  have hnot : (!s.rangesOk) ≠ true := by rw [hr]; decide
  unfold execDecStep
  rw [hs]
  dsimp only
  rw [if_neg hm, if_neg hnot, h1]
  rfl

/-! ## The other commands of the decoder -/

theorem Dec.ok_restart {d : Dec} (h : d.Ok) (b : Bool) : (d.restart b).Ok where
  wbits := h.wbits
  dwin := h.dwin
  wnext := Nat.two_pow_pos _
  whave := Nat.zero_le _
  hold := Nat.one_pos
  bits := Nat.zero_le _
  bad := ⟨nofun, fun h => absurd rfl h⟩
  err := Nat.zero_le _
  lens := ⟨List.length_replicate, fun x hx => by rw [List.eq_of_mem_replicate hx]; exact Nat.zero_le _⟩
  syncHave := Nat.zero_le _
  extra := Nat.zero_le _
  lenLens := nofun
  codeLens := nofun
  body := fun hm => by have : DecMode.type ∈ _ := hm; simp at this

theorem Dec.ok_fresh {wbits : Nat} (h : 8 ≤ wbits ∧ wbits ≤ 15) (a : Bool) (seed : Nat) : (Dec.fresh wbits a seed).Ok where
  wbits := h
  dwin := Ram.wf_nil _
  wnext := Nat.two_pow_pos _
  whave := Nat.zero_le _
  hold := Nat.one_pos
  bits := Nat.zero_le _
  bad := ⟨nofun, fun h => absurd rfl h⟩
  err := Nat.zero_le _
  lens := ⟨List.length_replicate, fun x hx => by rw [List.eq_of_mem_replicate hx]; exact Nat.zero_le _⟩
  syncHave := Nat.zero_le _
  extra := Nat.zero_le _
  lenLens := nofun
  codeLens := nofun
  body := fun hm => by have : DecMode.type ∈ _ := hm; simp at this

theorem Dec.ok_rememberAll : ∀ (bs : List Byte) {d : Dec}, d.Ok → (Dec.rememberAll bs d).Ok
  | [], _, h => h
  | b :: bs, _, h => Dec.ok_rememberAll bs (h.remember b)

/-- `search` finds at most four marker bytes and looks at no more bytes than there are (R361). -/
theorem searchMarker_le : ∀ (bs : List Byte) {got : Nat}, got ≤ 4 →
    (searchMarker got bs).1 ≤ 4 ∧ (searchMarker got bs).2 ≤ bs.length
  | [], got, h => ⟨h, Nat.le_refl _⟩
  | b :: bs, got, h => by
    rw [searchMarker]
    split
    · exact ⟨h, Nat.zero_le _⟩
    · next hlt =>
      dsimp only
      have := searchMarker_le bs
        (got := if b = (if got < 2 then 0x00 else 0xFF) then got + 1 else if b ≠ 0 then 0 else 4 - got)
        (by split_ifs <;> omega)
      exact ⟨this.1, by rw [List.length_cons]; omega⟩

theorem Dec.ok_beginSync {d : Dec} (h : d.Ok) : d.beginSync.Ok := by
  unfold Dec.beginSync
  split
  · exact h
  · exact { h with
      hold := Nat.one_pos
      bits := Nat.zero_le _
      bad := ⟨nofun, fun h => absurd rfl h⟩
      err := Nat.zero_le _
      syncHave := (searchMarker_le _ (Nat.zero_le _)).1
      lenLens := nofun
      codeLens := nofun
      body := fun hm => by have : DecMode.sync ∈ _ := hm; simp at this }

theorem Dec.beginSync_latched (d : Dec) : d.beginSync.wbits = d.wbits ∧ d.beginSync.allowSingleCode = d.allowSingleCode ∧
    d.beginSync.seed = d.seed := by
  unfold Dec.beginSync; split <;> exact ⟨rfl, rfl, rfl⟩

/-- DEC_SYNC (R406): the command ends with a decoder in order, the input cursor alone moving. -/
theorem DecRun.sync_ends {d : Dec} {io : Io} (h : d.Ok) : ∃ (res : Result) (d' : Dec) (n : Nat),
    DecRun.sync { d := d, io := io } = .stop res { d := d', io := io.consume n } ∧ n ≤ io.availIn ∧ d'.Ok ∧
      (res = .ok ∨ res = .needMoreInput) := by
  have hb := Dec.ok_beginSync h
  have hlen : ∀ i n, (io.inBytes i n).length = n := fun i n => by
    induction n generalizing i with
    | zero => rfl
    | succ n ih => rw [Io.inBytes, List.length_cons, ih]
  unfold DecRun.sync
  split
  · exact ⟨_, d, 0, by rw [Io.consume_zero], Nat.zero_le _, h, .inr rfl⟩
  · obtain ⟨h1, h2⟩ := searchMarker_le (io.inBytes io.consumed io.availIn) hb.syncHave
    rw [hlen] at h2
    dsimp only
    split
    · exact ⟨_, _, _, rfl, h2, { hb with syncHave := h1 }, .inr rfl⟩
    · exact ⟨_, _, _, rfl, h2, Dec.ok_restart hb true, .inl rfl⟩

end Sys2Proof.Machine
end

