-- ==== Sys2Proof/Laws/Encoder.lean ====
section
/-! SUPPORT. Sys2Proof/Laws/Encoder.lean: what the block functions and the actions of the encoder can do: they end, they move the
cursors within the buffers, and they keep an encoder in order. -/

namespace Sys2Proof.Machine

open Sys2Proof

/-! ## Fields that an operation leaves alone -/

@[simp] theorem Enc.winPut_lookahead (e : Enc) (i : Nat) (b : Byte) : (e.winPut i b).lookahead = e.lookahead := rfl
@[simp] theorem Enc.winPut_strstart (e : Enc) (i : Nat) (b : Byte) : (e.winPut i b).strstart = e.strstart := rfl
@[simp] theorem Enc.winPut_blockStart (e : Enc) (i : Nat) (b : Byte) : (e.winPut i b).blockStart = e.blockStart := rfl
@[simp] theorem Enc.insertString_lookahead (e : Enc) (ps : Config.Params) (p : Nat) : (e.insertString ps p).lookahead = e.lookahead := rfl
@[simp] theorem Enc.insertString_strstart (e : Enc) (ps : Config.Params) (p : Nat) : (e.insertString ps p).strstart = e.strstart := rfl
@[simp] theorem Enc.insertString_blockStart (e : Enc) (ps : Config.Params) (p : Nat) : (e.insertString ps p).blockStart = e.blockStart := rfl
@[simp] theorem Enc.tallyLit_lookahead (e : Enc) (c : Nat) : (e.tallyLit c).lookahead = e.lookahead := rfl
@[simp] theorem Enc.tallyLit_strstart (e : Enc) (c : Nat) : (e.tallyLit c).strstart = e.strstart := rfl
@[simp] theorem Enc.tallyLit_blockStart (e : Enc) (c : Nat) : (e.tallyLit c).blockStart = e.blockStart := rfl
@[simp] theorem Enc.tallyDist_lookahead (e : Enc) (dist len : Nat) : (e.tallyDist dist len).lookahead = e.lookahead := rfl
@[simp] theorem Enc.tallyDist_strstart (e : Enc) (dist len : Nat) : (e.tallyDist dist len).strstart = e.strstart := rfl
@[simp] theorem Enc.tallyDist_blockStart (e : Enc) (dist len : Nat) : (e.tallyDist dist len).blockStart = e.blockStart := rfl
@[simp] theorem Enc.initBlock_lookahead (e : Enc) : (e.initBlock).lookahead = e.lookahead := rfl
@[simp] theorem Enc.initBlock_strstart (e : Enc) : (e.initBlock).strstart = e.strstart := rfl
@[simp] theorem Enc.initBlock_blockStart (e : Enc) : (e.initBlock).blockStart = e.blockStart := rfl

/-- Building the trees writes the trees, the costs and the code-length frequencies, and no other field (R264). -/
theorem Enc.buildTrees_eq (e : Enc) : ∃ (l d b : Tree) (f : List Nat) (o st : Int) (m : Nat), f.length = e.blfreq.length ∧
    e.buildTrees = { e with ltree := l, dtree := d, bltree := b, blfreq := f, optLen := o, staticLen := st, maxBlindex := m } := by
  have hfold : ∀ (l : List ClSym) (f : List Nat), (l.foldl (fun f s => bump f s.sym) f).length = f.length := by
    intro l
    induction l with
    | nil => intro f; rfl
    | cons s l ih => intro f; rw [List.foldl_cons, ih]; exact List.length_set
  unfold Enc.buildTrees
  dsimp only
  generalize buildTree ltreeSpec e.lfreq e.optLen e.staticLen = l
  generalize buildTree dtreeSpec e.dfreq l.2.1 l.2.2 = d
  unfold Enc.buildBlTree
  dsimp only
  generalize Enc.clSyms _ = cs
  have hf := hfold cs e.blfreq
  generalize List.foldl _ _ cs = f at hf ⊢
  generalize buildTree bltreeSpec f d.2.1 d.2.2 = b
  generalize lastSent b.1.len 18 = m
  exact ⟨_, _, _, _, _, _, _, hf, rfl⟩

theorem Enc.flushBlock_fields (e : Enc) (last : Bool) : (e.flushBlock last).lookahead = e.lookahead ∧
    (e.flushBlock last).strstart = e.strstart ∧ (e.flushBlock last).blockStart = e.blockStart ∧
    (e.flushBlock last).syms = [] ∧ (e.flushBlock last).level = e.level ∧ (e.flushBlock last).strategy = e.strategy ∧
    (e.flushBlock last).wbits = e.wbits ∧ (e.flushBlock last).status = e.status ∧ (e.flushBlock last).lastFlush = e.lastFlush := by
  unfold Enc.flushBlock
  split
  · exact ⟨rfl, rfl, rfl, rfl, rfl, rfl, rfl, rfl, rfl⟩
  · obtain ⟨l, d, b, f, o, st, m, _, h⟩ := e.buildTrees_eq
    rw [h]
    exact ⟨rfl, rfl, rfl, rfl, rfl, rfl, rfl, rfl, rfl⟩

/-- The distance from the block's start to the current position. -/
abbrev Enc.span (e : Enc) : Int := (e.strstart : Int) - e.blockStart

theorem Enc.slideIfDue_fields (e : Enc) : e.slideIfDue.lookahead = e.lookahead ∧ e.slideIfDue.span = e.span := by
  unfold Enc.slideIfDue
  split
  · refine ⟨rfl, ?_⟩
    show ((e.strstart - e.ew : Nat) : Int) - (e.blockStart - (e.ew : Int)) = (e.strstart : Int) - e.blockStart
    omega
  · exact ⟨rfl, rfl⟩

/-! ## Positions in the chains -/

theorem Enc.ew_ge (e : Enc) : 512 ≤ e.ew := by
  have : 2 ^ 9 ≤ 2 ^ e.ewbits := Nat.pow_le_pow_right (by decide) (Nat.le_max_right _ _)
  exact this

theorem Ram.below_nil (d n : Nat) : Ram.Below d .nil n := fun k hk => absurd (Ram.get_nil d k) hk

theorem Ram.Below.mono {d n n' : Nat} {t : Ram} (h : t.Below d n) (hn : n ≤ n') : t.Below d n' := fun k hk => lt_of_lt_of_le (h k hk) hn

theorem Ram.Below.set {d n v : Nat} {t : Ram} (h : t.Below d n) (k : Nat) (hv : v ≠ 0 → v < n) : (Ram.set d t k v).Below d n := by
  intro k' hk
  rw [Ram.get_set] at hk ⊢
  split at hk
  · next he => rw [if_pos he]; exact hv hk
  · next he => rw [if_neg he]; exact h k' hk

/-- The slide lowers every bound with the entries (R230). -/
theorem Ram.Below.slide {d n ew : Nat} {t : Ram} (h : t.Below d n) (hw : t.wf d = true) :
    (t.map (slideEntry ew)).Below d (n - ew) := by
  have h0 : slideEntry ew 0 = 0 := by unfold slideEntry; split <;> omega
  intro k hk
  rw [Ram.get_map _ h0 d t k hw] at hk ⊢
  have := h k
  unfold slideEntry at hk ⊢
  split at hk
  · next he => rw [if_pos he]; omega
  · exact absurd rfl hk

theorem Enc.Bounded.mono {ps : Config.Params} {e : Enc} {n n' : Nat} (h : e.Bounded ps n) (hn : n ≤ n') (hr : n' ≤ 2 * e.ew) :
    e.Bounded ps n' :=
  ⟨h.head.mono hn, h.prev.mono hn, hr, h.starts, h.lengths⟩

/-- What `Enc.Bounded` is about. -/
abbrev Enc.links (e : Enc) : Ram × Ram × Nat × Nat × Nat × Nat × Nat :=
  (e.head, e.prev, e.wbits, e.matchStart, e.prevMatch, e.matchLength, e.prevLength)

/-- An encoder whose chains and match registers are those of another. -/
theorem Enc.Bounded.same {ps : Config.Params} {e e' : Enc} {n : Nat} (h : e.Bounded ps n) (hs : e'.links = e.links) :
    e'.Bounded ps n := by
  simp only [Enc.links, Prod.mk.injEq] at hs
  obtain ⟨h1, h2, h3, h4, h5, h6, h7⟩ := hs
  have hb : e'.ewbits = e.ewbits := by unfold Enc.ewbits; rw [h3]
  have hw : e'.ew = e.ew := by unfold Enc.ew; rw [hb]
  exact ⟨h1 ▸ h.head, by rw [h2, hb]; exact h.prev, hw ▸ h.room, by rw [h4, h5, hw]; exact h.starts,
    by rw [h6, h7, hw]; exact h.lengths⟩

/-- The match registers are written. -/
theorem Enc.Bounded.registers {ps : Config.Params} {e : Enc} {n ms pm ml pl : Nat} (h : e.Bounded ps n)
    (hs : ms < 2 * e.ew ∧ pm < 2 * e.ew) (hl : ml ≤ 2 * e.ew ∧ pl ≤ 2 * e.ew) :
    Enc.Bounded ps { e with matchStart := ms, prevMatch := pm, matchLength := ml, prevLength := pl } n :=
  ⟨h.head, h.prev, h.room, hs, hl⟩

/-- `match_length` alone is written, with a length that is no match or a bounded one. -/
theorem Enc.Bounded.matchLength {ps : Config.Params} {e : Enc} {n ml : Nat} (h : e.Bounded ps n) (hl : ml ≤ 2 * e.ew) :
    Enc.Bounded ps { e with matchLength := ml } n :=
  h.registers h.starts ⟨hl, h.lengths.2⟩

theorem Enc.Bounded.headAt {ps : Config.Params} {e : Enc} {n : Nat} (h : e.Bounded ps n) (p : Nat) : e.headAt ps p < 2 * e.ew := by
  have h0 := e.ew_ge
  have h1 := h.head (e.hash3 ps p)
  have h2 := h.room
  unfold Enc.headAt
  omega

theorem Enc.Bounded.chainOf {ps : Config.Params} {e : Enc} {n : Nat} (h : e.Bounded ps n) (p : Nat) : e.chainOf p < 2 * e.ew := by
  have h0 := e.ew_ge
  have h1 := h.prev (p % e.ew)
  have h2 := h.room
  unfold Enc.chainOf
  omega

/-- `insert_string` (R226) of a position below the bound. -/
theorem Enc.Bounded.insertString {ps : Config.Params} {e : Enc} {n : Nat} (h : e.Bounded ps n) {p : Nat} (hp : p < n) :
    (e.insertString ps p).Bounded ps n :=
  ⟨h.head.set _ fun _ => hp, h.prev.set _ fun hv => h.head _ hv, h.room, h.starts, h.lengths⟩

theorem Enc.Bounded.slide {ps : Config.Params} {e : Enc} {n : Nat} (h : e.Bounded ps n) (hhd : e.head.wf ps.hashBits = true)
    (hpv : e.prev.wf e.ewbits = true) : e.slide.Bounded ps (n - e.ew) :=
  ⟨h.head.slide hhd, h.prev.slide hpv, le_trans (Nat.sub_le _ _) h.room,
    ⟨Nat.mod_lt _ (by have := e.ew_ge; omega), h.starts.2⟩, h.lengths⟩

theorem Enc.Bounded.insertRun {ps : Config.Params} {n : Nat} : ∀ (m : Nat) {e : Enc}, e.Bounded ps n → e.strstart + m < n →
    (Enc.insertRun ps m e).Bounded ps n
  | 0, _, h, _ => h
  | m + 1, e, h, hm => by
    rw [Enc.insertRun]
    refine Enc.Bounded.insertRun m (Enc.Bounded.insertString (e := { e with strstart := e.strstart + 1 }) (h.same rfl) (by omega)) ?_
    show e.strstart + 1 + m < n
    omega

theorem Enc.Bounded.insertUpTo {ps : Config.Params} {n top : Nat} (ht : top < n) : ∀ (m : Nat) {e : Enc}, e.Bounded ps n →
    (Enc.insertUpTo ps top m e).Bounded ps n
  | 0, _, h => h
  | m + 1, e, h => by
    have h1 : Enc.Bounded ps { e with strstart := e.strstart + 1 } n := h.same rfl
    rw [Enc.insertUpTo]
    refine Enc.Bounded.insertUpTo ht m ?_
    split
    · next hle => exact h1.insertString (lt_of_le_of_lt hle ht)
    · exact h1

theorem Enc.Bounded.insertRange {ps : Config.Params} {n : Nat} : ∀ (m s : Nat) {e : Enc}, e.Bounded ps n → s + m ≤ n →
    (Enc.insertRange ps m s e).Bounded ps n
  | 0, _, _, h, _ => h
  | m + 1, s, _, h, hm => Enc.Bounded.insertRange m (s + 1) (h.insertString (by omega)) (by omega)

/-- Catch-up insertion (R232) enters positions before `strstart`. -/
theorem Enc.Bounded.catchUpLoop {ps : Config.Params} {n : Nat} : ∀ (m : Nat) {e : Enc}, e.Bounded ps n → e.strstart < n →
    (Enc.catchUpLoop ps m e).Bounded ps n
  | 0, _, h, _ => h
  | m + 1, e, h, hs => by
    have h1 : Enc.Bounded ps { e.insertString ps (e.strstart - (m + 1)) with insert := m } n := by
      exact (h.insertString (p := e.strstart - (m + 1)) (by omega)).same rfl
    rw [Enc.catchUpLoop]
    dsimp only
    split
    · exact h1
    · exact Enc.Bounded.catchUpLoop m h1 hs

/-! ## Encoders in order -/

/-- The part of `Enc.Ok` that positions do not matter to. -/
structure Enc.Sound (ps : Config.Params) (e : Enc) : Prop where
  level : e.level ≤ 9
  wbits : 8 ≤ e.wbits ∧ e.wbits ≤ 15
  win : e.win.wf (e.ewbits + 1) = true
  head : e.head.wf ps.hashBits = true
  prev : e.prev.wf e.ewbits = true
  insert : e.insert ≤ 2
  freqs : e.lfreq.length = 286 ∧ e.dfreq.length = 30 ∧ e.blfreq.length = 19
  bits : e.bw.Ok
  owed : e.matchAvailable = true → e.blockFn = .slow

/-- The part of `Enc.Ok` about positions. While a dictionary is read two of them are not `due`. -/
structure Enc.Placed (ps : Config.Params) (due : Prop) (e : Enc) : Prop where
  block : e.blockStart ≤ (e.strstart : Int)
  fits : e.strstart + e.lookahead ≤ 2 * e.ew
  stored : due → e.level = 0 → e.span < (e.maxDist : Int)
  found : due → Config.minMatch ≤ e.matchLength → e.level ≠ 0 ∧ e.matchLength ≤ e.lookahead + 1
  bounded : e.Bounded ps (e.strstart + e.lookahead)

theorem Enc.Ok.sound {ps : Config.Params} {e : Enc} (h : e.Ok ps) : e.Sound ps :=
  ⟨h.level, h.wbits, h.win, h.head, h.prev, h.insert, h.freqs, h.bits, h.owed⟩

theorem Enc.Ok.placed {ps : Config.Params} {e : Enc} (h : e.Ok ps) : e.Placed ps True :=
  ⟨h.block, h.fits, fun _ => h.stored, fun _ => h.found, h.bounded⟩

theorem Enc.Sound.ok {ps : Config.Params} {e : Enc} (h : e.Sound ps) (hp : e.Placed ps True)
    (hs : e.syms.length < Config.litBufSize - 1) : e.Ok ps :=
  ⟨h.level, h.wbits, h.win, h.head, h.prev, h.insert, h.freqs, hs, h.bits, hp.block, hp.fits, hp.stored trivial, hp.found trivial,
    hp.bounded, h.owed⟩

theorem Enc.maxDist_add (e : Enc) : e.maxDist + 262 = e.ew := by
  have := e.ew_ge
  have h : e.maxDist = e.ew - 262 := rfl
  omega

@[simp] theorem length_bump (f : List Nat) (s : Nat) : (bump f s).length = f.length := List.length_set

theorem Enc.Sound.winPut {ps : Config.Params} {e : Enc} (h : e.Sound ps) (i : Nat) (b : Byte) : (e.winPut i b).Sound ps :=
  { h with win := Ram.wf_set _ _ _ _ h.win }

theorem Enc.Sound.insertString {ps : Config.Params} {e : Enc} (h : e.Sound ps) (p : Nat) : (e.insertString ps p).Sound ps :=
  { h with head := Ram.wf_set _ _ _ _ h.head, prev := Ram.wf_set _ _ _ _ h.prev }

theorem Enc.Sound.tallyLit {ps : Config.Params} {e : Enc} (h : e.Sound ps) (c : Nat) : (e.tallyLit c).Sound ps :=
  { h with freqs := ⟨(length_bump _ _).trans h.freqs.1, h.freqs.2.1, h.freqs.2.2⟩ }

theorem Enc.Sound.tallyDist {ps : Config.Params} {e : Enc} (h : e.Sound ps) (d l : Nat) : (e.tallyDist d l).Sound ps :=
  { h with freqs := ⟨(length_bump _ _).trans h.freqs.1, (length_bump _ _).trans h.freqs.2.1, h.freqs.2.2⟩ }

theorem Enc.Sound.initBlock {ps : Config.Params} {e : Enc} (h : e.Sound ps) : e.initBlock.Sound ps :=
  { h with freqs := ⟨by show (List.set _ _ _).length = _; rw [List.length_set, List.length_replicate], List.length_replicate,
      List.length_replicate⟩ }

theorem Enc.Sound.flushBlock {ps : Config.Params} {e : Enc} (h : e.Sound ps) (last : Bool) : (e.flushBlock last).Sound ps := by
  unfold Enc.flushBlock
  have hb : (if e.level = 0 then e else e.buildTrees).initBlock.Sound ps := by
    split
    · exact h.initBlock
    · obtain ⟨l, d, b, f, o, st, m, _, he⟩ := e.buildTrees_eq
      rw [he]
      exact { h.initBlock with }
  exact { hb with bits := Enc.ok_flushBlock h.bits last }

theorem Enc.Sound.slideIfDue {ps : Config.Params} {e : Enc} (h : e.Sound ps) : e.slideIfDue.Sound ps := by
  unfold Enc.slideIfDue
  split
  · exact {
      level := h.level
      wbits := h.wbits
      win := Ram.wf_slideDown _ _ h.win
      head := Ram.wf_map _ _ _ h.head
      prev := Ram.wf_map _ _ _ h.prev
      insert := le_trans (Nat.min_le_left _ _) h.insert
      freqs := h.freqs
      bits := h.bits
      owed := h.owed }
  · exact h

theorem Enc.Placed.slideIfDue {ps : Config.Params} {due : Prop} {e : Enc} (h : e.Placed ps due) (hs : e.Sound ps) :
    e.slideIfDue.Placed ps due := by
  have hspan := e.slideIfDue_fields.2
  unfold Enc.slideIfDue at *
  split
  · next hdue =>
    rw [if_pos hdue] at hspan
    have hb := h.block
    have hf := h.fits
    exact {
      block := by
        show e.blockStart - (e.ew : Int) ≤ ((e.strstart - e.ew : Nat) : Int)
        omega
      fits := by
        show e.strstart - e.ew + e.lookahead ≤ 2 * e.ew
        omega
      stored := fun hd hl => by rw [hspan]; exact h.stored hd hl
      found := h.found
      bounded := by
        have hl := h.bounded.slide hs.head hs.prev
        have he : e.strstart + e.lookahead - e.ew = e.strstart - e.ew + e.lookahead := by omega
        rw [he] at hl
        exact hl }
  · exact h

theorem Enc.maxDist_eq {e e' : Enc} (h : e'.wbits = e.wbits) : e'.maxDist = e.maxDist := by
  unfold Enc.maxDist Enc.ew Enc.ewbits; rw [h]

theorem Enc.ew_eq {e e' : Enc} (h : e'.wbits = e.wbits) : e'.ew = e.ew := by
  unfold Enc.ew Enc.ewbits; rw [h]

/-- An encoder whose positions are those of another. -/
theorem Enc.Placed.same {ps : Config.Params} {due : Prop} {e e' : Enc} (h : e.Placed ps due) (hss : e'.strstart = e.strstart) (hla : e'.lookahead = e.lookahead)
    (hbs : e'.blockStart = e.blockStart) (hlv : e'.level = e.level) (hwb : e'.wbits = e.wbits)
    (hml : e'.matchLength = e.matchLength) (hlk : e'.Bounded ps (e.strstart + e.lookahead)) : e'.Placed ps due where
  block := by rw [hss, hbs]; exact h.block
  fits := by rw [hss, hla, Enc.ew_eq hwb]; exact h.fits
  stored := fun hd hl => by rw [Enc.span, hss, hbs, Enc.maxDist_eq hwb]; exact h.stored hd (hlv ▸ hl)
  found := by rw [hml, hla, hlv]; exact h.found
  bounded := by rw [hss, hla]; exact hlk

theorem Enc.Sound.catchUpLoop {ps : Config.Params} : ∀ (n : Nat) {e : Enc}, e.Sound ps → n ≤ 2 → (Enc.catchUpLoop ps n e).Sound ps
  | 0, _, h, _ => h
  | n + 1, e, h, hn => by
    have h1 : Enc.Sound ps { e.insertString ps (e.strstart - (n + 1)) with insert := n } :=
      { h.insertString (e.strstart - (n + 1)) with insert := by show n ≤ 2; omega }
    rw [Enc.catchUpLoop]
    dsimp only
    split
    · exact h1
    · exact Enc.Sound.catchUpLoop n h1 (by omega)

theorem Enc.Sound.catchUp {ps : Config.Params} {e : Enc} (h : e.Sound ps) : (e.catchUp ps).Sound ps := by
  unfold Enc.catchUp
  split
  · exact Enc.Sound.catchUpLoop _ h h.insert
  · exact h

theorem Enc.Bounded.catchUp {ps : Config.Params} {e : Enc} (h : e.Bounded ps (e.strstart + e.lookahead)) (hi : e.insert ≤ 2) :
    (e.catchUp ps).Bounded ps (e.strstart + e.lookahead) := by
  unfold Enc.catchUp
  split
  · next hc =>
    have hmin : Config.minMatch = 3 := rfl
    exact Enc.Bounded.catchUpLoop _ h (by omega)
  · exact h

/-- What catch-up insertion keeps: all but the chains and `insert` (R232). -/
theorem Enc.catchUpLoop_eq (ps : Config.Params) : ∀ (n : Nat) (e : Enc),
    Enc.catchUpLoop ps n e = { e with head := (Enc.catchUpLoop ps n e).head, prev := (Enc.catchUpLoop ps n e).prev,
                                      insert := (Enc.catchUpLoop ps n e).insert }
  | 0, _ => rfl
  | n + 1, e => by
    rw [Enc.catchUpLoop]
    dsimp only
    split
    · rfl
    · exact Enc.catchUpLoop_eq ps n _

theorem Enc.catchUp_eq (e : Enc) (ps : Config.Params) :
    e.catchUp ps = { e with head := (e.catchUp ps).head, prev := (e.catchUp ps).prev, insert := (e.catchUp ps).insert } := by
  unfold Enc.catchUp
  split
  · exact Enc.catchUpLoop_eq ps _ e
  · rfl

theorem Enc.Sound.insertRun {ps : Config.Params} : ∀ (n : Nat) {e : Enc}, e.Sound ps → (Enc.insertRun ps n e).Sound ps
  | 0, _, h => h
  | n + 1, e, h => Enc.Sound.insertRun n (Enc.Sound.insertString (e := { e with strstart := e.strstart + 1 }) { h with } _)

theorem Enc.Sound.insertUpTo {ps : Config.Params} (m : Nat) : ∀ (n : Nat) {e : Enc}, e.Sound ps → (Enc.insertUpTo ps m n e).Sound ps
  | 0, _, h => h
  | n + 1, e, h => by
    have h1 : Enc.Sound ps { e with strstart := e.strstart + 1 } := { h with }
    rw [Enc.insertUpTo]
    refine Enc.Sound.insertUpTo m n ?_
    split
    · exact h1.insertString _
    · exact h1

theorem Enc.Sound.insertRange {ps : Config.Params} : ∀ (n s : Nat) {e : Enc}, e.Sound ps → (Enc.insertRange ps n s e).Sound ps
  | 0, _, _, h => h
  | n + 1, s, _, h => Enc.Sound.insertRange n (s + 1) (h.insertString s)

/-- Inserting a run of positions writes the chains and moves the position (R241). -/
theorem Enc.insertRun_eq (ps : Config.Params) : ∀ (n : Nat) (e : Enc),
    Enc.insertRun ps n e = { e with head := (Enc.insertRun ps n e).head, prev := (Enc.insertRun ps n e).prev,
                                    strstart := e.strstart + n }
  | 0, _ => rfl
  | n + 1, e => by
    have h := Enc.insertRun_eq ps n ({ e with strstart := e.strstart + 1 }.insertString ps (e.strstart + 1))
    rw [Enc.insertRun]
    rw [h]
    have : e.strstart + (n + 1) = e.strstart + 1 + n := by omega
    rw [this]
    rfl

theorem Enc.insertUpTo_eq (ps : Config.Params) (m : Nat) : ∀ (n : Nat) (e : Enc),
    Enc.insertUpTo ps m n e = { e with head := (Enc.insertUpTo ps m n e).head, prev := (Enc.insertUpTo ps m n e).prev,
                                       strstart := e.strstart + n }
  | 0, _ => rfl
  | n + 1, e => by
    rw [Enc.insertUpTo]
    dsimp only
    have : e.strstart + (n + 1) = e.strstart + 1 + n := by omega
    rw [this]
    split
    · rw [Enc.insertUpTo_eq ps m n]; rfl
    · rw [Enc.insertUpTo_eq ps m n]

theorem Enc.insertRange_eq (ps : Config.Params) : ∀ (n s : Nat) (e : Enc),
    Enc.insertRange ps n s e = { e with head := (Enc.insertRange ps n s e).head, prev := (Enc.insertRange ps n s e).prev }
  | 0, _, _ => rfl
  | n + 1, s, e => by
    rw [Enc.insertRange]
    exact Enc.insertRange_eq ps n (s + 1) _

/-! ## Runs -/

/-- A run of the encoder's actions that started from `r0`: the cursors have moved within the buffers, the parameters and the
latched configuration are as they were, and where `inv` promises that the encoder was in order, it still is, up to its symbol
buffer. -/
structure EncRun.Good (inv due : Prop) (r0 r : EncRun) : Prop where
  moves : r0.io.Moves r.io
  params : r.params = r0.params
  latched : r.e.level = r0.e.level ∧ r.e.strategy = r0.e.strategy ∧ r.e.wbits = r0.e.wbits
  sound : inv → r.e.Sound r0.params
  placed : inv → r.e.Placed r0.params due

theorem EncRun.Good.refl (r : EncRun) : EncRun.Good (r.e.Ok r.params) True r r :=
  ⟨Io.Moves.refl _, rfl, ⟨rfl, rfl, rfl⟩, Enc.Ok.sound, Enc.Ok.placed⟩

/-- The encoder of a run is replaced. -/
theorem EncRun.Good.withEnc {inv due : Prop} {r0 r : EncRun} (h : EncRun.Good inv due r0 r) {e : Enc}
    (hl : e.level = r.e.level ∧ e.strategy = r.e.strategy ∧ e.wbits = r.e.wbits)
    (hs : r.e.Sound r0.params → e.Sound r0.params) (hp : inv → e.Placed r0.params due) : EncRun.Good inv due r0 (r.withEnc e) :=
  ⟨h.moves, h.params, ⟨hl.1.trans h.latched.1, hl.2.1.trans h.latched.2.1, hl.2.2.trans h.latched.2.2⟩,
    fun hi => hs (h.sound hi), hp⟩

/-! ## flush_pending -/

theorem EncRun.ok_flushPending {r : EncRun} (h : r.e.bw.Ok) : r.flushPending.e.bw.Ok :=
  show BitWriter.Ok { r.e.bw.biFlush with pending := _ } from h.biFlush

theorem EncRun.flushPending_e (r : EncRun) : r.flushPending.e = { r.e with bw := r.flushPending.e.bw } := rfl

@[simp] theorem EncRun.flushPending_availIn (r : EncRun) : r.flushPending.io.availIn = r.io.availIn := by
  unfold EncRun.flushPending; simp

@[simp] theorem EncRun.flushPending_outLen (r : EncRun) : r.flushPending.io.outLen = r.io.outLen := by
  unfold EncRun.flushPending; simp

/-- Where output space is left, everything pending has been written (R176). -/
theorem EncRun.flushPending_pending {r : EncRun} (h : r.flushPending.io.availOut ≠ 0) : r.flushPending.e.bw.pending = [] := by
  unfold EncRun.flushPending at *
  simp only [Io.outBytes_availOut, List.length_take] at h
  show (List.drop _ _).reverse = []
  rw [List.drop_eq_nil_of_le (by omega)]; rfl

theorem EncRun.Good.flushPending {inv due : Prop} {r0 r : EncRun} (h : EncRun.Good inv due r0 r) : EncRun.Good inv due r0 r.flushPending := by
  refine ⟨h.moves.trans ?_, h.params, h.latched,
    fun hi => { h.sound hi with bits := EncRun.ok_flushPending (h.sound hi).bits },
    fun hi => (h.placed hi).same rfl rfl rfl rfl rfl rfl ((h.placed hi).bounded.same rfl)⟩
  unfold EncRun.flushPending
  exact Io.Moves.outBytes (by rw [List.length_take]; exact le_trans (Nat.min_le_left _ _) (Nat.min_le_right _ _))

/-! ## fill_window -/

/-- What reading and the match search leave alone. -/
structure Enc.Kept (e e' : Enc) : Prop where
  syms : e'.syms = e.syms
  bw : e'.bw = e.bw
  status : e'.status = e.status
  lastFlush : e'.lastFlush = e.lastFlush

theorem Enc.Kept.refl (e : Enc) : e.Kept e := ⟨rfl, rfl, rfl, rfl⟩

theorem Enc.Kept.trans {a b c : Enc} (h1 : a.Kept b) (h2 : b.Kept c) : a.Kept c :=
  ⟨h2.syms.trans h1.syms, h2.bw.trans h1.bw, h2.status.trans h1.status, h2.lastFlush.trans h1.lastFlush⟩

/-- What filling the window does: input bytes move into the lookahead, and the block stays where it is. -/
structure EncRun.Filled (inv due : Prop) (r0 r r' : EncRun) : Prop where
  good : EncRun.Good inv due r0 r'
  total : r'.e.lookahead + r'.io.availIn = r.e.lookahead + r.io.availIn
  span : r'.e.span = r.e.span
  kept : r.e.Kept r'.e

theorem EncRun.Filled.trans {inv due : Prop} {r0 a b c : EncRun} (h1 : EncRun.Filled inv due r0 a b) (h2 : EncRun.Filled inv due r0 b c) :
    EncRun.Filled inv due r0 a c :=
  ⟨h2.good, h2.total.trans h1.total, h2.span.trans h1.span, h1.kept.trans h2.kept⟩

theorem Enc.slideIfDue_kept (e : Enc) : (e.slideIfDue.level = e.level ∧ e.slideIfDue.strategy = e.strategy ∧
    e.slideIfDue.wbits = e.wbits) ∧ e.Kept e.slideIfDue := by
  unfold Enc.slideIfDue; split <;> exact ⟨⟨rfl, rfl, rfl⟩, ⟨rfl, rfl, rfl, rfl⟩⟩

theorem EncRun.Good.slideIfDue {inv due : Prop} {r0 r : EncRun} (h : EncRun.Good inv due r0 r) :
    EncRun.Filled inv due r0 r (r.withEnc r.e.slideIfDue) := by
  have hf := r.e.slideIfDue_fields
  have hl := r.e.slideIfDue_kept
  have hs := fun hi => Enc.Sound.slideIfDue (h.sound hi)
  have hp := fun hi => (h.placed hi).slideIfDue (h.sound hi)
  generalize r.e.slideIfDue = e' at *
  refine ⟨⟨h.moves, h.params, ⟨hl.1.1.trans h.latched.1, hl.1.2.1.trans h.latched.2.1, hl.1.2.2.trans h.latched.2.2⟩, hs, hp⟩,
    ?_, hf.2, hl.2⟩
  show e'.lookahead + r.io.availIn = _
  rw [hf.1]

theorem EncRun.readBytes_filled {inv due : Prop} {r0 : EncRun} : ∀ (n : Nat) {r : EncRun}, EncRun.Good inv due r0 r → n ≤ r.io.availIn →
    (inv → r.e.strstart + r.e.lookahead + n ≤ 2 * r.e.ew) →
    EncRun.Filled inv due r0 r (EncRun.readBytes n r) ∧ (EncRun.readBytes n r).io.availIn = r.io.availIn - n
  | 0, r, h, _, _ => ⟨⟨h, rfl, rfl, Enc.Kept.refl _⟩, rfl⟩
  | n + 1, r, h, hn, hfit => by
    have hav : (r.io.consume 1).availIn = r.io.availIn - 1 := Io.consume_availIn _ _
    have h1 : EncRun.Good inv due r0 { r with
        e := { r.e.winPut (r.e.strstart + r.e.lookahead) (r.io.inRead r.io.consumed) with lookahead := r.e.lookahead + 1 },
        io := r.io.consume 1 } :=
      ⟨h.moves.trans (Io.Moves.consume (by omega)), h.params, h.latched, fun hi => { (h.sound hi).winPut _ _ with },
        fun hi => {
          block := (h.placed hi).block
          fits := by have := hfit hi; show r.e.strstart + (r.e.lookahead + 1) ≤ 2 * r.e.ew; omega
          stored := fun hd hl => by
            refine lt_of_lt_of_eq ((h.placed hi).stored hd hl) ?_
            rw [Enc.maxDist_eq (e := r.e)]
            rfl
            rfl
          found := fun hd hm => by
            have := (h.placed hi).found hd hm
            exact ⟨this.1, by show r.e.matchLength ≤ r.e.lookahead + 1 + 1; omega⟩
          bounded := ((h.placed hi).bounded.mono (Nat.le_succ _) (by have := hfit hi; omega)).same rfl }⟩
    have ih := EncRun.readBytes_filled n h1 (by show n ≤ (r.io.consume 1).availIn; omega)
      (fun hi => by have := hfit hi; show r.e.strstart + (r.e.lookahead + 1) + n ≤ 2 * r.e.ew; omega)
    rw [EncRun.readBytes]
    refine ⟨⟨ih.1.good, ih.1.total.trans ?_, ih.1.span, ⟨ih.1.kept.syms, ih.1.kept.bw, ih.1.kept.status, ih.1.kept.lastFlush⟩⟩,
      ih.2.trans ?_⟩
    · show r.e.lookahead + 1 + (r.io.consume 1).availIn = _
      omega
    · show (r.io.consume 1).availIn - n = _
      omega

/-- After the slide a short lookahead leaves room (R231). -/
theorem Enc.room_slideIfDue {e : Enc} (hfit : e.strstart + e.lookahead ≤ 2 * e.ew) (hl : e.lookahead < 262) :
    0 < e.slideIfDue.room := by
  have hmd := e.maxDist_add
  unfold Enc.slideIfDue
  split
  · show 0 < 2 * e.ew - e.lookahead - (e.strstart - e.ew)
    omega
  · show 0 < 2 * e.ew - e.lookahead - e.strstart
    omega

theorem EncRun.Good.catchUp {inv due : Prop} {r0 r : EncRun} (h : EncRun.Good inv due r0 r) :
    EncRun.Filled inv due r0 r (r.withEnc (r.e.catchUp r.params)) := by
  have hc := r.e.catchUp_eq r.params
  have hs : inv → (r.e.catchUp r.params).Sound r0.params := fun hi => by rw [h.params]; exact (h.sound hi).catchUp
  have hk : inv → (r.e.catchUp r.params).Bounded r0.params (r.e.strstart + r.e.lookahead) := fun hi => by
    rw [h.params]; exact (h.placed hi).bounded.catchUp (h.sound hi).insert
  generalize r.e.catchUp r.params = e' at *
  rw [hc]
  rw [hc] at hs hk
  exact ⟨⟨h.moves, h.params, h.latched, hs, fun hi => (h.placed hi).same rfl rfl rfl rfl rfl rfl (hk hi)⟩, rfl, rfl, ⟨rfl, rfl, rfl, rfl⟩⟩

theorem EncRun.Good.fillTurn {inv due : Prop} {r0 r : EncRun} (h : EncRun.Good inv due r0 r) :
    EncRun.Filled inv due r0 r r.fillTurn ∧ r.fillTurn.io.availIn ≤ r.io.availIn ∧
      (inv → r.e.lookahead < 262 → r.fillTurn.io.availIn < r.io.availIn ∨ r.io.availIn = 0) := by
  have h1 := h.slideIfDue
  have hpos : inv → r.e.lookahead < 262 → 0 < r.e.slideIfDue.room := fun hi hl => Enc.room_slideIfDue (h.placed hi).fits hl
  have heq : r.fillTurn = (EncRun.readBytes (min r.io.availIn r.e.slideIfDue.room) (r.withEnc r.e.slideIfDue)).withEnc
    ((EncRun.readBytes (min r.io.availIn r.e.slideIfDue.room) (r.withEnc r.e.slideIfDue)).e.catchUp
      (EncRun.readBytes (min r.io.availIn r.e.slideIfDue.room) (r.withEnc r.e.slideIfDue)).params) := by
    unfold EncRun.fillTurn EncRun.withEnc; dsimp only
  rw [heq]
  clear heq
  have hroom : r.e.slideIfDue.room = 2 * r.e.slideIfDue.ew - r.e.slideIfDue.lookahead - r.e.slideIfDue.strstart := rfl
  generalize r.e.slideIfDue = e1 at *
  have h2 := EncRun.readBytes_filled (min r.io.availIn e1.room) h1.good (Nat.min_le_left _ _)
    (fun hi => by
      have hp : e1.strstart + e1.lookahead ≤ 2 * e1.ew := (h1.good.placed hi).fits
      show e1.strstart + e1.lookahead + min r.io.availIn e1.room ≤ 2 * e1.ew
      omega)
  have hav : (r.withEnc e1).io.availIn = r.io.availIn := rfl
  generalize EncRun.readBytes (min r.io.availIn e1.room) (r.withEnc e1) = r' at *
  have h3 := h2.1.good.catchUp
  refine ⟨(h1.trans h2.1).trans h3, ?_, fun hi hl => ?_⟩
  · show r'.io.availIn ≤ r.io.availIn
    rw [h2.2, hav]; exact Nat.sub_le _ _
  · show r'.io.availIn < r.io.availIn ∨ r.io.availIn = 0
    rw [h2.2, hav]
    have := hpos hi hl
    omega

theorem EncRun.fillLoop_filled {inv due : Prop} {r0 : EncRun} : ∀ (fuel : Nat) {r : EncRun}, EncRun.Good inv due r0 r →
    EncRun.Filled inv due r0 r (EncRun.fillLoop fuel r) ∧
      (inv → r.io.availIn < fuel → 262 ≤ (EncRun.fillLoop fuel r).e.lookahead ∨ (EncRun.fillLoop fuel r).io.availIn = 0)
  | 0, r, h => ⟨⟨h, rfl, rfl, Enc.Kept.refl _⟩, fun _ hf => absurd hf (Nat.not_lt_zero _)⟩
  | fuel + 1, r, h => by
    rw [EncRun.fillLoop]
    split
    · next h0 => exact ⟨h.slideIfDue, fun _ _ => .inr h0⟩
    · next h0 =>
      obtain ⟨ht, hle, hdec⟩ := h.fillTurn
      split
      · next hw =>
        have ih := EncRun.fillLoop_filled fuel ht.good
        have hw' : r.fillTurn.e.lookahead < 262 ∧ 0 < r.fillTurn.io.availIn := by
          unfold EncRun.wantsInput at hw
          rw [Bool.and_eq_true, decide_eq_true_eq, decide_eq_true_eq] at hw
          exact hw
        refine ⟨ht.trans ih.1, fun hi hf => ih.2 hi ?_⟩
        have htot := ht.total
        by_cases hl : r.e.lookahead < 262
        · rcases hdec hi hl with hd | hd <;> omega
        · omega
      · next hw =>
        refine ⟨ht, fun _ _ => ?_⟩
        unfold EncRun.wantsInput at hw
        rw [Bool.and_eq_true, decide_eq_true_eq, decide_eq_true_eq, not_and, Nat.not_lt] at hw
        by_cases hl : r.fillTurn.e.lookahead < 262
        · exact .inr (Nat.le_zero.mp (hw hl))
        · omega

/-- `fill_window` (R231). -/
theorem EncRun.Good.fillWindow {inv due : Prop} {r0 r : EncRun} (h : EncRun.Good inv due r0 r) :
    EncRun.Filled inv due r0 r r.fillWindow ∧ (inv → 262 ≤ r.fillWindow.e.lookahead ∨ r.fillWindow.io.availIn = 0) := by
  obtain ⟨h1, h2⟩ := EncRun.fillLoop_filled (r.io.availIn + 1) h
  exact ⟨h1, fun hi => h2 hi (Nat.lt_succ_self _)⟩

end Sys2Proof.Machine
end

