-- ==== Sys2Proof/Laws/EncoderStep.lean ====
section
/-! SUPPORT. Sys2Proof/Laws/EncoderStep.lean: the block functions end (R237 to R244) and keep an encoder in order, and with them
every ENC_STEP (R388). -/

namespace Sys2Proof.Machine

open Sys2Proof

/-! ## Between two turns -/

/-- A run between two turns of a block function: the symbol buffer is not full, and nothing is pending (R388). -/
structure EncRun.Ready (inv : Prop) (r0 r : EncRun) : Prop where
  good : EncRun.Good inv True r0 r
  roomy : inv → r.e.syms.length < Config.litBufSize - 1
  pending : r.e.bw.pending = []

/-- A bound on the turns that are left: every turn takes some of it away. Only `deflate_stored` may start with a block that is longer
than its own bound. -/
def EncRun.blockLeft (fn : BlockFn) (r : EncRun) : Nat :=
  r.e.lookahead + r.io.availIn + (if fn = .stored then (r.e.span - 65534).toNat else 0)

/-- A turn is sound: it goes on with less left; or it leaves the loop with all input taken; or it returns because the output is full,
or because flush NO has used the input up. -/
def Turn.Sound (inv : Prop) (r0 : EncRun) (f : Flush) (fn : BlockFn) (bound : Nat) : Turn → Prop
  | .again r => EncRun.Ready inv r0 r ∧ r.blockLeft fn < bound
  | .tail r => EncRun.Ready inv r0 r ∧ f ≠ .no ∧ (inv → r.io.availIn = 0)
  | .ret b r => b = .needMore ∧ EncRun.Good inv True r0 r ∧ (inv → r.e.syms.length < Config.litBufSize - 1) ∧
      (r.io.availOut = 0 ∨ (f = .no ∧ r.e.bw.pending = [] ∧ (inv → r.io.availIn = 0)))

theorem Turn.Sound.mono {inv : Prop} {r0 : EncRun} {f : Flush} {fn : BlockFn} {b b' : Nat} (h : b ≤ b') : ∀ {t : Turn},
    t.Sound inv r0 f fn b → t.Sound inv r0 f fn b'
  | .again _, ht => ⟨ht.1, lt_of_lt_of_le ht.2 h⟩
  | .tail _, ht => ht
  | .ret _ _, ht => ht

/-- The opening of a turn (R240 to R244). -/
theorem EncRun.Ready.refillThen {inv : Prop} {r0 r : EncRun} (h : EncRun.Ready inv r0 r) {f : Flush} {fn : BlockFn}
    {low want bound : Nat} (hlow : 1 ≤ low ∧ low ≤ 262) (hwant : want ≤ low) (hw1 : 1 ≤ want) {rest : EncRun → Turn}
    (hrest : ∀ r', EncRun.Ready inv r0 r' → 1 ≤ r'.e.lookahead → r'.blockLeft fn = r.blockLeft fn →
      Turn.Sound inv r0 f fn bound (rest r')) :
    Turn.Sound inv r0 f fn bound (r.refillThen f low want rest) := by
  obtain ⟨hf, hfull⟩ := h.good.fillWindow
  -- the run after the refill
  have key : ∀ r', EncRun.Ready inv r0 r' → r'.blockLeft fn = r.blockLeft fn →
      (inv → low ≤ r'.e.lookahead ∨ r'.io.availIn = 0) →
      Turn.Sound inv r0 f fn bound
        (if r'.e.lookahead < want ∧ f = .no then .ret .needMore r' else if r'.e.lookahead = 0 then .tail r' else rest r') := by
    intro r' hr hleft hin
    split
    · next hc =>
      exact ⟨rfl, hr.good, hr.roomy, .inr ⟨hc.2, hr.pending, fun hi => (hin hi).resolve_left (by omega)⟩⟩
    · next hc =>
      split
      · next h0 =>
        exact ⟨hr, fun hno => hc ⟨by omega, hno⟩, fun hi => (hin hi).resolve_left (by omega)⟩
      · next h0 => exact hrest r' hr (by omega) hleft
  unfold EncRun.refillThen
  dsimp only
  split
  · next hl =>
    refine key _ ⟨hf.good, fun hi => by rw [hf.kept.syms]; exact h.roomy hi, by rw [hf.kept.bw]; exact h.pending⟩ ?_
      (fun hi => (hfull hi).imp_left (by omega))
    have ht := hf.total
    have hsp := hf.span
    unfold EncRun.blockLeft
    rw [ht, hsp]
  · next hl => exact key r h rfl (fun _ => .inl (by omega))

/-! ## Flushing a block -/

theorem EncRun.flushBlockOnly_fields (r : EncRun) (last : Bool) :
    (r.flushBlockOnly last).e.lookahead = r.e.lookahead ∧ (r.flushBlockOnly last).e.strstart = r.e.strstart ∧
      (r.flushBlockOnly last).e.blockStart = r.e.strstart ∧ (r.flushBlockOnly last).e.syms = [] ∧
      (r.flushBlockOnly last).e.matchLength = r.e.matchLength ∧ (r.flushBlockOnly last).io.availIn = r.io.availIn := by
  have h := r.e.flushBlock_fields last
  have hm : (r.e.flushBlock last).matchLength = r.e.matchLength := by
    unfold Enc.flushBlock
    split
    · rfl
    · obtain ⟨l, d, b, f, o, st, m, _, he⟩ := r.e.buildTrees_eq
      rw [he]; rfl
  exact ⟨h.1, h.2.1, rfl, h.2.2.2.1, hm, by unfold EncRun.flushBlockOnly; rw [EncRun.flushPending_availIn]; rfl⟩

theorem EncRun.flushBlockOnly_pending {r : EncRun} {last : Bool} (h : (r.flushBlockOnly last).io.availOut ≠ 0) :
    (r.flushBlockOnly last).e.bw.pending = [] := EncRun.flushPending_pending h

theorem Enc.flushBlock_links (e : Enc) (last : Bool) : (e.flushBlock last).links = e.links := by
  unfold Enc.flushBlock
  split
  · rfl
  · obtain ⟨l, d, b, f, o, st, m, _, he⟩ := e.buildTrees_eq
    rw [he]; rfl

/-- Flushing a block (R237) from a run whose positions fit. -/
theorem EncRun.flushBlockOnly_good {inv : Prop} {r0 r : EncRun} (hm : r0.io.Moves r.io) (hp : r.params = r0.params)
    (hl : r.e.level = r0.e.level ∧ r.e.strategy = r0.e.strategy ∧ r.e.wbits = r0.e.wbits)
    (hs : inv → r.e.Sound r0.params) (hfit : inv → r.e.strstart + r.e.lookahead ≤ 2 * r.e.ew)
    (hfound : inv → Config.minMatch ≤ r.e.matchLength → r.e.level ≠ 0 ∧ r.e.matchLength ≤ r.e.lookahead + 1)
    (hlink : inv → r.e.Bounded r0.params (r.e.strstart + r.e.lookahead)) (last : Bool) :
    EncRun.Good inv True r0 (r.flushBlockOnly last) := by
  have hf := r.flushBlockOnly_fields last
  have hb := r.e.flushBlock_fields last
  have hwb : (r.flushBlockOnly last).e.wbits = r.e.wbits := hb.2.2.2.2.2.2.1
  have hlv : (r.flushBlockOnly last).e.level = r.e.level := hb.2.2.2.2.1
  have hst : (r.flushBlockOnly last).e.strategy = r.e.strategy := hb.2.2.2.2.2.1
  refine ⟨?_, hp, ⟨hlv.trans hl.1, hst.trans hl.2.1, hwb.trans hl.2.2⟩, fun hi => ?_, fun hi => ?_⟩
  · refine hm.trans ?_
    unfold EncRun.flushBlockOnly EncRun.flushPending
    exact Io.Moves.outBytes (by rw [List.length_take]; exact le_trans (Nat.min_le_left _ _) (Nat.min_le_right _ _))
  · exact { (hs hi).flushBlock last with
      bits := EncRun.ok_flushPending (r := r.withEnc { r.e.flushBlock last with blockStart := r.e.strstart })
        ((hs hi).flushBlock last).bits }
  · refine ⟨by rw [hf.2.1, hf.2.2.1], by rw [hf.2.1, hf.1, Enc.ew_eq hwb]; exact hfit hi, fun _ _ => ?_, ?_, ?_⟩
    · rw [Enc.span, hf.2.1, hf.2.2.1]
      have := (r.flushBlockOnly last).e.maxDist_add
      have := (r.flushBlockOnly last).e.ew_ge
      omega
    · rw [hf.2.2.2.2.1, hf.1, hlv]; exact fun _ => hfound hi
    · rw [hf.2.1, hf.1]
      exact (hlink hi).same (r.e.flushBlock_links last)

theorem EncRun.Good.flushBlockOnly {inv : Prop} {r0 r : EncRun} (h : EncRun.Good inv True r0 r) (last : Bool) :
    EncRun.Good inv True r0 (r.flushBlockOnly last) :=
  EncRun.flushBlockOnly_good h.moves h.params h.latched h.sound (fun hi => (h.placed hi).fits) (fun hi => (h.placed hi).found trivial)
    (fun hi => (h.placed hi).bounded) last

theorem EncRun.roomy_flushBlockOnly (r : EncRun) (last : Bool) :
    (r.flushBlockOnly last).e.syms.length < Config.litBufSize - 1 := by
  rw [(r.flushBlockOnly_fields last).2.2.2.1]; decide

theorem EncRun.blockLeft_flushBlockOnly (r : EncRun) (last : Bool) (fn : BlockFn) :
    (r.flushBlockOnly last).blockLeft fn = r.e.lookahead + r.io.availIn := by
  have hf := r.flushBlockOnly_fields last
  unfold EncRun.blockLeft
  rw [hf.1, hf.2.2.2.2.2, Enc.span, hf.2.1, hf.2.2.1]
  split <;> omega

/-- FLUSH_BLOCK in a loop (R237). -/
theorem EncRun.flushThen_sound {inv : Prop} {r0 r : EncRun} {f : Flush} {fn : BlockFn} {bound : Nat}
    (hg : EncRun.Good inv True r0 (r.flushBlockOnly false)) {rest : EncRun → Turn}
    (hrest : EncRun.Ready inv r0 (r.flushBlockOnly false) → Turn.Sound inv r0 f fn bound (rest (r.flushBlockOnly false))) :
    Turn.Sound inv r0 f fn bound (r.flushThen rest) := by
  unfold EncRun.flushThen
  split
  · next ho => exact ⟨rfl, hg, fun _ => r.roomy_flushBlockOnly false, .inl ho⟩
  · next ho => exact hrest ⟨hg, fun _ => r.roomy_flushBlockOnly false, EncRun.flushBlockOnly_pending ho⟩

/-! ## deflate_stored -/

theorem storedTurn_sound {inv : Prop} {r0 r : EncRun} (h : EncRun.Ready inv r0 r) (hlv : r0.e.level = 0) (f : Flush) :
    Turn.Sound inv r0 f .stored (r.blockLeft .stored) (storedTurn f r) := by
  unfold storedTurn
  refine h.refillThen (by decide) (by decide) (by decide) (fun r' hr h1 hleft => ?_)
  rw [← hleft]
  clear hleft
  have hlv' : r'.e.level = 0 := hr.good.latched.1.trans hlv
  have hnot : inv → ¬ Config.minMatch ≤ r'.e.matchLength := fun hi hm => ((hr.good.placed hi).found trivial hm).1 hlv'
  have hmd := r'.e.maxDist_add
  have hew := r'.e.ew_ge
  have hbl : r'.blockLeft .stored = r'.e.lookahead + r'.io.availIn + (r'.e.span - 65534).toNat := rfl
  have hcap : (Config.maxStored : Int) = 65535 := rfl
  rw [hcap, hbl]
  have hspan : r'.e.span = (r'.e.strstart : Int) - r'.e.blockStart := rfl
  -- the end of a turn: the block is flushed once it is long enough
  have second : ∀ r1 : EncRun, r0.io.Moves r1.io → r1.params = r0.params →
      (r1.e.level = r0.e.level ∧ r1.e.strategy = r0.e.strategy ∧ r1.e.wbits = r0.e.wbits) →
      (inv → r1.e.Sound r0.params) → (inv → r1.e.strstart + r1.e.lookahead ≤ 2 * r1.e.ew) →
      (inv → ¬ Config.minMatch ≤ r1.e.matchLength) → (inv → r1.e.blockStart ≤ (r1.e.strstart : Int)) →
      (inv → r1.e.syms.length < Config.litBufSize - 1) → r1.e.bw.pending = [] →
      (inv → r1.e.Bounded r0.params (r1.e.strstart + r1.e.lookahead)) →
      r1.e.lookahead + r1.io.availIn < r'.e.lookahead + r'.io.availIn + (r'.e.span - 65534).toNat → r1.e.span < 65535 →
      Turn.Sound inv r0 f .stored (r'.e.lookahead + r'.io.availIn + (r'.e.span - 65534).toNat)
        (if (r1.e.maxDist : Int) ≤ (r1.e.strstart : Int) - r1.e.blockStart then r1.flushThen .again else .again r1) := by
    intro r1 m1 m2 m3 m4 m5 m6 m7 m8 m9 mk m10 m11
    split
    · refine EncRun.flushThen_sound
        (EncRun.flushBlockOnly_good m1 m2 m3 m4 m5 (fun hi hm => absurd hm (m6 hi)) mk false) (fun hr' => ⟨hr', ?_⟩)
      rw [EncRun.blockLeft_flushBlockOnly]; exact m10
    · next hlt =>
      refine ⟨⟨⟨m1, m2, m3, m4, fun hi => ⟨m7 hi, m5 hi, fun _ _ => by rw [Enc.span]; omega, fun _ hm => absurd hm (m6 hi), mk hi⟩⟩, m8, m9⟩,
        ?_⟩
      have : r1.blockLeft .stored = r1.e.lookahead + r1.io.availIn + (r1.e.span - 65534).toNat := rfl
      rw [this]
      omega
  dsimp only
  split
  · next hge =>
    -- the block has reached its bound
    have hpos : inv → 0 ≤ r'.e.blockStart + 65535 := fun hi => by
      have hs := (hr.good.placed hi).stored trivial hlv'
      have hwb := ((hr.good.sound hi).wbits).2
      have hew2 : r'.e.ew ≤ 32768 := by
        have : r'.e.ewbits ≤ 15 := Nat.max_le.2 ⟨hwb, by decide⟩
        exact Nat.pow_le_pow_right (by decide) this
      rw [hspan] at hs
      omega
    have hg : EncRun.Good inv True r0 ((r'.withEnc { r'.e with
        lookahead := (((r'.e.strstart + r'.e.lookahead : Nat) : Int) - (r'.e.blockStart + 65535)).toNat,
        strstart := (r'.e.blockStart + 65535).toNat }).flushBlockOnly false) := by
      refine EncRun.flushBlockOnly_good (r := r'.withEnc { r'.e with
        lookahead := (((r'.e.strstart + r'.e.lookahead : Nat) : Int) - (r'.e.blockStart + 65535)).toNat,
        strstart := (r'.e.blockStart + 65535).toNat }) hr.good.moves hr.good.params hr.good.latched (fun hi => { hr.good.sound hi with })
        (fun hi => ?_) (fun hi hm => absurd hm (hnot hi))
        (fun hi => ((hr.good.placed hi).bounded.mono (by
          have h3 := hpos hi
          show _ ≤ (r'.e.blockStart + 65535).toNat +
            (((r'.e.strstart + r'.e.lookahead : Nat) : Int) - (r'.e.blockStart + 65535)).toNat
          omega) (by
          have h2 := (hr.good.placed hi).fits
          have h3 := hpos hi
          show (r'.e.blockStart + 65535).toNat +
            (((r'.e.strstart + r'.e.lookahead : Nat) : Int) - (r'.e.blockStart + 65535)).toNat ≤ 2 * r'.e.ew
          omega)).same rfl) false
      have h2 : r'.e.strstart + r'.e.lookahead ≤ 2 * r'.e.ew := (hr.good.placed hi).fits
      have h3 := hpos hi
      show (r'.e.blockStart + 65535).toNat + (((r'.e.strstart + r'.e.lookahead : Nat) : Int) - (r'.e.blockStart + 65535)).toNat ≤
        2 * r'.e.ew
      omega
    refine EncRun.flushThen_sound hg (fun hr2 => ?_)
    have hf := EncRun.flushBlockOnly_fields (r'.withEnc { r'.e with
        lookahead := (((r'.e.strstart + r'.e.lookahead : Nat) : Int) - (r'.e.blockStart + 65535)).toNat,
        strstart := (r'.e.blockStart + 65535).toNat }) false
    refine second _ hr2.good.moves hr2.good.params hr2.good.latched hr2.good.sound (fun hi => (hr2.good.placed hi).fits)
      (fun hi hm => ((hr2.good.placed hi).found trivial hm).1 (hr2.good.latched.1.trans hlv)) (fun hi => (hr2.good.placed hi).block)
      hr2.roomy hr2.pending (fun hi => (hr2.good.placed hi).bounded) ?_ ?_
    · rw [hf.1, hf.2.2.2.2.2]
      show (((r'.e.strstart + r'.e.lookahead : Nat) : Int) - (r'.e.blockStart + 65535)).toNat + r'.io.availIn <
        r'.e.lookahead + r'.io.availIn + (r'.e.span - 65534).toNat
      rw [hspan]
      omega
    · rw [Enc.span, hf.2.1, hf.2.2.1]; omega
  · next hlt =>
    refine second (r'.withEnc { r'.e with lookahead := 0, strstart := r'.e.strstart + r'.e.lookahead }) hr.good.moves hr.good.params
      hr.good.latched (fun hi => { hr.good.sound hi with })
      (fun hi => (hr.good.placed hi).fits) hnot (fun hi => ?_) hr.roomy hr.pending
      (fun hi => (hr.good.placed hi).bounded.same rfl) ?_ ?_
    · have := (hr.good.placed hi).block
      show r'.e.blockStart ≤ ((r'.e.strstart + r'.e.lookahead : Nat) : Int)
      omega
    · show 0 + r'.io.availIn < _
      omega
    · show ((r'.e.strstart + r'.e.lookahead : Nat) : Int) - r'.e.blockStart < 65535
      omega

/-! ## Searching and taking -/

theorem Enc.blockFn_eq {e e' : Enc} (h : e'.level = e.level ∧ e'.strategy = e.strategy ∧ e'.wbits = e.wbits) :
    e'.blockFn = e.blockFn := by
  unfold Enc.blockFn; rw [h.1, h.2.1]

/-- An encoder after a search: only the chains and the match registers differ (R226, R234). -/
structure Enc.Searched (ps : Config.Params) (e e' : Enc) : Prop where
  latched : e'.level = e.level ∧ e'.strategy = e.strategy ∧ e'.wbits = e.wbits
  sound : e.Sound ps → e'.Sound ps
  lookahead : e'.lookahead = e.lookahead
  strstart : e'.strstart = e.strstart
  blockStart : e'.blockStart = e.blockStart
  syms : e'.syms = e.syms
  bw : e'.bw = e.bw
  bounded : e.Bounded ps (e.strstart + e.lookahead) → e'.Bounded ps (e.strstart + e.lookahead)

/-- An encoder at the end of a turn that took bytes of the lookahead. -/
structure EncRun.Took (inv : Prop) (ps : Config.Params) (e e' : Enc) : Prop where
  latched : e'.level = e.level ∧ e'.strategy = e.strategy ∧ e'.wbits = e.wbits
  sound : e.Sound ps → e'.Sound ps
  less : e'.lookahead < e.lookahead
  start : e.strstart ≤ e'.strstart
  fits : inv → e'.strstart + e'.lookahead ≤ e.strstart + e.lookahead
  block : e'.blockStart = e.blockStart
  found : inv → Config.minMatch ≤ e'.matchLength → e'.matchLength ≤ e'.lookahead + 1
  bw : e'.bw = e.bw
  syms : e'.syms.length ≤ e.syms.length + 1
  total : e.strstart + e.lookahead ≤ e'.strstart + e'.lookahead
  bounded : inv → e.Bounded ps (e.strstart + e.lookahead) → e'.Bounded ps (e.strstart + e.lookahead)

theorem EncRun.Took.good {inv : Prop} {r0 r : EncRun} (h : EncRun.Good inv True r0 r) (hlv : r0.e.level ≠ 0) {e' : Enc}
    (ht : EncRun.Took inv r0.params r.e e') : EncRun.Good inv True r0 (r.withEnc e') := by
  refine h.withEnc ht.latched ht.sound (fun hi => ?_)
  have hp := h.placed hi
  have hl : e'.level ≠ 0 := by rw [ht.latched.1, h.latched.1]; exact hlv
  refine ⟨?_, ?_, fun _ h0 => absurd h0 hl, fun _ hm => ⟨hl, ht.found hi hm⟩,
    (ht.bounded hi hp.bounded).mono ht.total (by
      rw [Enc.ew_eq ht.latched.2.2]; exact le_trans (ht.fits hi) hp.fits)⟩
  · have h1 := hp.block
    have h2 := ht.start
    have h3 := ht.block
    omega
  · rw [Enc.ew_eq ht.latched.2.2]
    exact le_trans (ht.fits hi) hp.fits

theorem EncRun.blockLeft_of_ne {fn : BlockFn} (hfn : fn ≠ .stored) (r : EncRun) :
    r.blockLeft fn = r.e.lookahead + r.io.availIn := by
  unfold EncRun.blockLeft
  rw [if_neg hfn]; rfl

theorem EncRun.Ready.take {inv : Prop} {r0 r : EncRun} (h : EncRun.Ready inv r0 r) (hlv : r0.e.level ≠ 0) {fn : BlockFn}
    (hfn : fn ≠ .stored) (f : Flush) {e' : Enc} (ht : EncRun.Took inv r0.params r.e e') :
    Turn.Sound inv r0 f fn (r.blockLeft fn) (r.withEnc e').flushIfFull := by
  have hg := ht.good h.good hlv
  have hless : e'.lookahead + r.io.availIn < r.e.lookahead + r.io.availIn := by have := ht.less; omega
  unfold EncRun.flushIfFull
  rw [EncRun.blockLeft_of_ne hfn]
  split
  · refine EncRun.flushThen_sound (hg.flushBlockOnly false) (fun hr => ⟨hr, ?_⟩)
    rw [EncRun.blockLeft_flushBlockOnly]; exact hless
  · next hfull =>
    refine ⟨⟨hg, fun hi => ?_, ht.bw ▸ h.pending⟩, by rw [EncRun.blockLeft_of_ne hfn]; exact hless⟩
    have h1 := h.roomy hi
    have h2 := ht.syms
    have h3 : ¬ e'.syms.length = Config.litBufSize - 1 := fun he => hfull (decide_eq_true he)
    show e'.syms.length < Config.litBufSize - 1
    omega

theorem EncRun.Ready.takeQuietly {inv : Prop} {r0 r : EncRun} (h : EncRun.Ready inv r0 r) (hlv : r0.e.level ≠ 0) {fn : BlockFn}
    (hfn : fn ≠ .stored) (f : Flush) {e' : Enc} (ht : EncRun.Took inv r0.params r.e e') (hs : e'.syms = r.e.syms) :
    Turn.Sound inv r0 f fn (r.blockLeft fn) (.again (r.withEnc e')) := by
  have hless : e'.lookahead + r.io.availIn < r.e.lookahead + r.io.availIn := by have := ht.less; omega
  refine ⟨⟨ht.good h.good hlv, fun hi => ?_, ht.bw ▸ h.pending⟩, ?_⟩
  · show e'.syms.length < _
    rw [hs]; exact h.roomy hi
  · rw [EncRun.blockLeft_of_ne hfn, EncRun.blockLeft_of_ne hfn]; exact hless

theorem EncRun.hashHead_searched (r : EncRun) : Enc.Searched r.params r.e r.hashHead.2 := by
  unfold EncRun.hashHead
  split
  · next hm =>
    have hmin : Config.minMatch = 3 := rfl
    exact ⟨⟨rfl, rfl, rfl⟩, fun h => h.insertString _, rfl, rfl, rfl, rfl, rfl, fun h => h.insertString (by omega)⟩
  · exact ⟨⟨rfl, rfl, rfl⟩, id, rfl, rfl, rfl, rfl, rfl, id⟩

theorem Enc.Searched.registers {ps : Config.Params} {e e' : Enc} (h : e.Searched ps e') (ms pm ml pl : Nat)
    (hb : e.Bounded ps (e.strstart + e.lookahead) → e'.Bounded ps (e.strstart + e.lookahead) → (ms < 2 * e'.ew ∧ pm < 2 * e'.ew) ∧ ml ≤ 2 * e'.ew ∧ pl ≤ 2 * e'.ew) :
    e.Searched ps { e' with matchStart := ms, prevMatch := pm, matchLength := ml, prevLength := pl } :=
  ⟨h.latched, fun hs => { h.sound hs with }, h.lookahead, h.strstart, h.blockStart, h.syms, h.bw,
    fun hk => (h.bounded hk).registers (hb hk (h.bounded hk)).1 (hb hk (h.bounded hk)).2⟩

/-- A literal is taken (R241, R243, R244). -/
theorem Enc.Searched.takeLit {inv : Prop} {ps : Config.Params} {e e' : Enc} (h : e.Searched ps e') (h1 : 1 ≤ e.lookahead)
    (hml : e'.matchLength < Config.minMatch) : EncRun.Took inv ps e e'.takeLit where
  latched := h.latched
  sound := fun hs => { (h.sound hs).tallyLit (e'.winByte e'.strstart) with }
  less := by show e'.lookahead - 1 < _; rw [h.lookahead]; omega
  start := by show _ ≤ e'.strstart + 1; rw [h.strstart]; omega
  fits := fun _ => by show e'.strstart + 1 + (e'.lookahead - 1) ≤ _; rw [h.strstart, h.lookahead]; omega
  block := h.blockStart
  found := fun _ hm => absurd hm (Nat.not_le.2 hml)
  bw := h.bw
  syms := by show (_ :: e'.syms).length ≤ _; rw [h.syms]; exact Nat.le_refl _
  total := by show _ ≤ e'.strstart + 1 + (e'.lookahead - 1); rw [h.strstart, h.lookahead]; omega
  bounded := fun _ hk => (h.bounded hk).same rfl

/-- A searched encoder's positions are still in order. -/
theorem Enc.Searched.placed {ps : Config.Params} {e e' : Enc} (h : e.Searched ps e') (hp : e.Placed ps True) (hlv : e.level ≠ 0)
    (hm : Config.minMatch ≤ e'.matchLength → e'.matchLength ≤ e.lookahead) : e'.Placed ps True := by
  have hl : e'.level ≠ 0 := by rw [h.latched.1]; exact hlv
  refine ⟨by rw [h.blockStart, h.strstart]; exact hp.block, by
    rw [h.strstart, h.lookahead, Enc.ew_eq h.latched.2.2]; exact hp.fits, fun _ h0 => absurd h0 hl, fun _ h3 => ⟨hl, ?_⟩, by
    rw [h.strstart, h.lookahead]; exact h.bounded hp.bounded⟩
  rw [h.lookahead]; exact le_trans (hm h3) (Nat.le_succ _)

/-! ## deflate_huff and deflate_rle -/

theorem Enc.Searched.refl (ps : Config.Params) (e : Enc) : e.Searched ps e := ⟨⟨rfl, rfl, rfl⟩, id, rfl, rfl, rfl, rfl, rfl, id⟩

theorem huffTurn_sound {inv : Prop} {r0 r : EncRun} (h : EncRun.Ready inv r0 r) (hlv : r0.e.level ≠ 0) (f : Flush) :
    Turn.Sound inv r0 f .huff (r.blockLeft .huff) (huffTurn f r) := by
  unfold huffTurn
  refine h.refillThen (by decide) (by decide) (by decide) (fun r' hr h1 hleft => ?_)
  rw [← hleft]
  exact hr.take hlv (by decide) f
    (Enc.Searched.takeLit ((Enc.Searched.refl r0.params r'.e).registers _ _ 0 _ fun _ hb =>
      ⟨hb.starts, Nat.zero_le _, hb.lengths.2⟩) h1 (by show 0 < 3; decide))

theorem Enc.runFrom_le (e : Enc) (b : Nat) : ∀ n j, e.runFrom b n j ≤ j + n
  | 0, j => Nat.le_refl _
  | n + 1, j => by
    rw [Enc.runFrom]
    split
    · have := Enc.runFrom_le e b n (j + 1); omega
    · omega

theorem Enc.runLength_le (e : Enc) : e.runLength ≤ e.lookahead := by
  unfold Enc.runLength
  dsimp only
  split
  · split
    · have := Enc.runFrom_le e (e.winByte (e.strstart - 1)) (min Config.maxMatch e.lookahead) 0
      omega
    · exact Nat.zero_le _
  · exact Nat.zero_le _

theorem rleTurn_sound {inv : Prop} {r0 r : EncRun} (h : EncRun.Ready inv r0 r) (hlv : r0.e.level ≠ 0) (f : Flush) :
    Turn.Sound inv r0 f .rle (r.blockLeft .rle) (rleTurn f r) := by
  unfold rleTurn
  refine h.refillThen (by decide) (by decide) (by decide) (fun r' hr h1 hleft => ?_)
  rw [← hleft]
  have hle := r'.e.runLength_le
  have hmin : Config.minMatch = 3 := rfl
  dsimp only
  generalize r'.e.runLength = len at *
  split
  · next hm =>
    rw [hmin] at hm
    refine hr.take hlv (by decide) f ⟨⟨rfl, rfl, rfl⟩, fun hs => { hs.tallyDist 1 len with }, ?_, ?_, fun _ => ?_, rfl,
      fun _ hm => ?_, rfl, Nat.le_refl _, ?_,
      fun _ hk => (hk.matchLength (Nat.zero_le _)).same rfl⟩
    · show r'.e.lookahead - len < r'.e.lookahead; omega
    · show r'.e.strstart ≤ r'.e.strstart + len; omega
    · show r'.e.strstart + len + (r'.e.lookahead - len) ≤ _; omega
    · have : Config.minMatch ≤ 0 := hm
      exact absurd this (by decide)
    · show _ ≤ r'.e.strstart + len + (r'.e.lookahead - len); omega
  · next hm =>
    exact hr.take hlv (by decide) f
      (Enc.Searched.takeLit ((Enc.Searched.refl r0.params r'.e).registers _ _ len _ fun _ hb =>
        ⟨hb.starts, by have := r'.e.ew_ge; omega, hb.lengths.2⟩) h1 (Nat.not_le.1 hm))

/-! ## deflate_fast -/

theorem Enc.longestMatch_le (e : Enc) (cur : Nat) : (e.longestMatch cur).1 ≤ e.lookahead := Nat.min_le_right _ _

theorem Enc.insertRun_fields (ps : Config.Params) (n : Nat) (e : Enc) :
    ((Enc.insertRun ps n e).level = e.level ∧ (Enc.insertRun ps n e).strategy = e.strategy ∧
      (Enc.insertRun ps n e).wbits = e.wbits) ∧ (Enc.insertRun ps n e).lookahead = e.lookahead ∧
      (Enc.insertRun ps n e).strstart = e.strstart + n ∧ (Enc.insertRun ps n e).blockStart = e.blockStart ∧
      (Enc.insertRun ps n e).syms = e.syms ∧ (Enc.insertRun ps n e).bw = e.bw := by
  rw [Enc.insertRun_eq]; exact ⟨⟨rfl, rfl, rfl⟩, rfl, rfl, rfl, rfl, rfl⟩

theorem Enc.insertUpTo_fields (ps : Config.Params) (m n : Nat) (e : Enc) :
    ((Enc.insertUpTo ps m n e).level = e.level ∧ (Enc.insertUpTo ps m n e).strategy = e.strategy ∧
      (Enc.insertUpTo ps m n e).wbits = e.wbits) ∧ (Enc.insertUpTo ps m n e).lookahead = e.lookahead ∧
      (Enc.insertUpTo ps m n e).strstart = e.strstart + n ∧ (Enc.insertUpTo ps m n e).blockStart = e.blockStart ∧
      (Enc.insertUpTo ps m n e).syms = e.syms ∧ (Enc.insertUpTo ps m n e).bw = e.bw := by
  rw [Enc.insertUpTo_eq]; exact ⟨⟨rfl, rfl, rfl⟩, rfl, rfl, rfl, rfl, rfl⟩

/-- A match of `len` bytes is tallied and taken: what is needed of the encoder afterwards. -/
structure Enc.Matched (ps : Config.Params) (e : Enc) (len : Nat) (e' : Enc) : Prop where
  latched : e'.level = e.level ∧ e'.strategy = e.strategy ∧ e'.wbits = e.wbits
  sound : e.Sound ps → e'.Sound ps
  lookahead : e'.lookahead = e.lookahead - len
  strstart : e'.strstart = e.strstart + len
  block : e'.blockStart = e.blockStart
  bw : e'.bw = e.bw
  syms : e'.syms.length = e.syms.length + 1
  bounded : e.Bounded ps (e.strstart + e.lookahead) → e'.Bounded ps (e.strstart + e.lookahead)

theorem Enc.Matched.took {inv : Prop} {ps : Config.Params} {e e' : Enc} {len : Nat} (h : e.Matched ps len e') (h1 : 1 ≤ len)
    (hle : inv → len ≤ e.lookahead) (hla : 1 ≤ e.lookahead) (hml : e'.matchLength < Config.minMatch) :
    EncRun.Took inv ps e e' where
  latched := h.latched
  sound := h.sound
  less := by rw [h.lookahead]; omega
  start := by rw [h.strstart]; omega
  fits := fun hi => by have := hle hi; rw [h.strstart, h.lookahead]; omega
  block := h.block
  found := fun _ hm => absurd hm (Nat.not_le.2 hml)
  bw := h.bw
  syms := Nat.le_of_eq h.syms
  total := by rw [h.strstart, h.lookahead]; omega
  bounded := fun _ => h.bounded

/-- A match is stepped over (R241). -/
theorem Enc.stepOver_fields (ps : Config.Params) {len : Nat} (h1 : 1 ≤ len) (e : Enc) :
    ((e.stepOver ps len).level = e.level ∧ (e.stepOver ps len).strategy = e.strategy ∧ (e.stepOver ps len).wbits = e.wbits) ∧
      (e.stepOver ps len).lookahead = e.lookahead ∧ (e.stepOver ps len).strstart = e.strstart + len ∧
      (e.stepOver ps len).blockStart = e.blockStart ∧ (e.stepOver ps len).syms = e.syms ∧ (e.stepOver ps len).bw = e.bw := by
  unfold Enc.stepOver
  split
  · obtain ⟨f1, f2, f3, f4, f5, f6⟩ := Enc.insertRun_fields ps (len - 1) e
    dsimp only
    generalize Enc.insertRun ps (len - 1) e = e2 at *
    exact ⟨f1, f2, by omega, f4, f5, f6⟩
  · exact ⟨⟨rfl, rfl, rfl⟩, rfl, rfl, rfl, rfl, rfl⟩

theorem Enc.Sound.stepOver {ps : Config.Params} {e : Enc} (h : e.Sound ps) (len : Nat) : (e.stepOver ps len).Sound ps := by
  unfold Enc.stepOver
  split
  · exact { Enc.Sound.insertRun (len - 1) h with }
  · exact { h with }

theorem Enc.Bounded.stepOver {ps : Config.Params} {e : Enc} {n len : Nat} (h : e.Bounded ps n) (h1 : 1 ≤ len) (hle : e.strstart + len ≤ n) :
    (e.stepOver ps len).Bounded ps n := by
  unfold Enc.stepOver
  split
  · exact (h.insertRun (len - 1) (by omega)).same rfl
  · exact h.same rfl

/-- An encoder whose lookahead a match has been tallied and taken from, its position still to move. -/
structure Enc.Tallied (ps : Config.Params) (e : Enc) (len : Nat) (e' : Enc) : Prop where
  latched : e'.level = e.level ∧ e'.strategy = e.strategy ∧ e'.wbits = e.wbits
  sound : e.Sound ps → e'.Sound ps
  lookahead : e'.lookahead = e.lookahead - len
  strstart : e'.strstart = e.strstart
  block : e'.blockStart = e.blockStart
  bw : e'.bw = e.bw
  syms : e'.syms.length = e.syms.length + 1
  bounded : e.Bounded ps (e.strstart + e.lookahead) → e'.Bounded ps (e.strstart + e.lookahead)

theorem Enc.Searched.tallied {ps : Config.Params} {e e' : Enc} (h : e.Searched ps e') (dist len n : Nat) :
    e.Tallied ps n { e'.tallyDist dist len with lookahead := (e'.tallyDist dist len).lookahead - n } :=
  ⟨h.latched, fun hs => { (h.sound hs).tallyDist dist len with }, congrArg (· - n) h.lookahead, h.strstart, h.blockStart, h.bw, by
    show (_ :: e'.syms).length = _; rw [h.syms]; rfl, fun hk => (h.bounded hk).same rfl⟩

/-- A match is stepped over (R241). -/
theorem Enc.Tallied.stepOver {ps : Config.Params} {e e' : Enc} {len : Nat} (h : e.Tallied ps len e') (h1 : 1 ≤ len)
    (hle : len ≤ e.lookahead) : e.Matched ps len { e'.stepOver ps len with matchLength := 0 } := by
  obtain ⟨f1, f2, f3, f4, f5, f6⟩ := Enc.stepOver_fields ps h1 e'
  have hs := fun hs => Enc.Sound.stepOver (h.sound hs) len
  have hk := fun hk => (h.bounded hk).stepOver h1 (by rw [h.strstart]; omega)
  generalize e'.stepOver ps len = e2 at *
  exact ⟨⟨f1.1.trans h.latched.1, f1.2.1.trans h.latched.2.1, f1.2.2.trans h.latched.2.2⟩, fun h' => { hs h' with },
    f2.trans h.lookahead, by rw [← h.strstart]; exact f3, f4.trans h.block, f6.trans h.bw, by rw [← h.syms]; exact congrArg _ f5,
    fun h' => ((hk h').matchLength (Nat.zero_le _)).same rfl⟩

/-- The positions of a match are inserted and stepped over (R242). -/
theorem Enc.Tallied.insertUpTo {ps : Config.Params} {e e' : Enc} {len : Nat} (h : e.Tallied ps len e') (h1 : 1 ≤ len) {m : Nat}
    (hm : m < e.strstart + e.lookahead) {ml : Nat}
    (hml : ml < Config.minMatch) :
    e.Matched ps len { Enc.insertUpTo ps m (len - 1) e' with
      matchAvailable := false, matchLength := ml, strstart := (Enc.insertUpTo ps m (len - 1) e').strstart + 1 } := by
  obtain ⟨f1, f2, f3, f4, f5, f6⟩ := Enc.insertUpTo_fields ps m (len - 1) e'
  have hs := fun hs => Enc.Sound.insertUpTo m (len - 1) (h.sound hs)
  have hk := fun hk => (h.bounded hk).insertUpTo hm (len - 1)
  generalize Enc.insertUpTo ps m (len - 1) e' = e2 at *
  refine ⟨⟨f1.1.trans h.latched.1, f1.2.1.trans h.latched.2.1, f1.2.2.trans h.latched.2.2⟩, fun h' => { hs h' with owed := nofun },
    f2.trans h.lookahead, ?_, f4.trans h.block, f6.trans h.bw, by rw [← h.syms]; exact congrArg _ f5,
    fun h' => ((hk h').matchLength (by have := e2.ew_ge; have : Config.minMatch = 3 := rfl; omega)).same rfl⟩
  show e2.strstart + 1 = _
  rw [f3, h.strstart]; omega

theorem EncRun.hashHead_lt {r : EncRun} {n : Nat} (h : r.e.Bounded r.params n) : r.hashHead.1 < 2 * r.e.ew := by
  unfold EncRun.hashHead
  split
  · exact h.headAt _
  · have := r.e.ew_ge
    show 0 < _
    omega

/-- A search finds its match inside the window (R234). -/
theorem Enc.searchChain_lt {ps : Config.Params} {e : Enc} {n : Nat} (h : e.Bounded ps n) (nice limit : Nat) :
    ∀ (chain cur best start : Nat), cur < 2 * e.ew → start < 2 * e.ew →
      (e.searchChain nice limit chain cur best start).2 < 2 * e.ew
  | 0, _, _, _, _, hs => hs
  | chain + 1, cur, best, start, hc, hs => by
    have hs' : (if decide (best < e.matchlen cur) then cur else start) < 2 * e.ew := by split <;> assumption
    rw [Enc.searchChain]
    split
    · exact hs'
    · split
      · exact hs'
      · exact Enc.searchChain_lt h nice limit chain _ _ _ (h.chainOf cur) hs'

theorem Enc.Bounded.longestMatch {ps : Config.Params} {e : Enc} {n cur : Nat} (h : e.Bounded ps n) (hl : e.lookahead ≤ n)
    (hc : cur < 2 * e.ew) : (e.longestMatch cur).2 < 2 * e.ew ∧ (e.longestMatch cur).1 ≤ 2 * e.ew :=
  ⟨Enc.searchChain_lt h _ _ _ _ _ _ hc h.starts.1, le_trans (e.longestMatch_le cur) (le_trans hl h.room)⟩

/-- The match of `deflate_fast` is taken (R241). -/
theorem Enc.Searched.takeMatch {ps : Config.Params} {e e' : Enc} (h : e.Searched ps e') (h1 : 1 ≤ e'.matchLength)
    (hle : e'.matchLength ≤ e.lookahead) : e.Matched ps e'.matchLength (e'.takeMatch ps) :=
  (h.tallied (e'.distanceFrom e'.strstart e'.matchStart) e'.matchLength e'.matchLength).stepOver h1 hle

theorem EncRun.fastSearch_searched (r : EncRun) :
    Enc.Searched r.params r.e r.fastSearch ∧ r.fastSearch.matchLength ≤ r.e.lookahead := by
  have hs := r.hashHead_searched
  have hlt := fun h => EncRun.hashHead_lt (r := r) (n := r.e.strstart + r.e.lookahead) h
  unfold EncRun.fastSearch
  dsimp only
  generalize r.hashHead = hh at *
  refine ⟨hs.registers _ _ _ _ fun hb hb' => ?_, ?_⟩
  · have h0 : Enc.Bounded r.params { hh.2 with matchLength := 0 } (r.e.strstart + r.e.lookahead) := hb'.matchLength (Nat.zero_le _)
    split
    · have hm := h0.longestMatch (cur := hh.1) (by show hh.2.lookahead ≤ _; rw [hs.lookahead]; omega)
        (lt_of_lt_of_eq (hlt hb) (by show _ = 2 * hh.2.ew; rw [Enc.ew_eq hs.latched.2.2]))
      exact ⟨⟨hm.1, hb'.starts.2⟩, hm.2, hb'.lengths.2⟩
    · exact ⟨hb'.starts, Nat.zero_le _, hb'.lengths.2⟩
  · split
    · exact le_trans (Enc.longestMatch_le _ _) (Nat.le_of_eq hs.lookahead)
    · exact Nat.zero_le _

theorem fastTurn_sound {inv : Prop} {r0 r : EncRun} (h : EncRun.Ready inv r0 r) (hlv : r0.e.level ≠ 0) (f : Flush) :
    Turn.Sound inv r0 f .fast (r.blockLeft .fast) (fastTurn f r) := by
  unfold fastTurn
  refine h.refillThen (by decide) (by decide) (by decide) (fun r' hr h1 hleft => ?_)
  rw [← hleft]
  obtain ⟨hs, hm⟩ := r'.fastSearch_searched
  rw [hr.good.params] at *
  dsimp only
  generalize r'.fastSearch = e at *
  have hmin : Config.minMatch = 3 := rfl
  split
  · next h3 =>
    exact hr.take hlv (by decide) f
      ((hs.takeMatch (by omega) hm).took (by omega) (fun _ => hm) h1 (by show 0 < Config.minMatch; decide))
  · next h3 => exact hr.take hlv (by decide) f (hs.takeLit h1 (Nat.not_le.1 h3))

/-! ## deflate_slow -/

theorem EncRun.slowSearch_searched (r : EncRun) : Enc.Searched r.params r.e r.slowSearch ∧
    r.slowSearch.prevLength = r.e.matchLength ∧ r.slowSearch.matchAvailable = r.e.matchAvailable ∧
    (Config.minMatch ≤ r.slowSearch.matchLength → r.slowSearch.matchLength ≤ r.e.lookahead) := by
  have hs := r.hashHead_searched
  have hlt := fun h => EncRun.hashHead_lt (r := r) (n := r.e.strstart + r.e.lookahead) h
  have hml : r.hashHead.2.matchLength = r.e.matchLength ∧ r.hashHead.2.matchAvailable = r.e.matchAvailable := by
    unfold EncRun.hashHead; split <;> exact ⟨rfl, rfl⟩
  unfold EncRun.slowSearch
  dsimp only
  generalize r.hashHead = hh at *
  have hmin : Config.minMatch - 1 ≤ 2 * hh.2.ew := by have := hh.2.ew_ge; have : Config.minMatch = 3 := rfl; omega
  have h1 := hs.registers hh.2.matchStart hh.2.matchStart (Config.minMatch - 1) hh.2.matchLength
    fun _ hb => ⟨⟨hb.starts.1, hb.starts.1⟩, hmin, hb.lengths.1⟩
  split
  · refine ⟨h1.registers _ _ _ _ fun hb hb' => ?_, hml.1, hml.2, fun hm => ?_⟩
    · have hm := hb'.longestMatch (cur := hh.1) (by show hh.2.lookahead ≤ _; rw [hs.lookahead]; omega)
        (lt_of_lt_of_eq (hlt hb) (by show _ = 2 * hh.2.ew; rw [Enc.ew_eq hs.latched.2.2]))
      refine ⟨⟨hm.1, hb'.starts.2⟩, ?_, hb'.lengths.2⟩
      split
      · exact hmin
      · exact hm.2
    · dsimp only at hm ⊢
      split at hm
      · exact absurd hm (by decide)
      · next hc =>
        rw [if_neg hc]
        exact le_trans (Enc.longestMatch_le _ _) (Nat.le_of_eq h1.lookahead)
  · exact ⟨h1, hml.1, hml.2, fun hm => absurd (show Config.minMatch ≤ Config.minMatch - 1 from hm) (by decide)⟩

/-- The previous position's match is emitted (R242). -/
theorem Enc.Searched.emitPrevMatch {ps : Config.Params} {e e' : Enc} (h : e.Searched ps e') (h2 : 2 ≤ e'.prevLength)
    (h1 : 1 ≤ e.lookahead) :
    e.Matched ps (e'.prevLength - 1) (e'.emitPrevMatch ps) := by
  have := (h.tallied (e'.distanceFrom (e'.strstart - 1) e'.prevMatch) e'.prevLength (e'.prevLength - 1)).insertUpTo (by omega)
    (m := e'.strstart + e'.lookahead - Config.minMatch)
    (by have hmin : Config.minMatch = 3 := rfl
        rw [h.strstart, h.lookahead]; omega) (ml := Config.minMatch - 1) (by decide)
  exact this

theorem slowTurn_sound {inv : Prop} {r0 r : EncRun} (h : EncRun.Ready inv r0 r) (hlv : r0.e.level ≠ 0)
    (hfn : r0.e.blockFn = .slow) (f : Flush) : Turn.Sound inv r0 f .slow (r.blockLeft .slow) (slowTurn f r) := by
  unfold slowTurn
  refine h.refillThen (by decide) (by decide) (by decide) (fun r' hr h1 hleft => ?_)
  rw [← hleft]
  obtain ⟨hs, hpl, _, hm⟩ := r'.slowSearch_searched
  rw [hr.good.params] at *
  have hfound := fun hi => (hr.good.placed hi).found trivial
  dsimp only
  generalize r'.slowSearch = e at *
  have hmin : Config.minMatch = 3 := rfl
  split
  · next hc =>
    rw [← hpl] at hfound
    refine hr.take hlv (by decide) f ((hs.emitPrevMatch (by omega) h1).took (by omega) (fun hi => ?_) h1 ?_)
    · have := (hfound hi hc.1).2; omega
    · show Config.minMatch - 1 < Config.minMatch
      decide
  · split
    · -- the literal before the current position
      have hg : EncRun.Good inv True r0 (r'.withEnc (e.tallyLit (e.winByte (e.strstart - 1)))) := by
        refine hr.good.withEnc hs.latched (fun h' => (hs.sound h').tallyLit _) (fun hi => ?_)
        have hp := hs.placed (hr.good.placed hi) (by rw [hr.good.latched.1]; exact hlv) hm
        exact hp.same rfl rfl rfl rfl rfl rfl (hp.bounded.same rfl)
      have key : ∀ r2 : EncRun, EncRun.Good inv True r0 r2 → (inv → r2.e.syms.length < Config.litBufSize - 1) →
          (r2.io.availOut ≠ 0 → r2.e.bw.pending = []) → r2.e.lookahead = e.lookahead → r2.e.matchLength = e.matchLength →
          r2.io.availIn = r'.io.availIn →
          Turn.Sound inv r0 f .slow (r'.blockLeft .slow)
            (if (r2.withEnc { r2.e with strstart := r2.e.strstart + 1, lookahead := r2.e.lookahead - 1 }).io.availOut = 0 then
              .ret .needMore (r2.withEnc { r2.e with strstart := r2.e.strstart + 1, lookahead := r2.e.lookahead - 1 })
            else .again (r2.withEnc { r2.e with strstart := r2.e.strstart + 1, lookahead := r2.e.lookahead - 1 })) := by
        intro r2 g2 s2 p2 l2 m2 a2
        have hla : 1 ≤ r2.e.lookahead := by rw [l2, hs.lookahead]; exact h1
        have ht : EncRun.Took inv r0.params r2.e
            { r2.e with strstart := r2.e.strstart + 1, lookahead := r2.e.lookahead - 1 } := by
          refine ⟨⟨rfl, rfl, rfl⟩, fun h' => { h' with }, ?_, Nat.le_succ _, fun _ => ?_, rfl, fun _ hm' => ?_, rfl, Nat.le_succ _, ?_,
            fun _ hk => hk.same rfl⟩
          · show r2.e.lookahead - 1 < r2.e.lookahead; omega
          · show r2.e.strstart + 1 + (r2.e.lookahead - 1) ≤ _; omega
          · have hm' : Config.minMatch ≤ r2.e.matchLength := hm'
            rw [m2] at hm'
            have := hm hm'
            show r2.e.matchLength ≤ r2.e.lookahead - 1 + 1
            rw [l2, m2, hs.lookahead]; omega
          · show _ ≤ r2.e.strstart + 1 + (r2.e.lookahead - 1); omega
        have hg2 := ht.good g2 hlv
        split
        · next ho => exact ⟨rfl, hg2, s2, .inl ho⟩
        · next ho =>
          refine ⟨⟨hg2, s2, p2 ho⟩, ?_⟩
          rw [EncRun.blockLeft_of_ne (by decide), EncRun.blockLeft_of_ne (by decide)]
          show r2.e.lookahead - 1 + r2.io.availIn < _
          rw [l2, a2, hs.lookahead]; omega
      split
      · next hfull =>
        have hf := (r'.withEnc (e.tallyLit (e.winByte (e.strstart - 1)))).flushBlockOnly_fields false
        exact key _ (hg.flushBlockOnly false) (fun _ => EncRun.roomy_flushBlockOnly _ _) EncRun.flushBlockOnly_pending hf.1
          hf.2.2.2.2.1 hf.2.2.2.2.2
      · next hfull =>
        refine key _ hg (fun hi => ?_) (fun _ => ?_) rfl rfl rfl
        · have hr' := hr.roomy hi
          have hne : ¬ (e.tallyLit (e.winByte (e.strstart - 1))).syms.length = Config.litBufSize - 1 :=
            fun he => hfull (decide_eq_true he)
          have hlen : (e.tallyLit (e.winByte (e.strstart - 1))).syms.length = r'.e.syms.length + 1 := by
            show (_ :: e.syms).length = _; rw [hs.syms]; rfl
          show (e.tallyLit (e.winByte (e.strstart - 1))).syms.length < _
          omega
        · show e.bw.pending = []
          rw [hs.bw]; exact hr.pending
    · have hslow : e.blockFn = .slow := by
        rw [Enc.blockFn_eq hs.latched, Enc.blockFn_eq hr.good.latched]; exact hfn
      refine hr.takeQuietly hlv (by decide) f
        (e' := { e with matchAvailable := true, strstart := e.strstart + 1, lookahead := e.lookahead - 1 })
        ⟨hs.latched, fun h' => { hs.sound h' with owed := fun _ => hslow }, ?_, ?_, fun _ => ?_, hs.blockStart,
        fun _ hm' => ?_, hs.bw, ?_, ?_, fun _ hk => (hs.bounded hk).same rfl⟩ hs.syms
      · show e.lookahead - 1 < _; rw [hs.lookahead]; omega
      · show _ ≤ e.strstart + 1; rw [hs.strstart]; omega
      · show e.strstart + 1 + (e.lookahead - 1) ≤ _; rw [hs.strstart, hs.lookahead]; omega
      · have := hm hm'
        show e.matchLength ≤ e.lookahead - 1 + 1
        rw [hs.lookahead]; omega
      · show e.syms.length ≤ _; rw [hs.syms]; omega
      · show _ ≤ e.strstart + 1 + (e.lookahead - 1); rw [hs.strstart, hs.lookahead]; omega

/-! ## A block function -/

theorem Enc.blockFn_stored {e : Enc} : e.blockFn = .stored ↔ e.level = 0 := by
  unfold Enc.blockFn
  split
  · next h => exact ⟨fun _ => h, fun _ => rfl⟩
  · next h =>
    refine ⟨fun hs => ?_, fun h0 => absurd h0 h⟩
    split at hs
    · exact absurd hs (by decide)
    · exact absurd hs (by decide)
    · split at hs <;> exact absurd hs (by decide)

theorem blockTurn_sound {inv : Prop} {r0 r : EncRun} (h : EncRun.Ready inv r0 r) (f : Flush) :
    Turn.Sound inv r0 f r0.e.blockFn (r.blockLeft r0.e.blockFn) (blockTurn r0.e.blockFn f r) := by
  have hs := Enc.blockFn_stored (e := r0.e)
  cases hfn : r0.e.blockFn with
  | stored => exact storedTurn_sound h (hs.1 hfn) f
  | fast => exact fastTurn_sound h (fun h0 => by rw [hs.2 h0] at hfn; cases hfn) f
  | slow => exact slowTurn_sound h (fun h0 => by rw [hs.2 h0] at hfn; cases hfn) hfn f
  | rle => exact rleTurn_sound h (fun h0 => by rw [hs.2 h0] at hfn; cases hfn) f
  | huff => exact huffTurn_sound h (fun h0 => by rw [hs.2 h0] at hfn; cases hfn) f

/-- How a block function returns (R237, R238, R388). -/
structure BlockEnd (inv : Prop) (r0 : EncRun) (f : Flush) (b : BState) (r : EncRun) : Prop where
  good : EncRun.Good inv True r0 r
  roomy : inv → r.e.syms.length < Config.litBufSize - 1
  needMore : b = .needMore → r.io.availOut = 0 ∨ (f = .no ∧ r.e.bw.pending = [] ∧ (inv → r.io.availIn = 0))
  finishStarted : b = .finishStarted → f = .finish ∧ r.io.availOut = 0
  finishDone : b = .finishDone → f = .finish ∧ r.io.availOut ≠ 0 ∧ r.e.bw.pending = [] ∧ (inv → r.io.availIn = 0)
  blockDone : b = .blockDone → f ≠ .finish ∧ f ≠ .no ∧ r.e.bw.pending = [] ∧ (inv → r.io.availIn = 0)

/-- The common tail (R238). -/
theorem blockTail_end {inv : Prop} {r0 r : EncRun} (h : EncRun.Ready inv r0 r) {f : Flush} (hno : f ≠ .no)
    (hin : inv → r.io.availIn = 0) (fn : BlockFn) : BlockEnd inv r0 f (blockTail fn f r).1 (blockTail fn f r).2 := by
  -- the literal that is owed
  have hpay : ∃ e1 : Enc, (if fn = .slow then r.e.payLiteral else r.e) = e1 ∧ EncRun.Good inv True r0 (r.withEnc e1) ∧
      e1.bw.pending = [] ∧ (e1.syms = r.e.syms ∨ e1.syms ≠ [] ∧ fn = .slow) := by
    refine ⟨_, rfl, ?_, ?_, ?_⟩
    · split
      · unfold Enc.payLiteral
        split
        · exact h.good.withEnc ⟨rfl, rfl, rfl⟩ (fun hs => { hs.tallyLit (r.e.winByte (r.e.strstart - 1)) with owed := nofun })
            (fun hi => (h.good.placed hi).same rfl rfl rfl rfl rfl rfl ((h.good.placed hi).bounded.same rfl))
        · exact h.good
      · exact h.good
    · split
      · unfold Enc.payLiteral; split <;> exact h.pending
      · exact h.pending
    · split
      · next hf =>
        unfold Enc.payLiteral
        split
        · exact .inr ⟨List.cons_ne_nil _ _, hf⟩
        · exact .inl rfl
      · exact .inl rfl
  obtain ⟨e1, he1, hg1, hp1, hsy⟩ := hpay
  unfold blockTail
  rw [he1]
  dsimp only
  have hins : (if fn = .fast ∨ fn = .slow then min e1.strstart (Config.minMatch - 1) else 0) ≤ 2 := by
    split
    · exact Nat.min_le_right _ _
    · exact Nat.zero_le _
  generalize (if fn = .fast ∨ fn = .slow then min e1.strstart (Config.minMatch - 1) else 0) = n at *
  have hg2 : EncRun.Good inv True r0 (r.withEnc { e1 with insert := n }) :=
    ⟨hg1.moves, hg1.params, hg1.latched, fun hi => { hg1.sound hi with insert := hins },
      fun hi => (hg1.placed hi).same rfl rfl rfl rfl rfl rfl ((hg1.placed hi).bounded.same rfl)⟩
  have hav : ∀ last, (EncRun.flushBlockOnly (r.withEnc { e1 with insert := n }) last).io.availIn = r.io.availIn :=
    fun last => (EncRun.flushBlockOnly_fields _ last).2.2.2.2.2
  split
  · next hfin =>
    have hg3 := hg2.flushBlockOnly true
    have hr3 := EncRun.roomy_flushBlockOnly (r.withEnc { e1 with insert := n }) true
    have hp3 := @EncRun.flushBlockOnly_pending (r.withEnc { e1 with insert := n }) true
    have hav3 := hav true
    generalize EncRun.flushBlockOnly (r.withEnc { e1 with insert := n }) true = r3 at *
    split
    · next ho => exact ⟨hg3, fun _ => hr3, nofun, fun _ => ⟨hfin, ho⟩, nofun, nofun⟩
    · next ho => exact ⟨hg3, fun _ => hr3, nofun, nofun, fun _ => ⟨hfin, ho, hp3 ho, fun hi => hav3.trans (hin hi)⟩, nofun⟩
  · next hfin =>
    split
    · have hg3 := hg2.flushBlockOnly false
      have hr3 := EncRun.roomy_flushBlockOnly (r.withEnc { e1 with insert := n }) false
      have hp3 := @EncRun.flushBlockOnly_pending (r.withEnc { e1 with insert := n }) false
      have hav3 := hav false
      generalize EncRun.flushBlockOnly (r.withEnc { e1 with insert := n }) false = r3 at *
      split
      · next ho => exact ⟨hg3, fun _ => hr3, fun _ => .inl ho, nofun, nofun, nofun⟩
      · next ho => exact ⟨hg3, fun _ => hr3, nofun, nofun, nofun, fun _ => ⟨hfin, hno, hp3 ho, fun hi => hav3.trans (hin hi)⟩⟩
    · next hdata =>
      refine ⟨hg2, fun hi => ?_, nofun, nofun, nofun, fun _ => ⟨hfin, hno, hp1, hin⟩⟩
      show e1.syms.length < _
      rcases hsy with hs | ⟨hne, hslow⟩
      · rw [hs]; exact h.roomy hi
      · exfalso
        apply hdata
        rw [hslow]
        show (!e1.syms.isEmpty) = true
        cases hsy : e1.syms with
        | nil => exact absurd hsy hne
        | cons a b => rfl

/-- The main loop ends (R427). -/
theorem blockLoop_end {inv : Prop} {r0 : EncRun} (f : Flush) : ∀ (fuel : Nat) {r : EncRun}, EncRun.Ready inv r0 r →
    r.blockLeft r0.e.blockFn < fuel →
    ∃ b r', blockLoop r0.e.blockFn f fuel r = some (b, r') ∧ BlockEnd inv r0 f b r'
  | 0, _, _, hf => absurd hf (Nat.not_lt_zero _)
  | fuel + 1, r, h, hf => by
    have ht := blockTurn_sound h f
    rw [blockLoop]
    generalize blockTurn r0.e.blockFn f r = t at *
    cases t with
    | again r1 => exact blockLoop_end f fuel ht.1 (lt_of_lt_of_le ht.2 (Nat.le_of_lt_succ hf))
    | tail r1 => exact ⟨_, _, rfl, blockTail_end ht.1 ht.2.1 ht.2.2 _⟩
    | ret b r1 =>
      obtain ⟨hb, hg, hr, hend⟩ := ht
      subst hb
      exact ⟨_, _, rfl, hg, hr, fun _ => hend, nofun, nofun, nofun⟩

/-- A block function ends (R223, R427). -/
theorem runBlock_end {inv : Prop} {r0 r : EncRun} (f : Flush) (h : EncRun.Ready inv r0 r) :
    ∃ b r', runBlock f r = some (b, r') ∧ BlockEnd inv r0 f b r' := by
  unfold runBlock
  rw [Enc.blockFn_eq h.good.latched]
  refine blockLoop_end f _ h ?_
  have hspan : r.e.span = (r.e.strstart : Int) - r.e.blockStart := rfl
  unfold EncRun.blockLeft blockFuel
  split <;> omega

/-! ## ENC_STEP -/

/-- How an ENC_STEP ends (R386, R388, R389). -/
structure EncStepEnd (inv : Prop) (r0 : EncRun) (f : Flush) (r : EncRun) (res : Result) : Prop where
  good : EncRun.Good inv True r0 r
  roomy : inv → r.e.syms.length < Config.litBufSize - 1
  results : res = .needMoreOutput ∨ res = .needMoreInput ∨ res = .streamEnd
  full : res = .needMoreOutput ↔ r.io.availOut = 0
  drained : res ≠ .needMoreOutput → r.e.bw.pending = [] ∧ (inv → r.io.availIn = 0)
  ended : res = .streamEnd → f = .finish ∧ r.e.status = .done
  goesOn : res = .needMoreInput → f ≠ .finish

theorem EncRun.Good.sequence {inv : Prop} {r0 r : EncRun} (h : EncRun.Good inv True r0 r) (st : EncStatus) (lf : Int) :
    EncRun.Good inv True r0 (r.withEnc { r.e with status := st, lastFlush := lf }) :=
  h.withEnc ⟨rfl, rfl, rfl⟩ (fun hs => { hs with })
    (fun hi => (h.placed hi).same rfl rfl rfl rfl rfl rfl ((h.placed hi).bounded.same rfl))

/-- A step that ends with its output full. -/
theorem EncStepEnd.outputFull {inv : Prop} {r0 r : EncRun} {f : Flush} (h : EncRun.Good inv True r0 r)
    (hr : inv → r.e.syms.length < Config.litBufSize - 1) (ho : r.io.availOut = 0) :
    EncStepEnd inv r0 f r.outputFull .needMoreOutput :=
  ⟨h.sequence r.e.status (-1), hr, .inl rfl, ⟨fun _ => ho, fun _ => rfl⟩, fun hn => absurd rfl hn, nofun, nofun⟩

/-- The end of a step with nothing pending and output space left. -/
theorem encEnd_end {inv : Prop} {r0 r : EncRun} {f : Flush} (h : EncRun.Good inv True r0 r)
    (hr : inv → r.e.syms.length < Config.litBufSize - 1) (ho : r.io.availOut ≠ 0) (hp : r.e.bw.pending = [])
    (hin : inv → r.io.availIn = 0) : EncStepEnd inv r0 f (encEnd f r).1 (encEnd f r).2 := by
  have hres : r.io.res = .needMoreInput := by unfold Io.res; rw [if_neg ho]
  unfold encEnd
  split
  · next hf =>
    dsimp only
    rw [hres]
    exact ⟨h, hr, .inr (.inl rfl), ⟨nofun, fun h0 => absurd h0 ho⟩, fun _ => ⟨hp, hin⟩, nofun, fun _ => hf⟩
  · next hf =>
    exact ⟨h.sequence .done r.e.lastFlush, hr, .inr (.inr rfl), ⟨nofun, fun h0 => absurd h0 ho⟩, fun _ => ⟨hp, hin⟩,
      fun _ => ⟨not_not.1 hf, rfl⟩, nofun⟩

theorem Enc.Sound.forgetHistory {ps : Config.Params} {e : Enc} (h : e.Sound ps) : e.forgetHistory.Sound ps := by
  unfold Enc.forgetHistory
  split
  · exact { h with head := Ram.wf_nil _, prev := Ram.wf_nil _, insert := Nat.zero_le _ }
  · exact { h with head := Ram.wf_nil _ }

theorem Enc.Placed.forgetHistory {ps : Config.Params} {e : Enc} (h : e.Placed ps True) : e.forgetHistory.Placed ps True := by
  unfold Enc.forgetHistory
  split
  · next h0 =>
    refine ⟨Int.le_refl _, ?_, fun _ _ => ?_, h.found, ⟨Ram.below_nil _ _, Ram.below_nil _ _, ?_,
      h.bounded.starts, h.bounded.lengths⟩⟩
    · show 0 + e.lookahead ≤ _; omega
    · have := Enc.maxDist_add { e with head := .nil, prev := .nil, strstart := 0, blockStart := 0, insert := 0 }
      have := Enc.ew_ge { e with head := .nil, prev := .nil, strstart := 0, blockStart := 0, insert := 0 }
      show ((0 : Nat) : Int) - 0 < _
      omega
    · show 0 + e.lookahead ≤ _; omega
  · exact h.same rfl rfl rfl rfl rfl rfl
      ⟨Ram.below_nil _ _, h.bounded.prev, h.bounded.room, h.bounded.starts, h.bounded.lengths⟩

theorem Enc.forgetHistory_fields (e : Enc) : e.forgetHistory.level = e.level ∧ e.forgetHistory.strategy = e.strategy ∧
    e.forgetHistory.wbits = e.wbits ∧ e.forgetHistory.syms = e.syms := by
  unfold Enc.forgetHistory; split <;> exact ⟨rfl, rfl, rfl, rfl⟩

theorem EncRun.Good.marker {inv : Prop} {r0 r : EncRun} (h : EncRun.Good inv True r0 r) (f : Flush) :
    EncRun.Good inv True r0 (r.withEnc (r.e.marker f)) ∧ (r.e.marker f).syms = r.e.syms := by
  have hbw : ∀ bw : BitWriter, (r.e.bw.Ok → bw.Ok) → EncRun.Good inv True r0 (r.withEnc { r.e with bw := bw }) := fun bw hb =>
    h.withEnc ⟨rfl, rfl, rfl⟩ (fun hs => { hs with bits := hb hs.bits })
      (fun hi => (h.placed hi).same rfl rfl rfl rfl rfl rfl ((h.placed hi).bounded.same rfl))
  cases f with
  | no => exact ⟨h, rfl⟩
  | partialFlush => exact ⟨hbw _ BitWriter.Ok.align, rfl⟩
  | sync => exact ⟨hbw _ fun _ => BitWriter.ok_storedBlock _ _ _, rfl⟩
  | full =>
    have hb := hbw r.e.bw.syncMarker fun _ => BitWriter.ok_storedBlock _ _ _
    have hl := Enc.forgetHistory_fields { r.e with bw := r.e.bw.syncMarker }
    refine ⟨⟨h.moves, h.params, ⟨hl.1.trans h.latched.1, hl.2.1.trans h.latched.2.1, hl.2.2.1.trans h.latched.2.2⟩,
      fun hi => (hb.sound hi).forgetHistory, fun hi => (hb.placed hi).forgetHistory⟩, hl.2.2.2⟩
  | finish => exact ⟨h, rfl⟩
  | block => exact ⟨h, rfl⟩

/-- A step after its block function (R388). -/
theorem encAfterBlock_end {inv : Prop} {r0 r : EncRun} {f : Flush} {b : BState} (h : BlockEnd inv r0 f b r) :
    EncStepEnd inv r0 f (encAfterBlock f b r).1 (encAfterBlock f b r).2 := by
  have hfull : r.io.availOut = 0 → r.io.res = .needMoreOutput := fun h0 => by unfold Io.res; rw [if_pos h0]
  cases b with
  | needMore =>
    unfold encAfterBlock
    dsimp only
    split
    · next ho => rw [hfull ho]; exact EncStepEnd.outputFull h.good h.roomy ho
    · next ho =>
      have hres : r.io.res = .needMoreInput := by unfold Io.res; rw [if_neg ho]
      obtain ⟨hno, hp, hin⟩ := (h.needMore rfl).resolve_left ho
      rw [hres]
      exact ⟨h.good, h.roomy, .inr (.inl rfl), ⟨nofun, fun h0 => absurd h0 ho⟩, fun _ => ⟨hp, hin⟩, nofun,
        fun _ => by rw [hno]; decide⟩
  | finishStarted =>
    have ho := (h.finishStarted rfl).2
    unfold encAfterBlock
    dsimp only
    rw [if_pos (show (r.withEnc { r.e with status := .finishing }).io.availOut = 0 from ho)]
    rw [show (r.withEnc { r.e with status := .finishing }).io.res = .needMoreOutput from hfull ho]
    exact EncStepEnd.outputFull (h.good.sequence .finishing r.e.lastFlush) h.roomy ho
  | finishDone =>
    obtain ⟨_, ho, hp, hin⟩ := h.finishDone rfl
    exact encEnd_end (h.good.sequence .finishing r.e.lastFlush) h.roomy ho hp hin
  | blockDone =>
    obtain ⟨hf, hno, hp, hin⟩ := h.blockDone rfl
    obtain ⟨hg, hsy⟩ := h.good.marker f
    have hg2 := hg.flushPending
    have hroom : inv → (EncRun.flushPending (r.withEnc (r.e.marker f))).e.syms.length < Config.litBufSize - 1 := fun hi => by
      show (r.e.marker f).syms.length < _
      rw [hsy]; exact h.roomy hi
    have hpend := @EncRun.flushPending_pending (r.withEnc (r.e.marker f))
    have hav : (EncRun.flushPending (r.withEnc (r.e.marker f))).io.availIn = r.io.availIn := EncRun.flushPending_availIn _
    unfold encAfterBlock
    dsimp only
    generalize EncRun.flushPending (r.withEnc (r.e.marker f)) = r2 at *
    split
    · next ho => exact EncStepEnd.outputFull hg2 hroom ho
    · next ho => exact encEnd_end hg2 hroom ho (hpend ho) (fun hi => hav.trans (hin hi))

/-- A step from the status on (R388). -/
theorem encWork_end {inv : Prop} {r0 r : EncRun} {f : Flush} (h : EncRun.Ready inv r0 r) (ho : r.io.availOut ≠ 0) :
    ∃ r' res, encWork f r = some (r', res) ∧ EncStepEnd inv r0 f r' res := by
  have hb : ∃ r1, (if r.e.status = .init then r.withEnc { r.e with status := .busy } else r) = r1 ∧ EncRun.Ready inv r0 r1 ∧
      r1.io = r.io := by
    refine ⟨_, rfl, ?_, ?_⟩
    · split
      · exact ⟨h.good.sequence .busy r.e.lastFlush, h.roomy, h.pending⟩
      · exact h
    · split <;> rfl
  obtain ⟨r1, hr1, hready, hio⟩ := hb
  unfold encWork
  rw [hr1]
  dsimp only
  split
  · obtain ⟨b, r2, hrun, hend⟩ := runBlock_end f hready
    rw [hrun]
    exact ⟨_, _, rfl, encAfterBlock_end hend⟩
  · next hno =>
    refine ⟨_, _, rfl, encEnd_end hready.good hready.roomy (by rw [hio]; exact ho) hready.pending (fun _ => ?_)⟩
    unfold encHasWork at hno
    have h0 : r1.io.inLen = 0 := by
      by_contra hne
      apply hno
      rw [Bool.or_assoc]
      simp [hne]
    unfold Io.availIn
    rw [h0]; exact Nat.zero_sub _

/-- `ENC_STEP f` ends (R388). -/
theorem encStepAction_end {e : Enc} {io : Io} {ps : Config.Params} (f : Flush) (hprod : io.produced = 0) :
    ∃ r res, encStepAction f { e := e, io := io, params := ps } = some (r, res) ∧
      EncStepEnd (e.Ok ps) { e := e, io := io, params := ps } f r res := by
  have hg := EncRun.Good.refl { e := e, io := io, params := ps }
  have hsy : e.Ok ps → e.syms.length < Config.litBufSize - 1 := fun h => h.syms
  have hg1 := hg.sequence e.status (flushCode f)
  unfold encStepAction
  dsimp only
  split
  · next h0 =>
    have ho : io.availOut = 0 := by unfold Io.availOut; rw [h0]; exact Nat.zero_sub _
    exact ⟨_, _, rfl, hg, hsy, .inl rfl, ⟨fun _ => ho, fun _ => rfl⟩, fun hn => absurd rfl hn, nofun, nofun⟩
  · next h0 =>
    have ho : io.availOut ≠ 0 := by unfold Io.availOut; rw [hprod]; exact h0
    split
    · have hg2 := hg1.flushPending
      have hpend := @EncRun.flushPending_pending
        (EncRun.withEnc { e := e, io := io, params := ps } { e with status := e.status, lastFlush := flushCode f })
      split
      · next hfull => exact ⟨_, _, rfl, EncStepEnd.outputFull hg2 hsy hfull⟩
      · next hfull => exact encWork_end ⟨hg2, hsy, hpend hfull⟩ hfull
    · next hpend =>
      have hpend : e.bw.pending = [] := not_not.1 hpend
      split
      · next hrep =>
        refine ⟨_, _, rfl, hg1, hsy, .inr (.inl rfl), ⟨nofun, fun h => absurd h ho⟩, fun _ => ⟨hpend, fun _ => ?_⟩, nofun,
          fun _ => hrep.2.2⟩
        have h0 : io.inLen = 0 := hrep.1
        show io.availIn = 0
        unfold Io.availIn
        rw [h0]; exact Nat.zero_sub _
      · exact encWork_end ⟨hg1, hsy, hpend⟩ ho

/-- ENC_STEP on an encoder that may take it, with buffers in range (R388): the command ends. -/
theorem encStep_ends {s : State} {e : Enc} {f : Flush} (hs : s.stream = .enc e) (ha : encStepAllowed f e s.inLen = true)
    (hr : s.rangesOk = true) :
    ∃ r res, encStep f s = .next (s.finish r.io (.enc r.e) res) ∧
      EncStepEnd (e.Ok s.params) { e := e, io := s.io 0 0, params := s.params } f r res := by
  obtain ⟨r, res, h1, h2⟩ := encStepAction_end (e := e) (io := s.io 0 0) (ps := s.params) f rfl
  refine ⟨r, res, ?_, h2⟩
  unfold encStep
  rw [hs]
  dsimp only
  rw [ha, hr, h1]
  rfl

/-- An encoder in order stays in order. -/
theorem EncStepEnd.ok {e : Enc} {ps : Config.Params} {io : Io} {f : Flush} {r : EncRun} {res : Result}
    (h : EncStepEnd (e.Ok ps) { e := e, io := io, params := ps } f r res) (he : e.Ok ps) : r.e.Ok ps :=
  (h.good.sound he).ok (h.good.placed he) (h.roomy he)

/-! ## ENC_INIT and ENC_SET_DICT -/

theorem Enc.ok_fresh {level : Nat} (hl : level ≤ 9) (st : Strategy) {wbits : Nat} (hw : 8 ≤ wbits ∧ wbits ≤ 15)
    (ps : Config.Params) : (Enc.fresh level st wbits).Ok ps where
  level := hl
  wbits := hw
  win := Ram.wf_nil _
  head := Ram.wf_nil _
  prev := Ram.wf_nil _
  insert := Nat.zero_le _
  freqs := ⟨by show (List.set _ _ _).length = _; rw [List.length_set, List.length_replicate], List.length_replicate,
    List.length_replicate⟩
  syms := by show 0 < _; decide
  bits := ⟨Nat.zero_le _, by show (0 : Nat) < 1; decide⟩
  block := Int.le_refl _
  fits := Nat.zero_le _
  stored := fun _ => by
    have := (Enc.fresh level st wbits).maxDist_add
    have := (Enc.fresh level st wbits).ew_ge
    show (0 : Int) - 0 < _
    omega
  found := fun h => absurd (show Config.minMatch ≤ 2 from h) (by decide)
  bounded := by
    have := (Enc.fresh level st wbits).ew_ge
    exact ⟨Ram.below_nil _ _, Ram.below_nil _ _, Nat.zero_le _, ⟨by show 0 < _; omega, by show 0 < _; omega⟩,
      ⟨by show 2 ≤ _; omega, by show 2 ≤ _; omega⟩⟩
  owed := nofun

/-- The loop of `prime_dictionary` (R245): it ends with fewer than three bytes of lookahead. -/
theorem EncRun.primeLoop_end {inv : Prop} {r0 : EncRun} : ∀ (fuel : Nat) {r : EncRun}, EncRun.Good inv False r0 r →
    r.e.lookahead + r.io.availIn < fuel →
    (EncRun.primeLoop fuel r).e.lookahead < Config.minMatch ∧ EncRun.Good inv False r0 (EncRun.primeLoop fuel r) ∧
      r.e.Kept (EncRun.primeLoop fuel r).e
  | 0, _, _, hf => absurd hf (Nat.not_lt_zero _)
  | fuel + 1, r, h, hf => by
    rw [EncRun.primeLoop]
    split
    · next hl => exact ⟨hl, h, Enc.Kept.refl _⟩
    · next hl =>
      have hmin : Config.minMatch = 3 := rfl
      have hr := Enc.insertRange_eq r.params (r.e.lookahead - (Config.minMatch - 1)) r.e.strstart r.e
      have hs : inv → Enc.Sound r0.params (Enc.insertRange r.params (r.e.lookahead - (Config.minMatch - 1)) r.e.strstart r.e) :=
        fun hi => by rw [h.params]; exact Enc.Sound.insertRange _ _ (h.sound hi)
      have hlk : inv → Enc.Bounded r0.params (Enc.insertRange r.params (r.e.lookahead - (Config.minMatch - 1)) r.e.strstart r.e)
          (r.e.strstart + r.e.lookahead) :=
        fun hi => by rw [h.params]; exact (h.placed hi).bounded.insertRange _ _ (by omega)
      dsimp only
      generalize Enc.insertRange r.params (r.e.lookahead - (Config.minMatch - 1)) r.e.strstart r.e = e1 at *
      have hla : e1.lookahead = r.e.lookahead := by rw [hr]
      have hss : e1.strstart = r.e.strstart := by rw [hr]
      have hbs : e1.blockStart = r.e.blockStart := by rw [hr]
      have hlat : e1.level = r.e.level ∧ e1.strategy = r.e.strategy ∧ e1.wbits = r.e.wbits := by rw [hr]; exact ⟨rfl, rfl, rfl⟩
      have hkept : r.e.Kept e1 := by rw [hr]; exact ⟨rfl, rfl, rfl, rfl⟩
      have h2 : EncRun.Good inv False r0 (r.withEnc { e1 with
          strstart := e1.strstart + e1.lookahead - (Config.minMatch - 1), lookahead := Config.minMatch - 1 }) := by
        refine ⟨h.moves, h.params, ⟨hlat.1.trans h.latched.1, hlat.2.1.trans h.latched.2.1, hlat.2.2.trans h.latched.2.2⟩,
          fun hi => { hs hi with }, fun hi => ⟨?_, ?_, fun hd => hd.elim, fun hd => hd.elim, ?_⟩⟩
        · have := (h.placed hi).block
          show e1.blockStart ≤ ((e1.strstart + e1.lookahead - (Config.minMatch - 1) : Nat) : Int)
          rw [hbs, hss, hla, hmin]; omega
        · have := (h.placed hi).fits
          have hew : e1.ew = r.e.ew := Enc.ew_eq hlat.2.2
          show e1.strstart + e1.lookahead - (Config.minMatch - 1) + (Config.minMatch - 1) ≤ 2 * e1.ew
          rw [hss, hla, hmin, hew]; omega
        · refine ((hlk hi).mono ?_ ?_).same rfl
          · show _ ≤ e1.strstart + e1.lookahead - (Config.minMatch - 1) + (Config.minMatch - 1)
            rw [hss, hla]; omega
          · have := (h.placed hi).fits
            have hew : e1.ew = r.e.ew := Enc.ew_eq hlat.2.2
            show e1.strstart + e1.lookahead - (Config.minMatch - 1) + (Config.minMatch - 1) ≤ 2 * e1.ew
            rw [hss, hla, hmin, hew]; omega
      obtain ⟨hfill, _⟩ := h2.fillWindow
      have htot := hfill.total
      have htot : _ = Config.minMatch - 1 + r.io.availIn := htot
      have ih := EncRun.primeLoop_end fuel hfill.good (by rw [htot]; omega)
      exact ⟨ih.1, ih.2.1, (hkept.trans ⟨hfill.kept.syms, hfill.kept.bw, hfill.kept.status, hfill.kept.lastFlush⟩).trans ih.2.2⟩

/-- `prime_dictionary` (R245) keeps an encoder in order and writes nothing. -/
theorem EncRun.prime_end {r : EncRun} : EncRun.Good (r.e.Ok r.params) True r r.prime ∧ r.e.Kept r.prime.e := by
  have h0 : EncRun.Good (r.e.Ok r.params) False r r :=
    ⟨Io.Moves.refl _, rfl, ⟨rfl, rfl, rfl⟩, Enc.Ok.sound,
      fun hi => ⟨hi.placed.block, hi.placed.fits, fun hd => hd.elim, fun hd => hd.elim, hi.placed.bounded⟩⟩
  obtain ⟨hfill, _⟩ := h0.fillWindow
  have htot := hfill.total
  obtain ⟨hlt, hg, hk⟩ := EncRun.primeLoop_end (r.io.availIn + r.e.lookahead + 1) hfill.good (by omega)
  have hmin : Config.minMatch = 3 := rfl
  unfold EncRun.prime
  dsimp only
  generalize EncRun.primeLoop (r.io.availIn + r.e.lookahead + 1) r.fillWindow = r2 at *
  refine ⟨⟨hg.moves, hg.params, hg.latched, fun hi => { hg.sound hi with insert := ?_, owed := nofun },
    fun hi => ⟨Int.le_refl _, ?_, fun _ _ => ?_, fun _ hm => ?_, ?_⟩⟩, hfill.kept.trans ⟨hk.syms, hk.bw, hk.status, hk.lastFlush⟩⟩
  · show r2.e.lookahead ≤ 2; omega
  · have := (hg.placed hi).fits
    show r2.e.strstart + r2.e.lookahead + 0 ≤ 2 * r2.e.ew
    omega
  · have h1 := r2.e.maxDist_add
    have h2 := r2.e.ew_ge
    show ((r2.e.strstart + r2.e.lookahead : Nat) : Int) - ((r2.e.strstart + r2.e.lookahead : Nat) : Int) < (r2.e.maxDist : Int)
    omega
  · exact absurd (show Config.minMatch ≤ Config.minMatch - 1 from hm) (by decide)
  · have := r2.e.ew_ge
    have hb := (hg.placed hi).bounded
    exact (hb.registers (ml := Config.minMatch - 1) (pl := Config.minMatch - 1) hb.starts ⟨by omega, by omega⟩).same rfl

end Sys2Proof.Machine
end

