-- ==== Sys2Proof/Laws/PerInstr.lean ====
section
/-! SUPPORT. Sys2Proof/Laws/PerInstr.lean: the families of facts that are stated for all instructions, one lemma per constructor. -/

namespace Sys2Proof.Laws.OperandsFit

open Sys2Proof

/-- The fields of a well-formed instruction fit their places in the encoding: a command word is below 128 (R150), a code-length
list has 1 to 19 entries (R118), a symbol belongs to its alphabet and its extra bits fit their width (R120 to R122). -/
def Fits : Shape → Prop
  | .command w => w.toNat < 128
  | .header _ _ => True
  | .stored _ _ => True
  | .counts _ _ _ => True
  | .clLens ls => 1 ≤ ls.length ∧ ls.length ≤ 19
  | .cl s w e => s < 19 ∧ w = clExtra s ∧ e < 2 ^ w
  | .lit s w e => s < 288 ∧ w ≤ 5 ∧ e < 2 ^ w ∧ (257 ≤ s → s ≤ 285 → w = lenExtra.getD (s - 257) 0)
  | .dist s w e => s < 32 ∧ w ≤ 13 ∧ e < 2 ^ w ∧ (s < 30 → w = distExtra.getD s 0)

/-- A well-formed instruction's fields fit. -/
def Statement (i : Instr) : Prop := i.wf = true → Fits i.shape

theorem encInit : Statement .encInit := fun _ => show (commandWord 1 0).toNat < 128 by decide
theorem encStepNo : Statement .encStepNo := fun _ => show (commandWord 2 0).toNat < 128 by decide
theorem encStepPartial : Statement .encStepPartial := fun _ => show (commandWord 2 1).toNat < 128 by decide
theorem encStepSync : Statement .encStepSync := fun _ => show (commandWord 2 2).toNat < 128 by decide
theorem encStepFull : Statement .encStepFull := fun _ => show (commandWord 2 3).toNat < 128 by decide
theorem encStepFinish : Statement .encStepFinish := fun _ => show (commandWord 2 4).toNat < 128 by decide
theorem encStepBlock : Statement .encStepBlock := fun _ => show (commandWord 2 5).toNat < 128 by decide
theorem encSetDict : Statement .encSetDict := fun _ => show (commandWord 3 0).toNat < 128 by decide
theorem decInit : Statement .decInit := fun _ => show (commandWord 4 0).toNat < 128 by decide
theorem decStep : Statement .decStep := fun _ => show (commandWord 5 0).toNat < 128 by decide
theorem decSetDict : Statement .decSetDict := fun _ => show (commandWord 6 0).toNat < 128 by decide
theorem decSync : Statement .decSync := fun _ => show (commandWord 7 0).toNat < 128 by decide
theorem endStream : Statement .endStream := fun _ => show (commandWord 8 0).toNat < 128 by decide
theorem blockStored (final : Bool) : Statement (.blockStored final) := fun _ => trivial
theorem blockFixed (final : Bool) : Statement (.blockFixed final) := fun _ => trivial
theorem blockDynamic (final : Bool) : Statement (.blockDynamic final) := fun _ => trivial
theorem blockReserved (final : Bool) : Statement (.blockReserved final) := fun _ => trivial
theorem storedLen (len nlen : BitVec 16) : Statement (.storedLen len nlen) := fun _ => trivial
theorem dynamicCounts (hlit hdist : BitVec 5) (hclen : BitVec 4) : Statement (.dynamicCounts hlit hdist hclen) := fun _ => trivial
theorem codeLengthCodeLengths (lens : List (BitVec 3)) : Statement (.codeLengthCodeLengths lens) := fun h =>
  of_decide_eq_true (p := 1 ≤ lens.length ∧ lens.length ≤ 19) h
theorem clLength (len : BitVec 4) : Statement (.clLength len) := fun _ => ⟨Nat.lt_of_lt_of_le len.isLt (by decide), by have := len.isLt; show 0 = clExtra len.toNat; unfold clExtra; rw [if_neg (by omega), if_neg (by omega), if_neg (by omega)], Nat.one_pos⟩
theorem clRepeatPrev (extra : BitVec 2) : Statement (.clRepeatPrev extra) := fun _ => ⟨by decide, rfl, extra.isLt⟩
theorem clRepeatZeroShort (extra : BitVec 3) : Statement (.clRepeatZeroShort extra) := fun _ => ⟨by decide, rfl, extra.isLt⟩
theorem clRepeatZeroLong (extra : BitVec 7) : Statement (.clRepeatZeroLong extra) := fun _ => ⟨by decide, rfl, extra.isLt⟩
theorem literal (byte : BitVec 8) : Statement (.literal byte) := fun _ => ⟨Nat.lt_of_lt_of_le byte.isLt (by decide), Nat.zero_le _, Nat.one_pos, fun h => absurd h (by have := byte.isLt; omega)⟩
theorem endOfBlock : Statement .endOfBlock := fun _ => ⟨by decide, by decide, by decide, fun h => absurd h (by decide)⟩
theorem length257 : Statement .length257 := fun _ => ⟨by decide, by decide, by decide, fun _ _ => rfl⟩
theorem length258 : Statement .length258 := fun _ => ⟨by decide, by decide, by decide, fun _ _ => rfl⟩
theorem length259 : Statement .length259 := fun _ => ⟨by decide, by decide, by decide, fun _ _ => rfl⟩
theorem length260 : Statement .length260 := fun _ => ⟨by decide, by decide, by decide, fun _ _ => rfl⟩
theorem length261 : Statement .length261 := fun _ => ⟨by decide, by decide, by decide, fun _ _ => rfl⟩
theorem length262 : Statement .length262 := fun _ => ⟨by decide, by decide, by decide, fun _ _ => rfl⟩
theorem length263 : Statement .length263 := fun _ => ⟨by decide, by decide, by decide, fun _ _ => rfl⟩
theorem length264 : Statement .length264 := fun _ => ⟨by decide, by decide, by decide, fun _ _ => rfl⟩
theorem length265 (extra : BitVec 1) : Statement (.length265 extra) := fun _ => ⟨by decide, by decide, extra.isLt, fun _ _ => rfl⟩
theorem length266 (extra : BitVec 1) : Statement (.length266 extra) := fun _ => ⟨by decide, by decide, extra.isLt, fun _ _ => rfl⟩
theorem length267 (extra : BitVec 1) : Statement (.length267 extra) := fun _ => ⟨by decide, by decide, extra.isLt, fun _ _ => rfl⟩
theorem length268 (extra : BitVec 1) : Statement (.length268 extra) := fun _ => ⟨by decide, by decide, extra.isLt, fun _ _ => rfl⟩
theorem length269 (extra : BitVec 2) : Statement (.length269 extra) := fun _ => ⟨by decide, by decide, extra.isLt, fun _ _ => rfl⟩
theorem length270 (extra : BitVec 2) : Statement (.length270 extra) := fun _ => ⟨by decide, by decide, extra.isLt, fun _ _ => rfl⟩
theorem length271 (extra : BitVec 2) : Statement (.length271 extra) := fun _ => ⟨by decide, by decide, extra.isLt, fun _ _ => rfl⟩
theorem length272 (extra : BitVec 2) : Statement (.length272 extra) := fun _ => ⟨by decide, by decide, extra.isLt, fun _ _ => rfl⟩
theorem length273 (extra : BitVec 3) : Statement (.length273 extra) := fun _ => ⟨by decide, by decide, extra.isLt, fun _ _ => rfl⟩
theorem length274 (extra : BitVec 3) : Statement (.length274 extra) := fun _ => ⟨by decide, by decide, extra.isLt, fun _ _ => rfl⟩
theorem length275 (extra : BitVec 3) : Statement (.length275 extra) := fun _ => ⟨by decide, by decide, extra.isLt, fun _ _ => rfl⟩
theorem length276 (extra : BitVec 3) : Statement (.length276 extra) := fun _ => ⟨by decide, by decide, extra.isLt, fun _ _ => rfl⟩
theorem length277 (extra : BitVec 4) : Statement (.length277 extra) := fun _ => ⟨by decide, by decide, extra.isLt, fun _ _ => rfl⟩
theorem length278 (extra : BitVec 4) : Statement (.length278 extra) := fun _ => ⟨by decide, by decide, extra.isLt, fun _ _ => rfl⟩
theorem length279 (extra : BitVec 4) : Statement (.length279 extra) := fun _ => ⟨by decide, by decide, extra.isLt, fun _ _ => rfl⟩
theorem length280 (extra : BitVec 4) : Statement (.length280 extra) := fun _ => ⟨by decide, by decide, extra.isLt, fun _ _ => rfl⟩
theorem length281 (extra : BitVec 5) : Statement (.length281 extra) := fun _ => ⟨by decide, by decide, extra.isLt, fun _ _ => rfl⟩
theorem length282 (extra : BitVec 5) : Statement (.length282 extra) := fun _ => ⟨by decide, by decide, extra.isLt, fun _ _ => rfl⟩
theorem length283 (extra : BitVec 5) : Statement (.length283 extra) := fun _ => ⟨by decide, by decide, extra.isLt, fun _ _ => rfl⟩
theorem length284 (extra : BitVec 5) : Statement (.length284 extra) := fun _ => ⟨by decide, by decide, extra.isLt, fun _ _ => rfl⟩
theorem length285 : Statement .length285 := fun _ => ⟨by decide, by decide, by decide, fun _ _ => rfl⟩
theorem litlenReserved (odd : Bool) : Statement (.litlenReserved odd) := fun _ => ⟨by cases odd <;> decide, Nat.zero_le _, Nat.one_pos, fun _ h => absurd h (by cases odd <;> decide)⟩
theorem distance0 : Statement .distance0 := fun _ => ⟨by decide, by decide, by decide, fun _ => rfl⟩
theorem distance1 : Statement .distance1 := fun _ => ⟨by decide, by decide, by decide, fun _ => rfl⟩
theorem distance2 : Statement .distance2 := fun _ => ⟨by decide, by decide, by decide, fun _ => rfl⟩
theorem distance3 : Statement .distance3 := fun _ => ⟨by decide, by decide, by decide, fun _ => rfl⟩
theorem distance4 (extra : BitVec 1) : Statement (.distance4 extra) := fun _ => ⟨by decide, by decide, extra.isLt, fun _ => rfl⟩
theorem distance5 (extra : BitVec 1) : Statement (.distance5 extra) := fun _ => ⟨by decide, by decide, extra.isLt, fun _ => rfl⟩
theorem distance6 (extra : BitVec 2) : Statement (.distance6 extra) := fun _ => ⟨by decide, by decide, extra.isLt, fun _ => rfl⟩
theorem distance7 (extra : BitVec 2) : Statement (.distance7 extra) := fun _ => ⟨by decide, by decide, extra.isLt, fun _ => rfl⟩
theorem distance8 (extra : BitVec 3) : Statement (.distance8 extra) := fun _ => ⟨by decide, by decide, extra.isLt, fun _ => rfl⟩
theorem distance9 (extra : BitVec 3) : Statement (.distance9 extra) := fun _ => ⟨by decide, by decide, extra.isLt, fun _ => rfl⟩
theorem distance10 (extra : BitVec 4) : Statement (.distance10 extra) := fun _ => ⟨by decide, by decide, extra.isLt, fun _ => rfl⟩
theorem distance11 (extra : BitVec 4) : Statement (.distance11 extra) := fun _ => ⟨by decide, by decide, extra.isLt, fun _ => rfl⟩
theorem distance12 (extra : BitVec 5) : Statement (.distance12 extra) := fun _ => ⟨by decide, by decide, extra.isLt, fun _ => rfl⟩
theorem distance13 (extra : BitVec 5) : Statement (.distance13 extra) := fun _ => ⟨by decide, by decide, extra.isLt, fun _ => rfl⟩
theorem distance14 (extra : BitVec 6) : Statement (.distance14 extra) := fun _ => ⟨by decide, by decide, extra.isLt, fun _ => rfl⟩
theorem distance15 (extra : BitVec 6) : Statement (.distance15 extra) := fun _ => ⟨by decide, by decide, extra.isLt, fun _ => rfl⟩
theorem distance16 (extra : BitVec 7) : Statement (.distance16 extra) := fun _ => ⟨by decide, by decide, extra.isLt, fun _ => rfl⟩
theorem distance17 (extra : BitVec 7) : Statement (.distance17 extra) := fun _ => ⟨by decide, by decide, extra.isLt, fun _ => rfl⟩
theorem distance18 (extra : BitVec 8) : Statement (.distance18 extra) := fun _ => ⟨by decide, by decide, extra.isLt, fun _ => rfl⟩
theorem distance19 (extra : BitVec 8) : Statement (.distance19 extra) := fun _ => ⟨by decide, by decide, extra.isLt, fun _ => rfl⟩
theorem distance20 (extra : BitVec 9) : Statement (.distance20 extra) := fun _ => ⟨by decide, by decide, extra.isLt, fun _ => rfl⟩
theorem distance21 (extra : BitVec 9) : Statement (.distance21 extra) := fun _ => ⟨by decide, by decide, extra.isLt, fun _ => rfl⟩
theorem distance22 (extra : BitVec 10) : Statement (.distance22 extra) := fun _ => ⟨by decide, by decide, extra.isLt, fun _ => rfl⟩
theorem distance23 (extra : BitVec 10) : Statement (.distance23 extra) := fun _ => ⟨by decide, by decide, extra.isLt, fun _ => rfl⟩
theorem distance24 (extra : BitVec 11) : Statement (.distance24 extra) := fun _ => ⟨by decide, by decide, extra.isLt, fun _ => rfl⟩
theorem distance25 (extra : BitVec 11) : Statement (.distance25 extra) := fun _ => ⟨by decide, by decide, extra.isLt, fun _ => rfl⟩
theorem distance26 (extra : BitVec 12) : Statement (.distance26 extra) := fun _ => ⟨by decide, by decide, extra.isLt, fun _ => rfl⟩
theorem distance27 (extra : BitVec 12) : Statement (.distance27 extra) := fun _ => ⟨by decide, by decide, extra.isLt, fun _ => rfl⟩
theorem distance28 (extra : BitVec 13) : Statement (.distance28 extra) := fun _ => ⟨by decide, by decide, extra.isLt, fun _ => rfl⟩
theorem distance29 (extra : BitVec 13) : Statement (.distance29 extra) := fun _ => ⟨by decide, by decide, extra.isLt, fun _ => rfl⟩
theorem distanceReserved (odd : Bool) : Statement (.distanceReserved odd) := fun _ => ⟨by cases odd <;> decide, Nat.zero_le _, Nat.one_pos, fun h => absurd h (by cases odd <;> decide)⟩

/-- Every well-formed instruction's fields fit. -/
theorem all (i : Instr) : Statement i := by
  cases i with
  | encInit => exact encInit
  | encStepNo => exact encStepNo
  | encStepPartial => exact encStepPartial
  | encStepSync => exact encStepSync
  | encStepFull => exact encStepFull
  | encStepFinish => exact encStepFinish
  | encStepBlock => exact encStepBlock
  | encSetDict => exact encSetDict
  | decInit => exact decInit
  | decStep => exact decStep
  | decSetDict => exact decSetDict
  | decSync => exact decSync
  | endStream => exact endStream
  | blockStored final => exact blockStored final
  | blockFixed final => exact blockFixed final
  | blockDynamic final => exact blockDynamic final
  | blockReserved final => exact blockReserved final
  | storedLen len nlen => exact storedLen len nlen
  | dynamicCounts hlit hdist hclen => exact dynamicCounts hlit hdist hclen
  | codeLengthCodeLengths lens => exact codeLengthCodeLengths lens
  | clLength len => exact clLength len
  | clRepeatPrev extra => exact clRepeatPrev extra
  | clRepeatZeroShort extra => exact clRepeatZeroShort extra
  | clRepeatZeroLong extra => exact clRepeatZeroLong extra
  | literal byte => exact literal byte
  | endOfBlock => exact endOfBlock
  | length257 => exact length257
  | length258 => exact length258
  | length259 => exact length259
  | length260 => exact length260
  | length261 => exact length261
  | length262 => exact length262
  | length263 => exact length263
  | length264 => exact length264
  | length265 extra => exact length265 extra
  | length266 extra => exact length266 extra
  | length267 extra => exact length267 extra
  | length268 extra => exact length268 extra
  | length269 extra => exact length269 extra
  | length270 extra => exact length270 extra
  | length271 extra => exact length271 extra
  | length272 extra => exact length272 extra
  | length273 extra => exact length273 extra
  | length274 extra => exact length274 extra
  | length275 extra => exact length275 extra
  | length276 extra => exact length276 extra
  | length277 extra => exact length277 extra
  | length278 extra => exact length278 extra
  | length279 extra => exact length279 extra
  | length280 extra => exact length280 extra
  | length281 extra => exact length281 extra
  | length282 extra => exact length282 extra
  | length283 extra => exact length283 extra
  | length284 extra => exact length284 extra
  | length285 => exact length285
  | litlenReserved odd => exact litlenReserved odd
  | distance0 => exact distance0
  | distance1 => exact distance1
  | distance2 => exact distance2
  | distance3 => exact distance3
  | distance4 extra => exact distance4 extra
  | distance5 extra => exact distance5 extra
  | distance6 extra => exact distance6 extra
  | distance7 extra => exact distance7 extra
  | distance8 extra => exact distance8 extra
  | distance9 extra => exact distance9 extra
  | distance10 extra => exact distance10 extra
  | distance11 extra => exact distance11 extra
  | distance12 extra => exact distance12 extra
  | distance13 extra => exact distance13 extra
  | distance14 extra => exact distance14 extra
  | distance15 extra => exact distance15 extra
  | distance16 extra => exact distance16 extra
  | distance17 extra => exact distance17 extra
  | distance18 extra => exact distance18 extra
  | distance19 extra => exact distance19 extra
  | distance20 extra => exact distance20 extra
  | distance21 extra => exact distance21 extra
  | distance22 extra => exact distance22 extra
  | distance23 extra => exact distance23 extra
  | distance24 extra => exact distance24 extra
  | distance25 extra => exact distance25 extra
  | distance26 extra => exact distance26 extra
  | distance27 extra => exact distance27 extra
  | distance28 extra => exact distance28 extra
  | distance29 extra => exact distance29 extra
  | distanceReserved odd => exact distanceReserved odd

end Sys2Proof.Laws.OperandsFit
end

