-- ==== Sys2Proof/Tests/Slice0.lean ====
section
/-! SUPPORT. Sys2Proof/Tests/Slice0.lean: the model's own tests. Expected values come from spec/ (the tables and the test vectors
named beside them); the witnesses show a state and operands that meet the hypotheses of each statement together, clause by clause. -/

namespace Sys2Proof.Tests

set_option Elab.async false

open Sys2Proof Sys2Proof.Machine

/-! ## Helpers -/

/-- Bits as the spec writes them: in send order. -/
def b (l : List Nat) : List Bool := l.map (· == 1)

/-- The answer is a next state with this property. -/
def nextWith (a : Answer) (p : State → Bool) : Bool :=
  match a with
  | .next t => p t
  | _ => false

theorem of_nextWith {a : Answer} {p : State → Bool} (h : nextWith a p = true) : ∃ t, a = .next t ∧ p t = true := by
  unfold nextWith at h; split at h
  · exact ⟨_, rfl, h⟩
  · simp at h

def decOf (s : State) (p : Dec → Bool) : Bool :=
  match s.stream with
  | .dec d => p d
  | _ => false
def encOf (s : State) (p : Enc → Bool) : Bool :=
  match s.stream with
  | .enc e => p e
  | _ => false

/-- The bytes from an address on. -/
def bytesAt (m : Memory) (a : Nat) : Nat → List Byte
  | 0 => []
  | n + 1 => m.read a :: bytesAt m (a + 1) n

/-- A small complete code for each alphabet: 0, 1, 18 in two bits and 16, 17 in three; `a`, 256 in two and 257, 265, 285, 286 in
three; 0, 4, 29, 30 in two. -/
def clCode : Code := canonicalCode [2, 2, 0, 0, 0, 0, 0, 0, 0, 0, 0, 0, 0, 0, 0, 0, 3, 3, 2]
def litCode : Code :=
  canonicalCode ((((((List.replicate 288 0).set 97 2).set 256 2).set 257 3).set 265 3).set 285 3 |>.set 286 3)
def distCode : Code := canonicalCode ((((List.replicate 32 0).set 0 2).set 4 2).set 29 2 |>.set 30 2)
def codes : Codes := { cl := clCode, lit := litCode, dist := distCode }

/-- A decoder in a mode, holding these bits, with no history. -/
def decIn (m : DecMode) (bits : List Bool) : Dec :=
  { wbits := 8, allowSingleCode := false, dwin := .nil, wnext := 0, whave := 0, hold := natOfBits bits, bits := bits.length,
    mode := m, last := false, length := 0, offset := 0, extra := 0, nlen := 257, ndist := 1, ncode := 4, have_ := 0,
    lens := List.replicate 320 0, clcode := clCode, lencode := litCode, distcode := distCode, err := 0, started := true,
    syncHave := 0, seed := 0 }

/-- A decoder with the byte `a` as its history. -/
def decAfterA (m : DecMode) (bits : List Bool) : Dec := Dec.rememberAll [0x61] (decIn m bits)

/-- A state with a decoder, between commands: input at 0x100, output at 0x1000. -/
def st (d : Dec) (inLen outLen : Word) : State :=
  { State.reset with
    stream := .dec d, inAddr := 0x100, inLen := inLen, outAddr := 0x1000, outLen := outLen
    mem := [(0x100, 0x4B), (0x101, 0x04), (0x103, 0x61), (0x104, 0xFF), (0x105, 0xFF)] }

/-- The same inside a DEC_STEP. -/
def pt (d : Dec) (c p : Nat) (inLen outLen : Word) : State := { st d inLen outLen with phase := .decoding c p }

/-- The decoder's invariant as one decidable fact. -/
def okB (d : Dec) : Bool :=
  [decide (8 ≤ d.wbits ∧ d.wbits ≤ 15), d.dwin.wf d.wbits, decide (d.wnext < d.w), decide (d.whave ≤ d.w),
    decide (d.hold < 2 ^ d.bits), decide (d.bits ≤ 32), decide (d.mode = .bad ↔ d.err ≠ 0), decide (d.err ≤ 11),
    decide (d.lens.length = 320 ∧ ∀ v ∈ d.lens, v ≤ 15), decide (d.syncHave ≤ 4), decide (d.extra ≤ 13),
    decide (d.mode = .lenLens → d.ncode ≤ 19 ∧ d.have_ ≤ d.ncode ∧ d.nlen ≤ 286 ∧ d.ndist ≤ 30 ∧ 257 ≤ d.nlen),
    decide (d.mode = .codeLens → d.nlen ≤ 286 ∧ d.ndist ≤ 30 ∧ 257 ≤ d.nlen ∧ d.have_ ≤ d.nlen + d.ndist ∧ d.clcode.Over 19 ∧
      d.clcode.Complete),
    decide (d.mode ∈ [DecMode.len, .lenExt, .dist, .distExt, .copyMatch, .lit] → d.lencode.Over 288 ∧ d.distcode.Over 32)].all id

theorem ok_of {d : Dec} (h : okB d = true) : d.Ok := by
  unfold okB at h
  simp only [List.all_cons, List.all_nil, Bool.and_eq_true, id, decide_eq_true_eq] at h
  obtain ⟨h1, h2, h3, h4, h5, h6, h7, h8, h9, h10, h11, h12, h13, h14, -⟩ := h
  exact ⟨h1, h2, h3, h4, h5, h6, h7, h8, h9, h10, h11, h12, h13, h14⟩

theorem at_of {d : Dec} (m : DecMode) (c p : Nat) (i o : Word) (h : okB d = true) (hm : d.mode = m) (hl : d.last = false) :
    (pt d c p i o).At d c p m := ⟨rfl, rfl, hm, fun _ => hl, ok_of h⟩

theorem decOk_pt {d : Dec} {c p : Nat} {i o : Word} (h : okB d = true) (hc : c ≤ i.toNat) (hp : p ≤ o.toNat) :
    (pt d c p i o).DecOk := by
  refine ⟨fun d' hd => ?_, fun c' p' hp' => ?_⟩
  · obtain rfl : d = d' := by simpa [pt, st] using hd
    exact ok_of h
  · obtain ⟨rfl, rfl⟩ : c = c' ∧ p = p' := by simpa [pt] using hp'
    exact ⟨⟨d, rfl⟩, hc, hp⟩

theorem decOk_reset : State.reset.DecOk := ⟨fun _ h => (by cases h), fun _ _ h => (by cases h)⟩
theorem encOk_reset : State.reset.EncOk := fun _ h => by cases h

/-- A new encoder at level 6 in a 32 KiB window, and a state with an encoder. -/
def enc6 : Enc := Enc.fresh 6 .default 15
def stE (e : Enc) (inLen outLen : Word) : State := { st (decIn .type []) inLen outLen with stream := .enc e }

theorem ok_enc6 : enc6.Ok State.reset.params := Enc.ok_fresh (by decide) _ (by decide) _

/-! ## Well-formed terms -/

theorem test_wf_refuses_empty_clLens : (Instr.codeLengthCodeLengths []).wf = false := by decide
theorem test_wf_refuses_twenty_clLens : (Instr.codeLengthCodeLengths (List.replicate 20 0)).wf = false := by decide
theorem test_wf_takes_clLens :
    (Instr.codeLengthCodeLengths [0]).wf = true ∧ (Instr.codeLengthCodeLengths (List.replicate 19 7)).wf = true := by decide
theorem test_conforming_refuses :
    (Instr.blockReserved true).conforming = false ∧ (Instr.storedLen 5 5).conforming = false ∧
    (Instr.dynamicCounts 30 0 0).conforming = false ∧ (Instr.dynamicCounts 0 30 0).conforming = false ∧
    (Instr.codeLengthCodeLengths []).conforming = false ∧
    (Instr.litlenReserved false).conforming = false ∧ (Instr.distanceReserved true).conforming = false := by decide

/-! ## Decoding: words and bits written out from the spec -/

/-- V30. -/
theorem test_decode_commands :
    ([0x01, 0x02, 0x12, 0x22, 0x32, 0x42, 0x52, 0x03, 0x04, 0x05, 0x06, 0x07, 0x08] : List Word).map decodeCommand =
      [some .encInit, some .encStepNo, some .encStepPartial, some .encStepSync, some .encStepFull, some .encStepFinish,
        some .encStepBlock, some .encSetDict, some .decInit, some .decStep, some .decSetDict, some .decSync,
        some .endStream] := by decide
theorem test_decode_illegal_words :
    ([0x00, 0x09, 0x0F, 0x62, 0x72, 0x15, 0x81, 0x80000002] : List Word).map decodeCommand = List.replicate 8 none := by decide

/-- R111: BFINAL, then BTYPE least significant bit first. -/
theorem test_decode_headers :
    decodeWire .header (b [1, 0, 0]) = .element (.blockStored true) 3 ∧
    decodeWire .header (b [0, 1, 0]) = .element (.blockFixed false) 3 ∧
    decodeWire .header (b [1, 0, 1]) = .element (.blockDynamic true) 3 ∧
    decodeWire .header (b [0, 1, 1]) = .element (.blockReserved false) 3 ∧ decodeWire .header (b [1, 0]) = .more := by decide

/-- R112 with V13: LEN = 5 as `05 00`, NLEN as `fa ff`. -/
theorem test_decode_stored_pair :
    decodeWire .storedPair (b [1, 0, 1, 0, 0, 0, 0, 0, 0, 0, 0, 0, 0, 0, 0, 0,
      0, 1, 0, 1, 1, 1, 1, 1, 1, 1, 1, 1, 1, 1, 1, 1]) = .element (.storedLen 5 0xFFFA) 32 := by decide +kernel

/-- R118: HLIT in 5 bits, HDIST in 5, HCLEN in 4, each least significant bit first; then 3-bit fields. -/
theorem test_decode_dynamic_header :
    decodeWire .counts (b [1, 0, 1, 1, 1, 0, 1, 0, 0, 0, 1, 1, 0, 0]) = .element (.dynamicCounts 29 2 3) 14 ∧
    decodeWire (.clLens 4) (b [1, 1, 0, 0, 0, 1, 0, 0, 0, 1, 1, 1]) = .element (.codeLengthCodeLengths [3, 4, 0, 7]) 12 := by
  decide

/-- R120 in the code of `clCode`: symbol 1 is `01`, 16 `110`, 17 `111`, 18 `10`; the extra bits follow, least significant first. -/
theorem test_decode_cl_symbols :
    decodeWire (.clSymbol clCode) (b [0, 1]) = .element (.clLength 1) 2 ∧
    decodeWire (.clSymbol clCode) (b [1, 1, 0, 1, 0]) = .element (.clRepeatPrev 1) 5 ∧
    decodeWire (.clSymbol clCode) (b [1, 1, 1, 0, 1, 1]) = .element (.clRepeatZeroShort 6) 6 ∧
    decodeWire (.clSymbol clCode) (b [1, 0, 1, 0, 0, 0, 0, 0, 1]) = .element (.clRepeatZeroLong 65) 9 ∧
    decodeWire (.clSymbol clCode) (b [1, 0, 1, 0, 0, 0, 0, 0]) = .more := by decide +kernel

/-- V11 and V10: the fixed code at its range edges, and `a`. -/
theorem test_decode_literals :
    decodeWire (.litSymbol fixedLitCode) (b [0, 0, 1, 1, 0, 0, 0, 0]) = .element (.literal 0) 8 ∧
    decodeWire (.litSymbol fixedLitCode) (b [1, 0, 0, 1, 0, 0, 0, 1]) = .element (.literal 0x61) 8 ∧
    decodeWire (.litSymbol fixedLitCode) (b [1, 0, 1, 1, 1, 1, 1, 1]) = .element (.literal 143) 8 ∧
    decodeWire (.litSymbol fixedLitCode) (b [1, 1, 0, 0, 1, 0, 0, 0, 0]) = .element (.literal 144) 9 ∧
    decodeWire (.litSymbol fixedLitCode) (b [1, 1, 1, 1, 1, 1, 1, 1, 1]) = .element (.literal 255) 9 ∧
    decodeWire (.litSymbol fixedLitCode) (b [0, 0, 0, 0, 0, 0, 0]) = .element .endOfBlock 7 := by decide +kernel

/-- R116, R117: the reserved symbols 286, 287, 30 and 31. -/
theorem test_decode_reserved :
    decodeWire (.litSymbol fixedLitCode) (b [1, 1, 0, 0, 0, 1, 1, 0]) = .element (.litlenReserved false) 8 ∧
    decodeWire (.litSymbol fixedLitCode) (b [1, 1, 0, 0, 0, 1, 1, 1]) = .element (.litlenReserved true) 8 ∧
    decodeWire (.distSymbol fixedDistCode) (b [1, 1, 1, 1, 0]) = .element (.distanceReserved false) 5 ∧
    decodeWire (.distSymbol fixedDistCode) (b [1, 1, 1, 1, 1]) = .element (.distanceReserved true) 5 := by decide +kernel

/-! The length and distance symbols (R121, R122): the fixed codes of the opcode table, most significant bit first, then the extra
bits, least significant first. -/

theorem test_decode_lengths_0 :
  decodeWire (.litSymbol fixedLitCode) (b [0, 0, 0, 0, 0, 0, 1]) = .element .length257 7 ∧
  decodeWire (.litSymbol fixedLitCode) (b [0, 0, 0, 0, 0, 1, 0]) = .element .length258 7 ∧
  decodeWire (.litSymbol fixedLitCode) (b [0, 0, 0, 0, 0, 1, 1]) = .element .length259 7 ∧
  decodeWire (.litSymbol fixedLitCode) (b [0, 0, 0, 0, 1, 0, 0]) = .element .length260 7 ∧
  decodeWire (.litSymbol fixedLitCode) (b [0, 0, 0, 0, 1, 0, 1]) = .element .length261 7 ∧
  decodeWire (.litSymbol fixedLitCode) (b [0, 0, 0, 0, 1, 1, 0]) = .element .length262 7 ∧
  decodeWire (.litSymbol fixedLitCode) (b [0, 0, 0, 0, 1, 1, 1]) = .element .length263 7 ∧
  decodeWire (.litSymbol fixedLitCode) (b [0, 0, 0, 1, 0, 0, 0]) = .element .length264 7 ∧
  decodeWire (.litSymbol fixedLitCode) (b [0, 0, 0, 1, 0, 0, 1, 1]) = .element (.length265 1) 8 ∧
  decodeWire (.litSymbol fixedLitCode) (b [0, 0, 0, 1, 0, 1, 0, 1]) = .element (.length266 1) 8 := by decide +kernel

theorem test_decode_lengths_1 :
  decodeWire (.litSymbol fixedLitCode) (b [0, 0, 0, 1, 0, 1, 1, 1]) = .element (.length267 1) 8 ∧
  decodeWire (.litSymbol fixedLitCode) (b [0, 0, 0, 1, 1, 0, 0, 1]) = .element (.length268 1) 8 ∧
  decodeWire (.litSymbol fixedLitCode) (b [0, 0, 0, 1, 1, 0, 1, 1, 0]) = .element (.length269 1) 9 ∧
  decodeWire (.litSymbol fixedLitCode) (b [0, 0, 0, 1, 1, 1, 0, 1, 0]) = .element (.length270 1) 9 ∧
  decodeWire (.litSymbol fixedLitCode) (b [0, 0, 0, 1, 1, 1, 1, 1, 0]) = .element (.length271 1) 9 ∧
  decodeWire (.litSymbol fixedLitCode) (b [0, 0, 1, 0, 0, 0, 0, 1, 0]) = .element (.length272 1) 9 ∧
  decodeWire (.litSymbol fixedLitCode) (b [0, 0, 1, 0, 0, 0, 1, 1, 0, 1]) = .element (.length273 5) 10 ∧
  decodeWire (.litSymbol fixedLitCode) (b [0, 0, 1, 0, 0, 1, 0, 1, 0, 1]) = .element (.length274 5) 10 ∧
  decodeWire (.litSymbol fixedLitCode) (b [0, 0, 1, 0, 0, 1, 1, 1, 0, 1]) = .element (.length275 5) 10 ∧
  decodeWire (.litSymbol fixedLitCode) (b [0, 0, 1, 0, 1, 0, 0, 1, 0, 1]) = .element (.length276 5) 10 := by decide +kernel

theorem test_decode_lengths_2 :
  decodeWire (.litSymbol fixedLitCode) (b [0, 0, 1, 0, 1, 0, 1, 0, 1, 0, 1]) = .element (.length277 10) 11 ∧
  decodeWire (.litSymbol fixedLitCode) (b [0, 0, 1, 0, 1, 1, 0, 0, 1, 0, 1]) = .element (.length278 10) 11 ∧
  decodeWire (.litSymbol fixedLitCode) (b [0, 0, 1, 0, 1, 1, 1, 0, 1, 0, 1]) = .element (.length279 10) 11 ∧
  decodeWire (.litSymbol fixedLitCode) (b [1, 1, 0, 0, 0, 0, 0, 0, 0, 1, 0, 1]) = .element (.length280 10) 12 ∧
  decodeWire (.litSymbol fixedLitCode) (b [1, 1, 0, 0, 0, 0, 0, 1, 1, 0, 1, 0, 1]) = .element (.length281 21) 13 ∧
  decodeWire (.litSymbol fixedLitCode) (b [1, 1, 0, 0, 0, 0, 1, 0, 1, 0, 1, 0, 1]) = .element (.length282 21) 13 ∧
  decodeWire (.litSymbol fixedLitCode) (b [1, 1, 0, 0, 0, 0, 1, 1, 1, 0, 1, 0, 1]) = .element (.length283 21) 13 ∧
  decodeWire (.litSymbol fixedLitCode) (b [1, 1, 0, 0, 0, 1, 0, 0, 1, 0, 1, 0, 1]) = .element (.length284 21) 13 ∧
  decodeWire (.litSymbol fixedLitCode) (b [1, 1, 0, 0, 0, 1, 0, 1]) = .element .length285 8 := by decide +kernel

theorem test_decode_distances_0 :
  decodeWire (.distSymbol fixedDistCode) (b [0, 0, 0, 0, 0]) = .element .distance0 5 ∧
  decodeWire (.distSymbol fixedDistCode) (b [0, 0, 0, 0, 1]) = .element .distance1 5 ∧
  decodeWire (.distSymbol fixedDistCode) (b [0, 0, 0, 1, 0]) = .element .distance2 5 ∧
  decodeWire (.distSymbol fixedDistCode) (b [0, 0, 0, 1, 1]) = .element .distance3 5 ∧
  decodeWire (.distSymbol fixedDistCode) (b [0, 0, 1, 0, 0, 1]) = .element (.distance4 1) 6 ∧
  decodeWire (.distSymbol fixedDistCode) (b [0, 0, 1, 0, 1, 1]) = .element (.distance5 1) 6 ∧
  decodeWire (.distSymbol fixedDistCode) (b [0, 0, 1, 1, 0, 1, 0]) = .element (.distance6 1) 7 ∧
  decodeWire (.distSymbol fixedDistCode) (b [0, 0, 1, 1, 1, 1, 0]) = .element (.distance7 1) 7 ∧
  decodeWire (.distSymbol fixedDistCode) (b [0, 1, 0, 0, 0, 1, 0, 1]) = .element (.distance8 5) 8 ∧
  decodeWire (.distSymbol fixedDistCode) (b [0, 1, 0, 0, 1, 1, 0, 1]) = .element (.distance9 5) 8 := by decide +kernel

theorem test_decode_distances_1 :
  decodeWire (.distSymbol fixedDistCode) (b [0, 1, 0, 1, 0, 0, 1, 0, 1]) = .element (.distance10 10) 9 ∧
  decodeWire (.distSymbol fixedDistCode) (b [0, 1, 0, 1, 1, 0, 1, 0, 1]) = .element (.distance11 10) 9 ∧
  decodeWire (.distSymbol fixedDistCode) (b [0, 1, 1, 0, 0, 1, 0, 1, 0, 1]) = .element (.distance12 21) 10 ∧
  decodeWire (.distSymbol fixedDistCode) (b [0, 1, 1, 0, 1, 1, 0, 1, 0, 1]) = .element (.distance13 21) 10 ∧
  decodeWire (.distSymbol fixedDistCode) (b [0, 1, 1, 1, 0, 0, 1, 1, 0, 0, 1]) = .element (.distance14 38) 11 ∧
  decodeWire (.distSymbol fixedDistCode) (b [0, 1, 1, 1, 1, 0, 1, 1, 0, 0, 1]) = .element (.distance15 38) 11 ∧
  decodeWire (.distSymbol fixedDistCode) (b [1, 0, 0, 0, 0, 1, 0, 1, 0, 0, 0, 1]) = .element (.distance16 69) 12 ∧
  decodeWire (.distSymbol fixedDistCode) (b [1, 0, 0, 0, 1, 1, 0, 1, 0, 0, 0, 1]) = .element (.distance17 69) 12 ∧
  decodeWire (.distSymbol fixedDistCode) (b [1, 0, 0, 1, 0, 0, 1, 1, 0, 0, 0, 0, 1]) = .element (.distance18 134) 13 ∧
  decodeWire (.distSymbol fixedDistCode) (b [1, 0, 0, 1, 1, 0, 1, 1, 0, 0, 0, 0, 1]) = .element (.distance19 134) 13 := by decide +kernel

theorem test_decode_distances_2 :
  decodeWire (.distSymbol fixedDistCode) (b [1, 0, 1, 0, 0, 1, 0, 1, 0, 0, 0, 0, 0, 1]) = .element (.distance20 261) 14 ∧
  decodeWire (.distSymbol fixedDistCode) (b [1, 0, 1, 0, 1, 1, 0, 1, 0, 0, 0, 0, 0, 1]) = .element (.distance21 261) 14 ∧
  decodeWire (.distSymbol fixedDistCode) (b [1, 0, 1, 1, 0, 0, 1, 1, 0, 0, 0, 0, 0, 0, 1]) = .element (.distance22 518) 15 ∧
  decodeWire (.distSymbol fixedDistCode) (b [1, 0, 1, 1, 1, 0, 1, 1, 0, 0, 0, 0, 0, 0, 1]) = .element (.distance23 518) 15 ∧
  decodeWire (.distSymbol fixedDistCode) (b [1, 1, 0, 0, 0, 1, 0, 1, 0, 0, 0, 0, 0, 0, 0, 1]) = .element (.distance24 1029) 16 ∧
  decodeWire (.distSymbol fixedDistCode) (b [1, 1, 0, 0, 1, 1, 0, 1, 0, 0, 0, 0, 0, 0, 0, 1]) = .element (.distance25 1029) 16 ∧
  decodeWire (.distSymbol fixedDistCode) (b [1, 1, 0, 1, 0, 0, 1, 1, 0, 0, 0, 0, 0, 0, 0, 0, 1]) = .element (.distance26 2054) 17 ∧
  decodeWire (.distSymbol fixedDistCode) (b [1, 1, 0, 1, 1, 0, 1, 1, 0, 0, 0, 0, 0, 0, 0, 0, 1]) = .element (.distance27 2054) 17 ∧
  decodeWire (.distSymbol fixedDistCode) (b [1, 1, 1, 0, 0, 1, 0, 1, 0, 0, 0, 0, 0, 0, 0, 0, 0, 1]) = .element (.distance28 4101) 18 ∧
  decodeWire (.distSymbol fixedDistCode) (b [1, 1, 1, 0, 1, 1, 0, 1, 0, 0, 0, 0, 0, 0, 0, 0, 0, 1]) = .element (.distance29 4101) 18 := by decide +kernel

/-- V12. -/
theorem test_lcode_dcode :
    [3, 10, 11, 12, 257, 258].map lcode = [(257, 0, 0), (264, 0, 0), (265, 1, 0), (265, 1, 1), (284, 5, 30), (285, 0, 0)] ∧
    [1, 4, 5, 32768].map dcode = [(0, 0, 0), (3, 0, 0), (4, 1, 0), (29, 13, 8191)] := by decide

/-- V21, in symbol order A, B, C, D. -/
theorem test_canonical_code :
    (canonicalCode [2, 1, 3, 3]).map (fun e => (e.sym, e.len, e.canon)) = [(0, 2, 2), (1, 1, 0), (2, 3, 6), (3, 3, 7)] := by decide

/-- V7: the Kraft sum of a complete code, and R331's own examples. -/
theorem test_acceptable :
    Code.kraft (canonicalCode [1, 2, 3, 3]) = 2 ^ 15 ∧ acceptable false [1, 1, 1, 1] .lens = false ∧
    acceptable false [2] .dists = false ∧ acceptable false [0, 0] .dists = true ∧ acceptable false [0, 0] .lens = false ∧
    acceptable true [1] .dists = true ∧ acceptable true [1] .codes = false := by decide

/-! ## The table's words: what the decoder reads, and what a step runs -/

theorem test_table_words :
    decodeTableWord 32 0x42 = some .encStepFinish ∧ decodeTableWord 32 0xFFFA0005 = some (.storedLen 5 0xFFFA) ∧
    decodeTableWord 16 0x0005 = some (.storedLen 5 0) ∧ decodeTableWord 8 2 = some (.blockFixed false) ∧
    decodeTableWord 8 5 = some (.blockDynamic true) ∧ decodeTableWord 32 0x62 = none := by decide

theorem test_fetch_command : nextWith (step (State.reset.withFetchWord 32 0x01))
    (fun t => encOf t (fun e => e.level == 6 && e.wbits == 15) && t.status.mode == 1 && t.phase == .idle) = true := by
  decide +kernel
theorem test_fetch_header : nextWith (step (State.reset.withFetchWord 8 4))
    (fun t => decOf t fun d => d.mode == .table && !d.last && d.bits == 5) = true := by decide +kernel
theorem test_fetch_stored_pair : nextWith (step (State.reset.withFetchWord 16 0x0005))
    (fun t => decOf t (fun d => d.mode == .bad && d.err == 2) && t.status.result == .malformedStream) = true := by decide +kernel

/-! ## Commands, one step each -/

/-- V31. -/
theorem test_encInit_cfg :
    (([0x00000F06, 0x00000800, 0x00000F0A, 0x00000F46, 0x00000706, 0x00000F86, 0x00001F06] : List Word).map fun c =>
      nextWith (exec .encInit { State.reset with cfg := c, phase := .command 1 }) fun t => t.status.result == .ok) =
    [true, true, false, false, false, false, false] := by decide +kernel
theorem test_decInit_cfg :
    (([0x00000F06, 0x00000800, 0x00000F0A, 0x00000F46, 0x00000706, 0x00000F86, 0x00001F06] : List Word).map fun c =>
      nextWith (exec .decInit { State.reset with cfg := c, phase := .command 4 }) fun t => t.status.result == .ok) =
    [true, true, true, true, false, false, false] := by decide +kernel

/-- V14, V16: `a` with each flush mode, the first bytes out. -/
theorem test_encStepFinish_a : nextWith (exec .encStepFinish { stE enc6 1 64 with inAddr := 0x103 })
    (fun t => bytesAt t.mem 0x1000 4 == [0x4B, 0x04, 0x00, 0x00] && t.totalOut == 3 && t.status.result == .streamEnd) = true := by
  decide +kernel
theorem test_encStepNo_a : nextWith (exec .encStepNo { stE enc6 1 64 with inAddr := 0x103 })
    (fun t => t.totalOut == 0 && t.totalIn == 1 && t.inLen == 0 && t.status.result == .needMoreInput) = true := by decide +kernel
/-- V17: `00 00 00 ff ff`, and the duplicate flush is suppressed. -/
theorem test_encStepSync_empty : nextWith (exec .encStepSync (stE enc6 0 64))
    (fun t => bytesAt t.mem 0x1000 5 == [0x00, 0x00, 0x00, 0xFF, 0xFF] && t.totalOut == 5 &&
      nextWith (exec .encStepSync t) fun u => u.totalOut == 5 && u.status.result == .needMoreInput) = true := by decide +kernel
theorem test_encStepFull_empty : nextWith (exec .encStepFull (stE enc6 0 64))
    (fun t => bytesAt t.mem 0x1000 5 == [0x00, 0x00, 0x00, 0xFF, 0xFF] && t.totalOut == 5) = true := by decide +kernel
/-- R292 and R246: after six equal bytes and a FULL flush the position is 0 again and no chain holds a position. -/
theorem test_encStepFull_forgets : nextWith (exec .encStepFull (stE enc6 6 64))
    (fun t => t.totalIn == 6 && encOf t fun e =>
      e.strstart == 0 && e.insert == 0 && e.blockStart == 0 && e.head == .nil && e.prev == .nil) = true := by decide +kernel
/-- R290: ten bits, of which the last two are still held. -/
theorem test_encStepPartial_empty : nextWith (exec .encStepPartial (stE enc6 0 64))
    (fun t => bytesAt t.mem 0x1000 2 == [0x02, 0x00] && t.totalOut == 1 && encOf t fun e => e.bw.biValid == 2) = true := by
  decide +kernel
theorem test_encStepBlock_empty : nextWith (exec .encStepBlock (stE enc6 0 64))
    (fun t => t.totalOut == 0 && t.status.result == .needMoreInput) = true := by decide +kernel
/-- R230, R242, R236: a match found at index EW-1, at distance MAX_DIST, is sent at that distance after a slide. -/
theorem test_emitPrevMatch_after_slide :
    let e := ({ enc6 with strstart := 65274, matchStart := 32767, prevLength := 3, lookahead := 5 } : Enc).slide
    (({ e with prevMatch := e.matchStart } : Enc).emitPrevMatch Config.defaults).syms = [.copy 32506 3] := by decide +kernel
/-- V14 at level 0. -/
theorem test_encStepFinish_stored : nextWith (exec .encStepFinish { stE (Enc.fresh 0 .default 15) 1 64 with inAddr := 0x103 })
    (fun t => bytesAt t.mem 0x1000 6 == [0x01, 0x01, 0x00, 0xFE, 0xFF, 0x61] && t.totalOut == 6) = true := by decide +kernel
/-- R392, R245. -/
theorem test_encSetDict : nextWith (exec .encSetDict (stE enc6 6 64))
    (fun t => t.inLen == 6 && t.status.result == .ok && encOf t fun e =>
      e.strstart == 6 && e.insert == 2 && e.blockStart == 6 && e.winByte 0 == 0x4B && e.winByte 5 == 0xFF) = true := by
  decide +kernel
/-- V22: `4b 04 00` decodes to `a`. -/
theorem test_decStep_a : nextWith (exec .decStep (st (decIn .type []) 3 64))
    (fun t => bytesAt t.mem 0x1000 2 == [0x61, 0x00] && t.totalOut == 1 && t.totalIn == 3 && t.status.result == .streamEnd) =
    true := by decide +kernel
/-- V23: `ff` is a reserved block type, sub-kind 1. -/
theorem test_decStep_malformed : nextWith (exec .decStep { st (decIn .type []) 1 64 with inAddr := 0x104 })
    (fun t => t.status == { result := .malformedStream, subkind := 1, mode := 2, estate := 13 } && t.totalIn == 1 &&
      t.totalOut == 0) = true := by decide +kernel
/-- R366: the last byte of the dictionary is the newest history. -/
theorem test_decSetDict : nextWith (exec .decSetDict (st { decIn .type [] with started := false } 2 64))
    (fun t => t.inLen == 2 && decOf t fun d => d.back 1 == 0x04 && d.back 2 == 0x4B && d.whave == 2) = true := by decide +kernel
/-- V29: after the marker the decoder is at TYPE; the bytes up to its end are consumed. -/
theorem test_decSync : nextWith (exec .decSync { st (decIn .type [])  4 0 with mem := [(0x102, 0xFF), (0x103, 0xFF), (0x104, 1)] })
    (fun t => t.status.result == .ok && t.totalIn == 4 && t.inLen == 0 && decOf t fun d => d.mode == .type && d.started) =
    true := by decide +kernel
/-- R68 and D20: after the first DEC_SYNC, though it had no input, DEC_SET_DICT is refused. -/
theorem test_decSync_no_input : nextWith (exec .decSync (st { decIn .type [] with started := false } 0 64))
    (fun t => t.status.result == .needMoreInput &&
      nextWith (exec .decSetDict t) fun u => u.status.result == .invalidCommand) = true := by decide +kernel
/-- R410's example: the totals stay readable. -/
theorem test_end : nextWith (exec .endStream { stE enc6 0 0 with totalIn := 5, totalOut := 7 })
    (fun t => t.statusWord == 0 && t.totalIn == 5 && t.totalOut == 7 && t.stream == .none) = true := by decide +kernel

/-! ## Elements, one step each -/

theorem test_blockStored : nextWith (exec (.blockStored true) (pt (decIn .type (b [1, 0, 0, 1])) 0 0 0 9))
    (fun t => decOf t fun d => d.mode == .stored && d.last && d.hold == 1 && d.bits == 1) = true := by decide +kernel
theorem test_blockFixed : nextWith (exec (.blockFixed false) (pt (decIn .type (b [0, 1, 0])) 0 0 0 9))
    (fun t => decOf t fun d => d.mode == .len && !d.last && d.lencode == fixedLitCode && d.distcode == fixedDistCode) = true := by
  decide +kernel
theorem test_blockDynamic : nextWith (exec (.blockDynamic true) (pt (decIn .type (b [1, 0, 1])) 0 0 0 9))
    (fun t => decOf t fun d => d.mode == .table && d.last) = true := by decide +kernel
theorem test_blockReserved : nextWith (exec (.blockReserved true) (pt (decIn .type (b [1, 1, 1])) 0 0 0 9))
    (fun t => t.status == { result := .malformedStream, subkind := 1, mode := 2, estate := 13 }) = true := by decide +kernel
/-- A stored block of 2 bytes with space for 1 (R322): COPY is left with 1 byte to go. -/
theorem test_storedLen : nextWith (exec (.storedLen 2 0xFFFD) (pt (decIn .stored (bitsOf 32 0xFFFD0002)) 0 0 6 1))
    (fun t => bytesAt t.mem 0x1000 2 == [0x4B, 0x00] && t.status.result == .needMoreOutput && t.inLen == 5 && t.outLen == 0 &&
      decOf t fun d => d.mode == .copy && d.length == 1 && d.bits == 0 && d.back 1 == 0x4B) = true := by decide +kernel
/-- V23: 287 literal/length codes, 31 distance codes. -/
theorem test_dynamicCounts :
    (([(29, 29), (30, 0), (29, 30)] : List (BitVec 5 × BitVec 5)).map fun x =>
      nextWith (exec (.dynamicCounts x.1 x.2 15) (pt (decIn .table (List.replicate 14 true)) 0 0 0 9)) fun t =>
        decOf t fun d => d.mode == .lenLens && d.nlen == 286 && d.ndist == 30 && d.ncode == 19) = [true, false, false] := by
  decide +kernel
/-- V23 (sub-kind 4): four fields, only symbol 16 with a length; and with 17 as well the code is complete. The fourth field is for
symbol 0. -/
theorem test_codeLengthCodeLengths :
    nextWith (exec (.codeLengthCodeLengths [1, 0, 0, 0]) (pt (decIn .lenLens (List.replicate 12 false)) 0 0 0 9))
      (fun t => t.status.subkind == 4) = true ∧
    nextWith (exec (.codeLengthCodeLengths [1, 2, 0, 2]) (pt (decIn .lenLens (List.replicate 12 false)) 0 0 0 9))
      (fun t => decOf t fun d => d.mode == .codeLens && d.have_ == 0 && d.lens.getD 16 0 == 1 && d.lens.getD 17 0 == 2 &&
        d.lens.getD 0 0 == 2) = true := by decide +kernel
/-- The fields come in two parts: two fields held, two awaited. -/
theorem test_codeLengthCodeLengths_short :
    nextWith (exec (.codeLengthCodeLengths [1, 2, 0, 2]) (pt (decIn .lenLens (List.replicate 8 false)) 0 0 0 9))
      (fun t => t.status.result == .needMoreInput && decOf t fun d => d.have_ == 2 && d.bits == 2) = true := by decide +kernel
/-- R326, R327: one length, the last one 3 to 6 times, zeros 3 to 10 and 11 to 138 times. -/
theorem test_clSymbols :
    let d := { decIn .codeLens (List.replicate 12 true) with have_ := 2, lens := [4, 5] ++ List.replicate 318 9 }
    nextWith (exec (.clLength 1) (pt d 0 0 0 9)) (fun t => decOf t fun d => d.lens.take 4 == [4, 5, 1, 9] && d.have_ == 3) = true ∧
    nextWith (exec (.clRepeatPrev 1) (pt d 0 0 0 9))
      (fun t => decOf t fun d => d.lens.take 8 == [4, 5, 5, 5, 5, 5, 9, 9] && d.have_ == 6 && d.bits == 7) = true ∧
    nextWith (exec (.clRepeatZeroShort 7) (pt d 0 0 0 9)) (fun t => decOf t fun d => d.have_ == 12 && d.lens.getD 11 1 == 0) = true ∧
    nextWith (exec (.clRepeatZeroLong 127) (pt d 0 0 0 9))
      (fun t => decOf t fun d => d.have_ == 140 && d.lens.getD 139 1 == 0 && d.lens.getD 140 1 == 9 && d.bits == 3) = true := by
  decide +kernel
theorem test_literal : nextWith (exec (.literal 0x61) (pt (decIn .len (b [0, 0, 1])) 0 0 0 1))
    (fun t => bytesAt t.mem 0x1000 1 == [0x61] && t.phase == .decoding 0 1 && t.totalOut == 1 &&
      decOf t fun d => d.mode == .len && d.hold == 1 && d.bits == 1 && d.back 1 == 0x61) = true := by decide +kernel
theorem test_literal_full : nextWith (exec (.literal 0x61) (pt (decIn .len (b [0, 0])) 0 0 0 0))
    (fun t => t.status.result == .needMoreOutput && decOf t fun d => d.mode == .lit && d.length == 0x61) = true := by
  decide +kernel
theorem test_endOfBlock : nextWith (exec .endOfBlock (pt (decIn .len (b [0, 1, 1])) 0 0 0 1))
    (fun t => decOf t fun d => d.mode == .type && d.bits == 1) = true := by decide +kernel

/-- R121: every length symbol with its largest extra value, against the ranges of the opcode table (284 reaches 258). -/
theorem test_length_symbols :
    ∀ x ∈ ([
    (.length257, 3), (.length258, 4), (.length259, 5), (.length260, 6), (.length261, 7), (.length262, 8), (.length263, 9),
    (.length264, 10), (.length265 1, 12), (.length266 1, 14), (.length267 1, 16), (.length268 1, 18), (.length269 3, 22),
    (.length270 3, 26), (.length271 3, 30), (.length272 3, 34), (.length273 7, 42), (.length274 7, 50), (.length275 7, 58),
    (.length276 7, 66), (.length277 15, 82), (.length278 15, 98), (.length279 15, 114), (.length280 15, 130),
    (.length281 31, 162), (.length282 31, 194), (.length283 31, 226), (.length284 31, 258), (.length285, 258)] : List (Instr × Nat)),
      nextWith (exec x.1 (pt { decIn .len (List.replicate 16 true) with lencode := [] } 0 0 0 1))
        (fun t => decOf t fun d => d.mode == .dist && d.length == x.2) = true := by decide +kernel
/-- R122: every distance symbol with its largest extra value, against the ranges of the opcode table. With no history each but none is
too far (sub-kind 11). -/
theorem test_distance_symbols :
    ∀ x ∈ ([
    (.distance0, 1), (.distance1, 2), (.distance2, 3), (.distance3, 4), (.distance4 1, 6), (.distance5 1, 8),
    (.distance6 3, 12), (.distance7 3, 16), (.distance8 7, 24), (.distance9 7, 32), (.distance10 15, 48), (.distance11 15, 64),
    (.distance12 31, 96), (.distance13 31, 128), (.distance14 63, 192), (.distance15 63, 256), (.distance16 127, 384),
    (.distance17 127, 512), (.distance18 255, 768), (.distance19 255, 1024), (.distance20 511, 1536), (.distance21 511, 2048),
    (.distance22 1023, 3072), (.distance23 1023, 4096), (.distance24 2047, 6144), (.distance25 2047, 8192),
    (.distance26 4095, 12288), (.distance27 4095, 16384), (.distance28 8191, 24576), (.distance29 8191, 32768)] : List (Instr × Nat)),
      nextWith (exec x.1 (pt { decIn .dist (List.replicate 16 true) with distcode := [] } 0 0 0 1))
        (fun t => decOf t fun d => d.err == 11 && d.offset == x.2) = true := by decide +kernel
/-- V9: distance 1, length 3, after one `a`; and with space for two bytes the rest is owed. -/
theorem test_distance_copies :
    nextWith (exec .distance0 (pt { decAfterA .dist (b [0, 0]) with length := 3 } 0 0 0 3))
      (fun t => bytesAt t.mem 0x1000 3 == [0x61, 0x61, 0x61] && t.phase == .decoding 0 3 &&
        decOf t fun d => d.mode == .len && d.whave == 4) = true ∧
    nextWith (exec .distance0 (pt { decAfterA .dist (b [0, 0]) with length := 3 } 0 0 0 2))
      (fun t => t.totalOut == 2 && t.status.result == .needMoreOutput && decOf t fun d => d.mode == .copyMatch && d.length == 1) =
        true := by decide +kernel
theorem test_reserved_symbols :
    nextWith (exec (.litlenReserved false) (pt (decIn .len (b [1, 1, 1])) 0 0 0 1)) (fun t => t.status.subkind == 9) = true ∧
    nextWith (exec (.distanceReserved false) (pt (decIn .dist (b [1, 1])) 0 0 0 1)) (fun t => t.status.subkind == 10) = true := by
  decide +kernel
theorem test_out_of_place : exec .endOfBlock State.reset = .refused .elementOutOfPlace := rfl

/-! ## The host -/

/-- R87, R39. -/
theorem test_register_window :
    hostAccess (.regWrite 0x04 2 0) State.reset = .refused .narrowRegisterAccess ∧
    nextWith (hostAccess (.regWrite 0x08 4 0xDEADBEEF) State.reset) (fun t => t.inAddr == 0xDEADBEEF) = true ∧
    nextWith (hostAccess (.regWrite 0x08 4 0xDEADBEEF) (pt (decIn .type []) 0 0 0 0)) (fun t => t.inAddr == 0x100) = true ∧
    nextWith (hostAccess (.regRead 0x18 4) (pt (decIn .type []) 0 0 0 0)) (fun t => t.readData == 0x80000000) = true ∧
    nextWith (hostAccess (.regRead 0x24 4) State.reset) (fun t => t.readData == 0) = true :=
  ⟨rfl, by decide +kernel, by decide +kernel, by decide +kernel, by decide +kernel⟩
theorem test_memory_write_keeps_form :
    Memory.write [(5, 7)] 3 1 = [(3, 1), (5, 7)] ∧ Memory.write [(3, 1), (5, 7)] 5 0 = [(3, 1)] ∧
    Memory.write [] 9 0 = [] := by decide

/-! ## Witnesses: the hypotheses of the statements can be met, clause by clause -/

theorem witness_ResetState : decodeCommand 0x05 = some .decStep ∧ Instr.decStep ≠ .encInit ∧ Instr.decStep ≠ .decInit := by decide

theorem witness_ResetAbandonsTheCommand :
    (State.reset.mem.wf = true ∧ State.reset.phase = .idle) ∧ decodeCommand 0x09 = none ∧
    ((pt (decIn .type []) 0 0 6 6).mem.wf = true ∧ (pt (decIn .type []) 0 0 6 6).phase = .decoding 0 0) ∧
    ∃ (s : State) (w : Word) (i : Instr) (u : State), s.mem.wf = true ∧ s.phase = .command w ∧ decodeCommand w = some i ∧ exec i s = .next u ∧
      0 < (s.outLen - u.outLen).toNat := by
  refine ⟨by decide, by decide, by decide +kernel, { st (decIn .type []) 3 64 with phase := .command 5 }, 5, .decStep, ?_⟩
  obtain ⟨u, h, hu⟩ := of_nextWith (a := exec .decStep { st (decIn .type []) 3 64 with phase := .command 5 })
    (p := fun u => decide (0 < ((64 : Word) - u.outLen).toNat)) (by decide +kernel)
  exact ⟨u, by decide, rfl, rfl, h, by simpa [st] using hu⟩

theorem witness_RegisterWindow : State.reset.phase = .idle := rfl

theorem witness_RegistersStandStillWhileBusy :
    (∀ off ∈ [0x00, 0x14, 0xFFFFFFFC], (pt (decIn .len (b [0, 0])) 0 0 1 1).phase ≠ .idle ∧ (BitVec.ofNat 32 off).toNat % 4 = 0) ∧
    (∃ (t : State), (pt (decIn .len (b [0, 0])) 0 0 1 1).DecOk ∧ (pt (decIn .len (b [0, 0])) 0 0 1 1).phase = .decoding 0 0 ∧
      engineStep (pt (decIn .len (b [0, 0])) 0 0 1 1) = .next t ∧ t.phase ≠ .idle) ∧
    (State.reset.phase = .idle ∧ (0x14 : Nat) ≠ 0x18) ∧
    (∀ n ∈ [0x18, 0x1C, 0x20, 0x24, 0xFFFFFFFC], let off := BitVec.ofNat 32 n
      off.toNat % 4 = 0 ∧ (off = 0x18 ∨ off = 0x1C ∨ off = 0x20 ∨ 0x24 ≤ off.toNat)) ∧
    (∀ n ∈ [0x00, 0x24, 0xFFFFFFFC], let off := BitVec.ofNat 32 n
      off.toNat % 4 = 0 ∧ (off = 0 ∨ 0x24 ≤ off.toNat)) := by
  refine ⟨by decide +kernel, ?_, by decide, by decide +kernel, by decide +kernel⟩
  obtain ⟨t, h, ht⟩ := of_nextWith (a := engineStep (pt (decIn .len (b [0, 0])) 0 0 1 1)) (p := fun t => t.phase != .idle)
    (by decide +kernel)
  exact ⟨t, decOk_pt (by decide +kernel) (by decide) (by decide), rfl, h, by simpa using ht⟩

/-- An idle machine; a running command with the first and the last byte of both buffers, and those next to them; the commands that use
the buffers; a device with one byte in the input buffer. -/
theorem witness_HostMemoryAccess :
    (¬ State.reset.Uses 0x100 ∧ State.reset.mem.wf = true) ∧
    (∀ n ∈ [0x100, 0x105, 0x1000, 0x1001], (pt (decIn .type []) 0 0 6 2).Uses n) ∧
    (∀ n ∈ [0xFF, 0x106, 0xFFF, 0x1002], ¬ (pt (decIn .type []) 0 0 6 2).Uses n) ∧
    (∀ w ∈ [0x02, 0x12, 0x22, 0x32, 0x42, 0x52, 0x05, 0x03, 0x06, 0x07],
      ({ st (decIn .type []) 6 2 with phase := .command (BitVec.ofNat 32 w) } : State).Uses 0x105) ∧
    ((1 : Nat) ≠ 4 ∧ ((0x1E : Word) - State.reset.params.regBase).toNat % 4 ≠ 0) ∧
    ({ pt (decIn .type []) 0 0 6 2 with params := { Config.defaults with devices := [(0x105, 7)] } } : State).quiet := by
  refine ⟨⟨?_, by decide⟩, fun n hn => .inl ⟨⟨0, 0, rfl⟩, ?_⟩, fun n hn hu => ?_, fun w hw => .inr ?_, by decide, ?_⟩
  · rintro (⟨⟨_, _, h⟩, _⟩ | ⟨_, _, h, _⟩) <;> cases h
  · revert n; decide +kernel
  · rcases hu with ⟨_, hu⟩ | ⟨_, _, h, _⟩
    · revert n; decide +kernel
    · cases h
  · fin_cases hw
    · exact ⟨_, .encStepNo, rfl, rfl, .inl ⟨.inr ⟨.no, rfl⟩, by decide⟩⟩
    · exact ⟨_, .encStepPartial, rfl, rfl, .inl ⟨.inr ⟨.partialFlush, rfl⟩, by decide⟩⟩
    · exact ⟨_, .encStepSync, rfl, rfl, .inl ⟨.inr ⟨.sync, rfl⟩, by decide⟩⟩
    · exact ⟨_, .encStepFull, rfl, rfl, .inl ⟨.inr ⟨.full, rfl⟩, by decide⟩⟩
    · exact ⟨_, .encStepFinish, rfl, rfl, .inl ⟨.inr ⟨.finish, rfl⟩, by decide⟩⟩
    · exact ⟨_, .encStepBlock, rfl, rfl, .inl ⟨.inr ⟨.block, rfl⟩, by decide⟩⟩
    · exact ⟨_, .decStep, rfl, rfl, .inl ⟨.inl rfl, by decide⟩⟩
    · exact ⟨_, .encSetDict, rfl, rfl, .inr ⟨.inl rfl, by decide⟩⟩
    · exact ⟨_, .decSetDict, rfl, rfl, .inr ⟨.inr (.inl rfl), by decide⟩⟩
    · exact ⟨_, .decSync, rfl, rfl, .inr ⟨.inr (.inr rfl), by decide⟩⟩
  · simp [State.quiet, pt, st, State.reset]

/-- A host that has one access to make. -/
def oneAccess : State := { State.reset with hostq := [{ access := .regWrite 0 4 1, whileBusy := false }] }

theorem witness_StepRunsTheCommand :
    (State.reset.phase = .idle ∧ State.reset.hostq = []) ∧ (oneAccess.phase = .idle ∧
      oneAccess.hostq = [{ access := .regWrite oneAccess.params.regBase 4 1, whileBusy := false }]) ∧
    ({ State.reset with phase := .command 1 } : State).quiet ∧ decodeCommand 1 = some .encInit ∧
    ({ State.reset with phase := .command 1 } : State).bufferOnDevice = false := by
  refine ⟨by decide, by decide, by simp [State.quiet, State.reset], by decide, by decide⟩

theorem quiet_pt (d : Dec) (c p : Nat) (i o : Word) : (pt d c p i o).quiet := by simp [State.quiet, pt, st, State.reset]
theorem noDevice_pt (d : Dec) (c p : Nat) (i o : Word) : (pt d c p i o).bufferOnDevice = false := by
  simp [State.bufferOnDevice, pt, st, State.reset, Config.defaults]

theorem witness_StepRunsTheDecodedElement :
    ∃ r ctx, (pt (decIn .len (b [0, 0])) 0 0 1 1).stream = .dec (decIn .len (b [0, 0])) ∧
      (pt (decIn .len (b [0, 0])) 0 0 1 1).phase = .decoding 0 0 ∧ (pt (decIn .len (b [0, 0])) 0 0 1 1).quiet ∧
      (pt (decIn .len (b [0, 0])) 0 0 1 1).bufferOnDevice = false ∧
      ((pt (decIn .len (b [0, 0])) 0 0 1 1).runAt (decIn .len (b [0, 0])) 0 0).next = .fetch r ctx ∧
      decodeWire ctx r.sight = .element (.literal 0x61) 2 ∧ (Instr.literal 0x61).mode = some (decIn .len (b [0, 0])).mode :=
  ⟨_, _, rfl, rfl, quiet_pt _ _ _ _ _, noDevice_pt _ _ _ _ _, rfl, by decide +kernel, rfl⟩

/-- An element's bits held with others after them; a byte boundary dropped before a length pair; the last fields of a dynamic header,
two being there already; and a code-length symbol. -/
theorem witness_StepRunsTheEncodedElement :
    ((pt (decIn .len (b [0, 0, 1])) 0 0 1 1).At (decIn .len (b [0, 0, 1])) 0 0 .len ∧ (Instr.literal 0x61).mode = some .len ∧
      (Instr.literal 0x61).wf = true ∧ (Instr.literal 0x61).hasCode (decIn .len (b [0, 0, 1])).codes = true ∧
      ((pt (decIn .len (b [0, 0, 1])) 0 0 1 1).runAt (decIn .len (b [0, 0, 1])) 0 0).stream =
        encode (decIn .len (b [0, 0, 1])).codes (.literal 0x61) ++ ([true] ++ bitsOf 8 0x4B)) ∧
    ((pt (decIn .stored (b [1, 1, 1])) 0 0 4 1).At (decIn .stored (b [1, 1, 1])) 0 0 .stored ∧
      ((pt (decIn .stored (b [1, 1, 1])) 0 0 4 1).runAt (decIn .stored (b [1, 1, 1])) 0 0).byteBits.stream =
        encode codes (.storedLen 0x044B 0x6100) ++ []) ∧
    ((pt { decIn .lenLens (bitsOf 6 9) with have_ := 2 } 0 0 0 1).At { decIn .lenLens (bitsOf 6 9) with have_ := 2 } 0 0 .lenLens ∧
      ([1, 1] : List (BitVec 3)).length = 4 - 2 ∧
      ((pt { decIn .lenLens (bitsOf 6 9) with have_ := 2 } 0 0 0 1).runAt
        { decIn .lenLens (bitsOf 6 9) with have_ := 2 } 0 0).stream = encode codes (.codeLengthCodeLengths [1, 1]) ++ []) ∧
    ((pt (decIn .codeLens (b [0, 1])) 0 0 0 1).At (decIn .codeLens (b [0, 1])) 0 0 .codeLens ∧
      (decIn .codeLens (b [0, 1])).have_ < (decIn .codeLens (b [0, 1])).nlen + (decIn .codeLens (b [0, 1])).ndist ∧
      ((pt (decIn .codeLens (b [0, 1])) 0 0 0 1).runAt (decIn .codeLens (b [0, 1])) 0 0).stream =
        encode codes (.clLength 1) ++ []) :=
  ⟨⟨at_of _ _ _ _ _ (by decide +kernel) rfl rfl, rfl, rfl, by decide +kernel, by decide +kernel⟩,
    ⟨at_of _ _ _ _ _ (by decide +kernel) rfl rfl, by decide +kernel⟩,
    ⟨at_of _ _ _ _ _ (by decide +kernel) rfl rfl, by decide, by decide +kernel⟩,
    ⟨at_of _ _ _ _ _ (by decide +kernel) rfl rfl, by decide, by decide +kernel⟩⟩

theorem witness_IllegalCommandWord : decodeCommand 0x62 = none ∧
    ({ State.reset with phase := .command 0x62 } : State).quiet ∧
    ({ State.reset with phase := .command 0x62 } : State).bufferOnDevice = false := by
  refine ⟨by decide, by simp [State.quiet, State.reset], by decide⟩

theorem codes_proper : codes.Proper := by decide +kernel

theorem witness_EncodingRoundTrip : codes.Proper ∧
    (∀ i ∈ [Instr.literal 0x61, .length285, .litlenReserved false, .distance29 8191, .clRepeatPrev 3, .decStep,
      .codeLengthCodeLengths [0], .codeLengthCodeLengths (List.replicate 19 7)], i.wf = true ∧ i.hasCode codes = true) ∧
    Instr.decStep.shape = .command 0x05 ∧ (Instr.literal 0x61).context codes = some (.litSymbol litCode) :=
  ⟨codes_proper, by decide +kernel, by decide, by simp [Instr.context, Instr.shape, codes]⟩

theorem witness_DecodedBitsAreTheEncoding : decodeCommand 0x05 = some .decStep ∧ codes.Proper ∧
    decodeWire (.litSymbol litCode) (b [0, 0, 1]) = .element (.literal 0x61) 2 ∧
    (Instr.literal 0x61).context codes = some (.litSymbol litCode) :=
  ⟨rfl, codes_proper, by decide +kernel, by simp [Instr.context, Instr.shape, codes]⟩

theorem witness_CanonicalOrder : (∀ l ∈ [1, 0, 2, 15], l ≤ 15) ∧
    ({ sym := 2, len := 2, canon := 2 } : CodeEntry) ∈ canonicalCode [1, 0, 2, 15] := by decide

/-- Each arm of the rule: all zero, complete, a single code; and lengths up to 15. -/
theorem witness_AcceptableSets :
    (∀ l ∈ List.replicate 15 1 ++ [15], l ≤ 15) ∧ acceptable false [0] .dists = true ∧ acceptable false [1, 1] .codes = true ∧
    acceptable true [1] .lens = true := by decide

/-- The ends of the ranges, and the value with two encodings. -/
theorem witness_LengthAndDistanceCodes :
    (lcode 3 = (257, lenExtra.getD (257 - 257) 0, 0) ∧ lcode 258 = (285, lenExtra.getD (285 - 257) 0, 0) ∧
      lcode 257 = (284, lenExtra.getD (284 - 257) 0, 30)) ∧
    dcode 1 = (0, distExtra.getD 0 0, 0) ∧ dcode 32768 = (29, distExtra.getD 29 0, 8191) := by decide

/-- One frequency list of each tree's size, with no symbol used at all. -/
theorem witness_TreeExamples : (List.replicate 286 0).length = ltreeSpec.elems ∧ (List.replicate 30 0).length = dtreeSpec.elems ∧
    (List.replicate 19 0).length = bltreeSpec.elems :=
  ⟨List.length_replicate, List.length_replicate, List.length_replicate⟩

/-- The ends of LEVEL, STRATEGY and WBITS, and each way to miss them. -/
theorem witness_EncInitMakesAnEncoder :
    (∀ c ∈ [0x00000800, 0x00000839, 0x00000F39], legalEnc (BitVec.ofNat 32 c)) ∧
    ∀ c ∈ [0x00000F0A, 0x00000F46, 0x00000706, 0x00000F86, 0x00001F06, 0x80000F06], ¬ legalEnc (BitVec.ofNat 32 c) := by
  decide +kernel

theorem witness_DecInitMakesADecoder :
    (∀ c ∈ [0x00000800, 0x00000F7F], legalDec (BitVec.ofNat 32 c)) ∧
    ∀ c ∈ [0x0000077F, 0x00000F86, 0x00001F06, 0x80000F06], ¬ legalDec (BitVec.ofNat 32 c) := by decide +kernel

theorem witness_EndDestroysTheStream :
    (stE enc6 0 0).stream ≠ .none ∧ (st (decIn .bad []) 0 0).stream ≠ .none ∧ State.reset.stream = .none := by
  refine ⟨by simp [stE], by simp [st], rfl⟩

theorem witness_WrongStateIsRefused :
    (∀ e, (st (decIn .type []) 0 0).stream ≠ .enc e) ∧ (∀ d, (stE enc6 0 0).stream ≠ .dec d) ∧ State.reset.stream = .none ∧
    (∃ (e : Enc), (stE e 0 0).stream = .enc e ∧ e.status = .finishing ∧ Flush.no ≠ .finish) ∧
    (∃ (e : Enc), (stE e 1 0).stream = .enc e ∧ e.status = .done ∧ (stE e 1 0).inLen ≠ 0) ∧
    (∃ (e : Enc), (stE e 1 0).stream = .enc e ∧ e.status ≠ .init) ∧
    (∃ (d : Dec), (st d 0 0).stream = .dec d ∧ d.mode = .sync) ∧ (∃ (d : Dec), (st d 0 0).stream = .dec d ∧ d.started = true ∧ d.mode = .type) ∧
    ∃ (d : Dec), (st d 0 0).stream = .dec d ∧ d.started = false ∧ d.mode ≠ .type := by
  refine ⟨by simp [st], by simp [stE], rfl, ⟨{ enc6 with status := .finishing }, rfl, rfl, by decide⟩,
    ⟨{ enc6 with status := .done }, rfl, rfl, by simp [stE, st]⟩, ⟨{ enc6 with status := .busy }, rfl, by decide⟩,
    ⟨decIn .sync [], rfl, rfl⟩, ⟨decIn .type [], rfl, rfl, rfl⟩, ⟨{ decIn .len [] with started := false }, rfl, rfl, by decide⟩⟩

/-- One byte past the top of memory; one shared byte. -/
theorem witness_BufferRangesAreChecked :
    (0xFFFFFFFF : Word).toNat + (2 : Word).toNat > 2 ^ 32 ∧
    ∃ a : Nat, ((0x100 : Word).toNat ≤ a ∧ a < (0x100 : Word).toNat + (4 : Word).toNat) ∧
      (0x103 : Word).toNat ≤ a ∧ a < (0x103 : Word).toNat + (1 : Word).toNat := ⟨by decide, 0x103, by decide⟩

theorem witness_EncStepCompletes :
    (∃ (s : State) (e : Enc) (f : Flush), s.stream = .enc e ∧ e.Ok s.params ∧ s.mem.wf = true ∧ s.rangesOk = true ∧ f = Flush.sync ∧
      ((e.status = .finishing ∨ e.status = .done) → f = .finish ∧ s.inLen = 0)) ∧
    ∃ (s : State) (e : Enc) (f : Flush), s.stream = .enc e ∧ e.Ok s.params ∧ s.mem.wf = true ∧ s.rangesOk = true ∧ e.status = .done ∧
      ((e.status = .finishing ∨ e.status = .done) → f = Flush.finish ∧ s.inLen = 0) := by
  have h := ok_enc6
  refine ⟨⟨stE enc6 6 64, enc6, .sync, rfl, h, by decide, by decide, rfl, fun h => (h.elim (fun h => EncStatus.noConfusion h) fun h => EncStatus.noConfusion h)⟩,
    ⟨stE { enc6 with status := .done } 0 64, { enc6 with status := .done }, .finish, rfl,
      { h with bounded := h.bounded.same rfl }, by decide, by decide, rfl, fun _ => ⟨rfl, rfl⟩⟩⟩

theorem witness_EncStepWithNothingToDo :
    (∃ (s : State) (e : Enc), s.stream = .enc e ∧ s.rangesOk = true ∧ e.status = .init ∧ s.outLen = 0) ∧
    ∃ (s : State) (e : Enc), s.stream = .enc e ∧ s.rangesOk = true ∧ e.status = .init ∧ s.outLen ≠ 0 ∧ s.inLen = 0 ∧ e.bw.pending = [] ∧
      Flush.sync ≠ .finish ∧ flushRank (flushCode .sync) ≤ flushRank e.lastFlush :=
  ⟨⟨stE enc6 6 0, enc6, rfl, by decide, rfl, rfl⟩,
    ⟨stE { enc6 with lastFlush := 2 } 0 1, { enc6 with lastFlush := 2 }, rfl, by decide, rfl, by simp [stE, st], rfl, rfl, by decide,
      by decide⟩⟩

/-- An encoder with its final block written and these bytes pending. -/
def encPending (l : List Byte) : Enc := { enc6 with status := .finishing, bw := { enc6.bw with pending := l } }

/-- Nothing pending; two bytes pending with space for one more, with space for just two, and for one. -/
theorem witness_FinishWritesOutWhatIsPending :
    ∀ x ∈ ([([], 1), ([1, 2], 3), ([1, 2], 2), ([1, 2], 1)] : List (List Byte × Nat)),
      (encPending x.1).status = .finishing ∧ (encPending x.1).lookahead = 0 ∧ (encPending x.1).bw.biValid < 8 ∧
        (stE (encPending x.1) 0 (BitVec.ofNat 32 x.2)).inLen = 0 ∧ (stE (encPending x.1) 0 (BitVec.ofNat 32 x.2)).outLen ≠ 0 ∧
        (stE (encPending x.1) 0 (BitVec.ofNat 32 x.2)).rangesOk = true ∧
        (stE (encPending x.1) 0 (BitVec.ofNat 32 x.2)).mem.wf = true := by decide +kernel

theorem witness_EncSetDictCompletes : (stE enc6 6 0).stream = .enc enc6 ∧ enc6.status = .init ∧ (stE enc6 6 0).rangesOk = true ∧
    enc6.Ok (stE enc6 6 0).params := ⟨rfl, rfl, by decide, ok_enc6⟩

/-- Dictionaries of two and of three bytes, one just as long as the window, and one a byte longer. -/
theorem witness_EncSetDictPrimesTheWindow :
    (∀ n ∈ [2, 3, 512, 513], ∃ (s : State) (e : Enc), s.stream = .enc e ∧ e = Enc.fresh 6 .default 9 ∧ e.ew = 512 ∧
      s.rangesOk = true ∧ s.inLen = BitVec.ofNat 32 n) ∧
    (0 + 3 ≤ min 3 512 ∧ 509 + 3 ≤ min 513 512) := by
  refine ⟨fun n hn => ?_, by decide⟩
  have hr : (stE (Enc.fresh 6 .default 9) (BitVec.ofNat 32 n) 0).rangesOk = true := by revert n; decide +kernel
  exact ⟨stE (Enc.fresh 6 .default 9) (BitVec.ofNat 32 n) 0, _, rfl, rfl, rfl, hr, rfl⟩

/-- A dictionary with the three bytes at 0 again at 3 and at 6: its positions are in one chain, each linked to the one before. -/
theorem test_dictionary_chain :
    nextWith (exec .encSetDict { stE enc6 9 0 with mem := [(0x100, 97), (0x101, 98), (0x102, 99), (0x103, 97), (0x104, 98), (0x105, 99),
        (0x106, 97), (0x107, 98), (0x108, 99)] })
      (fun t => match t.stream with
        | .enc e => decide (e.headAt t.params 0 = 6) && decide (e.chainOf 6 = 3) && decide (e.chainOf 3 = 0) &&
            decide (e.headAt t.params 5 = 5)
        | _ => false) = true := by decide +kernel

/-- A dictionary of one byte, of just the window and of one byte more, on a decoder with history. -/
theorem witness_DecSetDictBecomesHistory :
    ∀ n ∈ [1, 256, 257], ∃ (s : State) (d : Dec), s.stream = .dec d ∧ d.Ok ∧ d.started = false ∧ d.mode = .type ∧ s.rangesOk = true ∧
      d.w = 256 ∧ s.inLen = BitVec.ofNat 32 n ∧ 1 ≤ min s.inLen.toNat d.w := by
  intro n hn
  have hr : (st { decAfterA .type [] with started := false } (BitVec.ofNat 32 n) 0).rangesOk = true := by revert n; decide +kernel
  have h1 : 1 ≤ min (BitVec.ofNat 32 n).toNat 256 := by revert n; decide +kernel
  exact ⟨st { decAfterA .type [] with started := false } (BitVec.ofNat 32 n) 0, _, rfl, ok_of (by decide +kernel), rfl, rfl, hr, rfl, rfl, h1⟩

theorem witness_MarkerSearchIsExact :
    (searchMarker 0 [0, 0, 0, 0xFF, 0xFF, 7] = (4, 5)) ∧ searchMarker 0 [0, 0, 0, 0xFF] = (3, 4) ∧
    searchMarker 0 ([0, 0, 0, 0xFF] ++ [0xFF, 7]) = (4, 5) := by decide

/-- Nothing to do; a marker not found; one found, its first two bytes held. -/
theorem witness_DecSyncSearches :
    ((st (decIn .bad (b [1, 1])) 0 0).rangesOk = true ∧ (st (decIn .bad (b [1, 1])) 0 0).inLen = 0 ∧
      (decIn .bad (b [1, 1])).bits < 8) ∧
    ((st (decIn .type []) 3 0).rangesOk = true ∧ (st (decIn .type []) 3 0).inLen ≠ 0 ∧
      (searchMarker 0 (((st (decIn .type []) 3 0).io 0 0).inBytes 0 3)).1 < 4) ∧
    (({ st (decIn .type (bitsOf 19 7)) 2 0 with inAddr := 0x104 } : State).rangesOk = true ∧
      8 ≤ (decIn .type (bitsOf 19 7)).bits ∧
      (searchMarker 0 (heldBytes (19 / 8) ((decIn .type (bitsOf 19 7)).hold >>> (19 % 8)))).1 = 2 ∧
      searchMarker 2 ((({ st (decIn .type (bitsOf 19 7)) 2 0 with inAddr := 0x104 } : State).io 0 0).inBytes 0 2) = (4, 2)) := by decide +kernel

theorem witness_DecStepCompletes : (st (decIn .type []) 3 64).stream = .dec (decIn .type []) ∧ (decIn .type []).Ok ∧
    (st (decIn .type []) 3 64).mem.wf = true ∧ (decIn .type []).mode ≠ .sync ∧ (st (decIn .type []) 3 64).rangesOk = true :=
  ⟨rfl, ok_of (by decide +kernel), by decide, by decide, by decide⟩
theorem witness_DecStepRunsStateActions : (st (decAfterA .copyMatch []) 3 64).stream = .dec (decAfterA .copyMatch []) ∧
    (decAfterA .copyMatch []).Ok ∧ (decAfterA .copyMatch []).mode ≠ .sync ∧ (st (decAfterA .copyMatch []) 3 64).rangesOk = true :=
  ⟨rfl, ok_of (by decide +kernel), by decide, by decide +kernel⟩

theorem witness_EndStatesAreSticky : (∃ (s : State) (d : Dec), s.stream = .dec d ∧ s.rangesOk = true ∧ d.mode = .done) ∧
    ∃ (s : State) (d : Dec), s.stream = .dec d ∧ s.rangesOk = true ∧ d.mode = .bad :=
  ⟨⟨st (decIn .done []) 1 1, _, rfl, by decide, rfl⟩, ⟨st { decIn .bad [] with err := 11 } 1 1, _, rfl, by decide, rfl⟩⟩

/-- The point of a DEC_STEP with no input left, where the decoder holds `n` bits. -/
abbrev held (m : DecMode) (bits : List Bool) : State := pt (decIn m bits) 0 0 0 1

/-- Just three bits, and one fewer. -/
theorem witness_BlockHeaders :
    ((held .type (b [1, 1, 0])).At (decIn .type (b [1, 1, 0])) 0 0 .type ∧
      ((held .type (b [1, 1, 0])).runAt (decIn .type (b [1, 1, 0])) 0 0).offers 3) ∧
    (held .type (b [1, 1])).At (decIn .type (b [1, 1])) 0 0 .type ∧
      ¬ ((held .type (b [1, 1])).runAt (decIn .type (b [1, 1])) 0 0).offers 3 :=
  ⟨⟨at_of _ _ _ _ _ (by decide +kernel) rfl rfl, by decide⟩, at_of _ _ _ _ _ (by decide +kernel) rfl rfl, by decide⟩

/-- Just 32 bits, with a good and a bad pair, and 31. -/
theorem witness_StoredLengthPair :
    ((held .stored (bitsOf 32 0xFFFF0000)).At (decIn .stored (bitsOf 32 0xFFFF0000)) 0 0 .stored ∧
      (held .stored (bitsOf 32 0xFFFF0000)).DecOk ∧ (held .stored (bitsOf 32 0xFFFF0000)).rangesOk = true ∧
      (held .stored (bitsOf 32 0xFFFF0000)).mem.wf = true ∧
      (((held .stored (bitsOf 32 0xFFFF0000)).runAt (decIn .stored (bitsOf 32 0xFFFF0000)) 0 0).after (32 % 8)).offers 32 ∧
      (0xFFFF : BitVec 16) = ~~~0 ∧ (0 : BitVec 16) ≠ ~~~0) ∧
    (held .stored (bitsOf 31 0)).At (decIn .stored (bitsOf 31 0)) 0 0 .stored ∧ (held .stored (bitsOf 31 0)).DecOk ∧
      ¬ (((held .stored (bitsOf 31 0)).runAt (decIn .stored (bitsOf 31 0)) 0 0).after (31 % 8)).offers 32 :=
  ⟨⟨at_of _ _ _ _ _ (by decide +kernel) rfl rfl, decOk_pt (by decide +kernel) (by decide) (by decide), by decide +kernel,
    by decide, by decide +kernel, by decide, by decide⟩, at_of _ _ _ _ _ (by decide +kernel) rfl rfl,
    decOk_pt (by decide +kernel) (by decide) (by decide), by decide +kernel⟩

/-- Just 14 bits, and 13; the last legal counts and the first illegal ones. -/
theorem witness_DynamicCounts :
    ((held .table (bitsOf 14 0)).At (decIn .table (bitsOf 14 0)) 0 0 .table ∧
      ((held .table (bitsOf 14 0)).runAt (decIn .table (bitsOf 14 0)) 0 0).offers 14) ∧
    ((held .table (bitsOf 13 0)).At (decIn .table (bitsOf 13 0)) 0 0 .table ∧
      ¬ ((held .table (bitsOf 13 0)).runAt (decIn .table (bitsOf 13 0)) 0 0).offers 14) ∧
    ((29 : BitVec 5).toNat + 257 ≤ 286 ∧ (29 : BitVec 5).toNat + 1 ≤ 30) ∧ 286 < (30 : BitVec 5).toNat + 257 ∧
      30 < (30 : BitVec 5).toNat + 1 :=
  ⟨⟨at_of _ _ _ _ _ (by decide +kernel) rfl rfl, by decide +kernel⟩, ⟨at_of _ _ _ _ _ (by decide +kernel) rfl rfl,
    by decide +kernel⟩, by decide, by decide, by decide⟩

/-- Four fields due, 12 bits held: one field taken, all four with an acceptable set (the tests above run it) and with none; and four
fields of which the 8 bits held give two. -/
theorem witness_CodeLengthCodeLengths :
    (held .lenLens (bitsOf 12 0)).At (decIn .lenLens (bitsOf 12 0)) 0 0 .lenLens ∧
    (∀ v ∈ ([[1], [1, 2, 0, 2], [1, 0, 0, 0]] : List (List (BitVec 3))), 1 ≤ v.length ∧
      v.length ≤ (decIn .lenLens (bitsOf 12 0)).ncode - (decIn .lenLens (bitsOf 12 0)).have_ ∧
      min v.length (((decIn .lenLens (bitsOf 12 0)).bits +
        8 * ((held .lenLens (bitsOf 12 0)).runAt (decIn .lenLens (bitsOf 12 0)) 0 0).io.availIn) / 3) = v.length) ∧
    (acceptable false ((((List.replicate 19 0).set 16 1).set 17 2).set 0 2) .codes = true ∧
      acceptable false ((List.replicate 19 0).set 16 1) .codes = false) ∧
    (held .lenLens (bitsOf 8 0)).At (decIn .lenLens (bitsOf 8 0)) 0 0 .lenLens ∧
    min 4 (((decIn .lenLens (bitsOf 8 0)).bits +
      8 * ((held .lenLens (bitsOf 8 0)).runAt (decIn .lenLens (bitsOf 8 0)) 0 0).io.availIn) / 3) = 2 :=
  ⟨at_of _ _ _ _ _ (by decide +kernel) rfl rfl, by decide +kernel, by decide, at_of _ _ _ _ _ (by decide +kernel) rfl rfl,
    by decide +kernel⟩

/-- A decoder that reads code lengths, `k` of its 258 being there and the first ones `ls`. -/
def decLens (k : Nat) (ls : List Nat) (bits : List Bool) : Dec :=
  { decIn .codeLens bits with have_ := k, lens := ls ++ List.replicate (320 - ls.length) 0 }

/-- Each symbol with one length still due after it: 256 + 1, 253 + 3 + 1, 246 + 10 + 1 and 118 + 138 + 1 are 257. -/
theorem witness_CodeLengthSymbols :
    ∀ x ∈ [(256, 0, 0, 1), (254, 16, 2, 3), (247, 17, 3, 10), (119, 18, 7, 138)],
      (pt (decLens x.1 [] (bitsOf 10 0)) 0 0 0 1).At (decLens x.1 [] (bitsOf 10 0)) 0 0 .codeLens ∧ 0 < x.1 ∧
      (decLens x.1 [] (bitsOf 10 0)).have_ + x.2.2.2 + 1 = (decLens x.1 [] (bitsOf 10 0)).nlen + (decLens x.1 [] (bitsOf 10 0)).ndist ∧
      ((pt (decLens x.1 [] (bitsOf 10 0)) 0 0 0 1).runAt (decLens x.1 [] (bitsOf 10 0)) 0 0).offers
        ((decLens x.1 [] (bitsOf 10 0)).clcode.lengthOf x.2.1 + x.2.2.1) := by
  intro x hx
  have h : okB (decLens x.1 [] (bitsOf 10 0)) = true ∧ 0 < x.1 ∧
      (decLens x.1 [] (bitsOf 10 0)).have_ + x.2.2.2 + 1 = (decLens x.1 [] (bitsOf 10 0)).nlen + (decLens x.1 [] (bitsOf 10 0)).ndist ∧
      ((pt (decLens x.1 [] (bitsOf 10 0)) 0 0 0 1).runAt (decLens x.1 [] (bitsOf 10 0)) 0 0).offers
        ((decLens x.1 [] (bitsOf 10 0)).clcode.lengthOf x.2.1 + x.2.2.1) := by revert x; decide +kernel
  exact ⟨at_of _ _ _ _ _ h.1 rfl rfl, h.2⟩

/-- The last length, the one distance's: with no length for 256; with an over-subscribed literal/length set; with a single distance code
of length 1; and with an all-zero distance set. -/
theorem witness_LastCodeLength :
    ∀ x ∈ ([([1, 1], 0, 6), ([1, 1, 1] ++ List.replicate 253 0 ++ [1], 0, 7), ([1] ++ List.replicate 255 0 ++ [1], 1, 8),
        ([1] ++ List.replicate 255 0 ++ [1], 0, 0)] : List (List Nat × Nat × Nat)),
      ((pt (decLens 257 x.1 (bitsOf 2 0)) 0 0 0 1).At (decLens 257 x.1 (bitsOf 2 0)) 0 0 .codeLens) ∧
      let d := decLens 257 x.1 (bitsOf 2 0)
      let lens := setRun d.lens d.have_ 1 x.2.1
      d.have_ + 1 = d.nlen + d.ndist ∧ ((pt d 0 0 0 1).runAt d 0 0).offers (d.clcode.lengthOf x.2.1 + 0) ∧
        (if x.2.2 = 6 then lens.getD 256 0 = 0
          else lens.getD 256 0 ≠ 0 ∧ (acceptable d.allowSingleCode (lens.take d.nlen) .lens = decide (x.2.2 ≠ 7)) ∧
            (x.2.2 ≠ 7 → acceptable d.allowSingleCode ((lens.drop d.nlen).take d.ndist) .dists = decide (x.2.2 = 0))) := by
  intro x hx
  have h : okB (decLens 257 x.1 (bitsOf 2 0)) = true := by revert x; decide +kernel
  refine ⟨at_of _ _ _ _ _ h rfl rfl, ?_⟩
  clear h; revert x; decide +kernel

/-- A first repeat with its five bits; the repeats that pass the end by one, with their bits and with one fewer; a first repeat and a
length whose code is half there. -/
theorem witness_BadRepeats :
    ((held .codeLens (bitsOf 5 0)).At (decIn .codeLens (bitsOf 5 0)) 0 0 .codeLens ∧ (decIn .codeLens (bitsOf 5 0)).have_ = 0 ∧
      ((held .codeLens (bitsOf 5 0)).runAt (decIn .codeLens (bitsOf 5 0)) 0 0).offers (clCode.lengthOf 16 + 2)) ∧
    (∀ x ∈ [(256, 16, 2, 3, 5), (249, 17, 3, 10, 6), (121, 18, 7, 138, 9)],
      okB (decLens x.1 [] (bitsOf x.2.2.2.2 0)) = true ∧ 0 < x.1 ∧ 257 + 1 + 1 = x.1 + x.2.2.2.1 ∧
      ((pt (decLens x.1 [] (bitsOf x.2.2.2.2 0)) 0 0 0 1).runAt (decLens x.1 [] (bitsOf x.2.2.2.2 0)) 0 0).offers
        (clCode.lengthOf x.2.1 + x.2.2.1) ∧
      ¬ ((pt (decLens x.1 [] (bitsOf (x.2.2.2.2 - 1) 0)) 0 0 0 1).runAt (decLens x.1 [] (bitsOf (x.2.2.2.2 - 1) 0)) 0 0).offers
        (clCode.lengthOf x.2.1 + x.2.2.1)) ∧
    ((held .codeLens (b [0])).At (decIn .codeLens (b [0])) 0 0 .codeLens ∧
      (decIn .codeLens (b [0])).have_ = 0 ∧
      ¬ ((held .codeLens (b [0])).runAt (decIn .codeLens (b [0])) 0 0).offers (clCode.lengthOf 16 + 2) ∧
      ¬ ((held .codeLens (b [0])).runAt (decIn .codeLens (b [0])) 0 0).offers (clCode.lengthOf 1)) :=
  ⟨⟨at_of _ _ _ _ _ (by decide +kernel) rfl rfl, rfl, by decide +kernel⟩, by decide +kernel,
    at_of _ _ _ _ _ (by decide +kernel) rfl rfl, rfl, by decide +kernel⟩

/-- Just the two bits of `a` and of 256, with space and with none; and one bit. -/
theorem witness_LiteralAndEndOfBlock :
    ((held .len (b [0, 0])).At (decIn .len (b [0, 0])) 0 0 .len ∧
      ((held .len (b [0, 0])).runAt (decIn .len (b [0, 0])) 0 0).offers (litCode.lengthOf (0x61 : Byte).toNat) ∧
      ((held .len (b [0, 0])).runAt (decIn .len (b [0, 0])) 0 0).offers (litCode.lengthOf 256) ∧
      0 < (held .len (b [0, 0])).outLen.toNat) ∧
    ((pt (decIn .len (b [0, 0])) 0 1 0 1).At (decIn .len (b [0, 0])) 0 1 .len ∧
      (pt (decIn .len (b [0, 0])) 0 1 0 1).outLen.toNat ≤ 1) ∧
    ((held .len (b [0])).At (decIn .len (b [0])) 0 0 .len ∧
      ¬ ((held .len (b [0])).runAt (decIn .len (b [0])) 0 0).offers (litCode.lengthOf (0x61 : Byte).toNat) ∧
      ¬ ((held .len (b [0])).runAt (decIn .len (b [0])) 0 0).offers (litCode.lengthOf 256)) :=
  ⟨⟨at_of _ _ _ _ _ (by decide +kernel) rfl rfl, by decide +kernel⟩, ⟨at_of _ _ _ _ _ (by decide +kernel) rfl rfl,
    by decide⟩, at_of _ _ _ _ _ (by decide +kernel) rfl rfl, by decide +kernel⟩

/-- The first and the last length symbol and one with an extra bit; its code and extra bit, its code alone, and less than its code. -/
theorem witness_LengthSymbols :
    (Instr.length257.shape = .lit 257 0 0 ∧ Instr.length285.shape = .lit 285 0 0 ∧ (Instr.length265 1).shape = .lit 265 1 1) ∧
    (∀ x ∈ [(4, 0), (3, 1), (2, 2)], okB (decIn .len (bitsOf x.1 0)) = true ∧
      (((held .len (bitsOf x.1 0)).runAt (decIn .len (bitsOf x.1 0)) 0 0).offers (litCode.lengthOf 265 + 1) ↔ x.2 = 0) ∧
      (((held .len (bitsOf x.1 0)).runAt (decIn .len (bitsOf x.1 0)) 0 0).offers (litCode.lengthOf 265) ↔ x.2 ≠ 2)) := by
  decide +kernel

/-- The first and the last distance symbol and one with an extra bit, as above; a distance just reaching the oldest byte and one past
it. -/
theorem witness_DistanceSymbols :
    (Instr.distance0.shape = .dist 0 0 0 ∧ (Instr.distance29 8191).shape = .dist 29 13 8191 ∧
      (Instr.distance4 1).shape = .dist 4 1 1) ∧
    (∀ x ∈ [(3, 0), (2, 1), (1, 2)], okB (decIn .dist (bitsOf x.1 0)) = true ∧
      (((held .dist (bitsOf x.1 0)).runAt (decIn .dist (bitsOf x.1 0)) 0 0).offers (distCode.lengthOf 4 + 1) ↔ x.2 = 0) ∧
      (((held .dist (bitsOf x.1 0)).runAt (decIn .dist (bitsOf x.1 0)) 0 0).offers (distCode.lengthOf 4) ↔ x.2 ≠ 2)) ∧
    (okB (decAfterA .dist (b [0, 0])) = true ∧ distBase.getD 0 0 + 0 ≤ (decAfterA .dist (b [0, 0])).whave ∧
      (decAfterA .dist (b [0, 1, 0])).whave < distBase.getD 4 0 + 0) := by decide +kernel

/-- Each form with just its bits, before any output and after three bytes of it. -/
theorem witness_ReservedEncodingsAreMalformed : ∀ p : Nat,
    ((pt (decIn .type (b [0, 1, 1])) 1 p 1 3).At (decIn .type (b [0, 1, 1])) 1 p .type ∧
      ((pt (decIn .type (b [0, 1, 1])) 1 p 1 3).runAt (decIn .type (b [0, 1, 1])) 1 p).offers 3) ∧
    ((pt (decIn .stored (bitsOf 32 0x00050005)) 1 p 1 3).At (decIn .stored (bitsOf 32 0x00050005)) 1 p .stored ∧
      (5 : BitVec 16) ≠ ~~~5 ∧
      ((pt (decIn .stored (bitsOf 32 0x00050005)) 1 p 1 3).runAt (decIn .stored (bitsOf 32 0x00050005)) 1 p).offers (32 % 8 + 32)) ∧
    ((pt (decIn .table (bitsOf 14 30)) 1 p 1 3).At (decIn .table (bitsOf 14 30)) 1 p .table ∧ 30 ≤ (30 : BitVec 5).toNat ∧
      ((pt (decIn .table (bitsOf 14 30)) 1 p 1 3).runAt (decIn .table (bitsOf 14 30)) 1 p).offers 14) ∧
    ((pt (decIn .len (b [1, 1, 1])) 1 p 1 3).At (decIn .len (b [1, 1, 1])) 1 p .len ∧
      ((pt (decIn .len (b [1, 1, 1])) 1 p 1 3).runAt (decIn .len (b [1, 1, 1])) 1 p).offers (litCode.lengthOf 286)) ∧
    ((pt (decIn .dist (b [1, 1])) 1 p 1 3).At (decIn .dist (b [1, 1])) 1 p .dist ∧
      ((pt (decIn .dist (b [1, 1])) 1 p 1 3).runAt (decIn .dist (b [1, 1])) 1 p).offers (distCode.lengthOf 30)) := fun p => by
  have h1 : 3 ≤ (decIn .type (b [0, 1, 1])).bits := by decide
  have h2 : 32 ≤ (decIn .stored (bitsOf 32 0x00050005)).bits := by decide
  have h3 : 14 ≤ (decIn .table (bitsOf 14 30)).bits := by decide
  have h4 : litCode.lengthOf 286 ≤ (decIn .len (b [1, 1, 1])).bits := by decide +kernel
  have h5 : distCode.lengthOf 30 ≤ (decIn .dist (b [1, 1])).bits := by decide +kernel
  exact ⟨⟨at_of _ _ _ _ _ (by decide +kernel) rfl rfl, Nat.le_add_right_of_le h1⟩,
    ⟨at_of _ _ _ _ _ (by decide +kernel) rfl rfl, by decide, Nat.le_add_right_of_le h2⟩,
    ⟨at_of _ _ _ _ _ (by decide +kernel) rfl rfl, by decide, Nat.le_add_right_of_le h3⟩,
    ⟨at_of _ _ _ _ _ (by decide +kernel) rfl rfl, Nat.le_add_right_of_le h4⟩,
    at_of _ _ _ _ _ (by decide +kernel) rfl rfl, Nat.le_add_right_of_le h5⟩

/-- V23: after `a`, the distance symbols 30 (`4b 04 3e`) and 31 (`4b 04 7e`) give sub-kind 10 with one byte out. -/
theorem test_reserved_distance_after_output :
    ∀ x ∈ [0x3E, 0x7E], nextWith (exec .decStep { st (decIn .type []) 3 8 with mem := [(0x100, 0x4B), (0x101, 0x04), (0x102, BitVec.ofNat 8 x)] })
      (fun t => decide (t.status = { result := .malformedStream, subkind := 10, mode := 2, estate := 13 }) &&
        decide (t.outAddr = 0x1001) && decide (t.totalOut = 1) && decide (t.mem.read 0x1000 = 0x61)) = true := by decide +kernel

/-- A state inside a DEC_STEP with this decoder meets what all clauses ask; then each clause with just its bits and one fewer, a distance
that just reaches and one past it, and a full output. -/
theorem witness_SuspendedActionsResume :
    (∀ d, okB d = true → (pt d 0 0 0 1).stream = .dec d ∧ (pt d 0 0 0 1).phase = .decoding 0 0 ∧ d.Ok ∧
      (pt d 0 0 0 1).DecOk ∧ (pt d 0 0 0 1).quiet ∧ (pt d 0 0 0 1).bufferOnDevice = false) ∧
    (okB { decIn .type (b [1, 1]) with last := true } = true ∧ okB { decIn .copy [] with length := 3 } = true ∧
      (pt { decIn .copy [] with length := 3 } 0 0 0 1).rangesOk = true) ∧
    (okB { decIn .lenExt (b [1]) with extra := 1 } = true ∧
      ((held .lenExt (b [1])).runAt { decIn .lenExt (b [1]) with extra := 1 } 0 0).offers 1 ∧
      ¬ ((held .lenExt (b [1])).runAt { decIn .lenExt (b [1]) with extra := 2 } 0 0).offers 2) ∧
    (okB { decAfterA .distExt (b [0, 1]) with extra := 1, offset := 1 } = true ∧
      ((held .distExt (b [0, 1])).runAt { decAfterA .distExt (b [0, 1]) with extra := 1, offset := 1 } 0 0).offers 1 ∧
      1 + natOfBits [false] ≤ (decAfterA .distExt (b [0, 1])).whave ∧ (decAfterA .distExt (b [0, 1])).whave < 1 + natOfBits [true] ∧
      ¬ ((held .distExt (b [0, 1])).runAt { decAfterA .distExt (b [0, 1]) with extra := 3 } 0 0).offers 3) ∧
    (okB { decAfterA .copyMatch [] with offset := 1, length := 4 } = true ∧ 1 ≤ (decAfterA .copyMatch []).w) ∧
    (okB (decIn .lit []) = true ∧ (0 : Nat) < (held .lit []).outLen.toNat ∧ (pt (decIn .lit []) 0 0 0 0).outLen.toNat ≤ 0) ∧
    okB (decIn .done []) = true :=
  ⟨fun _ h => ⟨rfl, rfl, ok_of h, decOk_pt h (by decide) (by decide), quiet_pt _ _ _ _ _, noDevice_pt _ _ _ _ _⟩,
    by decide +kernel, by decide +kernel, by decide +kernel, by decide +kernel, by decide +kernel, by decide +kernel⟩

/-- A header and a length symbol of which a bit is missing; the empty code, which the first bit shows to have no symbol (R332); and a
code of one symbol, whose other bit is none (R336). -/
theorem witness_SuspendedActionsResume_parts :
    (okB (decIn .type (b [1, 0])) = true ∧ ((held .type (b [1, 0])).runAt (decIn .type (b [1, 0])) 0 0).stream ++ b [1] =
      encode (decIn .type (b [1, 0])).codes (.blockDynamic true)) ∧
    (okB (decIn .len (litCode.bitsFor 265)) = true ∧ (Instr.length265 1).hasCode (decIn .len (litCode.bitsFor 265)).codes = true ∧
      ((held .len (litCode.bitsFor 265)).runAt (decIn .len (litCode.bitsFor 265)) 0 0).stream ++ b [1] =
        encode (decIn .len (litCode.bitsFor 265)).codes (.length265 1)) ∧
    (okB { decIn .dist (b [0]) with distcode := [] } = true ∧
      ((held .dist (b [0])).runAt { decIn .dist (b [0]) with distcode := [] } 0 0).offers 1) ∧
    (okB { decIn .len (b [1]) with lencode := [{ sym := 256, len := 1, canon := 0 }] } = true ∧
      ((held .len (b [1])).runAt (decIn .len (b [1])) 0 0).offers 1 ∧ ¬ (b [0]) <+: (b [1]) ∧ ¬ (b [1]) <+: (b [0])) := by
  decide +kernel

theorem witness_ElementsRunWhereTheyBelong :
    ((held .lenLens (bitsOf 12 0)).At (decIn .lenLens (bitsOf 12 0)) 0 0 .lenLens ∧
      (Instr.codeLengthCodeLengths [1, 2, 0, 2]).mode = some .lenLens ∧ ([1, 2, 0, 2] : List (BitVec 3)).length ≤ 4 - 0) ∧
    ((Instr.blockStored true).mode = some .type ∧
      ¬ ∃ d c p, State.reset.stream = .dec d ∧ State.reset.phase = .decoding c p ∧ d.mode = .type ∧
        (DecMode.type = .type → d.last = false)) :=
  ⟨⟨at_of _ _ _ _ _ (by decide +kernel) rfl rfl, rfl, by decide⟩, rfl, by rintro ⟨d, c, p, h, -⟩; cases h⟩

theorem witness_FrameOfEveryInstruction :
    State.reset.DecOk ∧ State.reset.EncOk ∧ State.reset.mem.wf = true ∧
    (∃ t, exec .encInit { State.reset with phase := .command 1 } = .next t) ∧
    (∃ t, exec .decSync (st (decIn .type []) 3 0) = .next t ∧ t.inAddr ≠ (st (decIn .type []) 3 0).inAddr) ∧
    (∃ t, exec .endStream (st (decIn .type []) 3 0) = .next t) ∧
    ∃ t, exec (.literal 0x61) (held .len (b [0, 0])) = .next t ∧
      (held .len (b [0, 0])).sentTo t = 1 ∧ (held .len (b [0, 0])).sent = 0 := by
  obtain ⟨t1, h1, -⟩ := of_nextWith (a := exec .encInit { State.reset with phase := .command 1 }) (p := fun _ => true)
    (by decide +kernel)
  obtain ⟨t2, h2, h2'⟩ := of_nextWith (a := exec .decSync (st (decIn .type []) 3 0)) (p := fun t => t.inAddr != 0x100)
    (by decide +kernel)
  obtain ⟨t3, h3, -⟩ := of_nextWith (a := exec .endStream (st (decIn .type []) 3 0)) (p := fun _ => true) (by decide +kernel)
  obtain ⟨t4, h4, h4'⟩ := of_nextWith (a := exec (.literal 0x61) (held .len (b [0, 0])))
    (p := fun t => (held .len (b [0, 0])).sentTo t == 1) (by decide +kernel)
  exact ⟨decOk_reset, encOk_reset, by decide, ⟨t1, h1⟩, ⟨t2, h2, by simpa [st] using h2'⟩, ⟨t3, h3⟩, t4, h4, by simpa using h4', rfl⟩

/-! ### The encoder's parts -/

/-- Nothing held, and all sixteen bits held; the narrowest and the widest value. -/
theorem witness_BitWriterAppends :
    ({ biBuf := 0, biValid := 0, pending := [] } : BitWriter).Ok ∧ ({ biBuf := 0xFFFF, biValid := 16, pending := [7] } : BitWriter).Ok ∧
    1 < 2 ^ 1 ∧ 65535 < 2 ^ 16 := by decide

theorem witness_StoredBlocksAndMarkers :
    ({ biBuf := 0xFFFF, biValid := 16, pending := [7] } : BitWriter).Ok ∧ (List.replicate 65535 (0 : Byte)).length ≤ 65535 ∧
    enc6.bw.Ok ∧ ({ codes with lit := fixedLitCode } : Codes).lit = fixedLitCode ∧ enc6.lookahead = 0 ∧
    ({ enc6 with lookahead := 1 } : Enc).bw.Ok ∧ ({ enc6 with lookahead := 1 } : Enc).lookahead ≠ 0 :=
  ⟨by decide, by rw [List.length_replicate], by decide, rfl, rfl, by decide, by decide⟩

/-- The ends of the ranges of distance and length. -/
theorem witness_BlockBodyIsItsElements :
    enc6.bw.Ok ∧ (∀ x ∈ [Sym.lit 255, .copy 1 3, .copy 32768 258], x.legal) ∧ (∀ l ∈ fixedLitLengths, l ≤ 15) ∧
    (∀ l ∈ fixedDistLengths, l ≤ 15) := by
  refine ⟨by decide, ?_, fixedLitLengths_le, fixedDistLengths_le⟩
  intro x hx
  simp only [List.mem_cons, List.not_mem_nil, or_false] at hx
  rcases hx with rfl | rfl | rfl <;> simp [Sym.legal]

/-- The smallest trees and the largest: `max_code` 256, 0 and 285, 29, and 4 and 19 code-length code lengths. -/
def encTrees (l d m : Nat) : Enc :=
  { enc6 with
    ltree := { len := List.replicate 286 15, code := [], maxCode := l }
    dtree := { len := List.replicate 30 1, code := [], maxCode := d }
    bltree := { len := List.replicate 19 7, code := reversedCodes (List.replicate 19 7), maxCode := 18 }
    maxBlindex := m }
theorem witness_TreeDescriptionIsADynamicHeader :
    ∀ x ∈ [(256, 0, 3), (285, 29, 18)],
      256 ≤ (encTrees x.1 x.2.1 x.2.2).ltree.maxCode ∧ (encTrees x.1 x.2.1 x.2.2).ltree.maxCode ≤ 285 ∧
      (encTrees x.1 x.2.1 x.2.2).dtree.maxCode ≤ 29 ∧ 3 ≤ (encTrees x.1 x.2.1 x.2.2).maxBlindex ∧
      (encTrees x.1 x.2.1 x.2.2).maxBlindex ≤ 18 ∧ (∀ l ∈ (encTrees x.1 x.2.1 x.2.2).ltree.len, l ≤ 15) ∧
      (∀ l ∈ (encTrees x.1 x.2.1 x.2.2).dtree.len, l ≤ 15) ∧ (∀ l ∈ (encTrees x.1 x.2.1 x.2.2).bltree.len, l ≤ 7) ∧
      (∀ s, (encTrees x.1 x.2.1 x.2.2).bltree.code.getD s 0 =
        (reversedCodes (encTrees x.1 x.2.1 x.2.2).bltree.len).getD s 0) := by
  intro x hx
  have h : (256 ≤ x.1 ∧ x.1 ≤ 285) ∧ x.2.1 ≤ 29 ∧ 3 ≤ x.2.2 ∧ x.2.2 ≤ 18 := by revert x; decide
  exact ⟨h.1.1, h.1.2, h.2.1, h.2.2.1, h.2.2.2, fun l hl => (List.eq_of_mem_replicate hl).le,
    fun l hl => (List.eq_of_mem_replicate hl).le.trans (by decide), fun l hl => (List.eq_of_mem_replicate hl).le, fun _ => rfl⟩

/-- A run of a length, of zeros in both forms, and of one length alone. -/
theorem witness_ScannedLengthsExpandBack :
    (∀ l ∈ List.replicate 7 15 ++ List.replicate 3 0 ++ [1] ++ List.replicate 11 0, l ≤ 15) ∧
    scanTree { len := List.replicate 7 15 ++ List.replicate 3 0 ++ [1] ++ List.replicate 11 0, code := [], maxCode := 21 } =
      [{ sym := 15, width := 0, extra := 0 }, { sym := 16, width := 2, extra := 3 }, { sym := 17, width := 3, extra := 0 },
        { sym := 1, width := 0, extra := 0 }, { sym := 18, width := 7, extra := 0 }] := by decide

theorem witness_LevelsAndBlockFunctions :
    (Enc.fresh 0 .runLength 8).level = 0 ∧ (Enc.fresh 9 .huffmanOnly 15).level = 9 ∧ (Enc.fresh 3 .filtered 9).strategy = .filtered :=
  ⟨rfl, rfl, rfl⟩

/-- Match positions on both sides of EW, and the largest distance back from the top of the window. -/
theorem witness_ChainsAndSlide :
    enc6.Ok State.reset.params ∧ (1 : Nat) % enc6.ew ≠ 0 % enc6.ew ∧ 32767 < 2 ^ State.reset.params.hashBits ∧ 0 < enc6.ew ∧
    (∀ m, m = enc6.ew ∨ m = enc6.ew - 1 → ({ enc6 with matchStart := m } : Enc).Ok State.reset.params) ∧
    65535 - 0 < 2 * enc6.ew := by
  refine ⟨ok_enc6, by decide, by decide, by decide, fun m hm => ?_, by decide⟩
  have h := ok_enc6
  have hb := h.bounded
  have hlt : m < 2 * enc6.ew := by have := enc6.ew_ge; omega
  exact { h with bounded := hb.registers (pm := 0) (ml := 2) (pl := 2) ⟨hlt, hb.starts.2⟩ hb.lengths }

/-- The window holds X, a, b, c, d, a, b, c, e; at index 5 the chain leads to index 1, a match of 3 bytes and no longer. -/
def encMatch : Enc :=
  { ([88, 97, 98, 99, 100, 97, 98, 99, 101].zipIdx.foldl (fun e x => e.winPut x.2 (BitVec.ofNat 8 x.1)) enc6) with
    strstart := 5, lookahead := 4 }

theorem witness_MatchesAreTrue :
    ((encMatch.longestMatch 1).2 = 1 ∧ (encMatch.longestMatch 1).1 = 3 ∧ 3 < min 258 encMatch.lookahead ∧
      (encMatch.longestMatch 4).2 = encMatch.matchStart) ∧
    (encMatch.prevLength < encMatch.good ∧ 1 ≤ encMatch.chain ∧ 3 < min encMatch.nice (encMatch.lookahead + 1)) ∧
    (({ encMatch with prev := Ram.set encMatch.ewbits .nil 4 1 } : Enc).longestMatch 4 = (3, 1)) := by decide +kernel

/-! ### Invariants -/

theorem witness_MemoryStaysCanonical :
    State.reset.DecOk ∧ State.reset.EncOk ∧ (held .len (b [0, 0])).DecOk ∧ (held .len (b [0, 0])).EncOk ∧
    (held .len (b [0, 0])).mem.wf = true ∧ ∃ t, step (held .len (b [0, 0])) = .next t ∧ t.mem ≠ (held .len (b [0, 0])).mem := by
  obtain ⟨t, h, ht⟩ := of_nextWith (a := step (held .len (b [0, 0]))) (p := fun t => decide (t.mem ≠ (held .len (b [0, 0])).mem))
    (by decide +kernel)
  exact ⟨decOk_reset, encOk_reset, decOk_pt (by decide +kernel) (by decide) (by decide), fun e h => by simp [held, pt, st] at h, by decide,
    t, h, by simpa using ht⟩

theorem witness_EnginesStayInOrder :
    (held .len (b [0, 0])).DecOk ∧ (held .len (b [0, 0])).EncOk ∧ (stE enc6 6 64).EncOk ∧ (stE enc6 6 64).DecOk :=
  ⟨decOk_pt (by decide +kernel) (by decide) (by decide), fun e h => by simp [held, pt, st] at h,
    fun e h => by obtain rfl : enc6 = e := by simpa [stE] using h
                  exact ok_enc6,
    ⟨fun d h => by simp [stE] at h, fun c p h => by simp [stE, st, State.reset] at h⟩⟩

theorem witness_StatusTellsTheStream : State.reset.StatusOk ∧ State.reset.DecOk ∧ State.reset.EncOk ∧
    ∃ t, step oneAccess = .next t ∧ t.phase = .command 1 :=
  ⟨⟨fun _ => ⟨rfl, rfl⟩, fun h => by simp [State.reset, Status.reset] at h, fun _ => rfl⟩, decOk_reset, encOk_reset, _, rfl, rfl⟩

end Sys2Proof.Tests
end

