-- ==== Sys2Proof/Proofs/ChainsAndSlide.lean ====
section
/-! PROOF. Sys2Proof/Proofs/ChainsAndSlide.lean: what `insert_string` (R226) and the slide (R230) do to every entry of the chains,
every byte of the window and the distance to `match_start`. -/

namespace Sys2Proof.Machine

open Sys2Proof

/-! ## `insert_string` -/

theorem Enc.hash3_lt (e : Enc) (ps : Config.Params) (p : Nat) : e.hash3 ps p < 2 ^ ps.hashBits :=
  Nat.mod_lt _ (Nat.two_pow_pos _)

/-- The link of `p` is the head before it; no other link changes (R226). -/
theorem Enc.insertString_chainOf (e : Enc) (ps : Config.Params) (p q : Nat) :
    (e.insertString ps p).chainOf q = if q % e.ew = p % e.ew then e.headAt ps p else e.chainOf q := by
  have hset := Ram.get_set e.ewbits e.prev (p % e.ew) (q % e.ew) (e.headAt ps p)
  rwa [Enc.ew, Nat.mod_mod, Nat.mod_mod] at hset

/-- The head of `p`'s chain is `p`; no other head changes (R226). -/
theorem Enc.insertString_head (e : Enc) (ps : Config.Params) (p : Nat) {h : Nat} (hh : h < 2 ^ ps.hashBits) :
    Ram.get ps.hashBits (e.insertString ps p).head h = if h = e.hash3 ps p then p else Ram.get ps.hashBits e.head h := by
  have hset := Ram.get_set ps.hashBits e.head (e.hash3 ps p) h p
  rwa [Nat.mod_eq_of_lt hh, Nat.mod_eq_of_lt (e.hash3_lt ps p)] at hset

/-! ## The slide -/

@[simp] theorem Enc.slide_ew (e : Enc) : e.slide.ew = e.ew := rfl

@[simp] theorem slideEntry_zero (ew : Nat) : slideEntry ew 0 = 0 := by unfold slideEntry; split <;> omega

/-- A byte of the upper half of the window stands in the upper half of its memory. -/
theorem Enc.winByte_upper (e : Enc) {j : Nat} (hj : j < e.ew) : e.winByte (e.ew + j) = Ram.get e.ewbits e.win.high j := by
  have hbit : (e.ew + j).testBit e.ewbits = true := by
    rw [Enc.ew, Nat.testBit_two_pow_add_eq, Nat.testBit_lt_two_pow hj, Bool.not_false]
  rw [Enc.winByte, Ram.get_succ, if_pos hbit]
  exact Ram.get_congr _ (Nat.add_mod_left _ _)

/-- After the slide the index of either half that is `j` into it reads as the upper half did (R230). -/
theorem Enc.slide_winByte (e : Enc) {i j : Nat} (hj : j < e.ew) (hi : i % e.ew = j) : e.slide.winByte i = e.winByte (e.ew + j) := by
  rw [e.winByte_upper hj, ← hi]
  exact (Ram.get_slideDown e.ewbits e.win i).trans (Ram.get_congr _ (Nat.mod_mod _ _).symm)

theorem Enc.slide_head {ps : Config.Params} {e : Enc} (hw : e.head.wf ps.hashBits = true) (h : Nat) :
    Ram.get ps.hashBits e.slide.head h = slideEntry e.ew (Ram.get ps.hashBits e.head h) :=
  Ram.get_map _ (slideEntry_zero _) _ _ _ hw

theorem Enc.slide_chainOf {e : Enc} (hw : e.prev.wf e.ewbits = true) (q : Nat) : e.slide.chainOf q = slideEntry e.ew (e.chainOf q) :=
  Ram.get_map _ (slideEntry_zero _) _ _ _ hw

/-- A `match_start` in the upper half moves down with the window (R230). -/
theorem Enc.slide_matchStart_upper {e : Enc} (hlt : e.matchStart < 2 * e.ew) (hms : e.ew ≤ e.matchStart) :
    e.slide.matchStart = e.matchStart - e.ew := by
  calc (e.matchStart + e.ew) % (2 * e.ew)
      = (e.matchStart - e.ew + 2 * e.ew) % (2 * e.ew) := by congr 1; omega
    _ = e.matchStart - e.ew := by rw [Nat.add_mod_right, Nat.mod_eq_of_lt (by omega)]

/-- A `match_start` in the lower half is taken modulo 2*EW (log entry 22). -/
theorem Enc.slide_matchStart_lower {e : Enc} (hms : e.matchStart < e.ew) : e.slide.matchStart = e.matchStart + 2 * e.ew - e.ew := by
  have hmod : e.slide.matchStart = e.matchStart + e.ew := Nat.mod_eq_of_lt (by omega)
  omega

/-! ## Distances -/

/-- A distance that fits the window is the plain difference of the positions (R241). -/
theorem Enc.distanceFrom_eq_sub (e : Enc) {p start : Nat} (hle : start ≤ p) (hlt : p - start < 2 * e.ew) :
    e.distanceFrom p start = p - start := by
  rw [Enc.distanceFrom, show p + 2 * e.ew - start = p - start + 2 * e.ew by omega, Nat.add_mod_right, Nat.mod_eq_of_lt hlt]

/-- The slide moves both ends of a match by EW modulo 2*EW, so the distance between them stays (R230, log entry 22). -/
theorem Enc.slide_distanceFrom {e : Enc} (hlt : e.matchStart < 2 * e.ew) {p : Nat} (hp : e.ew ≤ p) :
    e.slide.distanceFrom (p - e.ew) e.slide.matchStart = e.distanceFrom p e.matchStart := by
  simp only [Enc.distanceFrom, Enc.slide_ew]
  rcases Nat.lt_or_ge e.matchStart e.ew with hms | hms
  · rw [Enc.slide_matchStart_lower hms,
      show p + 2 * e.ew - e.matchStart = p - e.ew + 2 * e.ew - (e.matchStart + 2 * e.ew - e.ew) + 2 * e.ew by omega,
      Nat.add_mod_right]
  · rw [Enc.slide_matchStart_upper hlt hms]
    congr 1
    omega

end Sys2Proof.Machine

open Sys2Proof.Machine

/-- Settles O56, entry by entry: one lemma for each memory that `insert_string` writes, and one for each field that the slide moves. -/
theorem chainsAndSlide : Obligations.ChainsAndSlide := by
  intro e ps
  refine ⟨fun p => ⟨?_, fun q hq => ?_, fun h hh => e.insertString_head ps p hh, rfl⟩, fun hok => ?_⟩
  · rw [e.insertString_chainOf, if_pos rfl]
  · rw [e.insertString_chainOf, if_neg hq]
  · have hlt := hok.bounded.starts.1
    exact ⟨fun j hj => ⟨e.slide_winByte hj (Nat.mod_eq_of_lt hj),
        e.slide_winByte hj (by rw [Nat.add_mod_left, Nat.mod_eq_of_lt hj])⟩,
      Enc.slide_head hok.head, Enc.slide_chainOf hok.prev, rfl, Enc.slide_matchStart_upper hlt, Enc.slide_matchStart_lower,
      fun _ _ => e.distanceFrom_eq_sub, fun _ => Enc.slide_distanceFrom hlt, rfl, rfl⟩
end

