-- ==== Sys2Proof/Proofs/Completion.lean ====
section
/-! PROOF. Sys2Proof/Proofs/Completion.lean: what a command that has moved its cursors leaves of the machine (R35, R36, R38, R81, R380),
and with it the two commands that move bytes: ENC_STEP (R388) and DEC_STEP (R400). -/

namespace Sys2Proof.Machine

open Sys2Proof

theorem exec_stepInstr (f : Flush) (s : State) : exec (stepInstr f) s = encStep f s := by cases f <;> rfl

/-- R388's precondition: once finishing, only FINISH without input. -/
theorem encStepAllowed_eq_true {f : Flush} {e : Enc} {inLen : Word} :
    encStepAllowed f e inLen = true ↔ (e.status = .finishing ∨ e.status = .done → f = .finish ∧ inLen = 0) := by
  simp only [encStepAllowed, Bool.not_eq_true', Bool.and_eq_false_imp, Bool.or_eq_true, decide_eq_true_eq, Bool.or_eq_false_iff,
    decide_eq_false_iff_not, not_not]

/-! ## The cursors of a completed command -/

/-- A buffer of which `n` bytes are used has as many bytes left as the command had still to use (R36, R380). -/
theorem toNat_sub_ofNat {len : Word} {n : Nat} (h : n ≤ len.toNat) : (len - BitVec.ofNat 32 n).toNat = len.toNat - n := by
  have := len.isLt
  rw [BitVec.toNat_sub_of_le] <;> simp [BitVec.le_def] <;> omega

theorem Io.Moves.bounds {s : State} {io : Io} (h : (s.io 0 0).Moves io) :
    io.consumed ≤ s.inLen.toNat ∧ io.produced ≤ s.outLen.toNat := by
  have hin := (h.consumed (Nat.zero_le _)).2
  have hout := (h.produced (Nat.zero_le _)).2
  rw [h.inLen] at hin
  rw [h.outLen] at hout
  exact ⟨hin, hout⟩

/-- A command that has moved its cursors within the buffers has moved the registers so far, and nothing else of the host's (R380). -/
theorem State.moved_finish {s : State} {io : Io} (h : (s.io 0 0).Moves io) (hm : s.mem.wf = true) (c : StreamCtx) (res : Result) :
    s.Moved (s.finish io c res) io.consumed io.produced where
  input := ⟨h.bounds.1, rfl, rfl, h.totalIn⟩
  output := ⟨h.bounds.2, rfl, rfl, h.totalOut⟩
  memory := fun a ha => h.writesOnly hm a fun j _ hj => ha j hj
  rest := ⟨rfl, rfl, rfl, rfl, rfl⟩
  idle := rfl

/-- OUT_LEN is 0 after the command where its output is full, and only there (R36). -/
theorem State.finish_outLen_eq_zero {s : State} {io : Io} (h : (s.io 0 0).Moves io) (c : StreamCtx) (res : Result) :
    (s.finish io c res).outLen = 0 ↔ io.availOut = 0 := by
  rw [BitVec.toNat_eq, State.finish_outLen, toNat_sub_ofNat h.bounds.2, Io.availOut, h.outLen]
  rfl

/-- IN_LEN is 0 after the command where all input is consumed (R36). -/
theorem State.finish_inLen_eq_zero {s : State} {io : Io} (h : (s.io 0 0).Moves io) (c : StreamCtx) (res : Result) :
    (s.finish io c res).inLen = 0 ↔ io.availIn = 0 := by
  rw [BitVec.toNat_eq, State.finish_inLen, toNat_sub_ofNat h.bounds.1, Io.availIn, h.inLen]
  rfl

/-- STATUS after a result that is not MALFORMED_STREAM (R380, R424). -/
theorem Status.after_of_ne_malformed {res : Result} (h : res ≠ .malformedStream) (c : StreamCtx) :
    Status.after res c = { result := res, subkind := 0, mode := c.modeTag, estate := c.estate } := by
  rw [Status.after, if_neg h]

end Sys2Proof.Machine

open Sys2Proof Sys2Proof.Machine

/-- Settles O25: the step ends (`encStep_ends`), and its end says what the host sees. -/
theorem encStepCompletes : Obligations.EncStepCompletes := by
  intro s e f hs hok hmem hr hallowed
  obtain ⟨r, res, hstep, hend⟩ := encStep_ends hs (encStepAllowed_eq_true.2 hallowed) hr
  have hmoves : (s.io 0 0).Moves r.io := hend.good.moves
  have hres : res ≠ .malformedStream := by rcases hend.results with h | h | h <;> rw [h] <;> decide
  refine ⟨s.finish r.io (.enc r.e) res, r.e, res, _, _, (exec_stepInstr f s).trans hstep, rfl, State.moved_finish hmoves hmem _ _,
    Status.after_of_ne_malformed hres _, fun hout => ?_, fun hout => ?_, hend.good.latched, hend.ok hok⟩
  · exact hend.full.2 ((State.finish_outLen_eq_zero hmoves _ _).1 hout)
  · have hnot : res ≠ .needMoreOutput := fun h => hout ((State.finish_outLen_eq_zero hmoves _ _).2 (hend.full.1 h))
    obtain ⟨hpending, hdrained⟩ := hend.drained hnot
    have hkind : res = if f = .finish then .streamEnd else .needMoreInput := by
      rcases hend.results with h | h | h
      · exact absurd h hnot
      · rw [h, if_neg (hend.goesOn h)]
      · rw [h, if_pos (hend.ended h).1]
    exact ⟨hkind, hpending, (State.finish_inLen_eq_zero hmoves _ _).2 (hdrained hok),
      fun hf => (hend.ended (hkind.trans (if_pos hf))).2⟩

/-- Settles O33: the run of state actions ends (`execDecStep_ends`), and R370 says what each result means. -/
theorem decStepCompletes : Obligations.DecStepCompletes := by
  intro s d hs hok hmem hsync hr
  obtain ⟨res, r, hstep, hgood, hending⟩ := execDecStep_ends hs hok hsync hr
  obtain ⟨hwbits, hsingle, -, hstarted⟩ := hgood.latched
  refine ⟨s.finish r.io (.dec r.d) res, r.d, _, _, hstep, rfl, State.moved_finish hgood.moves hmem _ _, rfl, rfl, ?_,
    hstarted, hwbits, hsingle, hgood.ok⟩
  cases res with
  | needMoreInput => exact .inl ⟨rfl, rfl, (State.finish_inLen_eq_zero hgood.moves _ _).2 hending⟩
  | needMoreOutput => exact .inr (.inl ⟨rfl, rfl, (State.finish_outLen_eq_zero hgood.moves _ _).2 hending⟩)
  | streamEnd => exact .inr (.inr (.inl ⟨rfl, rfl, hending⟩))
  | malformedStream =>
    exact .inr (.inr (.inr ⟨rfl, rfl, hending, Nat.one_le_iff_ne_zero.2 (hgood.ok.bad.1 hending), hgood.ok.err⟩))
  | invalidCommand => exact absurd hending hsync
  | ok => exact hending.elim
  | invalidConfiguration => exact hending.elim
  | resourceExhaustion => exact hending.elim
end

