-- ==== Sys2Proof/Proofs/EngineInvariants.lean ====
section
/-! PROOF. Sys2Proof/Proofs/EngineInvariants.lean: what one step can do to the engines and to STATUS, said once (`step_follows`), and with
it that every step keeps both engines in order (R427) and STATUS telling the stream (R37, R380). -/

namespace Sys2Proof.Machine

open Sys2Proof

/-! ## Command words -/

theorem mode_of_decodeCommand {w : Word} {i : Instr} (h : decodeCommand w = some i) : i.mode = none := by
  unfold decodeCommand at h
  dsimp only at h
  repeat' split at h
  all_goals simp only [reduceCtorEq, Option.some.injEq] at h
  all_goals subst h; rfl

/-- The instructions that are no elements of the bitstream are the commands of R151. -/
theorem command_cases {i : Instr} (h : i.mode = none) :
    i = .encInit ∨ (∃ f, i = stepInstr f) ∨ i = .encSetDict ∨ i = .decInit ∨ i = .decStep ∨ i = .decSetDict ∨ i = .decSync ∨
      i = .endStream := by
  cases i
  case encStepNo => exact .inr (.inl ⟨.no, rfl⟩)
  case encStepPartial => exact .inr (.inl ⟨.partialFlush, rfl⟩)
  case encStepSync => exact .inr (.inl ⟨.sync, rfl⟩)
  case encStepFull => exact .inr (.inl ⟨.full, rfl⟩)
  case encStepFinish => exact .inr (.inl ⟨.finish, rfl⟩)
  case encStepBlock => exact .inr (.inl ⟨.block, rfl⟩)
  case encInit | encSetDict | decInit | decStep | decSetDict | decSync | endStream => simp
  all_goals exact absurd h nofun

/-! ## How the commands that move bytes end -/

/-- An ENC_STEP is refused, or ends from cursors it has moved (R388). -/
theorem encStep_cases (f : Flush) (s : State) : encStep f s = .next s.refuseCommand ∨
    ∃ e r res, s.stream = .enc e ∧ encStep f s = .next (s.finish r.io (.enc r.e) res) ∧
      EncStepEnd (e.Ok s.params) { e := e, io := s.io 0 0, params := s.params } f r res := by
  cases hs : s.stream with
  | enc e =>
    by_cases hallowed : encStepAllowed f e s.inLen = true
    · by_cases hr : s.rangesOk = true
      · obtain ⟨r, res, hstep, hend⟩ := encStep_ends hs hallowed hr
        exact .inr ⟨e, r, res, rfl, hstep, hend⟩
      · exact .inl (by simp only [encStep, hs, hallowed, hr]; rfl)
    · exact .inl (by simp only [encStep, hs, hallowed]; rfl)
  | none => exact .inl (by simp only [encStep, hs])
  | dec d => exact .inl (by simp only [encStep, hs])

/-- A DEC_STEP is refused, or ends from cursors it has moved (R400). -/
theorem execDecStep_cases {s : State} (hdec : s.DecOk) : execDecStep s = .next s.refuseCommand ∨
    ∃ (d : Dec) (r : DecRun) (res : Result), execDecStep s = .next (s.finish r.io (.dec r.d) res) ∧
      r.Good { d with started := true } (s.io 0 0) ∧ r.Ending d res := by
  cases hs : s.stream with
  | dec d =>
    by_cases hsync : d.mode = .sync
    · exact .inl (by simp only [execDecStep, hs, hsync, if_true])
    · by_cases hr : s.rangesOk = true
      · obtain ⟨res, r, hstep, hgood, hending⟩ := execDecStep_ends hs (hdec.dec d hs) hsync hr
        exact .inr ⟨d, r, res, hstep, hgood, hending⟩
      · exact .inl (by simp only [execDecStep, hs, hsync, hr]; rfl)
  | none => exact .inl (by simp only [execDecStep, hs])
  | enc e => exact .inl (by simp only [execDecStep, hs])

/-- A DEC_SYNC is refused, or ends with input consumed and nothing produced (R406). -/
theorem execDecSync_cases {s : State} (hdec : s.DecOk) : execDecSync s = .next s.refuseCommand ∨
    ∃ d res n, execDecSync s = .next (s.finish ((s.io 0 0).consume n) (.dec d) res) ∧ n ≤ (s.io 0 0).availIn ∧ d.Ok ∧
      (res = .ok ∨ res = .needMoreInput) := by
  cases hs : s.stream with
  | dec d =>
    by_cases hr : s.rangesOk = true
    · have hstarted : Dec.Ok { d with started := true } := { hdec.dec d hs with }
      obtain ⟨res, d', n, hsync, hn, hok, hres⟩ := DecRun.sync_ends (io := s.io 0 0) hstarted
      exact .inr ⟨d', res, n, by simp only [execDecSync, hs, hr, hsync]; rfl, hn, hok, hres⟩
    · exact .inl (by simp only [execDecSync, hs, hr]; rfl)
  | none => exact .inl (by simp only [execDecSync, hs])
  | enc e => exact .inl (by simp only [execDecSync, hs])

/-! ## Commands -/

/-- A command from `s` has ended at `t` (R380): none runs, the engine there is in order, and STATUS is what the result and the stream
make of it. -/
structure State.EndsAt (s t : State) : Prop where
  phase : t.phase = .idle
  params : t.params = s.params
  dec : ∀ d, t.stream = .dec d → d.Ok
  enc : ∀ e, t.stream = .enc e → e.Ok s.params
  status : ∃ res, t.status = Status.after res t.stream ∧ (res = .malformedStream → ∃ d, t.stream = .dec d ∧ d.mode = .bad)

theorem State.endsAt_complete (s : State) {c : StreamCtx} {res : Result} (hdec : ∀ d, c = .dec d → d.Ok)
    (henc : ∀ e, c = .enc e → e.Ok s.params) (hres : res ≠ .malformedStream) : s.EndsAt (s.complete c res) :=
  ⟨rfl, rfl, hdec, henc, res, rfl, fun h => absurd h hres⟩

theorem State.endsAt_completeDec (s : State) {d : Dec} {res : Result} (hd : d.Ok) (hres : res ≠ .malformedStream) :
    s.EndsAt (s.complete (.dec d) res) :=
  s.endsAt_complete (fun _ h => by cases h; exact hd) nofun hres

theorem State.endsAt_completeEnc (s : State) {e : Enc} {res : Result} (he : e.Ok s.params) (hres : res ≠ .malformedStream) :
    s.EndsAt (s.complete (.enc e) res) :=
  s.endsAt_complete nofun (fun _ h => by cases h; exact he) hres

theorem State.endsAt_finishDec (s : State) (io : Io) {d : Dec} {res : Result} (hd : d.Ok)
    (hres : res = .malformedStream → d.mode = .bad) : s.EndsAt (s.finish io (.dec d) res) :=
  ⟨rfl, rfl, fun _ h => by cases h; exact hd, nofun, res, rfl, fun h => ⟨d, rfl, hres h⟩⟩

theorem State.endsAt_finishEnc (s : State) (io : Io) {e : Enc} {res : Result} (he : e.Ok s.params) (hres : res ≠ .malformedStream) :
    s.EndsAt (s.finish io (.enc e) res) :=
  ⟨rfl, rfl, nofun, fun _ h => by cases h; exact he, res, rfl, fun h => absurd h hres⟩

section
variable {s : State} (hdec : s.DecOk) (henc : s.EncOk)
include hdec henc

theorem State.endsAt_refuseCommand : s.EndsAt s.refuseCommand := s.endsAt_complete hdec.dec henc (by decide)

theorem execEncInit_endsAt : ∃ t, execEncInit s = .next t ∧ s.EndsAt t := by
  unfold execEncInit
  split
  · next hcfg =>
    simp only [cfgOkEnc, cfgOkDec, Bool.and_eq_true, decide_eq_true_eq] at hcfg
    obtain ⟨⟨hlevel, -⟩, hwbits, -⟩ := hcfg
    have hfresh := Enc.ok_fresh hlevel (strategyOf (cfgStrategy s.cfg))
      ⟨hwbits, Nat.le_of_lt_succ (Nat.mod_lt (s.cfg.toNat / 256) (by decide))⟩ s.params
    have hend := s.endsAt_completeEnc hfresh (res := .ok) (by decide)
    exact ⟨_, rfl, hend.phase, hend.params, hend.dec, hend.enc, hend.status⟩
  · exact ⟨_, rfl, s.endsAt_complete hdec.dec henc (by decide)⟩

theorem execDecInit_endsAt : ∃ t, execDecInit s = .next t ∧ s.EndsAt t := by
  unfold execDecInit
  split
  · next hcfg =>
    simp only [cfgOkDec, Bool.and_eq_true, decide_eq_true_eq] at hcfg
    have hfresh := Dec.ok_fresh ⟨hcfg.1, Nat.le_of_lt_succ (Nat.mod_lt (s.cfg.toNat / 256) (by decide))⟩
      s.params.allowSingleCode s.freeCtr
    have hend := s.endsAt_completeDec hfresh (res := .ok) (by decide)
    exact ⟨_, rfl, hend.phase, hend.params, hend.dec, hend.enc, hend.status⟩
  · exact ⟨_, rfl, s.endsAt_complete hdec.dec henc (by decide)⟩

theorem encStep_endsAt (f : Flush) : ∃ t, encStep f s = .next t ∧ s.EndsAt t := by
  rcases encStep_cases f s with h | ⟨e, r, res, hs, h, hend⟩
  · exact ⟨_, h, State.endsAt_refuseCommand hdec henc⟩
  · have hres : res ≠ .malformedStream := by rcases hend.results with h | h | h <;> rw [h] <;> decide
    exact ⟨_, h, s.endsAt_finishEnc _ (hend.ok (henc e hs)) hres⟩

theorem execEncSetDict_endsAt : ∃ t, execEncSetDict s = .next t ∧ s.EndsAt t := by
  unfold execEncSetDict
  split
  · next e hs =>
    split
    · exact ⟨_, rfl, State.endsAt_refuseCommand hdec henc⟩
    · split
      · exact ⟨_, rfl, State.endsAt_refuseCommand hdec henc⟩
      · obtain ⟨hgood, hkept⟩ := EncRun.prime_end (r := { e := e, io := s.dictIo e, params := s.params })
        have hok := henc e hs
        have hprimed := (hgood.sound hok).ok (hgood.placed hok) (by rw [hkept.syms]; exact hok.syms)
        exact ⟨_, rfl, s.endsAt_completeEnc hprimed (by decide)⟩
  · exact ⟨_, rfl, State.endsAt_refuseCommand hdec henc⟩

theorem execDecStep_endsAt : ∃ t, execDecStep s = .next t ∧ s.EndsAt t := by
  rcases execDecStep_cases hdec with h | ⟨d, r, res, h, hgood, hending⟩
  · exact ⟨_, h, State.endsAt_refuseCommand hdec henc⟩
  · exact ⟨_, h, s.endsAt_finishDec _ hgood.ok fun hres => by rw [hres] at hending; exact hending⟩

theorem execDecSetDict_endsAt : ∃ t, execDecSetDict s = .next t ∧ s.EndsAt t := by
  unfold execDecSetDict
  split
  · next d hs =>
    split
    · exact ⟨_, rfl, State.endsAt_refuseCommand hdec henc⟩
    · split
      · exact ⟨_, rfl, State.endsAt_refuseCommand hdec henc⟩
      · exact ⟨_, rfl, s.endsAt_completeDec (Dec.ok_rememberAll _ (hdec.dec d hs)) (by decide)⟩
  · exact ⟨_, rfl, State.endsAt_refuseCommand hdec henc⟩

theorem execDecSync_endsAt : ∃ t, execDecSync s = .next t ∧ s.EndsAt t := by
  rcases execDecSync_cases hdec with h | ⟨d, res, n, h, -, hok, hres⟩
  · exact ⟨_, h, State.endsAt_refuseCommand hdec henc⟩
  · have hres : res ≠ .malformedStream := by rcases hres with h | h <;> rw [h] <;> decide
    exact ⟨_, h, s.endsAt_finishDec _ hok fun hm => absurd hm hres⟩

theorem execEndStream_endsAt : ∃ t, execEndStream s = .next t ∧ s.EndsAt t := by
  unfold execEndStream
  split
  · exact ⟨_, rfl, State.endsAt_refuseCommand hdec henc⟩
  · exact ⟨_, rfl, s.endsAt_complete nofun nofun (by decide)⟩

/-- Every command ends, with its engine in order (R380). -/
theorem exec_command_endsAt {i : Instr} (hi : i.mode = none) : ∃ t, exec i s = .next t ∧ s.EndsAt t := by
  rcases command_cases hi with rfl | ⟨f, rfl⟩ | rfl | rfl | rfl | rfl | rfl | rfl
  · exact execEncInit_endsAt hdec henc
  · rw [exec_stepInstr]; exact encStep_endsAt hdec henc f
  · exact execEncSetDict_endsAt hdec henc
  · exact execDecInit_endsAt hdec henc
  · exact execDecStep_endsAt hdec henc
  · exact execDecSetDict_endsAt hdec henc
  · exact execDecSync_endsAt hdec henc
  · exact execEndStream_endsAt hdec henc

end

/-! ## Host accesses -/

/-- The host has done nothing to the engine: the stream and STATUS are as they were, and so are the phase and the buffers' lengths, but
between commands, where a register may be written or a command started (R33 to R39). -/
structure State.SameEngine (s t : State) : Prop where
  params : t.params = s.params
  stream : t.stream = s.stream
  status : t.status = s.status
  phase : (t.phase = s.phase ∧ t.inLen = s.inLen ∧ t.outLen = s.outLen) ∨
    (s.phase = .idle ∧ ∀ c p, t.phase ≠ .decoding c p)

theorem State.SameEngine.refl (s : State) : s.SameEngine s := ⟨rfl, rfl, rfl, .inl ⟨rfl, rfl, rfl⟩⟩

/-- The engine after a reset (R451). -/
structure State.IsReset (t : State) : Prop where
  stream : t.stream = .none
  status : t.status = Status.reset
  phase : t.phase = .idle

theorem State.isReset_resetDfc (s : State) : s.resetDfc.IsReset := ⟨rfl, rfl, rfl⟩

theorem State.isReset_abandon (s : State) : s.abandon.IsReset := by
  unfold State.abandon
  split
  · split
    · exact s.isReset_resetDfc
    · split
      · exact ⟨rfl, rfl, rfl⟩
      · exact s.isReset_resetDfc
  · exact s.isReset_resetDfc

theorem State.sameEngine_regWrite {s : State} (hi : s.phase = .idle) (off : Nat) (v : Word) : s.SameEngine (s.regWrite off v) := by
  have hidle : ∀ c p, s.phase ≠ .decoding c p := fun c p h => by rw [hi] at h; exact absurd h nofun
  unfold State.regWrite
  split
  · exact ⟨rfl, rfl, rfl, .inr ⟨hi, nofun⟩⟩
  all_goals exact ⟨rfl, rfl, rfl, .inr ⟨hi, hidle⟩⟩

/-- A host access leaves the engine alone, resets it, or is refused. -/
theorem hostAccess_cases (a : HostAccess) (s : State) :
    (∃ r, hostAccess a s = .refused r) ∨ ∃ t, hostAccess a s = .next t ∧ (s.SameEngine t ∨ t.IsReset) := by
  have hsame : ∀ (m : Memory) (w : Word), s.SameEngine { s with mem := m, readData := w } := fun _ _ =>
    ⟨rfl, rfl, rfl, .inl ⟨rfl, rfl, rfl⟩⟩
  cases a with
  | regWrite addr width v =>
    simp only [hostAccess]
    split
    · exact .inl ⟨_, rfl⟩
    · split
      · exact .inr ⟨_, rfl, .inl (State.SameEngine.refl s)⟩
      · next hbusy =>
        exact .inr ⟨_, rfl, .inl (State.sameEngine_regWrite (by simpa [State.busy] using hbusy) _ v)⟩
  | regRead addr width =>
    simp only [hostAccess]
    split
    · exact .inl ⟨_, rfl⟩
    · exact .inr ⟨_, rfl, .inl (hsame s.mem _)⟩
  | memWrite addr v =>
    simp only [hostAccess]
    split
    · exact .inl ⟨_, rfl⟩
    · exact .inr ⟨_, rfl, .inl (hsame _ s.readData)⟩
  | memRead addr =>
    simp only [hostAccess]
    split
    · exact .inl ⟨_, rfl⟩
    · exact .inr ⟨_, rfl, .inl (hsame s.mem _)⟩
  | reset =>
    refine .inr ⟨_, rfl, .inr ?_⟩
    split
    · exact s.isReset_abandon
    · exact s.isReset_resetDfc

/-! ## Steps -/

/-- What one step can do: a host access, the whole of a command, or one state action of a DEC_STEP. -/
inductive State.Follows (s : State) : State → Prop where
  | host {t : State} (h : s.SameEngine t) : s.Follows t
  | reset {t : State} (h : t.IsReset) : s.Follows t
  | ended {t : State} (h : s.EndsAt t) : s.Follows t
  | acted {r : DecRun} (hok : r.d.Ok) (hin : r.io.consumed ≤ s.inLen.toNat) (hout : r.io.produced ≤ s.outLen.toNat) :
      s.Follows (s.settle (.go r))

/-- A sound action of the decoder, carried back into the state. -/
theorem State.follows_settle {s : State} {d : Dec} {c p bound : Nat} (hc : c ≤ s.inLen.toNat) (hp : p ≤ s.outLen.toNat) :
    ∀ {a : Act}, a.Sound d (s.io c p) bound → s.Follows (s.settle a)
  | .go r, ⟨hgood, _, _⟩ => by
    have hin := (hgood.moves.consumed hc).2
    have hout := (hgood.moves.produced hp).2
    rw [hgood.moves.inLen] at hin
    rw [hgood.moves.outLen] at hout
    exact .acted hgood.ok hin hout
  | .stop res r, ⟨hgood, hending⟩ =>
    .ended (s.endsAt_finishDec _ hgood.ok fun h => by rw [h] at hending; exact hending)

section
variable {s : State} (hdec : s.DecOk) (henc : s.EncOk)
include hdec henc

theorem engineStep_follows : (∃ r, engineStep s = .refused r) ∨ ∃ t, engineStep s = .next t ∧ s.Follows t := by
  unfold engineStep
  split
  · exact .inl ⟨_, rfl⟩
  · split
    · exact .inr ⟨s, rfl, .host (State.SameEngine.refl s)⟩
    · next w _ =>
      unfold runCommandWord
      split
      · next i hi =>
        obtain ⟨t, ht, hend⟩ := exec_command_endsAt hdec henc (mode_of_decodeCommand hi)
        exact .inr ⟨t, ht, .ended hend⟩
      · exact .inr ⟨_, rfl, .ended (State.endsAt_refuseCommand hdec henc)⟩
    · next c p hphase =>
      obtain ⟨⟨d, hs⟩, hc, hp⟩ := hdec.point c p hphase
      obtain ⟨a, hstep, hsound⟩ := decoderStep_sound hs hphase (hdec.dec d hs)
      exact .inr ⟨_, hstep, State.follows_settle hc hp hsound⟩

/-- A step of a machine with both engines in order: no fault (R427), and a next state that follows. -/
theorem step_follows : (∃ r, step s = .refused r) ∨ ∃ t, step s = .next t ∧ s.Follows t := by
  unfold step
  split
  · exact engineStep_follows hdec henc
  · next ev rest _ =>
    split
    · rcases hostAccess_cases ev.access { s with hostq := rest } with h | ⟨t, ht, h | h⟩
      · exact .inl h
      · exact .inr ⟨t, ht, .host ⟨h.params, h.stream, h.status, h.phase⟩⟩
      · exact .inr ⟨t, ht, .reset h⟩
    · exact engineStep_follows hdec henc

end

/-! ## What every step keeps -/

theorem State.Follows.decOk {s t : State} (h : s.Follows t) (hdec : s.DecOk) : t.DecOk := by
  cases h with
  | host h =>
    refine ⟨fun d hd => hdec.dec d (h.stream ▸ hd), fun c p hp => ?_⟩
    rcases h.phase with ⟨hphase, hin, hout⟩ | ⟨-, hnot⟩
    · rw [h.stream, hin, hout]; exact hdec.point c p (hphase ▸ hp)
    · exact absurd hp (hnot c p)
  | reset h =>
    exact ⟨fun d hd => absurd (h.stream.symm.trans hd) nofun, fun c p hp => absurd (h.phase.symm.trans hp) nofun⟩
  | ended h => exact ⟨h.dec, fun c p hp => absurd (h.phase.symm.trans hp) nofun⟩
  | acted hok hin hout =>
    exact ⟨fun d hd => by cases hd; exact hok, fun c p hp => by cases hp; exact ⟨⟨_, rfl⟩, hin, hout⟩⟩

theorem State.Follows.encOk {s t : State} (h : s.Follows t) (henc : s.EncOk) : t.EncOk := by
  cases h with
  | host h => intro e he; rw [h.params]; exact henc e (h.stream ▸ he)
  | reset h => exact fun e he => absurd (h.stream.symm.trans he) nofun
  | ended h => intro e he; rw [h.params]; exact h.enc e he
  | acted => exact nofun

/-- The sub-kind of a decoder in BAD is 1 to 11 (R67, R424). -/
theorem Dec.Ok.subkind {d : Dec} (h : d.Ok) (hbad : d.mode = .bad) :
    1 ≤ (BitVec.ofNat 4 d.err).toNat ∧ (BitVec.ofNat 4 d.err).toNat ≤ 11 := by
  have hne := h.bad.1 hbad
  have hle := h.err
  rw [BitVec.toNat_ofNat, Nat.mod_eq_of_lt (by omega)]
  omega

theorem State.EndsAt.statusOk {s t : State} (h : s.EndsAt t) : t.StatusOk := by
  obtain ⟨res, hstatus, hbad⟩ := h.status
  refine ⟨fun _ => by rw [hstatus]; exact ⟨rfl, rfl⟩, fun hres => ?_, fun hres => ?_⟩
  · rw [hstatus, Status.after_result] at hres
    obtain ⟨d, hd, hmode⟩ := hbad hres
    rw [hstatus, Status.after_subkind, if_pos hres, hd]
    exact (h.dec d hd).subkind hmode
  · rw [hstatus, Status.after_result] at hres
    rw [hstatus, Status.after_subkind, if_neg hres]

theorem State.Follows.statusOk {s t : State} (h : s.Follows t) (hstatus : s.StatusOk) : t.StatusOk := by
  cases h with
  | host h =>
    refine ⟨fun hnot => ?_, ?_, ?_⟩ <;> rw [h.status]
    · rw [h.stream]
      refine hstatus.engine fun c p hp => ?_
      rcases h.phase with ⟨hphase, -, -⟩ | ⟨hidle, -⟩
      · exact hnot c p (hphase.trans hp)
      · rw [hidle] at hp; exact absurd hp nofun
    · exact hstatus.malformed
    · exact hstatus.other
  | reset h =>
    refine ⟨fun _ => ?_, ?_, ?_⟩ <;> rw [h.status]
    · rw [h.stream]; exact ⟨rfl, rfl⟩
    · exact nofun
    · exact fun _ => rfl
  | ended h => exact h.statusOk
  | acted => exact ⟨fun hnot => absurd rfl (hnot _ _), hstatus.malformed, hstatus.other⟩

end Sys2Proof.Machine

open Sys2Proof.Machine

/-- Settles O59: a step is refused, or goes to a state that follows, where both engines are in order again. -/
theorem enginesStayInOrder : Obligations.EnginesStayInOrder := by
  intro s hdec henc
  rcases step_follows hdec henc with ⟨r, hr⟩ | ⟨u, hu, hfollows⟩
  · exact ⟨fun t ht => by rw [hr] at ht; exact absurd ht nofun, fun f hf => by rw [hr] at hf; exact absurd hf nofun⟩
  · refine ⟨fun t ht => ?_, fun f hf => by rw [hu] at hf; exact absurd hf nofun⟩
    rw [hu] at ht
    cases ht
    exact ⟨hfollows.decOk hdec, hfollows.encOk henc⟩

/-- Settles O60: the state that follows keeps STATUS, or it is where a command ended or a reset came, which write it. -/
theorem statusTellsTheStream : Obligations.StatusTellsTheStream := by
  intro s t hdec henc hstatus ht
  rcases step_follows hdec henc with ⟨r, hr⟩ | ⟨u, hu, hfollows⟩
  · rw [hr] at ht; exact absurd ht nofun
  · rw [hu] at ht
    cases ht
    exact hfollows.statusOk hstatus
end

