-- ==== Sys2Proof/Proofs/RegisterWindow.lean ====
section
/-! PROOF. Sys2Proof/Proofs/RegisterWindow.lean: the register window between commands and while one runs (R33 to R39), the fields of
STATUS (R37), and what a step does with the host's next access and with the running command word (R380). -/

namespace Sys2Proof.Machine

open Sys2Proof

/-! ## Offsets -/

@[simp] theorem State.regOffset_regBase (s : State) : s.regOffset s.params.regBase = 0 := by
  rw [State.regOffset, BitVec.sub_self]; rfl

@[simp] theorem State.regOffset_regBase_add (s : State) (off : Word) : s.regOffset (s.params.regBase + off) = off.toNat := by
  rw [State.regOffset, BitVec.add_comm, BitVec.add_sub_cancel]

/-! ## Accesses -/

theorem State.busy_eq_false {s : State} (h : s.phase = .idle) : s.busy = false := by simp [State.busy, h]

theorem State.busy_eq_true {s : State} (h : s.phase ≠ .idle) : s.busy = true := by simp [State.busy, h]

theorem hostAccess_regWrite_busy {s : State} {addr : Word} (ha : s.regOffset addr % 4 = 0) (hb : s.phase ≠ .idle) (v : Word) :
    hostAccess (.regWrite addr 4 v) s = .next s := by
  simp [hostAccess, ha, State.busy_eq_true hb]

theorem hostAccess_regWrite_idle {s : State} {addr : Word} (ha : s.regOffset addr % 4 = 0) (hi : s.phase = .idle) (v : Word) :
    hostAccess (.regWrite addr 4 v) s = .next (s.regWrite (s.regOffset addr) v) := by
  simp [hostAccess, ha, State.busy_eq_false hi]

/-- A write of CMD starts the command (R33). -/
theorem hostAccess_writeCmd {s : State} (hi : s.phase = .idle) (w : Word) :
    hostAccess (.regWrite s.params.regBase 4 w) s = .next { s with phase := .command w } := by
  rw [hostAccess_regWrite_idle (by rw [State.regOffset_regBase]) hi, State.regOffset_regBase]; rfl

theorem hostAccess_regRead {s : State} {addr : Word} (ha : s.regOffset addr % 4 = 0) :
    hostAccess (.regRead addr 4) s = .next { s with readData := s.regRead (s.regOffset addr) } := by
  simp [hostAccess, ha]

/-- The offsets that ignore writes: the read-only registers, and 0x24 and above (R37, R38, R39). -/
theorem State.regWrite_ignored {s : State} {off : Nat} (h : off = 0x18 ∨ off = 0x1C ∨ off = 0x20 ∨ 0x24 ≤ off) (v : Word) :
    s.regWrite off v = s := by
  unfold State.regWrite
  split
  case h_7 => rfl
  all_goals omega

/-- CMD, and what lies at 0x24 and above, reads 0 (R33, R39). -/
theorem State.regRead_eq_zero {s : State} {off : Nat} (h : off = 0 ∨ 0x24 ≤ off) : s.regRead off = 0 := by
  unfold State.regRead
  split
  case h_9 => rfl
  all_goals omega

/-! ## While a command runs -/

/-- A register reads the same of two states that agree in what it shows. -/
theorem State.regRead_congr {s t : State} {off : Nat} (hcfg : t.cfg = s.cfg) (hinA : t.inAddr = s.inAddr) (hinL : t.inLen = s.inLen)
    (houtA : t.outAddr = s.outAddr) (houtL : t.outLen = s.outLen) (hst : off ≠ 0x18 ∨ t.statusWord = s.statusWord)
    (hin : t.totalInSeen = s.totalInSeen) (hout : t.totalOutSeen = s.totalOutSeen) : t.regRead off = s.regRead off := by
  unfold State.regRead
  split
  case h_6 => exact hst.resolve_left (fun h => h rfl)
  case h_9 => rfl
  all_goals assumption

/-- STATUS shows the fields of the last completed command and whether one runs (R37). -/
theorem State.statusWord_congr {s t : State} (hst : t.status = s.status) (hb : t.busy = s.busy) : t.statusWord = s.statusWord := by
  rw [State.statusWord, State.statusWord, hst, hb]

/-- A count that has gone from `a` to `b` with its total: the total at the start of the command is the same (R39). -/
theorem total_at_start {total : Word} {a b : Nat} (h : a ≤ b) :
    total + BitVec.ofNat 32 (b - a) - BitVec.ofNat 32 b = total - BitVec.ofNat 32 a := by
  obtain ⟨k, rfl⟩ := Nat.exists_eq_add_of_le h
  rw [Nat.add_sub_cancel_left, BitVec.ofNat_add]
  bv_omega

/-- From one state action of a DEC_STEP to the next, every register reads the same (R39). -/
theorem State.regRead_settle_go {s : State} {c p : Nat} {r : DecRun} (hphase : s.phase = .decoding c p) (hc : c ≤ s.inLen.toNat)
    (hp : p ≤ s.outLen.toNat) (hmoves : (s.io c p).Moves r.io) (off : Nat) : (s.settle (.go r)).regRead off = s.regRead off := by
  refine State.regRead_congr rfl rfl rfl rfl rfl (.inr (State.statusWord_congr rfl ?_)) ?_ ?_
  · exact (State.busy_eq_true (s := s) (by rw [hphase]; nofun)).symm
  · simp only [State.totalInSeen, hphase, State.settle_go_phase, State.settle_go_totalIn, hmoves.totalIn]
    exact total_at_start (hmoves.consumed hc).1
  · simp only [State.totalOutSeen, hphase, State.settle_go_phase, State.settle_go_totalOut, hmoves.totalOut]
    exact total_at_start (hmoves.produced hp).1

/-- A state action of a DEC_STEP that does not end it leaves every register as the host reads it. -/
theorem engineStep_regRead {s t : State} {c p : Nat} (hdec : s.DecOk) (hphase : s.phase = .decoding c p)
    (hstep : engineStep s = .next t) (hbusy : t.phase ≠ .idle) (off : Nat) : t.regRead off = s.regRead off := by
  obtain ⟨⟨d, hs⟩, hc, hp⟩ := hdec.point c p hphase
  obtain ⟨a, ha, hsound⟩ := decoderStep_sound hs hphase (hdec.dec d hs)
  have hnext : Host.Outcome.next (s.settle a) = (Host.Outcome.next t : Answer) := by
    rw [← ha, ← hstep, engineStep, hphase]
    split
    · next hdev => rw [engineStep, if_pos hdev] at hstep; exact absurd hstep nofun
    · rfl
  cases hnext
  cases a with
  | go r => exact State.regRead_settle_go hphase hc hp hsound.1.moves off
  | stop res r => exact absurd rfl hbusy

/-! ## STATUS -/

/-- The fields of a word that is the sum of fields at their places (R37). -/
theorem status_fields {r k m e b : Nat} (hr : r < 16) (hk : k < 16) (hm : m < 4) (he : e < 16) (hb : b < 2) :
    let w := BitVec.ofNat 32 (r + 16 * k + 256 * m + 4096 * e + 2147483648 * b)
    w.extractLsb' 0 4 = BitVec.ofNat 4 r ∧ w.extractLsb' 4 4 = BitVec.ofNat 4 k ∧ w.extractLsb' 8 2 = BitVec.ofNat 2 m ∧
      w.extractLsb' 10 2 = 0 ∧ w.extractLsb' 12 4 = BitVec.ofNat 4 e ∧ w.extractLsb' 16 15 = 0 ∧ (w.getLsbD 31 = true ↔ b = 1) := by
  have hlt : r + 16 * k + 256 * m + 4096 * e + 2147483648 * b < 2 ^ 32 := by omega
  have hfield : ∀ pos len v : Nat, (r + 16 * k + 256 * m + 4096 * e + 2147483648 * b) / 2 ^ pos % 2 ^ len = v % 2 ^ len →
      (BitVec.ofNat 32 (r + 16 * k + 256 * m + 4096 * e + 2147483648 * b)).extractLsb' pos len = BitVec.ofNat len v := by
    intro pos len v h
    apply BitVec.eq_of_toNat_eq
    rwa [BitVec.extractLsb'_toNat, BitVec.toNat_ofNat, BitVec.toNat_ofNat, Nat.mod_eq_of_lt hlt, Nat.shiftRight_eq_div_pow]
  refine ⟨hfield 0 4 r (by omega), hfield 4 4 k (by omega), hfield 8 2 m (by omega), hfield 10 2 0 (by omega),
    hfield 12 4 e (by omega), hfield 16 15 0 (by omega), ?_⟩
  rw [BitVec.getLsbD_ofNat, Nat.testBit_eq_decide_div_mod_eq]
  simp only [Nat.reduceLT, decide_true, Bool.true_and, decide_eq_true_eq]
  omega

theorem State.statusWord_eq (s : State) : s.statusWord = BitVec.ofNat 32 (s.status.result.code + 16 * s.status.subkind.toNat +
    256 * s.status.mode.toNat + 4096 * s.status.estate.toNat + 2147483648 * (if s.busy then 1 else 0)) := by
  rw [State.statusWord]; split <;> rfl

/-! ## Steps -/

theorem step_noEvent {s : State} (h : s.hostq = []) : step s = engineStep s := by rw [step, h]

theorem step_hostAccess {s : State} {ev : HostEvent} {rest : List HostEvent} (hq : s.hostq = ev :: rest) (hi : s.phase = .idle) :
    step s = hostAccess ev.access { s with hostq := rest } := by
  rw [step, hq]
  exact if_pos (.inr hi)

/-- Where the host waits for the machine, a step is the engine's move (R380). -/
theorem step_quiet {s : State} (hq : s.quiet) (hb : s.phase ≠ .idle) : step s = engineStep s := by
  cases hev : s.hostq with
  | nil => exact step_noEvent hev
  | cons ev rest =>
    have hwait : ev.whileBusy = false := hq ev (by rw [hev]; rfl)
    rw [step, hev]
    exact if_neg (by simp [hwait, hb])

theorem engineStep_command {s : State} {w : Word} (hphase : s.phase = .command w) (hdev : s.bufferOnDevice = false) :
    engineStep s = runCommandWord w s := by
  rw [engineStep, hdev, hphase]; rfl

end Sys2Proof.Machine

open Sys2Proof Sys2Proof.Machine

/-- Settles O5, clause by clause: a running command's writes, a running DEC_STEP's reads, a command's start, and the offsets that are no
register or cannot be written. -/
theorem registersStandStillWhileBusy : Obligations.RegistersStandStillWhileBusy := by
  refine ⟨fun s off v hb ha => hostAccess_regWrite_busy (by rwa [State.regOffset_regBase_add]) hb v,
    fun s t c p off hdec hphase hstep hbusy => engineStep_regRead hdec hphase hstep hbusy off, fun s w off hi hoff => ?_,
    fun s off v ha hoff => ?_, fun s off ha hoff => ?_⟩
  · refine State.regRead_congr rfl rfl rfl rfl rfl (.inl hoff) ?_ ?_
    · simp only [State.totalInSeen, hi]
    · simp only [State.totalOutSeen, hi]
  · by_cases hi : s.phase = .idle
    · rw [hostAccess_regWrite_idle (by rwa [State.regOffset_regBase_add]) hi, State.regOffset_regBase_add, State.regWrite_ignored]
      rcases hoff with rfl | rfl | rfl | h
      · exact .inl rfl
      · exact .inr (.inl rfl)
      · exact .inr (.inr (.inl rfl))
      · exact .inr (.inr (.inr h))
    · exact hostAccess_regWrite_busy (by rwa [State.regOffset_regBase_add]) hi v
  · rw [hostAccess_regRead (by rwa [State.regOffset_regBase_add]), State.regOffset_regBase_add, State.regRead_eq_zero]
    exact hoff.imp (fun h => by rw [h]; rfl) id

/-- Settles O4: each register's offset is the one it is read and written at, and between commands nothing stands in the way. -/
theorem registerWindow : Obligations.RegisterWindow := by
  intro s v
  refine ⟨fun hi => ?_, ?_, fun hi => ?_⟩
  · refine ⟨hostAccess_writeCmd hi v, ?_, ?_, ?_, ?_, ?_⟩ <;> rw [hostAccess_regWrite_idle (by simp) hi] <;> simp [State.regWrite]
  · rw [hostAccess_regRead (by simp)]; simp [State.regRead]
  · refine ⟨?_, ?_, ?_, ?_, ?_, ?_, ?_⟩ <;> rw [hostAccess_regRead (by simp)] <;>
      simp [State.regRead, State.totalInSeen, State.totalOutSeen, hi]

/-- Settles O6: `status_fields` reads the word apart, and the numbers are the tables'. -/
theorem statusLayout : Obligations.StatusLayout := by
  refine ⟨fun s => ?_, rfl, rfl, rfl⟩
  have hcode : s.status.result.code < 16 := by cases s.status.result <;> decide
  obtain ⟨hres, hsub, hmode, hz1, hest, hz2, hbusy⟩ := status_fields (b := if s.busy then 1 else 0) hcode s.status.subkind.isLt
    s.status.mode.isLt s.status.estate.isLt (by split <;> decide)
  rw [← State.statusWord_eq] at hres hsub hmode hz1 hest hz2 hbusy
  refine ⟨hres, by rw [hsub, BitVec.ofNat_toNat, BitVec.setWidth_eq], by rw [hmode, BitVec.ofNat_toNat, BitVec.setWidth_eq], hz1,
    by rw [hest, BitVec.ofNat_toNat, BitVec.setWidth_eq], hz2, hbusy.trans ?_⟩
  simp [State.busy]

/-- Settles O8: the host moves while no command runs, and the engine while one does. -/
theorem stepRunsTheCommand : Obligations.StepRunsTheCommand := by
  refine ⟨fun s hi hq => ?_, fun s ev rest hq hi => step_hostAccess hq hi, fun s w b rest hi hq => ?_,
    fun s w i hphase hw hq hdev => ?_⟩
  · have hnone : s.bufferOnDevice = false := by simp [State.bufferOnDevice, hi, Phase.usesInput, Phase.usesOutput]
    rw [step_noEvent hq, engineStep, hnone, hi]; rfl
  · exact (step_hostAccess hq hi).trans (hostAccess_writeCmd (s := { s with hostq := rest }) hi w)
  · rw [step_quiet hq (by rw [hphase]; nofun), engineStep_command hphase hdev, runCommandWord, hw]
end

