-- ==== Sys2Proof/Proofs/Inits.lean ====
section
/-! PROOF. Sys2Proof/Proofs/Inits.lean: the two inits (R384, R398): the fields of CFG they read (R34), and the engines they make. -/

namespace Sys2Proof.Machine

open Sys2Proof

/-! ## The fields of CFG -/

theorem cfgLevel_eq (cfg : Word) : cfgLevel cfg = (cfg.extractLsb' 0 4).toNat := by
  simp [cfgLevel, BitVec.extractLsb'_toNat]

theorem cfgStrategy_eq (cfg : Word) : cfgStrategy cfg = (cfg.extractLsb' 4 3).toNat := by
  simp [cfgStrategy, BitVec.extractLsb'_toNat, Nat.shiftRight_eq_div_pow]

theorem cfgWbits_eq (cfg : Word) : cfgWbits cfg = (cfg.extractLsb' 8 4).toNat := by
  simp [cfgWbits, BitVec.extractLsb'_toNat, Nat.shiftRight_eq_div_pow]

theorem cfgReservedClear_eq_true (cfg : Word) :
    cfgReservedClear cfg = true ↔ cfg.getLsbD 7 = false ∧ cfg.extractLsb' 12 20 = 0 := by
  have hbit : cfg.getLsbD 7 = false ↔ cfg.toNat / 128 % 2 = 0 := by
    rw [BitVec.getLsbD, Nat.testBit_eq_decide_div_mod_eq, decide_eq_false_iff_not]; omega
  have htop : cfg.extractLsb' 12 20 = 0 ↔ cfg.toNat / 4096 = 0 := by
    have := cfg.isLt
    rw [BitVec.toNat_eq, BitVec.extractLsb'_toNat, Nat.shiftRight_eq_div_pow, BitVec.ofNat_eq_ofNat, BitVec.toNat_zero]; omega
  rw [cfgReservedClear, hbit, htop, Bool.and_eq_true, decide_eq_true_eq, decide_eq_true_eq]

/-- DEC_INIT's precondition on CFG, bit by bit (R34, R398). -/
theorem cfgOkDec_eq_true (cfg : Word) : cfgOkDec cfg = true ↔ legalDec cfg := by
  rw [cfgOkDec, legalDec, Bool.and_eq_true, decide_eq_true_eq, cfgReservedClear_eq_true, cfgWbits_eq]

/-- ENC_INIT's precondition on CFG, bit by bit (R34, R384). -/
theorem cfgOkEnc_eq_true (cfg : Word) : cfgOkEnc cfg = true ↔ legalEnc cfg := by
  rw [cfgOkEnc, legalEnc, Bool.and_eq_true, Bool.and_eq_true, decide_eq_true_eq, decide_eq_true_eq, cfgOkDec_eq_true,
    cfgLevel_eq, cfgStrategy_eq, and_assoc]

/-! ## The new engines -/

/-- A legal STRATEGY is the strategy of its number (R34). -/
theorem strategyOf_eq {n : Nat} (h : n ≤ 3) : [Strategy.default, .filtered, .huffmanOnly, .runLength][n]? = some (strategyOf n) := by
  interval_cases n <;> rfl

/-- In a new encoder the literal frequencies are 0 but for the end-of-block's, which is 1 (R47). -/
theorem Enc.fresh_lfreq (level : Nat) (st : Strategy) (wbits n : Nat) :
    (Enc.fresh level st wbits).lfreq.getD n 0 = if n = 256 then 1 else 0 := by
  show ((List.replicate 286 0).set 256 1).getD n 0 = _
  rw [List.getD_eq_getElem?_getD, List.getElem?_set, List.length_replicate]
  by_cases h : 256 = n
  · subst h; rfl
  · rw [if_neg h, if_neg (Ne.symm h), List.getElem?_replicate]; split <;> rfl

end Sys2Proof.Machine

open Sys2Proof Sys2Proof.Machine

/-- Settles O20: the encoder of a legal CFG is `Enc.fresh` of its fields. -/
theorem encInitMakesAnEncoder : Obligations.EncInitMakesAnEncoder := by
  intro s
  refine ⟨fun h => ?_, fun h => ?_⟩
  · have hexec : exec .encInit s = .next { s.complete (.enc (Enc.fresh (cfgLevel s.cfg) (strategyOf (cfgStrategy s.cfg))
        (cfgWbits s.cfg))) .ok with totalIn := 0, totalOut := 0 } := if_pos ((cfgOkEnc_eq_true _).2 h)
    rw [cfgLevel_eq, cfgStrategy_eq, cfgWbits_eq] at hexec
    refine ⟨_, hexec, ⟨rfl, strategyOf_eq h.2.1, rfl, rfl, rfl⟩, ⟨fun i => Ram.get_nil _ i, fun k => Ram.get_nil _ k,
      fun p => Ram.get_nil _ _⟩, ⟨rfl, rfl, rfl, rfl, rfl, rfl, rfl, rfl, rfl⟩,
      ⟨rfl, Enc.fresh_lfreq _ _ _, fun n => ?_, fun n => ?_, rfl, rfl⟩, rfl, rfl, rfl, rfl, rfl⟩
    · exact List.getElem?_getD_replicate_default_eq 0 30 n
    · exact List.getElem?_getD_replicate_default_eq 0 19 n
  · exact if_neg fun hc => h ((cfgOkEnc_eq_true _).1 hc)

/-- Settles O21: the decoder of a legal CFG is `Dec.fresh` of its WBITS. -/
theorem decInitMakesADecoder : Obligations.DecInitMakesADecoder := by
  intro s
  refine ⟨fun h => ?_, fun h => ?_⟩
  · have hexec : exec .decInit s = .next { s.complete (.dec (Dec.fresh (cfgWbits s.cfg) s.params.allowSingleCode s.freeCtr)) .ok
        with totalIn := 0, totalOut := 0, freeCtr := s.freeCtr + 1 } := if_pos ((cfgOkDec_eq_true _).2 h)
    rw [cfgWbits_eq] at hexec
    exact ⟨_, hexec, rfl, rfl, ⟨rfl, rfl, rfl, rfl, rfl, rfl⟩, ⟨rfl, rfl, rfl, rfl, rfl, rfl, rfl⟩,
      ⟨List.length_replicate, fun v hv => List.eq_of_mem_replicate hv⟩, rfl, rfl, rfl⟩
  · exact if_neg fun hc => h ((cfgOkDec_eq_true _).1 hc)
end

