-- ==== Sys2Proof/Proofs/PendingBytes.lean ====
section
/-! PROOF. Sys2Proof/Proofs/PendingBytes.lean: FINISH on an encoder that has nothing left to encode writes out the pending buffer (R176,
R388, R390). -/

namespace Sys2Proof.Machine

open Sys2Proof

theorem BitWriter.biFlush_of_lt {w : BitWriter} (h : w.biValid < 8) : w.biFlush = w := by
  rw [BitWriter.biFlush, if_neg (by omega), if_neg (by omega)]

/-- `flush_pending` where no whole byte is held (R176) writes the oldest bytes, as many as there is space for. -/
theorem EncRun.flushPending_io {r : EncRun} (h : r.e.bw.biValid < 8) :
    r.flushPending.io = r.io.outBytes (r.e.bw.pending.reverse.take r.io.availOut) := by
  rw [EncRun.flushPending, BitWriter.biFlush_of_lt h]
  dsimp only
  rw [Nat.min_comm, ← List.take_eq_take_min]

/-- The other bytes stay pending (R176). -/
theorem EncRun.flushPending_rest {r : EncRun} (h : r.e.bw.biValid < 8) :
    r.flushPending.e.bw.pending = (r.e.bw.pending.reverse.drop r.io.availOut).reverse := by
  rw [EncRun.flushPending, BitWriter.biFlush_of_lt h]
  dsimp only
  congr 1
  rcases Nat.le_total r.e.bw.pending.reverse.length r.io.availOut with hle | hle
  · rw [Nat.min_eq_left hle, List.drop_length, List.drop_eq_nil_of_le hle]
  · rw [Nat.min_eq_right hle]

theorem EncRun.flushPending_availOut {r : EncRun} (h : r.e.bw.biValid < 8) :
    r.flushPending.io.availOut = r.io.availOut - r.e.bw.pending.length := by
  rw [EncRun.flushPending_io h, Io.outBytes_availOut, List.length_take, List.length_reverse]
  omega

/-- On a finished encoder with nothing left to encode FINISH has no work, and ends the stream (R388). -/
theorem encWork_finish {r : EncRun} (hst : r.e.status = .finishing ∨ r.e.status = .done) (hla : r.e.lookahead = 0)
    (hin : r.io.inLen = 0) : encWork .finish r = some (r.withEnc { r.e with status := .done }, .streamEnd) := by
  have hwork : encHasWork .finish r = false := by
    rcases hst with h | h <;> simp [encHasWork, h, hla, hin]
  have hinit : r.e.status ≠ .init := by rcases hst with h | h <;> rw [h] <;> decide
  simp only [encWork, if_neg hinit, hwork]
  rfl

/-- An ENC_STEP that its state allows is its action, carried back into the state (R388). -/
theorem encStep_eq {s : State} {e : Enc} {f : Flush} {r : EncRun} {res : Result} (hs : s.stream = .enc e)
    (ha : encStepAllowed f e s.inLen = true) (hr : s.rangesOk = true)
    (haction : encStepAction f { e := e, io := s.io 0 0, params := s.params } = some (r, res)) :
    encStep f s = .next (s.finish r.io (.enc r.e) res) := by
  simp only [encStep, hs, ha, hr, haction]
  rfl

/-- The first part of FINISH (R388): with nothing pending it goes on at once, else it writes what it can and goes on if space is left. -/
theorem encStepAction_finish {r : EncRun} (hout : r.io.outLen ≠ 0) :
    encStepAction .finish r =
      let r' := r.withEnc { r.e with lastFlush := 4 }
      if r.e.bw.pending = [] then encWork .finish r'
      else if r'.flushPending.io.availOut = 0 then some (r'.flushPending.outputFull, .needMoreOutput)
      else encWork .finish r'.flushPending := by
  by_cases hp : r.e.bw.pending = []
  · exact (if_neg hout).trans ((if_neg (not_not.2 hp)).trans ((if_neg fun h => h.2.2 rfl).trans (if_pos hp).symm))
  · exact (if_neg hout).trans ((if_pos hp).trans (if_neg hp).symm)

/-- FINISH with bytes pending (R390): they are written, oldest first, as far as the output goes; where space is left the stream ends. -/
theorem encStepAction_finish_pending {r : EncRun} (hout : r.io.outLen ≠ 0) (hst : r.e.status = .finishing ∨ r.e.status = .done)
    (hla : r.e.lookahead = 0) (hbits : r.e.bw.biValid < 8) (hin : r.io.inLen = 0) (hp : r.e.bw.pending ≠ []) :
    ∃ (r' : EncRun) (res : Result), encStepAction .finish r = some (r', res) ∧
      r'.io = r.io.outBytes (r.e.bw.pending.reverse.take r.io.availOut) ∧
      r'.e.bw.pending = (r.e.bw.pending.reverse.drop r.io.availOut).reverse ∧
      (r.e.bw.pending.length < r.io.availOut → res = .streamEnd ∧ r'.e.status = .done ∧ r'.e.lastFlush = 4) ∧
      (r.io.availOut ≤ r.e.bw.pending.length → res = .needMoreOutput ∧ r'.e.status = r.e.status ∧ r'.e.lastFlush = -1) := by
  rw [encStepAction_finish hout]
  dsimp only
  rw [if_neg hp]
  have hio := EncRun.flushPending_io (r := r.withEnc { r.e with lastFlush := 4 }) hbits
  have hrest := EncRun.flushPending_rest (r := r.withEnc { r.e with lastFlush := 4 }) hbits
  have hspace := EncRun.flushPending_availOut (r := r.withEnc { r.e with lastFlush := 4 }) hbits
  have he := EncRun.flushPending_e (r.withEnc { r.e with lastFlush := 4 })
  have hlen := EncRun.flushPending_outLen (r.withEnc { r.e with lastFlush := 4 })
  have hin' : (r.withEnc { r.e with lastFlush := 4 }).flushPending.io.inLen = 0 := by rw [hio, Io.outBytes_inLen]; exact hin
  generalize (r.withEnc { r.e with lastFlush := 4 }).flushPending = r1 at *
  have hst' : r1.e.status = r.e.status := by rw [he]; rfl
  have hla' : r1.e.lookahead = 0 := by rw [he]; exact hla
  have hlf' : r1.e.lastFlush = 4 := by rw [he]; rfl
  have hspace : r1.io.availOut = r.io.availOut - r.e.bw.pending.length := hspace
  by_cases hfull : r1.io.availOut = 0
  · rw [if_pos hfull]
    exact ⟨_, _, rfl, hio, hrest, fun h => by omega, fun _ => ⟨rfl, hst', rfl⟩⟩
  · rw [if_neg hfull, encWork_finish (by rwa [hst']) hla' hin']
    exact ⟨_, _, rfl, hio, hrest, fun _ => ⟨rfl, rfl, hlf'⟩, fun h => by omega⟩

end Sys2Proof.Machine

open Sys2Proof Sys2Proof.Machine

/-- Settles O27: with nothing pending the step has no work; else it is `flush_pending` first. -/
theorem finishWritesOutWhatIsPending : Obligations.FinishWritesOutWhatIsPending := by
  intro s e hs hst hla hbits hin hout hr hmem
  have hallowed : encStepAllowed .finish e s.inLen = true := encStepAllowed_eq_true.2 fun _ => ⟨rfl, hin⟩
  have hin' : (s.io 0 0).inLen = 0 := by rw [State.io_inLen, hin]; rfl
  have hout' : (s.io 0 0).outLen ≠ 0 := fun h => hout (BitVec.eq_of_toNat_eq h)
  refine ⟨fun hp => ?_, fun hp => ?_⟩
  · have haction : encStepAction .finish { e := e, io := s.io 0 0, params := s.params } =
        some ({ e := { e with status := .done, lastFlush := 4 }, io := s.io 0 0, params := s.params }, .streamEnd) := by
      rw [encStepAction_finish hout']
      dsimp only
      rw [if_pos hp, encWork_finish (by exact hst) hla hin']
      rfl
    refine (encStep_eq hs hallowed hr haction).trans ?_
    simp [State.finish, Status.after, StreamCtx.modeTag, StreamCtx.estate, EncStatus.code, State.io]
  · obtain ⟨r', res, haction, hio, hpend, hend, hfull⟩ := encStepAction_finish_pending
      (r := { e := e, io := s.io 0 0, params := s.params }) hout' hst hla hbits hin' hp
    have hspace : (s.io 0 0).availOut = s.outLen.toNat := Nat.sub_zero _
    dsimp only at hio hpend hend hfull
    rw [hspace] at hio hpend hend hfull
    have hmoves : (s.io 0 0).Moves r'.io := by
      rw [hio]; exact Io.Moves.outBytes (by rw [List.length_take, hspace]; exact Nat.min_le_left _ _)
    have hmoved := State.moved_finish hmoves hmem (.enc r'.e) res
    have hconsumed : r'.io.consumed = 0 := by rw [hio, Io.outBytes_consumed]; rfl
    have hproduced : r'.io.produced = min e.bw.pending.length s.outLen.toNat := by
      rw [hio, Io.outBytes_produced, State.io_produced, List.length_take, List.length_reverse, Nat.min_comm, Nat.zero_add]
    rw [hconsumed, hproduced] at hmoved
    refine ⟨_, r'.e, encStep_eq hs hallowed hr haction, rfl, hmoved, fun j hj hjout => ?_, ?_, hend, hfull⟩
    · have hlt : j < (e.bw.pending.reverse.take s.outLen.toNat).length := by
        rw [List.length_take, List.length_reverse]; omega
      have hread := Io.read_outBytes _ (io := s.io 0 0) hmem
        (by rw [State.io_produced, List.length_take]; have := s.outLen.isLt; omega) hlt
      rw [State.io_produced, Nat.zero_add, ← hio, List.getElem_take] at hread
      exact hread
    · rw [hpend, List.reverse_reverse]
end

