-- ==== Sys2Proof/Proofs/DictionaryPriming.lean ====
section
/-! PROOF. Sys2Proof/Proofs/DictionaryPriming.lean: what ENC_SET_DICT leaves of a fresh encoder (R245, R392): a dictionary of at most EW
bytes fits the window without a slide, so that `prime_dictionary` reads it in one go and inserts its positions in order. -/

namespace Sys2Proof.Machine

open Sys2Proof

/-! ## The last position with a hash -/

/-- The last position before `k` whose hash is `h`, or NIL (R41, R226). -/
def lastBefore (hash : Nat → Nat) (h : Nat) : Nat → Nat
  | 0 => 0
  | k + 1 => if hash k = h then k else lastBefore hash h k

theorem le_lastBefore {hash : Nat → Nat} {h q : Nat} : ∀ {k : Nat}, q < k → hash q = h → q ≤ lastBefore hash h k
  | k + 1, hk, hq => by
    rw [lastBefore]
    split
    · exact Nat.le_of_lt_succ hk
    · next hne =>
      refine le_lastBefore (Nat.lt_of_le_of_ne (Nat.le_of_lt_succ hk) fun heq => hne ?_) hq
      rw [← heq]; exact hq

theorem lastBefore_of_ne_zero {hash : Nat → Nat} {h : Nat} : ∀ {k : Nat}, lastBefore hash h k ≠ 0 →
    lastBefore hash h k < k ∧ hash (lastBefore hash h k) = h
  | 0, hne => absurd rfl hne
  | k + 1, hne => by
    rw [lastBefore] at hne ⊢
    split at hne
    · next heq => rw [if_pos heq]; exact ⟨Nat.lt_succ_self k, heq⟩
    · next hno =>
      rw [if_neg hno]
      have ih := lastBefore_of_ne_zero hne
      exact ⟨Nat.lt_succ_of_lt ih.1, ih.2⟩

/-- Where every position links to the last one before it with its hash, the links lead from the last position with a hash to each
other one. -/
theorem reaches_of_links {hash link : Nat → Nat} {p : Nat} : ∀ {k : Nat}, (∀ q < k, link q = lastBefore hash (hash q) q) → p < k →
    ∃ j, link^[j] (lastBefore hash (hash p) k) = p
  | k + 1, hlink, hp => by
    rcases Nat.lt_or_eq_of_le (Nat.le_of_lt_succ hp) with hlt | rfl
    · obtain ⟨j, hj⟩ := reaches_of_links (fun q hq => hlink q (Nat.lt_succ_of_lt hq)) hlt
      rw [lastBefore]
      split
      · next heq => exact ⟨j + 1, by rw [Function.iterate_succ_apply, hlink k (Nat.lt_succ_self k), heq, hj]⟩
      · exact ⟨j, hj⟩
    · exact ⟨0, if_pos rfl⟩

/-! ## Chains of the first positions -/

/-- The chains hold the positions below `k`, and no others: the head of a hash is its last position, and each position's link the last
one before it with its hash (R226). -/
structure Enc.Chained (ps : Config.Params) (e : Enc) (k : Nat) : Prop where
  head : ∀ h < 2 ^ ps.hashBits, Ram.get ps.hashBits e.head h = lastBefore (e.hash3 ps) h k
  link : ∀ p < k, e.chainOf p = lastBefore (e.hash3 ps) (e.hash3 ps p) p

/-- `insert_string` of the next position (R226). -/
theorem Enc.Chained.insertString {ps : Config.Params} {e : Enc} {k : Nat} (h : e.Chained ps k) (hk : k < e.ew) :
    (e.insertString ps k).Chained ps (k + 1) where
  head := fun x hx => by
    show _ = lastBefore (e.hash3 ps) x (k + 1)
    rw [Enc.insertString_head e ps k hx, lastBefore, h.head x hx]
    simp only [eq_comm]
  link := fun p hp => by
    show _ = lastBefore (e.hash3 ps) (e.hash3 ps p) p
    rw [Enc.insertString_chainOf, Nat.mod_eq_of_lt hk, Nat.mod_eq_of_lt (by omega : p < e.ew)]
    split
    · next heq => rw [heq]; exact h.head _ (e.hash3_lt ps k)
    · next hne => exact h.link p (by omega)

theorem Enc.Chained.insertRange {ps : Config.Params} : ∀ (n : Nat) {k : Nat} {e : Enc}, e.Chained ps k → k + n ≤ e.ew →
    (Enc.insertRange ps n k e).Chained ps (k + n)
  | 0, _, _, h, _ => h
  | n + 1, k, e, h, hk => by
    rw [Enc.insertRange, show k + (n + 1) = k + 1 + n by omega]
    refine Enc.Chained.insertRange n (h.insertString (by omega)) ?_
    show k + 1 + n ≤ e.ew
    omega

/-- In such chains each position is reached from its head, and its link is the last position before it with its hash. -/
theorem Enc.Chained.of_lt {ps : Config.Params} {e : Enc} {k p : Nat} (h : e.Chained ps k) (hp : p < k) :
    (∃ j, e.chainOf^[j] (e.headAt ps p) = p) ∧ p ≤ e.headAt ps p ∧
      (∀ q < p, e.hash3 ps q = e.hash3 ps p → q ≤ e.chainOf p) ∧
      (e.chainOf p ≠ 0 → e.chainOf p < p ∧ e.hash3 ps (e.chainOf p) = e.hash3 ps p) := by
  rw [Enc.headAt, h.head _ (e.hash3_lt ps p), h.link p hp]
  exact ⟨reaches_of_links h.link hp, le_lastBefore hp rfl, fun q hq heq => le_lastBefore hq heq, lastBefore_of_ne_zero⟩

/-! ## Reading -/

/-- A byte put into the window reads back, and no other one changes (R40). -/
theorem Enc.winPut_winByte (e : Enc) (b : Byte) {i j : Nat} (hi : i < 2 * e.ew) (hj : j < 2 * e.ew) :
    (e.winPut i b).winByte j = if j = i then b.toNat else e.winByte j := by
  have hset := Ram.get_set (e.ewbits + 1) e.win i j b.toNat
  rwa [show 2 ^ (e.ewbits + 1) = 2 * e.ew by rw [Enc.ew, Nat.pow_succ, Nat.mul_comm], Nat.mod_eq_of_lt hi,
    Nat.mod_eq_of_lt hj] at hset

/-- Reading `n` bytes writes the window and lengthens the lookahead (R231). -/
theorem EncRun.readBytes_eq : ∀ (n : Nat) (r : EncRun), EncRun.readBytes n r = { r with
    e := { r.e with win := (EncRun.readBytes n r).e.win, lookahead := r.e.lookahead + n }, io := r.io.consume n }
  | 0, r => by rw [Io.consume_zero]; rfl
  | n + 1, r => by
    have ih := EncRun.readBytes_eq n { r with
      e := { r.e.winPut (r.e.strstart + r.e.lookahead) (r.io.inRead r.io.consumed) with lookahead := r.e.lookahead + 1 }
      io := r.io.consume 1 }
    rw [EncRun.readBytes]
    refine ih.trans ?_
    rw [Io.consume_consume, Nat.add_comm 1 n, Nat.add_assoc, Nat.add_comm 1 n]
    rfl

/-- The bytes read stand at the end of the lookahead, in order, and what was in the window before stays (R231). -/
theorem EncRun.readBytes_winByte : ∀ (n : Nat) {r : EncRun}, r.e.strstart + r.e.lookahead + n ≤ 2 * r.e.ew →
    (∀ j < n, (EncRun.readBytes n r).e.winByte (r.e.strstart + r.e.lookahead + j) = (r.io.inRead (r.io.consumed + j)).toNat) ∧
      ∀ i < r.e.strstart + r.e.lookahead, (EncRun.readBytes n r).e.winByte i = r.e.winByte i
  | 0, _, _ => ⟨fun _ h => absurd h (Nat.not_lt_zero _), fun _ _ => rfl⟩
  | n + 1, r, hfit => by
    have hput := fun i hi => r.e.winPut_winByte (r.io.inRead r.io.consumed) (i := r.e.strstart + r.e.lookahead) (j := i)
      (by omega) hi
    obtain ⟨hnew, hold⟩ := EncRun.readBytes_winByte n (r := { r with
      e := { r.e.winPut (r.e.strstart + r.e.lookahead) (r.io.inRead r.io.consumed) with lookahead := r.e.lookahead + 1 }
      io := r.io.consume 1 }) (by show r.e.strstart + (r.e.lookahead + 1) + n ≤ 2 * r.e.ew; omega)
    refine ⟨fun j hj => ?_, fun i hi => ?_⟩
    · cases j with
      | zero =>
        refine (hold _ (by show r.e.strstart + r.e.lookahead + 0 < r.e.strstart + (r.e.lookahead + 1); omega)).trans ?_
        exact (hput _ (by omega)).trans (if_pos rfl)
      | succ j =>
        have h := hnew j (by omega)
        rw [show r.io.consumed + (j + 1) = r.io.consumed + 1 + j by omega,
          show r.e.strstart + r.e.lookahead + (j + 1) = r.e.strstart + (r.e.lookahead + 1) + j by omega]
        exact h
    · refine (hold i (by show i < r.e.strstart + (r.e.lookahead + 1); omega)).trans ?_
      exact (hput i (by omega)).trans (if_neg (by omega))

/-! ## Refills without a slide -/

theorem Enc.slideIfDue_of_lt {e : Enc} (h : e.strstart < e.ew + e.maxDist) : e.slideIfDue = e := if_neg (by omega)

theorem Enc.catchUp_of_insert_eq_zero {e : Enc} (h : e.insert = 0) (ps : Config.Params) : e.catchUp ps = e := by
  rw [Enc.catchUp, h]; split <;> rfl

/-- Without input `fill_window` does nothing where no slide is due (R231). -/
theorem EncRun.fillWindow_noInput {r : EncRun} (hin : r.io.availIn = 0) (hs : r.e.strstart < r.e.ew + r.e.maxDist) :
    r.fillWindow = r := by
  rw [EncRun.fillWindow, hin, EncRun.fillLoop, if_pos hin, Enc.slideIfDue_of_lt hs]

/-- Input that fits the room there is, with no slide due and no position to catch up on, is read in one turn (R231). -/
theorem EncRun.fillWindow_fits {r : EncRun} (hs : r.e.strstart < r.e.ew + r.e.maxDist) (hins : r.e.insert = 0)
    (hfit : r.io.availIn ≤ r.e.room) : r.fillWindow = EncRun.readBytes r.io.availIn r := by
  by_cases hin : r.io.availIn = 0
  · rw [EncRun.fillWindow_noInput hin hs, hin]; rfl
  · have hread := EncRun.readBytes_eq r.io.availIn r
    have hturn : r.fillTurn = EncRun.readBytes r.io.availIn r := by
      rw [EncRun.fillTurn, Enc.slideIfDue_of_lt hs]
      dsimp only
      rw [Nat.min_eq_left hfit, Enc.catchUp_of_insert_eq_zero (by rw [hread]; exact hins)]
    have hdone : (EncRun.readBytes r.io.availIn r).wantsInput = false := by
      rw [hread, EncRun.wantsInput, Io.consume_availIn, Nat.sub_self]; exact Bool.and_false _
    rw [EncRun.fillWindow, EncRun.fillLoop, if_neg hin, hturn, hdone]
    rfl

/-! ## Priming -/

theorem EncRun.primeLoop_of_short (fuel : Nat) {r : EncRun} (h : r.e.lookahead < Config.minMatch) : EncRun.primeLoop fuel r = r := by
  cases fuel with
  | zero => rfl
  | succ fuel => rw [EncRun.primeLoop, if_pos h]

/-- The loop of `prime_dictionary` once all input is read (R245): it inserts all positions but the last two, in one turn. -/
theorem EncRun.primeLoop_noInput {fuel : Nat} {r : EncRun} (hin : r.io.availIn = 0) (hss : r.e.strstart = 0)
    (hfit : r.e.lookahead ≤ r.e.ew) (hfuel : r.e.lookahead < fuel) :
    (EncRun.primeLoop fuel r).e = { Enc.insertRange r.params (r.e.lookahead - 2) 0 r.e with
      strstart := r.e.lookahead - 2, lookahead := min r.e.lookahead 2 } := by
  have hmin : Config.minMatch = 3 := rfl
  by_cases hshort : r.e.lookahead < 3
  · calc (EncRun.primeLoop fuel r).e
        = { r.e with strstart := r.e.strstart, lookahead := r.e.lookahead } := by rw [EncRun.primeLoop_of_short _ hshort]
      _ = _ := by rw [hss, show r.e.lookahead - 2 = 0 by omega, Nat.min_eq_left (by omega)]; rfl
  · obtain ⟨fuel, rfl⟩ := Nat.exists_eq_succ_of_ne_zero (by omega : fuel ≠ 0)
    have hfields := Enc.insertRange_eq r.params (r.e.lookahead - 2) 0 r.e
    rw [EncRun.primeLoop, hmin, if_neg hshort, hss, Nat.min_eq_right (by omega)]
    generalize Enc.insertRange r.params (r.e.lookahead - 2) 0 r.e = e1 at *
    have hss1 : e1.strstart = 0 := by rw [hfields]; exact hss
    have hla1 : e1.lookahead = r.e.lookahead := by rw [hfields]
    have hew1 : e1.ew = r.e.ew := by rw [hfields]; rfl
    have hmd := e1.maxDist_add
    have hew := e1.ew_ge
    dsimp only
    rw [hss1, hla1, Nat.zero_add]
    have hfill := EncRun.fillWindow_noInput (r := r.withEnc { e1 with strstart := r.e.lookahead - 2, lookahead := 2 }) hin
      (by show r.e.lookahead - 2 < e1.ew + e1.maxDist; omega)
    rw [hfill, EncRun.primeLoop_of_short]
    · rfl
    · exact Nat.lt_succ_self 2

/-- `prime_dictionary` of a dictionary of at most EW bytes, on an encoder that has read nothing (R245): its bytes are read in one go, all
positions but the last two are inserted, and the position after them is the next. -/
theorem EncRun.prime_fresh {r : EncRun} (hss : r.e.strstart = 0) (hla : r.e.lookahead = 0) (hins : r.e.insert = 0)
    (hn : r.io.availIn ≤ r.e.ew) :
    r.prime.e = { Enc.insertRange r.params (r.io.availIn - 2) 0 (EncRun.readBytes r.io.availIn r).e with
      strstart := r.io.availIn, blockStart := (r.io.availIn : Int), insert := min r.io.availIn 2, lookahead := 0,
      matchLength := 2, prevLength := 2, matchAvailable := false } := by
  have hmd := r.e.maxDist_add
  have hew := r.e.ew_ge
  have hread := EncRun.readBytes_eq r.io.availIn r
  have hfill : r.fillWindow = EncRun.readBytes r.io.availIn r :=
    EncRun.fillWindow_fits (by omega) hins (by rw [Enc.room]; omega)
  rw [EncRun.prime, hfill]
  generalize EncRun.readBytes r.io.availIn r = r1 at *
  have hla1 : r1.e.lookahead = r.io.availIn := by rw [hread]; exact (congrArg (· + _) hla).trans (Nat.zero_add _)
  have hps1 : r1.params = r.params := by rw [hread]
  have hloop := EncRun.primeLoop_noInput (fuel := r.io.availIn + r.e.lookahead + 1) (r := r1)
    (by rw [hread, Io.consume_availIn, Nat.sub_self]) (by rw [hread]; exact hss)
    (by rw [hla1]; exact hn.trans_eq (by rw [hread]; rfl)) (by omega)
  rw [hla1, hps1] at hloop
  have hsum : r.io.availIn - 2 + min r.io.availIn 2 = r.io.availIn := by omega
  dsimp only [EncRun.withEnc]
  rw [hloop]
  dsimp only
  rw [hsum]
  rfl

/-- Byte `j` of a dictionary: the dictionary is the end of the input buffer (R245). -/
theorem State.dictIo_inRead (s : State) (e : Enc) (j : Nat) : (s.dictIo e).inRead j =
    s.mem.read (s.inAddr + BitVec.ofNat 32 (s.inLen.toNat - min s.inLen.toNat e.ew + j)).toNat := by
  rw [BitVec.ofNat_add, ← BitVec.add_assoc]; rfl

/-- ENC_SET_DICT on an encoder that may take it is `prime_dictionary` (R392). -/
theorem execEncSetDict_eq {s : State} {e : Enc} (hs : s.stream = .enc e) (hst : e.status = .init) (hr : s.rangesOk = true) :
    execEncSetDict s = .next (s.complete (.enc (EncRun.prime { e := e, io := s.dictIo e, params := s.params }).e) .ok) := by
  simp only [execEncSetDict, hs, hst, hr]
  rfl

end Sys2Proof.Machine

open Sys2Proof Sys2Proof.Machine

/-- Settles O29: the dictionary's bytes are read in one go, and its positions inserted in order. -/
theorem encSetDictPrimesTheWindow : Obligations.EncSetDictPrimesTheWindow := by
  intro s e level st wbits hs he _ _ hr n
  subst he
  set e := Enc.fresh level st wbits
  set r : EncRun := { e := e, io := s.dictIo e, params := s.params }
  have hexec : exec .encSetDict s = .next (s.complete (.enc r.prime.e) .ok) := execEncSetDict_eq hs rfl hr
  have hav : r.io.availIn = n := Nat.sub_zero _
  have hn : n ≤ e.ew := Nat.min_le_right _ _
  have hread := EncRun.readBytes_eq n r
  have hprime := EncRun.prime_fresh (r := r) rfl rfl rfl (by rw [hav]; exact hn)
  rw [hav] at hprime
  have hbytes := (EncRun.readBytes_winByte n (r := r) (by show 0 + 0 + n ≤ 2 * e.ew; omega)).1
  have hchain : (EncRun.readBytes n r).e.Chained s.params 0 := by
    rw [hread]; exact ⟨fun h _ => Ram.get_nil _ h, fun p hp => absurd hp (Nat.not_lt_zero p)⟩
  have hinserted := hchain.insertRange (n - 2) (by rw [hread]; show 0 + (n - 2) ≤ e.ew; omega)
  have hfields := Enc.insertRange_eq s.params (n - 2) 0 (EncRun.readBytes n r).e
  rw [Nat.zero_add] at hinserted
  have hprimed : r.prime.e.Chained s.params (n - 2) := by rw [hprime]; exact ⟨hinserted.head, hinserted.link⟩
  have hwin : ∀ j, r.prime.e.winByte j = (EncRun.readBytes n r).e.winByte j := fun j => by
    rw [hprime]
    show (Enc.insertRange s.params (n - 2) 0 (EncRun.readBytes n r).e).winByte j = _
    rw [hfields]
    rfl
  refine ⟨_, r.prime.e, hexec, rfl, fun j hj => ?_, fun p hp => hprimed.of_lt (by omega), ?_⟩
  · have hbyte := hbytes j hj
    rw [show r.e.strstart + r.e.lookahead + j = j from Nat.zero_add j, show r.io.consumed + j = j from Nat.zero_add j] at hbyte
    rw [hwin, hbyte, State.dictIo_inRead]
  · rw [hprime]; exact ⟨rfl, rfl, rfl, rfl, rfl, rfl, rfl⟩
end

