-- ==== Sys2Proof/Proofs/ReservedEncodings.lean ====
section
/-! PROOF. Sys2Proof/Proofs/ReservedEncodings.lean: the reserved and invalid encodings (R315, R321, R323, R341, R343) end the DEC_STEP as
malformed once their bits are consumed (R356). -/

namespace Sys2Proof.Machine

open Sys2Proof

/-! ## Actions that end as malformed -/

/-- The action consumes the next `need` bits of the run `r` and ends the command with MALFORMED_STREAM and sub-kind `k` (R356). -/
def Act.MalformedAfter (r : DecRun) (need k : Nat) (a : Act) : Prop :=
  ∃ d : Dec, a = .stop .malformedStream { d := d, io := r.io.consume (r.pulls need) } ∧ d.mode = .bad ∧ d.err = k

theorem DecRun.raise_malformedAfter {r r' : DecRun} {need : Nat} (hio : r'.io = (r.after need).io) (k : Nat) :
    (r'.raise k).MalformedAfter r need k :=
  ⟨{ r'.d with mode := .bad, err := k }, by rw [DecRun.raise, hio]; rfl, rfl, rfl⟩

section
variable {r : DecRun} (hh : r.d.hold < 2 ^ r.d.bits)
include hh

/-- BTYPE 3 (R315). -/
theorem DecRun.header_malformed (f : Bool) (ho : r.offers 3) :
    (r.takeHeader f fun r => r.raise 1).MalformedAfter r 3 1 := by
  rw [DecRun.takeHeader, DecRun.needBits_of_offers hh ho]
  dsimp only
  rw [DecRun.dropBits_holding ho]
  refine DecRun.raise_malformedAfter ?_ 1
  rfl

/-- A LEN that NLEN does not complement (R321). -/
theorem DecRun.storedPair_malformed {len nlen : BitVec 16} (hne : nlen ≠ ~~~len) (ho : r.offers (r.d.bits % 8 + 32)) :
    (r.storedPair len nlen).MalformedAfter r (r.d.bits % 8 + 32) 2 := by
  have ho' : (r.after (r.d.bits % 8)).offers 32 := DecRun.after_offers ho
  rw [DecRun.storedPair, DecRun.byteBits_eq_after hh, DecRun.needBits_of_offers (DecRun.after_hold_lt _) ho', if_pos hne]
  refine DecRun.raise_malformedAfter ?_ 2
  rw [← DecRun.after_after ho]
  rfl

/-- HLIT above 285 - 257 or HDIST above 29 (R323). -/
theorem DecRun.counts_malformed {hlit hdist : BitVec 5} (hbig : 30 ≤ hlit.toNat ∨ 30 ≤ hdist.toNat) (hclen : BitVec 4)
    (ho : r.offers 14) : (r.counts hlit hdist hclen).MalformedAfter r 14 3 := by
  rw [DecRun.counts, DecRun.needBits_of_offers hh ho]
  dsimp only
  rw [DecRun.dropBits_holding ho, if_pos (by omega)]
  refine DecRun.raise_malformedAfter ?_ 3
  rfl

/-- Literal/length symbols 286 and 287 (R341). -/
theorem DecRun.litSym_malformed (sym : Nat) (ho : r.offers (r.d.lencode.lengthOf sym)) :
    (r.takeLitSym sym fun r => r.raise 9).MalformedAfter r (r.d.lencode.lengthOf sym) 9 := by
  rw [DecRun.takeLitSym, DecRun.needBits_of_offers hh ho]
  refine DecRun.raise_malformedAfter ?_ 9
  rfl

/-- Distance symbols 30 and 31 (R343). -/
theorem DecRun.distSym_malformed (sym : Nat) (ho : r.offers (r.d.distcode.lengthOf sym)) :
    (r.takeDistSym sym fun r => r.raise 10).MalformedAfter r (r.d.distcode.lengthOf sym) 10 := by
  rw [DecRun.takeDistSym, DecRun.needBits_of_offers hh ho]
  refine DecRun.raise_malformedAfter ?_ 10
  rfl

end

/-! ## In the state -/

theorem State.At.awaits {s : State} {d : Dec} {c p : Nat} {m : DecMode} (h : s.At d c p m) : d.awaits m = true := by
  have hmore := h.more
  simp only [Dec.awaits, h.mode, decide_true, Bool.true_and, Bool.not_eq_true', Bool.and_eq_false_imp, decide_eq_true_eq]
  exact hmore

/-- An element in its place is its action at that point (R311). -/
theorem State.At.onElement {s : State} {d : Dec} {c p : Nat} {m : DecMode} (h : s.At d c p m) (f : DecRun → Act) :
    s.onElement m f = .next (s.settle (f (s.runAt d c p))) := State.onElement_of h.stream h.phase h.awaits f

/-- A total that counts from the command's start: so far, and `n` more (R38, R39). -/
theorem total_so_far (total : Word) (c n : Nat) : total + BitVec.ofNat 32 n = total - BitVec.ofNat 32 c + BitVec.ofNat 32 (c + n) := by
  rw [BitVec.ofNat_add]; bv_omega

end Sys2Proof.Machine

open Sys2Proof Sys2Proof.Machine

/-- Settles O46: each encoding's action ends as malformed, and that end is carried back into the state. -/
theorem reservedEncodingsAreMalformed : Obligations.ReservedEncodingsAreMalformed := by
  intro s d c p m i k need hat hkind hoffers
  have hh : (s.runAt d c p).d.hold < 2 ^ (s.runAt d c p).d.bits := hat.ok.hold
  have hact : ∃ a : Act, exec i s = .next (s.settle a) ∧ a.MalformedAfter (s.runAt d c p) need k := by
    rcases hkind with ⟨f, rfl, rfl, rfl, rfl⟩ | ⟨l, n, rfl, hne, rfl, rfl, rfl⟩ | ⟨a, b, x, rfl, hbig, rfl, rfl, rfl⟩ |
      ⟨odd, rfl, rfl, rfl, rfl⟩ | ⟨odd, rfl, rfl, rfl, rfl⟩
    · exact ⟨_, hat.onElement fun r => r.takeHeader f fun r => r.raise 1, DecRun.header_malformed hh f hoffers⟩
    · exact ⟨_, hat.onElement fun r => r.storedPair l n, DecRun.storedPair_malformed hh hne hoffers⟩
    · exact ⟨_, hat.onElement fun r => r.counts a b x, DecRun.counts_malformed hh hbig x hoffers⟩
    · exact ⟨_, hat.onElement fun r => r.takeLitSym (if odd then 287 else 286) fun r => r.raise 9,
        DecRun.litSym_malformed hh _ hoffers⟩
    · exact ⟨_, hat.onElement fun r => r.takeDistSym (if odd then 31 else 30) fun r => r.raise 10,
        DecRun.distSym_malformed hh _ hoffers⟩
  obtain ⟨_, hexec, d', rfl, hmode, herr⟩ := hact
  refine ⟨_, d', hexec, rfl, hmode, herr, ?_, rfl, rfl, rfl, ⟨rfl, rfl, ?_⟩, rfl, rfl, ?_⟩
  · show Status.after .malformedStream (.dec d') = _
    simp [Status.after, StreamCtx.err, StreamCtx.modeTag, StreamCtx.estate, DecMode.code, hmode, herr]
  · rw [State.totalInSeen, hat.phase]
    exact total_so_far _ _ _
  · rw [State.totalOutSeen, hat.phase]
    simp [State.runAt]
end

