-- ==== Sys2Proof/Proofs/InstructionFrame.lean ====
section
/-! PROOF. Sys2Proof/Proofs/InstructionFrame.lean: what no instruction changes (R35, R36, R38, R81, R156): an action of the decoder only
moves the cursors within the buffers, and an instruction that ends or goes on from moved cursors writes its output bytes alone. -/

namespace Sys2Proof.Machine

open Sys2Proof

/-! ## Actions of the decoder move the cursors -/

/-- The run that an action leaves. -/
def Act.run : Act → DecRun
  | .go r => r
  | .stop _ r => r

/-- An action that has come from the cursors `io` by moving within the buffers. -/
abbrev Act.MovesFrom (io : Io) (a : Act) : Prop := io.Moves a.run.io

section
variable {io : Io}

theorem DecRun.moves_pullUpTo : ∀ (k n : Nat) {r : DecRun}, io.Moves r.io → io.Moves (DecRun.pullUpTo k n r).io
  | 0, _, _, h => h
  | k + 1, n, r, h => by
    rw [DecRun.pullUpTo]
    split
    · next hleft => exact DecRun.moves_pullUpTo k n (h.trans (Io.Moves.consume (by unfold Io.availIn; omega)))
    · exact h

/-- NEEDBITS, then a rest that only moves the cursors. -/
theorem DecRun.moves_needBits {n : Nat} {r : DecRun} {rest : DecRun → Act} (h : io.Moves r.io)
    (hrest : ∀ r', io.Moves r'.io → (rest r').MovesFrom io) : (r.needBits n rest).MovesFrom io := by
  have hfill : io.Moves (r.fill n).io := DecRun.moves_pullUpTo n n h
  rw [DecRun.needBits]
  split
  · exact hfill
  · exact hrest _ hfill

/-- COPY moves no more bytes than both buffers have (R322). -/
theorem DecRun.moves_copyBytes : ∀ (n : Nat) {r : DecRun}, io.Moves r.io → n ≤ r.io.availIn → n ≤ r.io.availOut →
    io.Moves (DecRun.copyBytes n r).io
  | 0, _, h, _, _ => h
  | n + 1, r, h, hin, hout => by
    have hone : io.Moves ((r.io.consume 1).outWrite (r.io.inRead r.io.consumed)) :=
      (h.trans (Io.Moves.consume (by omega))).trans (Io.Moves.outWrite _ (by rw [Io.consume_availOut]; omega))
    rw [DecRun.copyBytes]
    refine DecRun.moves_copyBytes n hone ?_ ?_
    · show n ≤ ((r.io.consume 1).outWrite _).availIn
      rw [Io.outWrite_availIn, Io.consume_availIn]; omega
    · show n ≤ ((r.io.consume 1).outWrite _).availOut
      rw [Io.outWrite_availOut, Io.consume_availOut]; omega

theorem DecRun.moves_copy {r : DecRun} (h : io.Moves r.io) : r.copy.MovesFrom io := by
  have hcopy := DecRun.moves_copyBytes (min r.d.length (min r.io.availOut r.io.availIn)) h (by omega) (by omega)
  rw [DecRun.copy]
  dsimp only
  split
  · exact hcopy
  · split <;> exact hcopy

/-- MATCH writes no more bytes than there is space for (R352). -/
theorem DecRun.moves_matchBytes : ∀ (n : Nat) {r : DecRun}, io.Moves r.io → n ≤ r.io.availOut →
    io.Moves (DecRun.matchBytes n r).io
  | 0, _, h, _ => h
  | n + 1, r, h, hout => by
    rw [DecRun.matchBytes]
    refine DecRun.moves_matchBytes n (h.trans (Io.Moves.outWrite (r.d.back r.d.offset) (by omega))) ?_
    show n ≤ (r.io.outWrite _).availOut
    rw [Io.outWrite_availOut]; omega

theorem DecRun.moves_copyMatch {r : DecRun} (h : io.Moves r.io) : r.copyMatch.MovesFrom io := by
  have hcopy := DecRun.moves_matchBytes (min r.d.length r.io.availOut) h (by omega)
  rw [DecRun.copyMatch]
  dsimp only
  split <;> exact hcopy

theorem DecRun.moves_lit {r : DecRun} (h : io.Moves r.io) : r.lit.MovesFrom io := by
  rw [DecRun.lit]
  split
  · exact h
  · exact h.trans (Io.Moves.outWrite _ (by omega))

theorem DecRun.moves_storedPair {r : DecRun} (h : io.Moves r.io) (len nlen : BitVec 16) : (r.storedPair len nlen).MovesFrom io := by
  refine DecRun.moves_needBits h fun r' h' => ?_
  split
  · exact h'
  · exact DecRun.moves_copy h'

theorem DecRun.moves_counts {r : DecRun} (h : io.Moves r.io) (hlit hdist : BitVec 5) (hclen : BitVec 4) :
    (r.counts hlit hdist hclen).MovesFrom io := by
  refine DecRun.moves_needBits h fun r' h' => ?_
  dsimp only
  split <;> exact h'

theorem DecRun.moves_endLenLens {r : DecRun} (h : io.Moves r.io) : r.endLenLens.MovesFrom io := by
  rw [DecRun.endLenLens]
  dsimp only
  split <;> exact h

theorem DecRun.moves_takeLenLens : ∀ (lens : List (BitVec 3)) {r : DecRun}, io.Moves r.io →
    (DecRun.takeLenLens lens r).MovesFrom io
  | [], r, h => by
    rw [DecRun.takeLenLens]
    split
    · exact DecRun.moves_endLenLens h
    · exact h
  | _ :: lens, r, h => DecRun.moves_needBits h fun _ h' => DecRun.moves_takeLenLens lens h'

theorem DecRun.moves_endCodeLens {r : DecRun} (h : io.Moves r.io) : r.endCodeLens.MovesFrom io := by
  rw [DecRun.endCodeLens]
  dsimp only
  split
  · exact h
  · split
    · exact h
    · split <;> exact h

theorem DecRun.moves_afterEntry {r : DecRun} (h : io.Moves r.io) : r.afterEntry.MovesFrom io := by
  rw [DecRun.afterEntry]
  split
  · exact DecRun.moves_endCodeLens h
  · exact h

theorem DecRun.moves_clLength {r : DecRun} (h : io.Moves r.io) (len : Nat) : (r.clLength len).MovesFrom io :=
  DecRun.moves_needBits h fun _ h' => DecRun.moves_afterEntry h'

theorem DecRun.moves_clRepeat {r : DecRun} (h : io.Moves r.io) (width v c : Nat) : (r.clRepeat width v c).MovesFrom io := by
  unfold DecRun.clRepeat
  dsimp only
  split
  · exact h
  · exact DecRun.moves_afterEntry h

theorem DecRun.moves_clRepeatPrev {r : DecRun} (h : io.Moves r.io) (c : Nat) : (r.clRepeatPrev c).MovesFrom io := by
  refine DecRun.moves_needBits h fun r' h' => ?_
  dsimp only
  split
  · exact h'
  · exact DecRun.moves_clRepeat (by exact h') _ _ _

theorem DecRun.moves_clRepeatZero {r : DecRun} (h : io.Moves r.io) (sym c : Nat) : (r.clRepeatZero sym c).MovesFrom io :=
  DecRun.moves_needBits h fun _ h' => DecRun.moves_clRepeat (by exact h') _ _ _

theorem DecRun.moves_lenExt {r : DecRun} (h : io.Moves r.io) (e : Nat) : (r.lenExt e).MovesFrom io :=
  DecRun.moves_needBits h fun _ h' => h'

theorem DecRun.moves_distExt {r : DecRun} (h : io.Moves r.io) (e : Nat) : (r.distExt e).MovesFrom io := by
  refine DecRun.moves_needBits h fun r' h' => ?_
  dsimp only
  split
  · exact h'
  · exact DecRun.moves_copyMatch h'

theorem DecRun.moves_takeLitSym {r : DecRun} {rest : DecRun → Act} (h : io.Moves r.io) (sym : Nat)
    (hrest : ∀ r', io.Moves r'.io → (rest r').MovesFrom io) : (r.takeLitSym sym rest).MovesFrom io :=
  DecRun.moves_needBits h fun _ h' => hrest _ h'

theorem DecRun.moves_takeDistSym {r : DecRun} {rest : DecRun → Act} (h : io.Moves r.io) (sym : Nat)
    (hrest : ∀ r', io.Moves r'.io → (rest r').MovesFrom io) : (r.takeDistSym sym rest).MovesFrom io :=
  DecRun.moves_needBits h fun _ h' => hrest _ h'

/-- Every element's action moves the cursors within the buffers, and does nothing else to host memory (R81 to R83). -/
theorem moves_actionOf {r : DecRun} (h : io.Moves r.io) : ∀ sh : Shape, (actionOf sh r).MovesFrom io
  | .command _ => h
  | .header f t => by
    rw [actionOf, DecRun.takeHeader]
    refine DecRun.moves_needBits h fun r' h' => ?_
    dsimp only
    split
    · exact h'
    · split
      · exact h'
      · split <;> exact h'
  | .stored l n => DecRun.moves_storedPair h l n
  | .counts hl hd c => DecRun.moves_counts h hl hd c
  | .clLens ls => DecRun.moves_takeLenLens ls h
  | .cl s _ e => by
    rw [actionOf]
    split
    · exact DecRun.moves_clLength h s
    · split
      · exact DecRun.moves_clRepeatPrev h _
      · exact DecRun.moves_clRepeatZero h s _
  | .lit s _ e => by
    rw [actionOf]
    split
    · exact DecRun.moves_takeLitSym h _ fun _ h' => DecRun.moves_lit h'
    · split
      · exact DecRun.moves_takeLitSym h _ fun _ h' => h'
      · split
        · exact DecRun.moves_takeLitSym h _ fun _ h' => DecRun.moves_lenExt (by exact h') e
        · exact DecRun.moves_takeLitSym h _ fun _ h' => h'
  | .dist s _ e => by
    rw [actionOf]
    split
    · exact DecRun.moves_takeDistSym h _ fun _ h' => DecRun.moves_distExt (by exact h') e
    · exact DecRun.moves_takeDistSym h _ fun _ h' => h'

end

/-! ## The frame -/

/-- What is as it was when an instruction has led from `s` to `t`: all that no engine writes, and host memory but the output bytes from
`start` on that the command has written. -/
structure State.Frame (s t : State) (start : Nat) : Prop where
  host : t.params = s.params ∧ t.cfg = s.cfg ∧ t.hostq = s.hostq ∧ t.readData = s.readData
  freeCtr : t.freeCtr = s.freeCtr
  memory : ∀ a, (∀ j, start ≤ j → j < s.sentTo t → a ≠ (s.outAddr + BitVec.ofNat 32 j).toNat) → t.mem.read a = s.mem.read a

theorem State.frame_complete (s : State) (c : StreamCtx) (res : Result) (start : Nat) : s.Frame (s.complete c res) start :=
  ⟨⟨rfl, rfl, rfl, rfl⟩, rfl, fun _ _ => rfl⟩

/-- The output bytes of a command that has ended (R36). -/
theorem State.sentTo_finish {s : State} {io : Io} (h : io.produced ≤ s.outLen.toNat) (c : StreamCtx) (res : Result) :
    s.sentTo (s.finish io c res) = io.produced := by
  have hlt := s.outLen.isLt
  show (s.outLen - (s.outLen - BitVec.ofNat 32 io.produced)).toNat = _
  rw [show s.outLen - (s.outLen - BitVec.ofNat 32 io.produced) = BitVec.ofNat 32 io.produced by bv_omega, BitVec.toNat_ofNat,
    Nat.mod_eq_of_lt (by omega)]

section
variable {s : State} {c p : Nat} (hp : p ≤ s.outLen.toNat) (hm : s.mem.wf = true)
include hp hm

theorem State.frame_finish {io : Io} (h : (s.io c p).Moves io) (ctx : StreamCtx) (res : Result) : s.Frame (s.finish io ctx res) p := by
  have hout : io.produced ≤ s.outLen.toNat := (h.produced hp).2.trans_eq h.outLen
  refine ⟨⟨rfl, rfl, rfl, rfl⟩, rfl, fun a ha => h.writesOnly hm a fun j hj hlt => ha j hj ?_⟩
  rwa [State.sentTo_finish hout]

theorem State.frame_settle {a : Act} (h : a.MovesFrom (s.io c p)) : s.Frame (s.settle a) p := by
  cases a with
  | go r => exact ⟨⟨rfl, rfl, rfl, rfl⟩, rfl, fun a ha => h.writesOnly hm a fun j hj hlt => ha j hj hlt⟩
  | stop res r => exact State.frame_finish hp hm h _ _

end

/-- An element writes from the output byte its DEC_STEP has come to (R81). -/
theorem State.frame_onElement {s t : State} (hdec : s.DecOk) (hm : s.mem.wf = true) {m : DecMode} {f : DecRun → Act}
    (hf : ∀ r, (f r).MovesFrom r.io) (h : s.onElement m f = .next t) : s.Frame t s.sent := by
  rcases s.onElement_cases m f with ⟨d, c, p, -, hphase, -, heq⟩ | heq <;> rw [heq] at h
  · cases h
    have hsent : s.sent = p := by rw [State.sent, hphase]
    rw [hsent]
    exact State.frame_settle (hdec.point c p hphase).2.2 hm (hf { d := d, io := s.io c p })
  · exact absurd h nofun

theorem exec_element_frame {s t : State} {i : Instr} (hdec : s.DecOk) (hm : s.mem.wf = true) (hi : i.mode ≠ none)
    (h : exec i s = .next t) : s.Frame t s.sent := by
  have hc : ∀ w, i.shape ≠ .command w := fun w hw => hi (by rw [Instr.mode, hw])
  by_cases hl : ∃ ls, i = .codeLengthCodeLengths ls
  · obtain ⟨ls, rfl⟩ := hl
    have h : execCodeLengthCodeLengths ls s = .next t := h
    unfold execCodeLengthCodeLengths at h
    split at h
    · split at h
      · exact State.frame_onElement hdec hm (fun r => DecRun.moves_takeLenLens ls (Io.Moves.refl r.io)) h
      · exact absurd h nofun
    · exact absurd h nofun
  · rw [← execElement_eq_exec hc, execElement_eq hc fun ls hls => hl ⟨ls, by cases i <;> simp_all [Instr.shape]⟩] at h
    exact State.frame_onElement hdec hm (fun r => moves_actionOf (Io.Moves.refl r.io) i.shape) h

/-! ## The commands -/

/-- A command that leaves the cursors and all of host memory; the totals it may write. -/
structure State.Still (s t : State) : Prop where
  host : t.params = s.params ∧ t.cfg = s.cfg ∧ t.hostq = s.hostq ∧ t.readData = s.readData
  cursors : t.inAddr = s.inAddr ∧ t.inLen = s.inLen ∧ t.outAddr = s.outAddr ∧ t.outLen = s.outLen ∧ t.mem = s.mem

theorem State.Still.mem {s t : State} (h : s.Still t) : t.mem = s.mem := h.cursors.2.2.2.2

/-- A command that completes where it stands writes STATUS and the stream alone (R380). -/
theorem State.still_complete (s : State) (c : StreamCtx) (res : Result) : s.Still (s.complete c res) ∧
    (s.complete c res).freeCtr = s.freeCtr ∧ (s.complete c res).totalIn = s.totalIn ∧ (s.complete c res).totalOut = s.totalOut :=
  ⟨⟨⟨rfl, rfl, rfl, rfl⟩, rfl, rfl, rfl, rfl, rfl⟩, rfl, rfl, rfl⟩

section
variable {s t : State}

theorem execEncSetDict_still (h : execEncSetDict s = .next t) :
    s.Still t ∧ t.freeCtr = s.freeCtr ∧ t.totalIn = s.totalIn ∧ t.totalOut = s.totalOut := by
  unfold execEncSetDict at h
  repeat' split at h
  all_goals cases h; exact s.still_complete _ _

theorem execDecSetDict_still (h : execDecSetDict s = .next t) :
    s.Still t ∧ t.freeCtr = s.freeCtr ∧ t.totalIn = s.totalIn ∧ t.totalOut = s.totalOut := by
  unfold execDecSetDict at h
  repeat' split at h
  all_goals cases h; exact s.still_complete _ _

theorem execEndStream_still (h : execEndStream s = .next t) :
    s.Still t ∧ t.freeCtr = s.freeCtr ∧ t.totalIn = s.totalIn ∧ t.totalOut = s.totalOut := by
  unfold execEndStream at h
  split at h <;> cases h <;> exact s.still_complete _ _

/-- ENC_INIT moves no byte (R384). -/
theorem execEncInit_still (h : execEncInit s = .next t) : s.Still t ∧ t.freeCtr = s.freeCtr := by
  unfold execEncInit at h
  split at h <;> cases h <;> exact ⟨⟨⟨rfl, rfl, rfl, rfl⟩, rfl, rfl, rfl, rfl, rfl⟩, rfl⟩

/-- DEC_INIT moves no byte; it may take free values (R398, log entry 9). -/
theorem execDecInit_still (h : execDecInit s = .next t) : s.Still t := by
  unfold execDecInit at h
  split at h <;> cases h <;> exact ⟨⟨rfl, rfl, rfl, rfl⟩, rfl, rfl, rfl, rfl, rfl⟩

theorem encStep_frame {f : Flush} (hm : s.mem.wf = true) (h : encStep f s = .next t) : s.Frame t 0 := by
  rcases encStep_cases f s with heq | ⟨e, r, res, -, heq, hend⟩ <;> rw [heq] at h <;> cases h
  · exact s.frame_complete _ _ _
  · exact State.frame_finish (Nat.zero_le _) hm hend.good.moves _ _

theorem execDecStep_frame (hdec : s.DecOk) (hm : s.mem.wf = true) (h : execDecStep s = .next t) : s.Frame t 0 := by
  rcases execDecStep_cases hdec with heq | ⟨d, r, res, heq, hgood, -⟩ <;> rw [heq] at h <;> cases h
  · exact s.frame_complete _ _ _
  · exact State.frame_finish (Nat.zero_le _) hm hgood.moves _ _

/-- DEC_SYNC produces nothing (R406). -/
theorem execDecSync_frame (hdec : s.DecOk) (hm : s.mem.wf = true) (h : execDecSync s = .next t) :
    s.Frame t 0 ∧ t.outAddr = s.outAddr ∧ t.outLen = s.outLen ∧ t.totalOut = s.totalOut ∧ t.mem = s.mem := by
  rcases execDecSync_cases hdec with heq | ⟨d, res, n, heq, hn, -⟩ <;> rw [heq] at h <;> cases h
  · exact ⟨s.frame_complete _ _ _, rfl, rfl, rfl, rfl⟩
  · exact ⟨State.frame_finish (Nat.zero_le _) hm (Io.Moves.consume hn) _ _, by simp, by simp, rfl, rfl⟩

end

end Sys2Proof.Machine

open Sys2Proof Sys2Proof.Machine

/-- Settles O49: an element moves the cursors of its DEC_STEP, and a command completes where it stands or ends from moved cursors. -/
theorem frameOfEveryInstruction : Obligations.FrameOfEveryInstruction := by
  intro s t i hdec _ hm h
  by_cases hi : i.mode = none
  · rw [if_pos hi]
    rcases command_cases hi with rfl | ⟨f, rfl⟩ | rfl | rfl | rfl | rfl | rfl | rfl
    · obtain ⟨hstill, hfree⟩ := execEncInit_still h
      exact ⟨hstill.host, fun _ => hfree, fun _ => hstill.cursors, by simp, by simp, fun a _ => by rw [hstill.mem]⟩
    · have hframe := encStep_frame hm ((exec_stepInstr f s).symm.trans h)
      exact ⟨hframe.host, fun _ => hframe.freeCtr, by cases f <;> simp [stepInstr], by cases f <;> simp [stepInstr],
        by cases f <;> simp [stepInstr], hframe.memory⟩
    · obtain ⟨hstill, hfree, htotals⟩ := execEncSetDict_still h
      exact ⟨hstill.host, fun _ => hfree, fun _ => hstill.cursors, fun _ => htotals, by simp, fun a _ => by rw [hstill.mem]⟩
    · have hstill := execDecInit_still h
      exact ⟨hstill.host, fun hne => absurd rfl hne, fun _ => hstill.cursors, by simp, by simp, fun a _ => by rw [hstill.mem]⟩
    · have hframe := execDecStep_frame hdec hm h
      exact ⟨hframe.host, fun _ => hframe.freeCtr, by simp, by simp, by simp, hframe.memory⟩
    · obtain ⟨hstill, hfree, htotals⟩ := execDecSetDict_still h
      exact ⟨hstill.host, fun _ => hfree, fun _ => hstill.cursors, fun _ => htotals, by simp, fun a _ => by rw [hstill.mem]⟩
    · obtain ⟨hframe, hout⟩ := execDecSync_frame hdec hm h
      exact ⟨hframe.host, fun _ => hframe.freeCtr, by simp, by simp, fun _ => hout, hframe.memory⟩
    · obtain ⟨hstill, hfree, htotals⟩ := execEndStream_still h
      exact ⟨hstill.host, fun _ => hfree, fun _ => hstill.cursors, fun _ => htotals, by simp, fun a _ => by rw [hstill.mem]⟩
  · have hframe := exec_element_frame hdec hm hi h
    rw [if_neg hi]
    refine ⟨hframe.host, fun _ => hframe.freeCtr, fun hk => ?_, fun hk => ?_, fun hk => ?_, hframe.memory⟩
    · rcases hk with rfl | rfl | rfl | rfl | rfl <;> exact absurd rfl hi
    · rcases hk with rfl | rfl | rfl <;> exact absurd rfl hi
    · subst hk; exact absurd rfl hi
end

