-- ==== Sys2Proof/Proofs/HostMemory.lean ====
section
/-! PROOF. Sys2Proof/Proofs/HostMemory.lean: host memory stays in its canonical form (R81, R89), and which of its bytes the host may
touch while a command runs (R92, R95, R381), with the buffers that may not lie on a device (R89). -/

namespace Sys2Proof.Machine

open Sys2Proof

/-! ## The canonical form, host side -/

@[simp] theorem State.regWrite_mem (s : State) (off : Nat) (v : Word) : (s.regWrite off v).mem = s.mem := by
  unfold State.regWrite
  split <;> rfl

/-- Whichever output bytes a reset leaves written, each is one write (R452). -/
theorem abandonedMemory_wf {old : Memory} (h : old.wf = true) (ctr : Nat) (new : Memory) (base : Word) :
    ∀ n, (abandonedMemory ctr old new base n).wf = true
  | 0 => h
  | n + 1 => by
    have ih := abandonedMemory_wf h ctr new base n
    rw [abandonedMemory]
    split
    · exact Memory.wf_write _ (BitVec.isLt _) ih
    · exact ih

theorem State.abandon_wf {s : State} (h : s.mem.wf = true) : s.abandon.mem.wf = true := by
  unfold State.abandon
  split
  · split
    · exact h
    · split
      · exact abandonedMemory_wf h _ _ _ _
      · exact h
  · exact h

/-- A host access writes one byte, resets the machine, or leaves host memory alone. -/
theorem hostAccess_wf {a : HostAccess} {s t : State} (h : s.mem.wf = true) (ht : hostAccess a s = .next t) : t.mem.wf = true := by
  cases a with
  | regWrite addr width v =>
    simp only [hostAccess] at ht
    split at ht
    · exact absurd ht nofun
    · split at ht <;> cases ht
      · exact h
      · rwa [State.regWrite_mem]
  | regRead addr width =>
    simp only [hostAccess] at ht
    split at ht <;> cases ht
    exact h
  | memWrite addr v =>
    simp only [hostAccess] at ht
    split at ht <;> cases ht
    exact Memory.wf_write v addr.isLt h
  | memRead addr =>
    simp only [hostAccess] at ht
    split at ht <;> cases ht
    exact h
  | reset =>
    cases ht
    split
    · exact State.abandon_wf h
    · exact h

/-! ## The canonical form, engine side -/

theorem Act.Sound.movesFrom {d : Dec} {io : Io} {bound : Nat} : ∀ {a : Act}, a.Sound d io bound → a.MovesFrom io
  | .go _, h => h.1.moves
  | .stop _ _, h => h.1.moves

theorem State.settle_mem (s : State) (a : Act) : (s.settle a).mem = a.run.io.mem := by cases a <;> rfl

/-- A command leaves host memory alone, or ends from cursors that have moved within the buffers (R380). -/
theorem exec_command_wf {s t : State} {i : Instr} (hdec : s.DecOk) (hm : s.mem.wf = true) (hi : i.mode = none)
    (h : exec i s = .next t) : t.mem.wf = true := by
  rcases command_cases hi with rfl | ⟨f, rfl⟩ | rfl | rfl | rfl | rfl | rfl | rfl
  · rwa [(execEncInit_still h).1.mem]
  · rw [exec_stepInstr] at h
    rcases encStep_cases f s with heq | ⟨e, r, res, -, heq, hend⟩ <;> rw [heq] at h <;> cases h
    · exact hm
    · exact hend.good.moves.wf hm
  · rwa [(execEncSetDict_still h).1.mem]
  · rwa [(execDecInit_still h).mem]
  · have h : execDecStep s = .next t := h
    rcases execDecStep_cases hdec with heq | ⟨d, r, res, heq, hgood, -⟩ <;> rw [heq] at h <;> cases h
    · exact hm
    · exact hgood.moves.wf hm
  · rwa [(execDecSetDict_still h).1.mem]
  · obtain ⟨-, -, -, -, hmem⟩ := execDecSync_frame hdec hm h
    rwa [hmem]
  · rwa [(execEndStream_still h).1.mem]

theorem engineStep_wf {s t : State} (hdec : s.DecOk) (hm : s.mem.wf = true) (h : engineStep s = .next t) : t.mem.wf = true := by
  unfold engineStep at h
  split at h
  · exact absurd h nofun
  · split at h
    · cases h; exact hm
    · unfold runCommandWord at h
      split at h
      · next i hi => exact exec_command_wf hdec hm (mode_of_decodeCommand hi) h
      · cases h; exact hm
    · next c p hphase =>
      obtain ⟨⟨d, hs⟩, -, -⟩ := hdec.point c p hphase
      obtain ⟨a, hstep, hsound⟩ := decoderStep_sound hs hphase (hdec.dec d hs)
      rw [hstep] at h
      cases h
      rw [State.settle_mem]
      exact hsound.movesFrom.wf hm

/-! ## The buffers of the running command -/

theorem exists_eq_stepInstr_iff {i : Instr} : (∃ f, i = stepInstr f) ↔ i = .encStepNo ∨ i = .encStepPartial ∨ i = .encStepSync ∨
    i = .encStepFull ∨ i = .encStepFinish ∨ i = .encStepBlock := by
  constructor
  · rintro ⟨f, rfl⟩
    cases f <;> simp [stepInstr]
  · rintro (rfl | rfl | rfl | rfl | rfl | rfl)
    exacts [⟨.no, rfl⟩, ⟨.partialFlush, rfl⟩, ⟨.sync, rfl⟩, ⟨.full, rfl⟩, ⟨.finish, rfl⟩, ⟨.block, rfl⟩]

section
variable {w : Word} {i : Instr} (h : decodeCommand w = some i)
include h

/-- The commands that write the output buffer (R83, R388, R400). -/
theorem Phase.usesOutput_command : (Phase.command w).usesOutput = true ↔ i = .decStep ∨ ∃ f, i = stepInstr f := by
  rcases command_cases (mode_of_decodeCommand h) with rfl | ⟨f, rfl⟩ | rfl | rfl | rfl | rfl | rfl | rfl
  case inr.inl => exact iff_of_true (by cases f <;> simp [Phase.usesOutput, h, stepInstr]) (.inr ⟨f, rfl⟩)
  all_goals simp [Phase.usesOutput, h, exists_eq_stepInstr_iff]

/-- The commands that read the input buffer: those, and the dictionary commands and DEC_SYNC (R82, R392, R404, R406). -/
theorem Phase.usesInput_command : (Phase.command w).usesInput = true ↔
    (i = .decStep ∨ ∃ f, i = stepInstr f) ∨ i = .encSetDict ∨ i = .decSetDict ∨ i = .decSync := by
  rcases command_cases (mode_of_decodeCommand h) with rfl | ⟨f, rfl⟩ | rfl | rfl | rfl | rfl | rfl | rfl
  case inr.inl => exact iff_of_true (by cases f <;> simp [Phase.usesInput, h, stepInstr]) (.inl (.inr ⟨f, rfl⟩))
  all_goals simp [Phase.usesInput, h, exists_eq_stepInstr_iff]

end

/-- The bytes in use are those of the input buffer where the phase uses it, and of the output buffer where the phase uses that. -/
theorem State.uses_iff {s : State} {a : Nat} : s.Uses a ↔
    (s.phase.usesInput = true ∧ s.inAddr.toNat ≤ a ∧ a < s.inAddr.toNat + s.inLen.toNat) ∨
      (s.phase.usesOutput = true ∧ s.outAddr.toNat ≤ a ∧ a < s.outAddr.toNat + s.outLen.toNat) := by
  unfold State.Uses
  cases hphase : s.phase with
  | idle => simp [Phase.usesInput, Phase.usesOutput]
  | decoding c p => simp [Phase.usesInput, Phase.usesOutput]
  | command w =>
    cases hw : decodeCommand w with
    | none => simp [Phase.usesInput, Phase.usesOutput, hw]
    | some i =>
      rw [Phase.usesInput_command hw, Phase.usesOutput_command hw]
      simp only [reduceCtorEq, exists_false, false_and, false_or, Phase.command.injEq, hw, Option.some.injEq,
        exists_and_left, exists_eq_left']
      tauto

theorem State.Uses.phase_ne_idle {s : State} {a : Nat} (h : s.Uses a) : s.phase ≠ .idle := by
  intro hidle
  simp [State.uses_iff, hidle, Phase.usesInput, Phase.usesOutput] at h

/-- The host is kept off exactly the bytes in use (R92, R381). -/
theorem State.bufferInUse_iff {s : State} {a : Word} : s.bufferInUse a = true ↔ s.Uses a.toNat := by
  simp only [State.bufferInUse, inRange, Bool.or_eq_true, Bool.and_eq_true, decide_eq_true_eq, State.uses_iff]

/-- Ranges with a byte in common meet. -/
theorem rangesMeet_of_mem {x lx y ly : Word} {a : Nat} (hx : x.toNat ≤ a ∧ a < x.toNat + lx.toNat)
    (hy : y.toNat ≤ a ∧ a < y.toNat + ly.toNat) : rangesMeet x lx y ly = true := by
  simp only [rangesMeet, Bool.and_eq_true, decide_eq_true_eq]
  omega

/-- A byte in use that lies on a device (R89). -/
theorem State.bufferOnDevice_of_uses {s : State} {base len : Word} {a : Nat} (hd : (base, len) ∈ s.params.devices)
    (ha : base.toNat ≤ a ∧ a < base.toNat + len.toNat) (hu : s.Uses a) : s.bufferOnDevice = true := by
  refine List.any_eq_true.2 ⟨(base, len), hd, ?_⟩
  rcases State.uses_iff.1 hu with ⟨huse, hbuf⟩ | ⟨huse, hbuf⟩
  · rw [huse, rangesMeet_of_mem hbuf ha]; rfl
  · rw [huse, rangesMeet_of_mem hbuf ha]; exact Bool.or_true _

/-! ## Accesses -/

section
variable {s : State} {a : Word}

theorem hostAccess_memWrite_free (h : ¬ s.Uses a.toNat) (v : Byte) :
    hostAccess (.memWrite a v) s = .next { s with mem := s.mem.write a.toNat v } :=
  if_neg (State.bufferInUse_iff.not.2 h)

theorem hostAccess_memRead_free (h : ¬ s.Uses a.toNat) :
    hostAccess (.memRead a) s = .next { s with readData := (s.mem.read a.toNat).setWidth 32 } :=
  if_neg (State.bufferInUse_iff.not.2 h)

theorem hostAccess_memWrite_inUse (h : s.Uses a.toNat) (v : Byte) :
    hostAccess (.memWrite a v) s = .refused .bufferAccessWhileBusy :=
  if_pos (State.bufferInUse_iff.2 h)

theorem hostAccess_memRead_inUse (h : s.Uses a.toNat) : hostAccess (.memRead a) s = .refused .bufferAccessWhileBusy :=
  if_pos (State.bufferInUse_iff.2 h)

end

theorem engineStep_onDevice {s : State} (h : s.bufferOnDevice = true) : engineStep s = .refused .deviceBuffer := if_pos h

end Sys2Proof.Machine

open Sys2Proof Sys2Proof.Machine

/-- Settles O58: a host access writes at most single bytes (`hostAccess_wf`), and the engine writes at its output cursor
(`engineStep_wf`). -/
theorem memoryStaysCanonical : Obligations.MemoryStaysCanonical := by
  intro s t hdec _ hm h
  unfold step at h
  split at h
  · exact engineStep_wf hdec hm h
  · next ev rest _ =>
    split at h
    · exact hostAccess_wf (s := { s with hostq := rest }) hm h
    · exact engineStep_wf hdec hm h

/-- Settles O7, clause by clause: a free byte is written and read, a byte in use is refused (`State.bufferInUse_iff`), and so are a
register access that is no aligned word and a command with a byte in use on a device. -/
theorem hostMemoryAccess : Obligations.HostMemoryAccess := by
  refine ⟨fun s a v hfree hm => ?_, fun s a hfree => hostAccess_memRead_free hfree,
    fun s a v hu => ⟨hostAccess_memWrite_inUse hu v, hostAccess_memRead_inUse hu⟩,
    fun s addr v width h => ⟨if_pos h, if_pos h⟩, fun s base len a hd hlo hhi hu hq => ?_⟩
  · exact ⟨_, hostAccess_memWrite_free hfree v, Memory.wf_write v a.isLt hm, Memory.read_write_self v hm,
      fun b hb => Memory.read_write_other v hb hm⟩
  · rw [step_quiet hq hu.phase_ne_idle]
    exact engineStep_onDevice (State.bufferOnDevice_of_uses hd ⟨hlo, hhi⟩ hu)
end

