-- ==== Sys2Proof/Proofs/BufferRanges.lean ====
section
/-! PROOF. Sys2Proof/Proofs/BufferRanges.lean: the buffer range check (R84), and that each command which makes it is refused where it
fails. -/

namespace Sys2Proof.Machine

open Sys2Proof

theorem State.refuseCommand_eq_invalid (s : State) : s.refuseCommand = s.invalid := rfl

/-- The check fails where a buffer passes the top of host memory, and where a byte lies in both buffers (R84). -/
theorem State.rangesOk_eq_false {s : State}
    (h : s.inAddr.toNat + s.inLen.toNat > 2 ^ 32 ∨ s.outAddr.toNat + s.outLen.toNat > 2 ^ 32 ∨
      ∃ a : Nat, (s.inAddr.toNat ≤ a ∧ a < s.inAddr.toNat + s.inLen.toNat) ∧
        s.outAddr.toNat ≤ a ∧ a < s.outAddr.toNat + s.outLen.toNat) : s.rangesOk = false := by
  rw [← Bool.not_eq_true]
  intro hok
  simp only [State.rangesOk, Bool.and_eq_true, Bool.or_eq_true, decide_eq_true_eq, BitVec.toNat_eq,
    BitVec.ofNat_eq_ofNat, BitVec.toNat_ofNat, Nat.zero_mod] at hok
  obtain ⟨⟨hin, hout⟩, hapart⟩ := hok
  have hsize : Config.memSize = 2 ^ 32 := rfl
  rcases h with h | h | ⟨a, hina, houta⟩ <;> omega

/-! ## The commands that make the check -/

section
variable {s : State} (h : s.rangesOk = false)
include h

theorem encStep_badRanges (f : Flush) : encStep f s = .next s.refuseCommand := by
  unfold encStep
  simp only [h, Bool.not_false, if_true, ite_self]
  split <;> rfl

theorem execEncSetDict_badRanges : execEncSetDict s = .next s.refuseCommand := by
  unfold execEncSetDict
  simp only [h, Bool.not_false, if_true, ite_self]
  split <;> rfl

theorem execDecStep_badRanges : execDecStep s = .next s.refuseCommand := by
  unfold execDecStep
  simp only [h, Bool.not_false, if_true, ite_self]
  split <;> rfl

theorem execDecSetDict_badRanges : execDecSetDict s = .next s.refuseCommand := by
  unfold execDecSetDict
  simp only [h, Bool.not_false, if_true, ite_self]
  split <;> rfl

theorem execDecSync_badRanges : execDecSync s = .next s.refuseCommand := by
  unfold execDecSync
  simp only [h, Bool.not_false, if_true]
  split <;> rfl

end

end Sys2Proof.Machine

open Sys2Proof Sys2Proof.Machine

/-- Settles O24: the hypothesis is that the range check fails, and each of the commands makes that check. -/
theorem bufferRangesAreChecked : Obligations.BufferRangesAreChecked := by
  intro s i hi hbad
  have hr := State.rangesOk_eq_false hbad
  rw [← State.refuseCommand_eq_invalid]
  rcases hi with ⟨f, rfl⟩ | rfl | rfl | rfl | rfl
  · exact (exec_stepInstr f s).trans (encStep_badRanges hr f)
  · exact execEncSetDict_badRanges hr
  · exact execDecStep_badRanges hr
  · exact execDecSetDict_badRanges hr
  · exact execDecSync_badRanges hr
end

