-- ==== Sys2Proof/Proofs/WireEncoding.lean ====
section
/-! PROOF. Sys2Proof/Proofs/WireEncoding.lean: the encoding of an instruction decodes to it, whatever follows (30_encoding.md R111 to
R126, R151 to R153), what decodes to an instruction is its encoding, and a step of the decoder runs the element whose encoding is next. -/

namespace Sys2Proof

open Machine

/-! ## Fields -/

theorem takeField_eq_some_iff {n v : Nat} {bits : List Bool} :
    takeField n bits = some v ↔ v < 2 ^ n ∧ n ≤ bits.length ∧ bits.take n = bitsOf n v := by
  constructor
  · intro h
    have hn := takeField_isSome h
    have hlen : (bits.take n).length = n := by rw [List.length_take, Nat.min_eq_left hn]
    rw [takeField_eq_some hn, Option.some.injEq] at h
    subst h
    have hlt := natOfBits_lt (bits.take n)
    rw [hlen] at hlt
    exact ⟨hlt, hn, (bitsOf_natOfBits_of_length hlen).symm⟩
  · rintro ⟨hv, hn, htake⟩
    rw [takeField_eq_some hn, htake, natOfBits_bitsOf_of_lt hv]

/-- A field that has just its value's bits in front is read back. -/
theorem takeField_append_of_lt {n v : Nat} (h : v < 2 ^ n) (rest : List Bool) : takeField n (bitsOf n v ++ rest) = some v := by
  rw [takeField_append, Nat.mod_eq_of_lt h]

/-- What stands behind a field. -/
theorem drop_bitsOf_append (n v : Nat) (rest : List Bool) : (bitsOf n v ++ rest).drop n = rest :=
  List.drop_left' (length_bitsOf n v)

theorem takeClLens_encoded (lens : List (BitVec 3)) (rest : List Bool) :
    takeClLens lens.length (lens.flatMap (fun v => bitsOf 3 v.toNat) ++ rest) = some lens := by
  induction lens with
  | nil => rfl
  | cons v vs ih =>
    rw [List.flatMap_cons, List.append_assoc, List.length_cons, takeClLens, takeField_append_of_lt v.isLt, drop_bitsOf_append, ih]
    simp

theorem take_of_takeClLens {n : Nat} {bits : List Bool} {vs : List (BitVec 3)} (h : takeClLens n bits = some vs) :
    bits.take (3 * n) = vs.flatMap fun v => bitsOf 3 v.toNat := by
  induction n generalizing bits vs with
  | zero => simp [takeClLens] at h; subst h; rfl
  | succ n ih =>
    rw [takeClLens] at h
    split at h
    · next v vs' hv hvs =>
      obtain ⟨hlt, -, htake⟩ := takeField_eq_some_iff.1 hv
      cases h
      rw [List.flatMap_cons, ← ih hvs, Nat.mul_succ, Nat.add_comm, List.take_add, htake, BitVec.toNat_ofNat, Nat.mod_eq_of_lt hlt]
    · exact absurd h nofun

/-! ## Symbols -/

theorem Code.Proper.peek_bitsFor {c : Code} (h : c.Proper) {s : Nat} (hs : (c.entry s).isSome = true) (rest : List Bool) :
    peek c (c.bitsFor s ++ rest) = .symbol s (c.lengthOf s) := by
  obtain ⟨e, he⟩ := Option.isSome_iff_exists.1 hs
  obtain ⟨hmem, rfl⟩ := Code.mem_of_entry he
  rw [h.bitsFor_eq hmem, h.lengthOf_eq hmem, peek_wire h hmem]

/-- The bits in which PEEK finds a symbol begin with the symbol's code. -/
theorem Code.Proper.take_of_peek {c : Code} (h : c.Proper) {bits : List Bool} {s k : Nat} (hp : peek c bits = .symbol s k) :
    bits.take k = c.bitsFor s ∧ (c.entry s).isSome = true := by
  obtain ⟨e, he, rfl, rfl, hpre⟩ := peek_symbol h hp
  refine ⟨?_, by rw [h.entry_eq he]; rfl⟩
  rw [h.bitsFor_eq he, ← CodeEntry.length_wire e]
  exact (List.prefix_iff_eq_take.1 hpre).symm

theorem drop_bitsFor_append (c : Code) (s : Nat) (rest : List Bool) : (c.bitsFor s ++ rest).drop (c.lengthOf s) = rest :=
  List.drop_left' (Code.length_bitsFor c s)

/-- A symbol with its extra bits: the bits taken are the code and the value. -/
theorem take_code_and_extra {c : Code} (h : c.Proper) {bits : List Bool} {s k w v : Nat} (hp : peek c bits = .symbol s k)
    (hv : takeField w (bits.drop k) = some v) : bits.take (k + w) = c.bitsFor s ++ bitsOf w v := by
  rw [List.take_add, (h.take_of_peek hp).1, (takeField_eq_some_iff.1 hv).2.2]

/-! ## Instructions by shape -/

/-- A code-length symbol below 16 is a length and has no extra bits; 16, 17 and 18 have those of R120. -/
theorem eq_clInstr_of_shape {i : Instr} {s w e : Nat} (h : i.shape = .cl s w e) :
    s < 19 ∧ w = clExtra s ∧ e < 2 ^ w ∧ i = clInstr s e := by
  cases i <;> simp only [Instr.shape, reduceCtorEq, Shape.cl.injEq] at h
  case clLength l =>
    obtain ⟨rfl, rfl, rfl⟩ := h
    have hl : l.toNat < 16 := l.isLt
    have h16 : l.toNat ≠ 16 := by omega
    have h17 : l.toNat ≠ 17 := by omega
    have h18 : l.toNat ≠ 18 := by omega
    simp only [clExtra, clInstr, h16, h17, h18, if_false, BitVec.ofNat_toNat, BitVec.setWidth_eq]
    exact ⟨by omega, trivial, by decide, trivial⟩
  all_goals
    obtain ⟨rfl, rfl, rfl⟩ := h
    exact ⟨by decide, rfl, BitVec.isLt _, by simp [clInstr]⟩

/-- The four kinds of literal/length symbol with their extra bits (R121, R340, R341). -/
theorem cases_of_shape_lit {i : Instr} {s w e : Nat} (h : i.shape = .lit s w e) :
    (s < 256 ∧ w = 0 ∧ e = 0 ∧ i = .literal (BitVec.ofNat 8 s)) ∨ (s = 256 ∧ w = 0 ∧ e = 0 ∧ i = .endOfBlock) ∨
      (257 ≤ s ∧ s ≤ 285 ∧ w = lenExtra.getD (s - 257) 0 ∧ e < 2 ^ w ∧ i = lengthInstr (s - 257) e) ∨
      (286 ≤ s ∧ s < 288 ∧ w = 0 ∧ e = 0 ∧ i = .litlenReserved (decide (s % 2 = 1))) := by
  cases i <;> simp only [Instr.shape, reduceCtorEq, Shape.lit.injEq] at h
  case literal b => obtain ⟨rfl, rfl, rfl⟩ := h; exact .inl ⟨b.isLt, rfl, rfl, by simp⟩
  case endOfBlock => obtain ⟨rfl, rfl, rfl⟩ := h; exact .inr (.inl ⟨rfl, rfl, rfl, rfl⟩)
  case litlenReserved odd => obtain ⟨rfl, rfl, rfl⟩ := h; cases odd <;> simp
  all_goals
    obtain ⟨rfl, rfl, rfl⟩ := h
    refine .inr (.inr (.inl ⟨by decide, by decide, rfl, ?_, ?_⟩))
    · omega
    · simp [lengthInstr]

/-- The two kinds of distance symbol with their extra bits (R122, R343). -/
theorem cases_of_shape_dist {i : Instr} {s w e : Nat} (h : i.shape = .dist s w e) :
    (s < 30 ∧ w = distExtra.getD s 0 ∧ e < 2 ^ w ∧ i = distanceInstr s e) ∨
      (30 ≤ s ∧ s < 32 ∧ w = 0 ∧ e = 0 ∧ i = .distanceReserved (decide (s % 2 = 1))) := by
  cases i <;> simp only [Instr.shape, reduceCtorEq, Shape.dist.injEq] at h
  case distanceReserved odd => obtain ⟨rfl, rfl, rfl⟩ := h; cases odd <;> simp
  all_goals
    obtain ⟨rfl, rfl, rfl⟩ := h
    refine .inl ⟨by decide, rfl, ?_, ?_⟩
    · omega
    · simp [distanceInstr]

/-! ## The round trip -/

/-- The code in which an instruction's symbol is read is a proper code over its alphabet (R120, R121, R122). -/
def Instr.CodeProper (k : Codes) (i : Instr) : Prop :=
  match i.shape with
  | .cl _ _ _ => k.cl.Over 19
  | .lit _ _ _ => k.lit.Over 288
  | .dist _ _ _ => k.dist.Over 32
  | _ => True

theorem Codes.Proper.codeProper {k : Codes} (h : k.Proper) (i : Instr) : i.CodeProper k := by
  unfold Instr.CodeProper
  split
  exacts [h.1, h.2.1, h.2.2, trivial]

theorem decodeCl_encoded {c : Code} (h : c.Proper) {s e : Nat} (hs : (c.entry s).isSome = true) (he : e < 2 ^ clExtra s)
    (rest : List Bool) :
    decodeCl c (c.bitsFor s ++ bitsOf (clExtra s) e ++ rest) = .element (clInstr s e) (c.lengthOf s + clExtra s) := by
  rw [List.append_assoc, decodeCl, h.peek_bitsFor hs]
  dsimp only
  rw [drop_bitsFor_append, takeField_append_of_lt he]

/-- A literal/length symbol with its extra bits is read back, whichever of the four kinds it is. -/
theorem decodeLit_encoded {c : Code} (h : c.Proper) {i : Instr} {s w e : Nat} (hi : i.shape = .lit s w e)
    (hs : (c.entry s).isSome = true) (rest : List Bool) :
    decodeLit c (c.bitsFor s ++ bitsOf w e ++ rest) = .element i (c.lengthOf s + w) := by
  rw [List.append_assoc, decodeLit, h.peek_bitsFor hs]
  dsimp only
  rw [drop_bitsFor_append]
  rcases cases_of_shape_lit hi with ⟨hlt, rfl, rfl, rfl⟩ | ⟨heob, rfl, rfl, rfl⟩ |
    ⟨hlo, hhi, hw, he, hlen⟩ | ⟨hlo, hhi, rfl, rfl, rfl⟩
  · rw [if_pos hlt, Nat.add_zero]
  · rw [if_neg (by omega), if_pos heob, Nat.add_zero]
  · rw [if_neg (by omega), if_neg (by omega), if_pos hhi, ← hw, takeField_append_of_lt he, hlen]
  · rw [if_neg (by omega), if_neg (by omega), if_neg (by omega), Nat.add_zero]

theorem decodeDist_encoded {c : Code} (h : c.Proper) {i : Instr} {s w e : Nat} (hi : i.shape = .dist s w e)
    (hs : (c.entry s).isSome = true) (rest : List Bool) :
    decodeDist c (c.bitsFor s ++ bitsOf w e ++ rest) = .element i (c.lengthOf s + w) := by
  rw [List.append_assoc, decodeDist, h.peek_bitsFor hs]
  dsimp only
  rw [drop_bitsFor_append]
  rcases cases_of_shape_dist hi with ⟨hlt, rfl, he, rfl⟩ | ⟨hlo, hhi, rfl, rfl, rfl⟩
  · rw [if_pos hlt, takeField_append_of_lt he]
  · rw [if_neg (by omega), Nat.add_zero]

/-- A block header is made of its two fields. -/
theorem eq_headerInstr_of_shape {i : Instr} {f : Bool} {t : BitVec 2} (h : i.shape = .header f t) : i = headerInstr f t.toNat := by
  cases i <;> simp only [Instr.shape, reduceCtorEq, Shape.header.injEq] at h
  all_goals obtain ⟨rfl, rfl⟩ := h; rfl

theorem eq_storedLen_of_shape {i : Instr} {l n : BitVec 16} (h : i.shape = .stored l n) : i = .storedLen l n := by
  cases i <;> simp only [Instr.shape, reduceCtorEq, Shape.stored.injEq] at h
  obtain ⟨rfl, rfl⟩ := h; rfl

theorem eq_dynamicCounts_of_shape {i : Instr} {a b : BitVec 5} {x : BitVec 4} (h : i.shape = .counts a b x) :
    i = .dynamicCounts a b x := by
  cases i <;> simp only [Instr.shape, reduceCtorEq, Shape.counts.injEq] at h
  obtain ⟨rfl, rfl, rfl⟩ := h; rfl

theorem eq_clLens_of_shape {i : Instr} {lens : List (BitVec 3)} (h : i.shape = .clLens lens) : i = .codeLengthCodeLengths lens := by
  cases i <;> simp only [Instr.shape, reduceCtorEq, Shape.clLens.injEq] at h
  rw [h]

theorem decodeWire_header_encoded (f : Bool) (t : BitVec 2) (rest : List Bool) :
    decodeWire .header (bitsOf 1 (if f then 1 else 0) ++ bitsOf 2 t.toNat ++ rest) = .element (headerInstr f t.toNat) 3 := by
  have hf : (if f then 1 else 0) < 2 ^ 1 := by cases f <;> decide
  rw [List.append_assoc, decodeWire, takeField_append_of_lt hf, drop_bitsOf_append, takeField_append_of_lt t.isLt]
  cases f <;> rfl

theorem decodeWire_stored_encoded (l n : BitVec 16) (rest : List Bool) :
    decodeWire .storedPair (bitsOf 16 l.toNat ++ bitsOf 16 n.toNat ++ rest) = .element (.storedLen l n) 32 := by
  rw [List.append_assoc, decodeWire, takeField_append_of_lt l.isLt, drop_bitsOf_append, takeField_append_of_lt n.isLt]
  simp

theorem decodeWire_counts_encoded (a b : BitVec 5) (x : BitVec 4) (rest : List Bool) :
    decodeWire .counts (bitsOf 5 a.toNat ++ bitsOf 5 b.toNat ++ bitsOf 4 x.toNat ++ rest) = .element (.dynamicCounts a b x) 14 := by
  have hdrop : (bitsOf 5 a.toNat ++ bitsOf 5 b.toNat ++ bitsOf 4 x.toNat ++ rest).drop 10 = bitsOf 4 x.toNat ++ rest := by
    rw [List.append_assoc]; exact List.drop_left' (by simp)
  rw [decodeWire, hdrop, takeField_append_of_lt x.isLt, List.append_assoc, List.append_assoc, takeField_append_of_lt a.isLt,
    drop_bitsOf_append, takeField_append_of_lt b.isLt]
  simp

/-- An element's own bits decode to it, whatever follows them, where the code in force is proper and has the symbol. -/
theorem decodeWire_encode {k : Codes} {i : Instr} {ctx : WireContext} (hk : i.CodeProper k) (hcode : i.hasCode k = true)
    (hctx : i.context k = some ctx) (rest : List Bool) :
    decodeWire ctx (encode k i ++ rest) = .element i (encode k i).length := by
  unfold Instr.CodeProper at hk
  unfold Instr.hasCode at hcode
  unfold Instr.context at hctx
  unfold encode
  cases hsh : i.shape <;> simp only [hsh, Option.some.injEq, reduceCtorEq] at hk hcode hctx ⊢ <;> subst hctx
  case header f t => rw [decodeWire_header_encoded, ← eq_headerInstr_of_shape hsh]; simp
  case stored l n => rw [decodeWire_stored_encoded, ← eq_storedLen_of_shape hsh]; simp
  case counts a b x => rw [decodeWire_counts_encoded, ← eq_dynamicCounts_of_shape hsh]; simp
  case clLens lens =>
    rw [decodeWire, takeClLens_encoded, eq_clLens_of_shape hsh]
    simp [List.length_flatMap, Nat.mul_comm]
  case cl s w e =>
    obtain ⟨-, rfl, he, rfl⟩ := eq_clInstr_of_shape hsh
    rw [decodeWire, decodeCl_encoded hk.1 hcode he]; simp
  case lit s w e => rw [decodeWire, decodeLit_encoded hk.1 hsh hcode]; simp
  case dist s w e => rw [decodeWire, decodeDist_encoded hk.1 hsh hcode]; simp

/-! ## Command words -/

/-- A word without bits above FLUSH is made of its two fields (R150). -/
theorem eq_commandWord {w : Word} (h : w.toNat / 128 = 0) : w = commandWord (w.toNat % 16) (w.toNat / 16 % 8) := by
  rw [commandWord, show w.toNat % 16 + 16 * (w.toNat / 16 % 8) = w.toNat by omega, BitVec.ofNat_toNat, BitVec.setWidth_eq]

/-- A word that selects a command is that command's word (R151, R152). -/
theorem shape_of_decodeCommand {w : Word} {i : Instr} (h : decodeCommand w = some i) : i.shape = .command w := by
  unfold decodeCommand at h
  dsimp only at h
  split at h
  · exact absurd h nofun
  next hhigh =>
  rw [eq_commandWord (not_not.1 hhigh)]
  generalize w.toNat % 16 = op at h ⊢
  generalize w.toNat / 16 % 8 = flush at h ⊢
  split at h
  · next hop =>
    subst hop
    split at h <;> cases h <;> rfl
  · split at h
    · exact absurd h nofun
    next hflush =>
    obtain rfl := not_not.1 hflush
    split at h <;> cases h <;> rfl

/-- Which words are illegal (R153), in the fields OP and FLUSH and the bits above them. -/
theorem decodeCommand_eq_none_iff {w : Word} : decodeCommand w = none ↔
    w.toNat % 16 = 0 ∨ 9 ≤ w.toNat % 16 ∨ 6 ≤ w.toNat / 16 % 8 ∨ (w.toNat / 16 % 8 ≠ 0 ∧ w.toNat % 16 ≠ 2) ∨
      w.toNat / 128 ≠ 0 := by
  unfold decodeCommand
  dsimp only
  have hop : w.toNat % 16 < 16 := Nat.mod_lt _ (by decide)
  have hflush : w.toNat / 16 % 8 < 8 := Nat.mod_lt _ (by decide)
  generalize w.toNat % 16 = op at hop ⊢
  generalize w.toNat / 16 % 8 = flush at hflush ⊢
  generalize w.toNat / 128 = high
  by_cases hhigh : high = 0
  · rw [if_neg (not_not.2 hhigh)]
    by_cases h2 : op = 2
    · rw [if_pos h2]
      interval_cases flush <;> simp [h2, hhigh]
    · rw [if_neg h2]
      by_cases hf : flush = 0
      · rw [if_neg (not_not.2 hf)]
        interval_cases op <;> simp [hf, hhigh] at h2 ⊢
      · rw [if_pos hf]; simp [hf, h2]
  · rw [if_pos hhigh]; simp [hhigh]

theorem decodeCommand_of_shape {w : Word} {i : Instr} (h : i.shape = .command w) : decodeCommand w = some i := by
  cases i <;> simp only [Instr.shape, reduceCtorEq, Shape.command.injEq] at h <;> subst h <;> rfl

/-! ## What is decoded -/

/-- The bits that decode to a code-length symbol are its code and its extra bits. -/
theorem encoded_of_decodeCl {c : Code} (h : c.Over 19) {bits : List Bool} {i : Instr} {n : Nat}
    (hd : decodeCl c bits = .element i n) :
    ∃ s w e, i.shape = .cl s w e ∧ bits.take n = c.bitsFor s ++ bitsOf w e ∧ (c.entry s).isSome = true := by
  unfold decodeCl at hd
  split at hd
  · exact absurd hd nofun
  · exact absurd hd nofun
  next s k hp =>
  obtain ⟨-, -, -, -, x, hx, rfl⟩ := peek_symbol_lengthOf h.1 hp
  split at hd
  · next e he =>
    cases hd
    refine ⟨_, _, e, ?_, take_code_and_extra h.1 hp he, (h.1.take_of_peek hp).2⟩
    rw [shape_clInstr (h.2 x hx), Nat.mod_eq_of_lt (takeField_eq_some_iff.1 he).1]
  · exact absurd hd nofun

theorem encoded_of_decodeLit {c : Code} (h : c.Over 288) {bits : List Bool} {i : Instr} {n : Nat}
    (hd : decodeLit c bits = .element i n) :
    ∃ s w e, i.shape = .lit s w e ∧ bits.take n = c.bitsFor s ++ bitsOf w e ∧ (c.entry s).isSome = true := by
  unfold decodeLit at hd
  split at hd
  · exact absurd hd nofun
  · exact absurd hd nofun
  next s k hp =>
  obtain ⟨-, -, -, -, x, hx, hxs⟩ := peek_symbol_lengthOf h.1 hp
  obtain ⟨htake, hentry⟩ := h.1.take_of_peek hp
  have hs : s < 288 := hxs ▸ h.2 x hx
  split at hd
  · next hlt =>
    cases hd
    exact ⟨s, 0, 0, by simp [Instr.shape, Nat.mod_eq_of_lt hlt], by simpa using htake, hentry⟩
  split at hd
  · next heob =>
    cases hd
    exact ⟨s, 0, 0, by rw [heob]; rfl, by simpa using htake, hentry⟩
  split at hd
  · next hlo heob hhi =>
    split at hd
    · next e he =>
      obtain ⟨hi, hn⟩ := WireResult.element.inj hd
      refine ⟨s, _, e, ?_, hn ▸ take_code_and_extra h.1 hp he, hentry⟩
      rw [← hi, shape_lengthInstr _ (by omega), Nat.mod_eq_of_lt (takeField_eq_some_iff.1 he).1, Nat.add_sub_cancel' (by omega)]
    · exact absurd hd nofun
  · next hhi =>
    cases hd
    exact ⟨s, 0, 0, shape_litlenReserved (by omega) hs, by simpa using htake, hentry⟩

theorem encoded_of_decodeDist {c : Code} (h : c.Over 32) {bits : List Bool} {i : Instr} {n : Nat}
    (hd : decodeDist c bits = .element i n) :
    ∃ s w e, i.shape = .dist s w e ∧ bits.take n = c.bitsFor s ++ bitsOf w e ∧ (c.entry s).isSome = true := by
  unfold decodeDist at hd
  split at hd
  · exact absurd hd nofun
  · exact absurd hd nofun
  next s k hp =>
  obtain ⟨-, -, -, -, x, hx, hxs⟩ := peek_symbol_lengthOf h.1 hp
  obtain ⟨htake, hentry⟩ := h.1.take_of_peek hp
  have hs : s < 32 := hxs ▸ h.2 x hx
  split at hd
  · next hlt =>
    split at hd
    · next e he =>
      cases hd
      refine ⟨s, _, e, ?_, take_code_and_extra h.1 hp he, hentry⟩
      rw [shape_distanceInstr s (by omega), Nat.mod_eq_of_lt (takeField_eq_some_iff.1 he).1]
    · exact absurd hd nofun
  · next hge =>
    cases hd
    exact ⟨s, 0, 0, shape_distanceReserved (by omega) hs, by simpa using htake, hentry⟩

/-- Two fields read one after the other. -/
theorem take_two_fields {m n v w : Nat} {bits : List Bool} (hv : takeField m bits = some v)
    (hw : takeField n (bits.drop m) = some w) : bits.take (m + n) = bitsOf m v ++ bitsOf n w := by
  rw [List.take_add, (takeField_eq_some_iff.1 hv).2.2, (takeField_eq_some_iff.1 hw).2.2]

theorem bitsOf_toNat_ofNat (n v : Nat) : bitsOf n (BitVec.ofNat n v).toNat = bitsOf n v := by
  rw [BitVec.toNat_ofNat, bitsOf_mod]

theorem encoded_of_decodeHeader {bits : List Bool} {i : Instr} {n : Nat} (hd : decodeWire .header bits = .element i n) :
    ∃ f t, i.shape = .header f t ∧ bits.take n = bitsOf 1 (if f then 1 else 0) ++ bitsOf 2 t.toNat := by
  rw [decodeWire] at hd
  split at hd
  · next f t hf ht =>
    cases hd
    have hf1 : f < 2 := (takeField_eq_some_iff.1 hf).1
    refine ⟨_, _, shape_headerInstr _ (takeField_eq_some_iff.1 ht).1, ?_⟩
    rw [bitsOf_toNat_ofNat, take_two_fields (n := 2) hf ht]
    interval_cases f <;> rfl
  · exact absurd hd nofun

theorem encoded_of_decodeStored {bits : List Bool} {i : Instr} {n : Nat} (hd : decodeWire .storedPair bits = .element i n) :
    ∃ l m, i.shape = .stored l m ∧ bits.take n = bitsOf 16 l.toNat ++ bitsOf 16 m.toNat := by
  rw [decodeWire] at hd
  split at hd
  · next l m hl hm =>
    cases hd
    refine ⟨_, _, rfl, ?_⟩
    rw [bitsOf_toNat_ofNat, bitsOf_toNat_ofNat]
    exact take_two_fields hl hm
  · exact absurd hd nofun

theorem encoded_of_decodeCounts {bits : List Bool} {i : Instr} {n : Nat} (hd : decodeWire .counts bits = .element i n) :
    ∃ a b x, i.shape = .counts a b x ∧ bits.take n = bitsOf 5 a.toNat ++ bitsOf 5 b.toNat ++ bitsOf 4 x.toNat := by
  rw [decodeWire] at hd
  split at hd
  · next a b x ha hb hx =>
    cases hd
    refine ⟨_, _, _, rfl, ?_⟩
    rw [bitsOf_toNat_ofNat, bitsOf_toNat_ofNat, bitsOf_toNat_ofNat, ← take_two_fields ha hb, List.take_add (i := 10) (j := 4),
      (takeField_eq_some_iff.1 hx).2.2]
  · exact absurd hd nofun

/-- What decodes to an instruction in its context begins with the instruction's encoding, and the code in force has its symbol. -/
theorem encoded_of_decodeWire {k : Codes} (hk : k.Proper) {ctx : WireContext} {bits : List Bool} {i : Instr} {n : Nat}
    (hd : decodeWire ctx bits = .element i n) (hctx : i.context k = some ctx) :
    bits.take n = encode k i ∧ i.hasCode k = true := by
  unfold encode Instr.hasCode
  unfold Instr.context at hctx
  cases ctx with
  | header =>
    obtain ⟨f, t, hsh, htake⟩ := encoded_of_decodeHeader hd
    simp only [hsh]; exact ⟨htake, trivial⟩
  | storedPair =>
    obtain ⟨l, m, hsh, htake⟩ := encoded_of_decodeStored hd
    simp only [hsh]; exact ⟨htake, trivial⟩
  | counts =>
    obtain ⟨a, b, x, hsh, htake⟩ := encoded_of_decodeCounts hd
    simp only [hsh]; exact ⟨htake, trivial⟩
  | clLens m =>
    rw [decodeWire] at hd
    split at hd
    · next vs hvs => cases hd; exact ⟨take_of_takeClLens hvs, rfl⟩
    · exact absurd hd nofun
  | clSymbol c =>
    cases hsh : i.shape <;> simp only [hsh, Option.some.injEq, reduceCtorEq, WireContext.clSymbol.injEq] at hctx
    subst hctx
    obtain ⟨s, w, e, hsh', htake, hentry⟩ := encoded_of_decodeCl hk.1 hd
    cases hsh.symm.trans hsh'
    exact ⟨htake, hentry⟩
  | litSymbol c =>
    cases hsh : i.shape <;> simp only [hsh, Option.some.injEq, reduceCtorEq, WireContext.litSymbol.injEq] at hctx
    subst hctx
    obtain ⟨s, w, e, hsh', htake, hentry⟩ := encoded_of_decodeLit hk.2.1 hd
    cases hsh.symm.trans hsh'
    exact ⟨htake, hentry⟩
  | distSymbol c =>
    cases hsh : i.shape <;> simp only [hsh, Option.some.injEq, reduceCtorEq, WireContext.distSymbol.injEq] at hctx
    subst hctx
    obtain ⟨s, w, e, hsh', htake, hentry⟩ := encoded_of_decodeDist hk.2.2 hd
    cases hsh.symm.trans hsh'
    exact ⟨htake, hentry⟩

/-! ## A step of the decoder -/

/-- No encoding is longer than nineteen code-length code lengths (R118). -/
theorem length_encode_le {k : Codes} {i : Instr} (hwf : i.wf = true) (hk : i.CodeProper k) : (encode k i).length ≤ 57 := by
  unfold Instr.CodeProper at hk
  unfold encode
  cases hsh : i.shape <;> simp only [hsh] at hk ⊢
  case clLens lens =>
    rw [eq_clLens_of_shape hsh, Instr.wf, decide_eq_true_eq] at hwf
    simp [List.length_flatMap]; omega
  case cl s w e =>
    have hlen := hk.1.lengthOf_le s
    obtain ⟨hs, rfl, -, -⟩ := eq_clInstr_of_shape hsh
    have hw : clExtra s ≤ 7 := by interval_cases s <;> decide
    simp; omega
  case lit s w e =>
    have hlen := hk.1.lengthOf_le s
    have hw : w ≤ 13 := by
      rcases cases_of_shape_lit hsh with ⟨-, rfl, -⟩ | ⟨-, rfl, -⟩ | ⟨-, -, hw, -⟩ | ⟨-, -, rfl, -⟩
      · exact Nat.zero_le _
      · exact Nat.zero_le _
      · exact hw ▸ lenExtra_le _
      · exact Nat.zero_le _
    simp; omega
  case dist s w e =>
    have hlen := hk.1.lengthOf_le s
    have hw : w ≤ 13 := by
      rcases cases_of_shape_dist hsh with ⟨-, rfl, -⟩ | ⟨-, -, rfl, -⟩
      · exact distExtra_le _
      · exact Nat.zero_le _
    simp; omega
  all_goals simp

namespace Machine

/-- A stream that begins with at most 64 bits: they are all in sight. -/
theorem DecRun.sight_of_stream {r : DecRun} {bits rest : List Bool} (h : r.stream = bits ++ rest) (hlen : bits.length ≤ 64) :
    ∃ rest', r.sight = bits ++ rest' := by
  have htotal := r.length_stream
  rw [h, List.length_append] at htotal
  rw [DecRun.sight_eq, h, List.take_append, List.take_of_length_le (by omega)]
  exact ⟨_, rfl⟩

/-- Where the decoder awaits an instruction's mode, it looks for the instruction's context (R311 to R343). -/
theorem State.At.next_eq_fetch {s : State} {d : Dec} {c p : Nat} {m : DecMode} {i : Instr} (h : s.At d c p m)
    (hm : i.mode = some m) (hwf : i.wf = true)
    (hlens : ∀ lens, i = .codeLengthCodeLengths lens → lens.length = d.ncode - d.have_)
    (hdue : m = .codeLens → d.have_ < d.nlen + d.ndist) :
    ∃ ctx, i.context d.codes = some ctx ∧
      (s.runAt d c p).next = .fetch (if m = .stored then (s.runAt d c p).byteBits else s.runAt d c p) ctx := by
  unfold Instr.mode at hm
  unfold Instr.context
  have hmode : (s.runAt d c p).d.mode = m := h.mode
  unfold DecRun.next
  cases hsh : i.shape <;> simp only [hsh, Option.some.injEq, reduceCtorEq] at hm <;> subst hm <;> simp only [hmode]
  case header f t => exact ⟨_, rfl, if_neg (by rw [show (s.runAt d c p).d.last = false from h.more rfl]; nofun)⟩
  case clLens lens =>
    have hi := eq_clLens_of_shape hsh
    have hlen := hlens lens hi
    rw [hi, Instr.wf, decide_eq_true_eq] at hwf
    exact ⟨_, rfl, (if_neg (by show ¬ d.ncode ≤ d.have_; omega)).trans (by rw [hlen]; rfl)⟩
  case cl => exact ⟨_, rfl, if_neg (Nat.not_le.2 (hdue rfl))⟩
  all_goals exact ⟨_, rfl, rfl⟩

/-- A decoder in order that awaits a symbol has a proper code for it (R66, R329). -/
theorem State.At.codeProper {s : State} {d : Dec} {c p : Nat} {m : DecMode} {i : Instr} (h : s.At d c p m)
    (hm : i.mode = some m) : i.CodeProper d.codes := by
  unfold Instr.mode at hm
  unfold Instr.CodeProper
  have hmode := h.mode
  cases hsh : i.shape <;> simp only [hsh, Option.some.injEq, reduceCtorEq] at hm ⊢ <;> subst hm
  case cl => obtain ⟨-, -, -, -, hcl, -⟩ := h.ok.codeLens hmode; exact hcl
  case lit => exact (h.ok.body (by rw [hmode]; decide)).1
  case dist => exact (h.ok.body (by rw [hmode]; decide)).2

theorem engineStep_decoding {s : State} {c p : Nat} (hphase : s.phase = .decoding c p) (hdev : s.bufferOnDevice = false) :
    engineStep s = decoderStep s := by
  rw [engineStep, hdev, hphase]; rfl

/-- A state action that finds an element executes it (R311). -/
theorem decoderStep_element {s : State} {d : Dec} {c p n : Nat} {r : DecRun} {ctx : WireContext} {i : Instr}
    (hs : s.stream = .dec d) (hp : s.phase = .decoding c p) (hnext : (s.runAt d c p).next = .fetch r ctx)
    (hd : decodeWire ctx r.sight = .element i n) : decoderStep s = execElement i s := by
  have hnext' : DecRun.next { d := d, io := s.io c p } = .fetch r ctx := hnext
  simp only [decoderStep, hs, hp, hnext', hd]

end Machine

end Sys2Proof

open Sys2Proof Sys2Proof.Machine

/-- Settles O13: a command's word decodes to it (`decodeCommand_of_shape`), an element's bits in its context (`decodeWire_encode`). -/
theorem encodingRoundTrip : Obligations.EncodingRoundTrip := by
  intro k i rest hk _ hcode
  refine ⟨fun w hw => ⟨by rw [encode, hw], decodeCommand_of_shape hw⟩, fun ctx hctx => ?_⟩
  exact decodeWire_encode (hk.codeProper i) hcode hctx rest

/-- Settles O14: by the kinds of word (`shape_of_decodeCommand`) and of element (`encoded_of_decodeWire`). -/
theorem decodedBitsAreTheEncoding : Obligations.DecodedBitsAreTheEncoding :=
  fun _ _ => ⟨fun _ hw => shape_of_decodeCommand hw, fun _ _ _ hk hd hctx => encoded_of_decodeWire hk hd hctx⟩

/-- Settles O10: the encoding is in sight (`DecRun.sight_of_stream`), where it decodes to its instruction, which the step executes. -/
theorem stepRunsTheEncodedElement : Obligations.StepRunsTheEncodedElement := by
  intro s d c p m i rest hat hq hdev hm hwf hcode hlens hdue hstream
  obtain ⟨ctx, hctx, hnext⟩ := hat.next_eq_fetch hm hwf hlens hdue
  have hk := hat.codeProper hm
  rw [← apply_ite DecRun.stream] at hstream
  obtain ⟨rest', hsight⟩ := DecRun.sight_of_stream hstream ((length_encode_le hwf hk).trans (by decide))
  have hd := decodeWire_encode hk hcode hctx rest'
  rw [← hsight] at hd
  have hcommand : ∀ w, i.shape ≠ .command w := fun w hw => by rw [Instr.mode, hw] at hm; exact absurd hm nofun
  rw [step_quiet hq (by rw [hat.phase]; nofun), engineStep_decoding hat.phase hdev,
    decoderStep_element hat.stream hat.phase hnext hd, execElement_eq_exec hcommand]

/-- Settles O11: the fields of R150 are the digits of the word (`decodeCommand_eq_none_iff`), and an illegal word is refused (R153). -/
theorem illegalCommandWord : Obligations.IllegalCommandWord := by
  intro w
  refine ⟨?_, fun hw s hphase hq hdev => ?_⟩
  · have hflush : w.extractLsb' 4 3 ≠ 0 ↔ w.toNat / 16 % 8 ≠ 0 := by
      rw [ne_eq, BitVec.toNat_eq]; simp [Nat.shiftRight_eq_div_pow]
    have hhigh : w.extractLsb' 7 25 ≠ 0 ↔ w.toNat / 128 ≠ 0 := by
      have := w.isLt
      rw [ne_eq, BitVec.toNat_eq]; simp [Nat.shiftRight_eq_div_pow]; omega
    rw [decodeCommand_eq_none_iff, hflush, hhigh]
    simp [Nat.shiftRight_eq_div_pow]
  · rw [step_quiet hq (by rw [hphase]; nofun), engineStep_command hphase hdev, runCommandWord, hw]
    exact congrArg _ s.refuseCommand_eq_invalid

/-- Settles O12: each word and each bit list is decoded. -/
theorem wordsOfTheSpecDecode : Obligations.WordsOfTheSpecDecode := by
  unfold Obligations.WordsOfTheSpecDecode
  decide +kernel
end

