-- ==== Sys2Proof/Proofs/AlphabetCodes.lean ====
section
/-! PROOF. Sys2Proof/Proofs/AlphabetCodes.lean: the entry of a symbol in a canonical code (R196), with it the fixed codes (R116, R117),
and the codes of lengths and distances (R121 to R123). -/

namespace Sys2Proof

open Machine

/-! ## Entries of canonical codes -/

/-- A symbol with a length has the code that its rank among the symbols of that length gives it; no other symbol has one (R196). -/
theorem entry_canonicalCode {lens : List Nat} (hl : ∀ l ∈ lens, l ≤ 15) (s : Nat) : (canonicalCode lens).entry s =
    if lens.getD s 0 = 0 then none
    else some { sym := s, len := lens.getD s 0, canon := firstCode lens (lens.getD s 0) + (lens.take s).count (lens.getD s 0) } := by
  cases hf : (canonicalCode lens).entry s with
  | some e =>
    obtain ⟨hmem, rfl⟩ := Code.mem_of_entry hf
    obtain ⟨hlt, hlen, hne, hcanon⟩ := (mem_canonicalCode hl e).1 hmem
    have hget : lens.getD e.sym 0 = e.len := by rw [List.getD_eq_getElem _ _ hlt, hlen]
    rw [hget, if_neg hne, ← hcanon]
  | none =>
    split
    · rfl
    · next hne =>
      have hlt : s < lens.length := by
        by_contra hge
        exact hne (List.getD_eq_default _ _ (Nat.le_of_not_lt hge))
      have hget := List.getD_eq_getElem lens 0 hlt
      have hmem := (mem_canonicalCode hl ⟨s, lens.getD s 0, firstCode lens (lens.getD s 0) +
        (lens.take s).count (lens.getD s 0)⟩).2 ⟨hlt, hget.symm, hne, rfl⟩
      exact absurd (List.find?_eq_none.1 hf _ hmem) (by simp)

/-! ## The fixed codes -/

theorem getD_fixedLitLengths (s : Nat) : fixedLitLengths.getD s 0 =
    if s < 144 then 8 else if s < 256 then 9 else if s < 280 then 7 else if s < 288 then 8 else 0 := by
  simp only [fixedLitLengths, List.getD_eq_getElem?_getD, List.getElem?_append, List.getElem?_replicate, List.length_append,
    List.length_replicate]
  split_ifs <;> simp <;> omega

theorem count_take_fixedLitLengths (s l : Nat) : (fixedLitLengths.take s).count l =
    (if l = 8 then min s 144 + min (s - 280) 8 else 0) + (if l = 9 then min (s - 144) 112 else 0) +
      (if l = 7 then min (s - 256) 24 else 0) := by
  simp only [fixedLitLengths, List.take_append, List.take_replicate, List.count_append, List.count_replicate, List.length_append,
    List.length_replicate, beq_iff_eq]
  split_ifs <;> omega

theorem firstCode_fixedLit : firstCode fixedLitLengths 7 = 0 ∧ firstCode fixedLitLengths 8 = 0x30 ∧
    firstCode fixedLitLengths 9 = 0x190 := by
  simp only [firstCode, blCount, fixedLitLengths, List.count_append, List.count_replicate]
  decide

/-- The fixed literal/length code, symbol by symbol (R116). -/
theorem entry_fixedLitCode (s : Nat) : fixedLitCode.entry s =
    if s < 144 then some { sym := s, len := 8, canon := 0x30 + s }
    else if s < 256 then some { sym := s, len := 9, canon := 0x190 + (s - 144) }
    else if s < 280 then some { sym := s, len := 7, canon := s - 256 }
    else if s < 288 then some { sym := s, len := 8, canon := 0xC0 + (s - 280) }
    else none := by
  obtain ⟨h7, h8, h9⟩ := firstCode_fixedLit
  rw [fixedLitCode, entry_canonicalCode fixedLitLengths_le, getD_fixedLitLengths, count_take_fixedLitLengths]
  split_ifs <;> simp_all <;> omega

/-- The fixed distance code (R117). -/
theorem entry_fixedDistCode (s : Nat) :
    fixedDistCode.entry s = if s < 32 then some { sym := s, len := 5, canon := s } else none := by
  have hfirst : firstCode fixedDistLengths 5 = 0 := by
    simp only [firstCode, blCount, fixedDistLengths, List.count_replicate]
    decide
  rw [fixedDistCode, entry_canonicalCode fixedDistLengths_le]
  by_cases hs : s < 32
  · have hget : fixedDistLengths.getD s 0 = 5 := by
      rw [fixedDistLengths, List.getD_eq_getElem?_getD, List.getElem?_replicate, if_pos hs]; rfl
    rw [hget, hfirst, if_pos hs, fixedDistLengths, List.take_replicate, List.count_replicate_self, Nat.min_eq_left hs.le,
      Nat.zero_add]
    rfl
  · rw [if_neg hs, if_pos]
    exact List.getD_eq_default _ _ (by simpa [fixedDistLengths] using hs)

/-! ## Lengths and distances -/

/-- A base and its extra values end before every later base, where each base begins when the values of the one before it end. -/
theorem base_add_le {bases widths : List Nat} {n c : Nat}
    (hstep : ∀ j < n, bases.getD (j + 1) 0 = bases.getD j 0 + 2 ^ widths.getD j 0) (hc : c < n) :
    bases.getD c 0 + 2 ^ widths.getD c 0 ≤ bases.getD n 0 := by
  induction n with
  | zero => exact absurd hc (Nat.not_lt_zero c)
  | succ n ih =>
    have hn := hstep n (Nat.lt_succ_self n)
    rcases Nat.lt_succ_iff_lt_or_eq.1 hc with hlt | rfl
    · exact (ih (fun j hj => hstep j (Nat.lt_succ_of_lt hj)) hlt).trans (hn ▸ Nat.le_add_right _ _)
    · exact hn.ge

/-- Where the bases with their extra values follow one another without a gap, a value has one base and one extra value (R123). -/
theorem base_unique {bases widths : List Nat} : ∀ {n v c e : Nat},
    (∀ j < n, bases.getD (j + 1) 0 = bases.getD j 0 + 2 ^ widths.getD j 0) → bases.getD 0 0 ≤ v →
    v < bases.getD n 0 + 2 ^ widths.getD n 0 →
    (c ≤ n ∧ e < 2 ^ widths.getD c 0 ∧ bases.getD c 0 + e = v ↔
      c = largestBase bases v n ∧ e = v - bases.getD (largestBase bases v n) 0)
  | 0, v, c, e, _, hlo, hhi => by
    rw [largestBase]
    constructor
    · rintro ⟨hc, -, rfl⟩
      obtain rfl := Nat.le_zero.1 hc
      exact ⟨rfl, by omega⟩
    · rintro ⟨rfl, rfl⟩
      exact ⟨Nat.le_refl 0, by omega, by omega⟩
  | n + 1, v, c, e, hstep, hlo, hhi => by
    have hn := hstep n (Nat.lt_succ_self n)
    have hstep' : ∀ j < n, bases.getD (j + 1) 0 = bases.getD j 0 + 2 ^ widths.getD j 0 := fun j hj => hstep j (Nat.lt_succ_of_lt hj)
    rw [largestBase]
    split
    · next hle =>
      constructor
      · rintro ⟨hc, he, rfl⟩
        have hcn : c = n + 1 := by
          by_contra hne
          have := base_add_le hstep (show c < n + 1 by omega)
          omega
        subst hcn
        exact ⟨rfl, by omega⟩
      · rintro ⟨rfl, rfl⟩
        exact ⟨Nat.le_refl _, by omega, by omega⟩
    · next hgt =>
      rw [← base_unique hstep' hlo (by omega)]
      refine ⟨fun ⟨hc, he, hv⟩ => ⟨?_, he, hv⟩, fun ⟨hc, he, hv⟩ => ⟨Nat.le_succ_of_le hc, he, hv⟩⟩
      by_contra hnot
      obtain rfl : c = n + 1 := by omega
      omega

/-- Length symbols below 285 leave no gap (R121). -/
theorem lenBase_step : ∀ j < 27, lenBase.getD (j + 1) 0 = lenBase.getD j 0 + 2 ^ lenExtra.getD j 0 := by decide

theorem distBase_step : ∀ j < 29, distBase.getD (j + 1) 0 = distBase.getD j 0 + 2 ^ distExtra.getD j 0 := by decide

/-- `lcode` below the longest match: the one length symbol below 285 that stands for it (R123). -/
theorem lcode_eq_iff {len : Nat} (hlo : 3 ≤ len) (hhi : len < 258) {c e : Nat} :
    lcode len = (257 + c, lenExtra.getD c 0, e) ↔ c ≤ 27 ∧ e < 2 ^ lenExtra.getD c 0 ∧ lenBase.getD c 0 + e = len := by
  rw [base_unique lenBase_step hlo (by exact Nat.lt_succ_of_lt hhi), lcode, if_neg hhi.ne]
  simp only [Prod.mk.injEq, Nat.add_left_cancel_iff]
  constructor
  · rintro ⟨rfl, -, rfl⟩; exact ⟨rfl, rfl⟩
  · rintro ⟨rfl, rfl⟩; exact ⟨rfl, rfl, rfl⟩

theorem le_lcode (len : Nat) : 257 ≤ (lcode len).1 := by
  unfold lcode
  split
  · decide
  · exact Nat.le_add_right _ _

/-- The longest match is symbol 285 with no extra bits, and no other symbol stands for it but 284 with extra value 31 (R121). -/
theorem lengthSymbol_of_longest {c e : Nat} (hc : c ≤ 28) (he : e < 2 ^ lenExtra.getD c 0) (hv : lenBase.getD c 0 + e = 258)
    (hne : ¬ (c = 27 ∧ e = 31)) : c = 28 ∧ e = 0 := by
  have hlast : lenBase.getD 27 0 = 227 := rfl
  have h28 : lenBase.getD 28 0 = 258 := rfl
  rcases Nat.lt_or_ge c 27 with hlt | hge
  · have := base_add_le lenBase_step hlt
    omega
  · obtain rfl | rfl : c = 27 ∨ c = 28 := by omega
    · omega
    · exact ⟨rfl, by omega⟩

/-- `dcode` gives the one distance symbol that stands for a distance (R123). -/
theorem dcode_eq_iff {dist : Nat} (hlo : 1 ≤ dist) (hhi : dist ≤ 32768) {d e : Nat} :
    dcode dist = (d, distExtra.getD d 0, e) ↔ d ≤ 29 ∧ e < 2 ^ distExtra.getD d 0 ∧ distBase.getD d 0 + e = dist := by
  rw [base_unique distBase_step hlo (by exact Nat.lt_succ_of_le hhi), dcode]
  simp only [Prod.mk.injEq]
  constructor
  · rintro ⟨rfl, -, rfl⟩; exact ⟨rfl, rfl⟩
  · rintro ⟨rfl, rfl⟩; exact ⟨rfl, rfl, rfl⟩

end Sys2Proof

open Sys2Proof Sys2Proof.Machine

/-- Settles O15: the entries of the two fixed codes, and the round trip of the reserved elements. -/
theorem fixedCodes : Obligations.FixedCodes := by
  refine ⟨entry_fixedLitCode, entry_fixedDistCode, fun b => ⟨?_, ?_⟩⟩
  · have hentry : (fixedLitCode.entry (if b then 287 else 286)).isSome = true := by rw [entry_fixedLitCode]; cases b <;> rfl
    have hlen : fixedLitCode.lengthOf (if b then 287 else 286) = 8 := by rw [Code.lengthOf, entry_fixedLitCode]; cases b <;> rfl
    have hdecode := decodeLit_encoded fixedLitCode_over.1 (i := .litlenReserved b) rfl hentry []
    rwa [hlen, bitsOf_zero, List.append_nil, List.append_nil] at hdecode
  · have hentry : (fixedDistCode.entry (if b then 31 else 30)).isSome = true := by rw [entry_fixedDistCode]; cases b <;> rfl
    have hlen : fixedDistCode.lengthOf (if b then 31 else 30) = 5 := by rw [Code.lengthOf, entry_fixedDistCode]; cases b <;> rfl
    have hdecode := decodeDist_encoded fixedDistCode_over.1 (i := .distanceReserved b) rfl hentry []
    rwa [hlen, bitsOf_zero, List.append_nil, List.append_nil] at hdecode

/-- Settles O18: lengths below 258 by `lcode_eq_iff`, where symbol 285 stands for 258 alone; distances by `dcode_eq_iff`. -/
theorem lengthAndDistanceCodes : Obligations.LengthAndDistanceCodes := by
  refine ⟨fun len hlo hhi s e => ?_, fun dist hlo hhi d e => dcode_eq_iff hlo hhi⟩
  rcases Nat.lt_or_ge s 257 with hs | hs
  · refine iff_of_false (fun h => ?_) (fun h => by omega)
    have := le_lcode len
    rw [h] at this
    exact absurd this (Nat.not_le.2 hs)
  obtain ⟨c, rfl⟩ := Nat.exists_eq_add_of_le hs
  rw [Nat.add_sub_cancel_left]
  simp only [ne_eq, Prod.mk.injEq]
  rcases Nat.lt_or_eq_of_le hhi with hlt | rfl
  · have h27 : lenBase.getD 27 0 = 227 := rfl
    have h28 : lenBase.getD 28 0 = 258 := rfl
    rw [lcode_eq_iff hlo hlt]
    constructor
    · rintro ⟨hc, he, hv⟩
      refine ⟨hs, by omega, he, hv, fun ⟨hc', he'⟩ => ?_⟩
      obtain rfl : c = 27 := by omega
      omega
    · rintro ⟨-, hc, he, hv, -⟩
      refine ⟨?_, he, hv⟩
      by_contra hnot
      obtain rfl : c = 28 := by omega
      omega
  · rw [lcode, if_pos rfl]
    simp only [Prod.mk.injEq]
    constructor
    · rintro ⟨hc, -, rfl⟩
      obtain rfl : c = 28 := by omega
      decide
    · rintro ⟨-, hc, he, hv, hne⟩
      obtain ⟨rfl, rfl⟩ := lengthSymbol_of_longest (by omega) he hv (by omega)
      exact ⟨rfl, rfl, rfl⟩
end

