-- ==== Sys2Proof/Proofs/AbandonedCommands.lean ====
section
/-! PROOF. Sys2Proof/Proofs/AbandonedCommands.lean: commands that are refused where the engine they need is not there or not in the right
state (R382, R425), and commands that a reset abandons (R452). -/

namespace Sys2Proof.Machine

open Sys2Proof

/-! ## Refused commands -/

section
variable {s : State}

theorem encStep_noEncoder (h : ∀ e, s.stream ≠ .enc e) (f : Flush) : encStep f s = .next s.refuseCommand := by
  unfold encStep
  split
  · next e he => exact absurd he (h e)
  · rfl

theorem execEncSetDict_noEncoder (h : ∀ e, s.stream ≠ .enc e) : execEncSetDict s = .next s.refuseCommand := by
  unfold execEncSetDict
  split
  · next e he => exact absurd he (h e)
  · rfl

theorem execDecStep_noDecoder (h : ∀ d, s.stream ≠ .dec d) : execDecStep s = .next s.refuseCommand := by
  unfold execDecStep
  split
  · next d hd => exact absurd hd (h d)
  · rfl

theorem execDecSetDict_noDecoder (h : ∀ d, s.stream ≠ .dec d) : execDecSetDict s = .next s.refuseCommand := by
  unfold execDecSetDict
  split
  · next d hd => exact absurd hd (h d)
  · rfl

theorem execDecSync_noDecoder (h : ∀ d, s.stream ≠ .dec d) : execDecSync s = .next s.refuseCommand := by
  unfold execDecSync
  split
  · next d hd => exact absurd hd (h d)
  · rfl

theorem execEndStream_noStream (h : s.stream = .none) : execEndStream s = .next s.refuseCommand := by
  rw [execEndStream, h]

/-- Once finishing, a step that is not a FINISH without input is refused (R388). -/
theorem encStep_notAllowed {e : Enc} (hs : s.stream = .enc e) {f : Flush} (hend : e.status = .finishing ∨ e.status = .done)
    (hf : f ≠ .finish ∨ s.inLen ≠ 0) : encStep f s = .next s.refuseCommand := by
  have hnot : encStepAllowed f e s.inLen = false := by
    rw [← Bool.not_eq_true, encStepAllowed_eq_true]
    exact fun h => hf.elim (fun hne => hne (h hend).1) fun hne => hne (h hend).2
  simp only [encStep, hs, hnot, Bool.not_false, if_true]

theorem execEncSetDict_started {e : Enc} (hs : s.stream = .enc e) (h : e.status ≠ .init) :
    execEncSetDict s = .next s.refuseCommand := by
  simp only [execEncSetDict, hs, if_pos h]

theorem execDecStep_searching {d : Dec} (hs : s.stream = .dec d) (h : d.mode = .sync) : execDecStep s = .next s.refuseCommand := by
  simp only [execDecStep, hs, if_pos h]

theorem execDecSetDict_started {d : Dec} (hs : s.stream = .dec d) (h : d.started = true ∨ d.mode ≠ .type) :
    execDecSetDict s = .next s.refuseCommand := by
  simp only [execDecSetDict, hs, if_pos h]

end

/-! ## Abandoned commands -/

/-- After a reset in mid-command a byte is as it was, or is an output byte of the command and as that would have left it (R452). -/
theorem read_abandonedMemory {old : Memory} (hold : old.wf = true) (ctr : Nat) (new : Memory) (base : Word) (a : Nat) : ∀ n,
    (abandonedMemory ctr old new base n).read a = old.read a ∨
      ((abandonedMemory ctr old new base n).read a = new.read a ∧ ∃ j < n, a = (base + BitVec.ofNat 32 j).toNat)
  | 0 => .inl rfl
  | n + 1 => by
    have ih : (abandonedMemory ctr old new base n).read a = old.read a ∨
        ((abandonedMemory ctr old new base n).read a = new.read a ∧ ∃ j < n + 1, a = (base + BitVec.ofNat 32 j).toNat) :=
      (read_abandonedMemory hold ctr new base a n).imp_right fun ⟨hread, j, hj, ha⟩ => ⟨hread, j, Nat.lt_succ_of_lt hj, ha⟩
    rw [abandonedMemory]
    split
    · rw [Memory.read_write (abandonedMemory_wf hold ctr new base n)]
      split
      · next ha => exact .inr ⟨by rw [ha], n, Nat.lt_succ_self n, ha⟩
      · exact ih
    · exact ih

/-- The DFC is as after power-on, with the parameters it had (R451). -/
def State.AfterReset (s t : State) : Prop :=
  t.cfg = 0x00000F06 ∧ t.inAddr = 0 ∧ t.inLen = 0 ∧ t.outAddr = 0 ∧ t.outLen = 0 ∧ t.totalIn = 0 ∧ t.totalOut = 0 ∧
    t.status = { result := .ok, subkind := 0, mode := 0, estate := 0 } ∧ t.stream = .none ∧ t.phase = .idle ∧ t.params = s.params

theorem State.afterReset_resetDfc (s : State) : s.AfterReset s.resetDfc :=
  ⟨rfl, rfl, rfl, rfl, rfl, rfl, rfl, rfl, rfl, rfl, rfl⟩

theorem State.afterReset_abandon (s : State) : s.AfterReset s.abandon := by
  unfold State.abandon
  split
  · split
    · exact s.afterReset_resetDfc
    · split
      · exact s.afterReset_resetDfc
      · exact s.afterReset_resetDfc
  · exact s.afterReset_resetDfc

/-- A reset in the middle of a command that would have answered a next state (R452). -/
theorem State.abandon_mem {s t : State} {w : Word} {i : Instr} (hphase : s.phase = .command w) (hw : decodeCommand w = some i)
    (ht : exec i s = .next t) :
    s.abandon.mem = abandonedMemory s.freeCtr s.mem t.mem s.outAddr (s.outLen - t.outLen).toNat := by
  simp only [State.abandon, hphase, hw, ht]

theorem hostAccess_reset_busy {s : State} (h : s.phase ≠ .idle) : hostAccess .reset s = .next s.abandon := by
  rw [hostAccess, State.busy_eq_true h]; rfl

theorem hostAccess_reset_idle {s : State} (h : s.phase = .idle) : hostAccess .reset s = .next s.resetDfc := by
  rw [hostAccess, State.busy_eq_false h]; rfl

end Sys2Proof.Machine

open Sys2Proof Sys2Proof.Machine

/-- Settles O23: each command looks for its engine, and at the engine's state, before it does anything. -/
theorem wrongStateIsRefused : Obligations.WrongStateIsRefused := by
  intro s
  rw [← State.refuseCommand_eq_invalid]
  refine ⟨fun h => ⟨fun f => ?_, execEncSetDict_noEncoder h⟩,
    fun h => ⟨execDecStep_noDecoder h, execDecSetDict_noDecoder h, execDecSync_noDecoder h⟩, execEndStream_noStream,
    fun e hs => ⟨fun f hend hf => ?_, execEncSetDict_started hs⟩, fun d hs => ⟨execDecStep_searching hs, execDecSetDict_started hs⟩⟩
  · exact (exec_stepInstr f s).trans (encStep_noEncoder h f)
  · exact (exec_stepInstr f s).trans (encStep_notAllowed hs hend hf)

/-- Settles O3: a reset of a busy machine abandons its command, whose output bytes are old or new (`read_abandonedMemory`). -/
theorem resetAbandonsTheCommand : Obligations.ResetAbandonsTheCommand := by
  intro s hmem
  by_cases hidle : s.phase = .idle
  · refine ⟨_, hostAccess_reset_idle hidle, s.afterReset_resetDfc, fun _ => rfl, fun _ _ _ => rfl, fun _ _ _ => rfl,
      fun w i u hphase => ?_⟩
    rw [hidle] at hphase
    exact absurd hphase nofun
  · refine ⟨_, hostAccess_reset_busy hidle, s.afterReset_abandon, fun h => absurd h hidle, fun c p hphase => ?_,
      fun w hphase hw => ?_, fun w i u hphase hw hu a => ?_⟩
    · simp only [State.abandon, hphase, State.resetDfc_mem]
    · simp only [State.abandon, hphase, hw, State.resetDfc_mem]
    · rw [State.abandon_mem hphase hw hu]
      exact read_abandonedMemory hmem _ _ _ _ _
end

