-- ==== Sys2Proof/Proofs/CodeLengthEntries.lean ====
section
/-! PROOF. Sys2Proof/Proofs/CodeLengthEntries.lean: the code-length symbols of a dynamic header (R326, R327) while lengths are still due
after them. -/

namespace Sys2Proof.Machine

open Sys2Proof

/-! ## Lists of code lengths -/

theorem setRun_zero (lens : List Nat) (k v : Nat) : setRun lens k 0 v = lens := by simp [setRun]

/-- A run begins with its first entry. -/
theorem setRun_set {lens : List Nat} {k : Nat} (hk : k < lens.length) (c v : Nat) :
    setRun (lens.set k v) (k + 1) c v = setRun lens k (c + 1) v := by
  have htake : (lens.set k v).take (k + 1) = lens.take k ++ [v] := by
    rw [List.take_succ_eq_append_getElem (by simpa using hk), List.take_set_of_le (Nat.le_refl k), List.getElem_set_self]
  have hdrop : (lens.set k v).drop (k + 1 + c) = lens.drop (k + (c + 1)) := by
    rw [List.drop_set_of_lt (by omega)]; congr 1; omega
  rw [setRun, htake, hdrop, setRun, List.replicate_succ]
  simp

/-- Writing a length over and over writes a run (R326). -/
theorem Dec.repeatLen_eq (v : Nat) : ∀ (n : Nat) {d : Dec}, d.have_ + n ≤ d.lens.length →
    Dec.repeatLen v n d = { d with lens := setRun d.lens d.have_ n v, have_ := d.have_ + n }
  | 0, d, _ => by rw [setRun_zero]; rfl
  | n + 1, d, h => by
    have ih := Dec.repeatLen_eq v n (d := { d.setLen d.have_ v with have_ := d.have_ + 1 })
      (by show d.have_ + 1 + n ≤ (d.lens.set d.have_ v).length; rw [List.length_set]; omega)
    have hlens : (d.setLen d.have_ v).lens = d.lens.set d.have_ v := rfl
    rw [Dec.repeatLen, ih]
    simp only [hlens, setRun_set (show d.have_ < d.lens.length by omega), Nat.add_assoc, Nat.add_comm 1 n]
    rfl

/-! ## Entries -/

theorem DecRun.dropBits_dropBits (r : DecRun) (a b : Nat) : (r.dropBits a).dropBits b = r.dropBits (a + b) := by
  simp only [DecRun.dropBits, Nat.shiftRight_add, Nat.sub_sub]

/-- The run with `count` lengths `v` written from `have` on (R326). -/
def DecRun.entered (count v : Nat) (r : DecRun) : DecRun :=
  { r with d := { r.d with lens := setRun r.d.lens r.d.have_ count v, have_ := r.d.have_ + count } }

/-- An entry after which lengths are still due leads to the next entry (R326). -/
theorem DecRun.afterEntry_repeatLen {r : DecRun} {count : Nat} (v : Nat) (hlens : r.d.have_ + count ≤ r.d.lens.length)
    (hdue : r.d.have_ + count < r.d.nlen + r.d.ndist) :
    (r.withDec (Dec.repeatLen v count r.d)).afterEntry = .go (r.entered count v) := by
  rw [Dec.repeatLen_eq v count hlens, DecRun.afterEntry, if_neg]
  · rfl
  · exact Nat.not_le.2 hdue

/-- An element whose action goes on leads to the next point of the DEC_STEP (R311). -/
theorem State.At.onElement_go {s : State} {d : Dec} {c p : Nat} {m : DecMode} (h : s.At d c p m) {f : DecRun → Act} {r : DecRun}
    (hf : f (s.runAt d c p) = .go r) : s.onElement m f = .next (s.point r) := by
  rw [h.onElement, hf]; rfl

section
variable {r : DecRun} {count : Nat} (hlens : r.d.have_ + count ≤ r.d.lens.length)
  (hdue : r.d.have_ + count < r.d.nlen + r.d.ndist)
include hlens hdue

/-- CL_LENGTH enters one length. -/
theorem DecRun.clLength_eq (hh : r.d.hold < 2 ^ r.d.bits) {len : Nat} (hcount : count = 1) (ho : r.offers (r.d.clcode.lengthOf len)) :
    r.clLength len = .go ((r.after (r.d.clcode.lengthOf len)).entered count len) := by
  subst hcount
  rw [DecRun.clLength, DecRun.needBits_of_offers hh ho]
  dsimp only
  rw [show (r.holding (r.pulls (r.d.clcode.lengthOf len))).d.clcode = r.d.clcode from rfl, DecRun.dropBits_holding ho]
  exact DecRun.afterEntry_repeatLen (r := r.after (r.d.clcode.lengthOf len)) len hlens hdue

/-- A repeat enters its run, once the code and the extra bits are consumed. -/
theorem DecRun.clRepeat_eq {k w : Nat} (v : Nat) (ho : r.offers (k + w)) :
    ((r.holding (r.pulls (k + w))).dropBits k).clRepeat w v count = .go ((r.after (k + w)).entered count v) := by
  rw [DecRun.clRepeat, DecRun.dropBits_dropBits, DecRun.dropBits_holding ho]
  exact (if_neg (Nat.not_lt.2 hdue.le)).trans (DecRun.afterEntry_repeatLen (r := r.after (k + w)) v hlens hdue)

theorem DecRun.clRepeatPrev_eq (hh : r.d.hold < 2 ^ r.d.bits) (hpos : 0 < r.d.have_) (ho : r.offers (r.d.clcode.lengthOf 16 + 2)) :
    r.clRepeatPrev count =
      .go ((r.after (r.d.clcode.lengthOf 16 + 2)).entered count (r.d.lens.getD (r.d.have_ - 1) 0)) := by
  rw [DecRun.clRepeatPrev, DecRun.needBits_of_offers hh ho]
  exact (if_neg hpos.ne').trans (DecRun.clRepeat_eq hlens hdue _ ho)

theorem DecRun.clRepeatZero_eq (hh : r.d.hold < 2 ^ r.d.bits) {sym : Nat} (ho : r.offers (r.d.clcode.lengthOf sym + clExtra sym)) :
    r.clRepeatZero sym count = .go ((r.after (r.d.clcode.lengthOf sym + clExtra sym)).entered count 0) := by
  rw [DecRun.clRepeatZero, DecRun.needBits_of_offers hh ho]
  exact DecRun.clRepeat_eq hlens hdue 0 ho

end

end Sys2Proof.Machine

open Sys2Proof Sys2Proof.Machine

/-- Settles O40: each symbol's action enters its run (`DecRun.clLength_eq`, `DecRun.clRepeatPrev_eq`, `DecRun.clRepeatZero_eq`). -/
theorem codeLengthSymbols : Obligations.CodeLengthSymbols := by
  intro s d c p i sym w v count hat hkind hdue ho
  have hh : (s.runAt d c p).d.hold < 2 ^ (s.runAt d c p).d.bits := hat.ok.hold
  have hlens : (s.runAt d c p).d.have_ + count ≤ (s.runAt d c p).d.lens.length := by
    obtain ⟨hnlen, hndist, -⟩ := hat.ok.codeLens hat.mode
    have h320 := hat.ok.lens.1
    show d.have_ + count ≤ d.lens.length
    omega
  rcases hkind with ⟨l, rfl, rfl, rfl, rfl, hcount⟩ | ⟨e, rfl, rfl, rfl, hpos, rfl, rfl⟩ | ⟨e, rfl, rfl, rfl, rfl, rfl⟩ |
    ⟨e, rfl, rfl, rfl, rfl, rfl⟩
  · exact hat.onElement_go (f := fun r => r.clLength l.toNat) (DecRun.clLength_eq hlens hdue hh hcount ho)
  · exact hat.onElement_go (f := fun r => r.clRepeatPrev (3 + e.toNat)) (DecRun.clRepeatPrev_eq hlens hdue hh hpos ho)
  · exact hat.onElement_go (f := fun r => r.clRepeatZero 17 (3 + e.toNat)) (DecRun.clRepeatZero_eq hlens hdue hh ho)
  · exact hat.onElement_go (f := fun r => r.clRepeatZero 18 (11 + e.toNat)) (DecRun.clRepeatZero_eq hlens hdue hh ho)
end

