-- ==== Sys2Proof/Proofs/MatchSymbols.lean ====
section
/-! PROOF. Sys2Proof/Proofs/MatchSymbols.lean: the length symbols (R121, R340, R342) and the distance symbols (R122, R343, R344) with
their extra bits, and the copy of a match from the history (R352). -/

namespace Sys2Proof.Machine

open Sys2Proof

/-! ## Symbols by shape -/

theorem exec_lengthSymbol {i : Instr} {c w e : Nat} (h : i.shape = .lit (257 + c) w e) (hc : c ≤ 28) (s : State) :
    exec i s = s.onElement .len fun r => r.lengthSym c e := by
  have hcommand : ∀ word, i.shape ≠ .command word := fun word hw => by rw [h] at hw; exact absurd hw nofun
  rw [← execElement_eq_exec hcommand, execElement_eq hcommand fun ls hl => by rw [h] at hl; exact absurd hl nofun, h]
  show s.onElement .len (actionOf (.lit (257 + c) w e)) = _
  congr 1
  funext r
  rw [actionOf, if_neg (by omega), if_neg (by omega), if_pos (by omega), Nat.add_sub_cancel_left]

theorem exec_distanceSymbol {i : Instr} {c w e : Nat} (h : i.shape = .dist c w e) (hc : c ≤ 29) (s : State) :
    exec i s = s.onElement .dist fun r => r.distanceSym c e := by
  have hcommand : ∀ word, i.shape ≠ .command word := fun word hw => by rw [h] at hw; exact absurd hw nofun
  rw [← execElement_eq_exec hcommand, execElement_eq hcommand fun ls hl => by rw [h] at hl; exact absurd hl nofun, h]
  show s.onElement .dist (actionOf (.dist c w e)) = _
  congr 1
  funext r
  rw [actionOf, if_pos (by omega)]

/-! ## Codes and extra bits -/

section
variable {s : State} {d : Dec} {c p : Nat} {m : DecMode} (h : s.At d c p m)
include h

theorem State.At.onElement_suspended {f : DecRun → Act} {res : Result} {r : DecRun} (hf : f (s.runAt d c p) = .stop res r)
    (hres : res ≠ .malformedStream) : s.onElement m f = .next (s.suspended r res) := by
  rw [h.onElement, hf, State.settle_stop, State.finish, Status.after_of_ne_malformed hres]
  rfl

theorem State.At.onElement_malformed {f : DecRun → Act} {k : Nat} {r : DecRun} (hf : f (s.runAt d c p) = r.raise k) :
    s.onElement m f = .next (s.malformed r k) := by
  rw [h.onElement, hf]; rfl

end

theorem DecRun.offers_add {r : DecRun} {a b : Nat} (ho : r.offers a) : (r.after a).offers b ↔ r.offers (a + b) := by
  refine ⟨fun h => ?_, DecRun.after_offers⟩
  have hpl : r.pulls a = (a - r.d.bits + 7) / 8 := rfl
  simp only [DecRun.offers, DecRun.after_bits, DecRun.after_io, Io.consume_availIn] at *
  omega

/-- All input pulled after the next `n` bits: those bits dropped from all input pulled (R181, R183). -/
theorem DecRun.drained_after {r : DecRun} {n : Nat} (ho : r.offers n) : (r.after n).drained = r.drained.dropBits n := by
  have hpulls := DecRun.pulls_le ho
  have hbits : (r.after n).d.bits + 8 * (r.after n).io.availIn = r.d.bits + 8 * r.io.availIn - n := by
    have hpl : r.pulls n = (n - r.d.bits + 7) / 8 := rfl
    rw [DecRun.after_bits, DecRun.after_io, Io.consume_availIn]; omega
  have hio : (r.after n).io.consume (r.after n).io.availIn = r.io.consume r.io.availIn := by
    rw [DecRun.after_io, Io.consume_availIn, Io.consume_consume, Nat.add_sub_cancel' hpulls]
  simp only [DecRun.drained, DecRun.dropBits, hbits, hio, DecRun.stream_after ho, natOfBits_drop]
  rfl

section
variable {r : DecRun} (hh : r.d.hold < 2 ^ r.d.bits)
include hh

theorem DecRun.takeLitSym_of_offers {sym : Nat} (ho : r.offers (r.d.lencode.lengthOf sym)) (rest : DecRun → Act) :
    r.takeLitSym sym rest = rest (r.after (r.d.lencode.lengthOf sym)) := by
  rw [DecRun.takeLitSym, DecRun.needBits_of_offers hh ho, ← DecRun.dropBits_holding ho]
  rfl

theorem DecRun.takeDistSym_of_offers {sym : Nat} (ho : r.offers (r.d.distcode.lengthOf sym)) (rest : DecRun → Act) :
    r.takeDistSym sym rest = rest (r.after (r.d.distcode.lengthOf sym)) := by
  rw [DecRun.takeDistSym, DecRun.needBits_of_offers hh ho, ← DecRun.dropBits_holding ho]
  rfl

theorem DecRun.takeLitSym_of_not_offers {sym : Nat} (ho : ¬ r.offers (r.d.lencode.lengthOf sym)) (rest : DecRun → Act) :
    r.takeLitSym sym rest = .stop .needMoreInput r.drained := DecRun.needBits_of_not_offers hh ho _

theorem DecRun.takeDistSym_of_not_offers {sym : Nat} (ho : ¬ r.offers (r.d.distcode.lengthOf sym)) (rest : DecRun → Act) :
    r.takeDistSym sym rest = .stop .needMoreInput r.drained := DecRun.needBits_of_not_offers hh ho _

/-- LENEXT with its extra bits (R342). -/
theorem DecRun.lenExt_of_offers (ho : r.offers r.d.extra) (e : Nat) : r.lenExt e =
    .go { r.after r.d.extra with d := { (r.after r.d.extra).d with length := r.d.length + e, mode := .dist } } := by
  rw [DecRun.lenExt, DecRun.needBits_of_offers hh ho, ← DecRun.dropBits_holding ho]
  rfl

theorem DecRun.lenExt_of_not_offers (ho : ¬ r.offers r.d.extra) (e : Nat) : r.lenExt e = .stop .needMoreInput r.drained :=
  DecRun.needBits_of_not_offers hh ho _

theorem DecRun.distExt_of_not_offers (ho : ¬ r.offers r.d.extra) (e : Nat) : r.distExt e = .stop .needMoreInput r.drained :=
  DecRun.needBits_of_not_offers hh ho _

/-- DISTEXT with its extra bits, for a distance behind the history (R344). -/
theorem DecRun.distExt_beyond (ho : r.offers r.d.extra) {e : Nat} (hfar : r.d.whave < r.d.offset + e) : r.distExt e =
    DecRun.raise 11 { r.after r.d.extra with d := { (r.after r.d.extra).d with offset := r.d.offset + e } } := by
  rw [DecRun.distExt, DecRun.needBits_of_offers hh ho, ← DecRun.dropBits_holding ho]
  exact if_pos hfar

/-- DISTEXT with its extra bits, for a distance within the history (R344). -/
theorem DecRun.distExt_within (ho : r.offers r.d.extra) {e : Nat} (hnear : r.d.offset + e ≤ r.d.whave) : r.distExt e =
    DecRun.copyMatch
      { r.after r.d.extra with d := { (r.after r.d.extra).d with offset := r.d.offset + e, mode := .copyMatch } } := by
  rw [DecRun.distExt, DecRun.needBits_of_offers hh ho, ← DecRun.dropBits_holding ho]
  exact if_neg (Nat.not_lt.2 hnear)

end

/-! ## Length symbols -/

section
variable {r : DecRun} (hh : r.d.hold < 2 ^ r.d.bits) (c e : Nat)
include hh

/-- Code and extra bits are there: the length is base plus extra, and the distance is next (R340, R342). -/
theorem DecRun.lengthSym_of_offers (ho : r.offers (r.d.lencode.lengthOf (257 + c) + lenExtra.getD c 0)) :
    let r' := r.after (r.d.lencode.lengthOf (257 + c) + lenExtra.getD c 0)
    r.lengthSym c e = .go { r' with d := { r'.d with
      length := lenBase.getD c 0 + e, extra := lenExtra.getD c 0, mode := .dist } } := by
  intro r'
  have hheld : ((r.after (r.d.lencode.lengthOf (257 + c))).lenBegin c).d.hold < 2 ^ _ := DecRun.after_hold_lt _
  rw [DecRun.lengthSym, DecRun.takeLitSym_of_offers hh (DecRun.offers_of_le ho (Nat.le_add_right _ _)),
    DecRun.lenExt_of_offers hheld (DecRun.after_offers ho), show r' = _ from (DecRun.after_after ho).symm]
  rfl

/-- Only the code is there: LENEXT awaits the extra bits (R342). -/
theorem DecRun.lengthSym_of_code (ho : r.offers (r.d.lencode.lengthOf (257 + c)))
    (hno : ¬ r.offers (r.d.lencode.lengthOf (257 + c) + lenExtra.getD c 0)) :
    r.lengthSym c e = .stop .needMoreInput ((r.drained.dropBits (r.d.lencode.lengthOf (257 + c))).lenBegin c) := by
  have hheld : ((r.after (r.d.lencode.lengthOf (257 + c))).lenBegin c).d.hold < 2 ^ _ := DecRun.after_hold_lt _
  rw [DecRun.lengthSym, DecRun.takeLitSym_of_offers hh ho,
    DecRun.lenExt_of_not_offers hheld ((DecRun.offers_add ho).not.2 hno), ← DecRun.drained_after ho]
  rfl

end

/-! ## Distance symbols -/

section
variable {r : DecRun} (hh : r.d.hold < 2 ^ r.d.bits) (c e : Nat)
include hh

/-- The run with a distance symbol and its extra bits consumed, and the distance known (R344). -/
def DecRun.atDistance (c e : Nat) (r : DecRun) : DecRun :=
  let r' := r.after (r.d.distcode.lengthOf c + distExtra.getD c 0)
  { r' with d := { r'.d with offset := distBase.getD c 0 + e, extra := distExtra.getD c 0 } }

/-- A distance that reaches behind the history (R344). -/
theorem DecRun.distanceSym_beyond (ho : r.offers (r.d.distcode.lengthOf c + distExtra.getD c 0))
    (hfar : r.d.whave < distBase.getD c 0 + e) :
    ∃ r', r.distanceSym c e = r'.raise 11 ∧ r' = { r.atDistance c e with d := { (r.atDistance c e).d with mode := .distExt } } := by
  have hheld : ((r.after (r.d.distcode.lengthOf c)).distBegin c).d.hold < 2 ^ _ := DecRun.after_hold_lt _
  rw [DecRun.distanceSym, DecRun.takeDistSym_of_offers hh (DecRun.offers_of_le ho (Nat.le_add_right _ _)),
    DecRun.distExt_beyond hheld (DecRun.after_offers ho) hfar, DecRun.atDistance, ← DecRun.after_after ho]
  exact ⟨_, rfl, rfl⟩

/-- A distance within the history: the match is copied (R344, R352). -/
theorem DecRun.distanceSym_within (ho : r.offers (r.d.distcode.lengthOf c + distExtra.getD c 0))
    (hnear : distBase.getD c 0 + e ≤ r.d.whave) :
    r.distanceSym c e = DecRun.copyMatch { r.atDistance c e with d := { (r.atDistance c e).d with mode := .copyMatch } } := by
  have hheld : ((r.after (r.d.distcode.lengthOf c)).distBegin c).d.hold < 2 ^ _ := DecRun.after_hold_lt _
  rw [DecRun.distanceSym, DecRun.takeDistSym_of_offers hh (DecRun.offers_of_le ho (Nat.le_add_right _ _)),
    DecRun.distExt_within hheld (DecRun.after_offers ho) hnear, DecRun.atDistance, ← DecRun.after_after ho]
  rfl

/-- Only the code is there: DISTEXT awaits the extra bits (R344). -/
theorem DecRun.distanceSym_of_code (ho : r.offers (r.d.distcode.lengthOf c))
    (hno : ¬ r.offers (r.d.distcode.lengthOf c + distExtra.getD c 0)) :
    r.distanceSym c e = .stop .needMoreInput ((r.drained.dropBits (r.d.distcode.lengthOf c)).distBegin c) := by
  have hheld : ((r.after (r.d.distcode.lengthOf c)).distBegin c).d.hold < 2 ^ _ := DecRun.after_hold_lt _
  rw [DecRun.distanceSym, DecRun.takeDistSym_of_offers hh ho,
    DecRun.distExt_of_not_offers hheld ((DecRun.offers_add ho).not.2 hno), ← DecRun.drained_after ho]
  rfl

end

/-! ## Copies from the history -/

/-- Going `o` entries back in a ring of `w` entries from entry `p`. -/
theorem ring_back {w p o : Nat} (hp : p < w) (ho : 1 ≤ o) (how : o ≤ w) :
    (p + w - o % w) % w = if o ≤ p then p - o else p + w - o := by
  rcases Nat.lt_or_eq_of_le how with hlt | rfl
  · rw [Nat.mod_eq_of_lt hlt]
    split
    · rw [show p + w - o = p - o + w by omega, Nat.add_mod_right, Nat.mod_eq_of_lt (by omega)]
    · exact Nat.mod_eq_of_lt (by omega)
  · rw [Nat.mod_self, Nat.sub_zero, Nat.add_mod_right, Nat.mod_eq_of_lt hp, if_neg (by omega), Nat.add_sub_cancel]

theorem ring_next {w p : Nat} (hp : p < w) : (p + 1) % w = if p + 1 = w then 0 else p + 1 := by
  split
  · next h => rw [h, Nat.mod_self]
  · exact Nat.mod_eq_of_lt (by omega)

/-- The window after a byte is written (R312): that byte where it went, and else what was there. -/
theorem Dec.winByte_remember {d : Dec} {k : Nat} (hnext : d.wnext < d.w) (hk : k < d.w) (b : Byte) :
    (d.remember b).winByte k = if k = d.wnext then b else d.winByte k := by
  have hget : Ram.get d.wbits (d.remember b).dwin k = if k = d.wnext then b.toNat + 1 else Ram.get d.wbits d.dwin k := by
    show Ram.get d.wbits (Ram.set d.wbits d.dwin d.wnext (b.toNat + 1)) k = _
    rw [Ram.get_set, show 2 ^ d.wbits = d.w from rfl, Nat.mod_eq_of_lt hk, Nat.mod_eq_of_lt hnext]
  unfold Dec.winByte
  rw [show (d.remember b).wbits = d.wbits from rfl, hget]
  split_ifs
  · simp
  · rfl

/-- The byte just written is one back, and what was `o` back is one farther (R312, R352). -/
theorem Dec.back_remember {d : Dec} {o : Nat} (hnext : d.wnext < d.w) (ho : 1 ≤ o) (how : o ≤ d.w) (hw : 1 < d.w) (b : Byte) :
    (d.remember b).back o = if o = 1 then b else d.back (o - 1) := by
  have hnow : (d.remember b).wnext = if d.wnext + 1 = d.w then 0 else d.wnext + 1 := ring_next hnext
  have hlt : (d.remember b).wnext < d.w := Nat.mod_lt _ (by omega)
  rw [Dec.back, show (d.remember b).w = d.w from rfl, ring_back hlt ho how, Dec.winByte_remember hnext (by split <;> omega)]
  by_cases h1 : o = 1
  · rw [if_pos h1, if_pos (by rw [hnow]; split_ifs <;> omega)]
  · rw [if_neg h1, if_neg (by rw [hnow]; split_ifs <;> omega), Dec.back, ring_back hnext (by omega) (by omega)]
    congr 1
    rw [hnow]
    split_ifs <;> omega

/-- A match is its first byte, then the match from where that byte is remembered (R352). -/
theorem Dec.matched_succ {d : Dec} {offset : Nat} (hnext : d.wnext < d.w) (hw : 1 < d.w) (ho : 1 ≤ offset) (how : offset ≤ d.w)
    (n : Nat) :
    d.matched offset (n + 1) = d.back offset :: (d.remember (d.back offset)).matched offset n := by
  rw [Dec.matched, List.range_succ_eq_map, List.map_cons, List.map_map, Nat.zero_mod, Nat.sub_zero, Dec.matched]
  congr 1
  refine List.map_congr_left fun j _ => ?_
  have hj := Nat.mod_lt j ho
  show d.back (offset - (j + 1) % offset) = (d.remember _).back (offset - j % offset)
  rw [Dec.back_remember hnext (by omega) (by omega) hw, ← Nat.mod_add_mod, ring_next hj]
  split_ifs
  · rfl
  · omega
  · omega
  · congr 1

/-- Remembering bytes neither reads nor writes the length that is still to be copied and the mode. -/
theorem Dec.rememberAll_with (l : Nat) (m : DecMode) : ∀ (bs : List Byte) (d : Dec),
    Dec.rememberAll bs { d with length := l, mode := m } = { Dec.rememberAll bs d with length := l, mode := m }
  | [], _ => rfl
  | b :: bs, d => Dec.rememberAll_with l m bs (d.remember b)

/-- MATCH's loop writes the first bytes of the match (R352). -/
theorem DecRun.matchBytes_eq (m : DecMode) : ∀ (n : Nat) {r : DecRun}, r.d.wnext < r.d.w → 1 < r.d.w → 1 ≤ r.d.offset →
    r.d.offset ≤ r.d.w →
    DecRun.matchBytes n { r with d := { r.d with mode := m } } =
      let r' := r.wrote (r.d.matched r.d.offset n)
      { r' with d := { r'.d with length := r.d.length - n, mode := m } }
  | 0, _, _, _, _, _ => rfl
  | n + 1, r, hnext, hw, ho, how => by
    set b := r.d.back r.d.offset with hb
    set bs := (r.d.remember b).matched r.d.offset n with hbs
    have ih := DecRun.matchBytes_eq m n (r := { d := { r.d.remember b with length := r.d.length - 1 }, io := r.io.outWrite b })
      (Nat.mod_lt _ (Nat.lt_of_succ_lt hw)) hw ho how
    have hwith := Dec.rememberAll_with (r.d.length - 1) r.d.mode bs (r.d.remember b)
    rw [Dec.matched_succ hnext hw ho how, ← hb, ← hbs, show r.d.length - (n + 1) = r.d.length - 1 - n by omega]
    refine ih.trans ?_
    show DecRun.mk { Dec.rememberAll bs { r.d.remember b with length := r.d.length - 1, mode := r.d.mode } with
      length := r.d.length - 1 - n, mode := m } (Io.outBytes bs (r.io.outWrite b)) = _
    rw [hwith]
    rfl

/-- MATCH: what there is space for is copied; the block body goes on, or the output is full (R352). -/
theorem State.settle_copyMatch (s : State) {r : DecRun} (hnext : r.d.wnext < r.d.w) (hw : 1 < r.d.w) (ho : 1 ≤ r.d.offset)
    (how : r.d.offset ≤ r.d.w) : s.settle (DecRun.copyMatch { r with d := { r.d with mode := .copyMatch } }) = s.afterMatch r := by
  rw [DecRun.copyMatch, State.afterMatch]
  dsimp only
  rw [DecRun.matchBytes_eq .copyMatch _ hnext hw ho how]
  dsimp only
  rcases Nat.lt_or_ge r.io.availOut r.d.length with hlt | hle
  · rw [if_neg (Nat.not_le.2 hlt), if_neg (by omega), Nat.min_eq_right hlt.le]
    rfl
  · rw [if_pos hle, Nat.min_eq_left hle, Nat.sub_self, if_pos rfl]
    rfl

end Sys2Proof.Machine

open Sys2Proof Sys2Proof.Machine

/-- Settles O44: the shape gives the table's width (`cases_of_shape_lit`), and the symbol's action has the three cases of R340 and
R342. -/
theorem lengthSymbols : Obligations.LengthSymbols := by
  intro s d c p i sym w e hat hshape hlo hhi
  have hh : (s.runAt d c p).d.hold < 2 ^ (s.runAt d c p).d.bits := hat.ok.hold
  obtain ⟨hw, he⟩ : w = lenExtra.getD (sym - 257) 0 ∧ e < 2 ^ w := by
    rcases cases_of_shape_lit hshape with h | h | ⟨-, -, hw, he, -⟩ | h
    · omega
    · omega
    · exact ⟨hw, he⟩
    · omega
  obtain ⟨q, rfl⟩ := Nat.exists_eq_add_of_le hlo
  rw [Nat.add_sub_cancel_left] at hw ⊢
  subst hw
  rw [exec_lengthSymbol hshape (by omega)]
  refine ⟨rfl, he, fun ho => ?_, fun ho hno => ?_, fun hno => ?_⟩
  · exact hat.onElement_go (f := fun r => r.lengthSym q e) (DecRun.lengthSym_of_offers hh q e ho)
  · exact hat.onElement_suspended (f := fun r => r.lengthSym q e) (DecRun.lengthSym_of_code hh q e ho hno) nofun
  · exact hat.onElement_suspended (f := fun r => r.lengthSym q e) (DecRun.takeLitSym_of_not_offers hh hno _) nofun

/-- Settles O45: as the length symbols; a distance within the history is at most the window (`Dec.Ok`), so MATCH copies from it
(`State.settle_copyMatch`). -/
theorem distanceSymbols : Obligations.DistanceSymbols := by
  intro s d c p i sym w e hat hshape hhi
  have hh : (s.runAt d c p).d.hold < 2 ^ (s.runAt d c p).d.bits := hat.ok.hold
  obtain ⟨hw, he⟩ : w = distExtra.getD sym 0 ∧ e < 2 ^ w := by
    rcases cases_of_shape_dist hshape with ⟨-, hw, he, -⟩ | h
    · exact ⟨hw, he⟩
    · omega
  subst hw
  rw [exec_distanceSymbol hshape hhi]
  refine ⟨rfl, he, fun ho => ⟨fun hnear => ?_, fun hfar => ?_⟩, fun ho hno => ?_, fun hno => ?_⟩
  · have hbase : 1 ≤ distBase.getD sym 0 := by interval_cases sym <;> decide
    have hwindow : 1 < d.w := Nat.one_lt_two_pow (by have := hat.ok.wbits; omega)
    rw [hat.onElement, DecRun.distanceSym_within hh sym e ho hnear]
    exact congrArg _ (s.settle_copyMatch (r := (s.runAt d c p).atDistance sym e) hat.ok.wnext hwindow
      (hbase.trans (Nat.le_add_right _ _)) (hnear.trans hat.ok.whave))
  · obtain ⟨r, hr, hat'⟩ := DecRun.distanceSym_beyond hh sym e ho hfar
    refine (hat.onElement_malformed (f := fun r => r.distanceSym sym e) hr).trans ?_
    rw [hat']
    rfl
  · exact hat.onElement_suspended (f := fun r => r.distanceSym sym e) (DecRun.distanceSym_of_code hh sym e ho hno) nofun
  · exact hat.onElement_suspended (f := fun r => r.distanceSym sym e) (DecRun.takeDistSym_of_not_offers hh hno _) nofun
end

