-- ==== Sys2Proof/Proofs/ScannedLengths.lean ====
section
/-! PROOF. Sys2Proof/Proofs/ScannedLengths.lean: the code-length symbols that `scan_tree` sends stand for just the lengths it scanned
(43_block_encoder.md R263, R120). -/

namespace Sys2Proof.Machine

open Sys2Proof

/-! ## Runs -/

/-- `max_count` and `min_count` of a run of the length `cur` after the length `p` (R263). -/
def runLimits (p : Option Nat) (cur : Nat) : Nat × Nat := if cur = 0 then (138, 3) else if p = some cur then (6, 3) else (7, 4)

theorem runLimits_pos (p : Option Nat) (cur : Nat) : 0 < (runLimits p cur).1 := by
  unfold runLimits
  split
  · decide
  · split <;> decide

/-- A code-length symbol of the alphabet with the width of its extra bits and a value that fits them (R120). -/
abbrev ClSym.Fits (x : ClSym) : Prop := x.sym ≤ 18 ∧ x.width = clExtra x.sym ∧ x.extra < 2 ^ x.width

theorem ClSym.fits_length {cur : Nat} (h : cur ≤ 15) : ClSym.Fits { sym := cur, width := 0, extra := 0 } := by
  refine ⟨by show cur ≤ 18; omega, ?_, Nat.one_pos⟩
  show 0 = clExtra cur
  rw [clExtra, if_neg (by omega), if_neg (by omega), if_neg (by omega)]

/-- What is sent for a run: its lengths one by one, the length and repeats of it, repeats of the length before, or zeros (R263). -/
theorem scanRun_cases (p : Option Nat) (cur count : Nat) :
    (count < (runLimits p cur).2 ∧
      scanRun p cur count (runLimits p cur).2 = List.replicate count { sym := cur, width := 0, extra := 0 }) ∨
    (p ≠ some cur ∧ 4 ≤ count ∧ (runLimits p cur).1 = 7 ∧ scanRun p cur count (runLimits p cur).2 =
      [{ sym := cur, width := 0, extra := 0 }, { sym := 16, width := 2, extra := count - 1 - 3 }]) ∨
    (p = some cur ∧ 3 ≤ count ∧ (runLimits p cur).1 = 6 ∧
      scanRun p cur count (runLimits p cur).2 = [{ sym := 16, width := 2, extra := count - 3 }]) ∨
    (cur = 0 ∧ 3 ≤ count ∧ count ≤ 10 ∧
      scanRun p cur count (runLimits p cur).2 = [{ sym := 17, width := 3, extra := count - 3 }]) ∨
    (cur = 0 ∧ 11 ≤ count ∧ (runLimits p cur).1 = 138 ∧
      scanRun p cur count (runLimits p cur).2 = [{ sym := 18, width := 7, extra := count - 11 }]) := by
  by_cases hmin : count < (runLimits p cur).2
  · exact .inl ⟨hmin, if_pos hmin⟩
  rw [scanRun, if_neg hmin]
  by_cases h0 : cur = 0
  · have hl : runLimits p cur = (138, 3) := if_pos h0
    rw [hl] at hmin ⊢
    rw [if_neg (not_not.2 h0)]
    by_cases h10 : count ≤ 10
    · exact .inr (.inr (.inr (.inl ⟨h0, Nat.not_lt.1 hmin, h10, if_pos h10⟩)))
    · exact .inr (.inr (.inr (.inr ⟨h0, Nat.not_le.1 h10, rfl, if_neg h10⟩)))
  rw [if_pos h0]
  by_cases hp : p = some cur
  · have hl : runLimits p cur = (6, 3) := by rw [runLimits, if_neg h0, if_pos hp]
    rw [hl] at hmin ⊢
    exact .inr (.inr (.inl ⟨hp, Nat.not_lt.1 hmin, rfl, if_neg (not_not.2 hp)⟩))
  · have hl : runLimits p cur = (7, 4) := by rw [runLimits, if_neg h0, if_neg hp]
    rw [hl] at hmin ⊢
    exact .inr (.inl ⟨hp, Nat.not_lt.1 hmin, rfl, if_pos hp⟩)

theorem scanRun_fits {p : Option Nat} {cur count : Nat} (hcur : cur ≤ 15) (hcount : count ≤ (runLimits p cur).1) :
    ∀ x ∈ scanRun p cur count (runLimits p cur).2, x.Fits := by
  intro x hx
  rcases scanRun_cases p cur count with ⟨-, h⟩ | ⟨-, -, hmax, h⟩ | ⟨-, -, hmax, h⟩ | ⟨-, -, hmax, h⟩ | ⟨-, -, hmax, h⟩ <;> rw [h] at hx
  · rw [List.eq_of_mem_replicate hx]; exact ClSym.fits_length hcur
  · rcases List.mem_cons.1 hx with rfl | hx
    · exact ClSym.fits_length hcur
    · rw [List.mem_singleton.1 hx]; exact ⟨(by decide : 16 ≤ 18), rfl, by show count - 1 - 3 < 4; omega⟩
  · rw [List.mem_singleton.1 hx]; exact ⟨(by decide : 16 ≤ 18), rfl, by show count - 3 < 4; omega⟩
  · rw [List.mem_singleton.1 hx]; exact ⟨(by decide : 17 ≤ 18), rfl, by show count - 3 < 8; omega⟩
  · rw [List.mem_singleton.1 hx]; exact ⟨(by decide : 18 ≤ 18), rfl, by show count - 11 < 128; omega⟩

/-- No repeat is sent first. -/
theorem scanRun_none_head {cur count : Nat} (hcur : cur ≤ 15) (hcount : 0 < count) :
    ∃ x xs, scanRun none cur count (runLimits none cur).2 = x :: xs ∧ x.sym ≠ 16 := by
  rcases scanRun_cases none cur count with ⟨-, h⟩ | ⟨-, -, -, h⟩ | ⟨hp, -⟩ | ⟨-, -, -, h⟩ | ⟨-, -, -, h⟩
  · obtain ⟨n, rfl⟩ := Nat.exists_eq_succ_of_ne_zero hcount.ne'
    exact ⟨_, _, h, by show cur ≠ 16; omega⟩
  · exact ⟨_, _, h, by show cur ≠ 16; omega⟩
  · exact absurd hp nofun
  · exact ⟨_, _, h, (by decide : 17 ≠ 16)⟩
  · exact ⟨_, _, h, (by decide : 18 ≠ 16)⟩

/-! ## Expansion -/

theorem ClSym.expand_length {s : Nat} (h : s ≤ 15) (w e : Nat) (done : List Nat) : ClSym.expand ⟨s, w, e⟩ done = [s] :=
  if_pos (Nat.lt_succ_of_le h)

theorem ClSym.expand_repeatPrev (w e : Nat) (done : List Nat) :
    ClSym.expand ⟨16, w, e⟩ done = List.replicate (3 + e) (done.getLastD 0) := rfl

theorem ClSym.expand_zerosShort (w e : Nat) (done : List Nat) : ClSym.expand ⟨17, w, e⟩ done = List.replicate (3 + e) 0 := rfl

theorem ClSym.expand_zerosLong (w e : Nat) (done : List Nat) : ClSym.expand ⟨18, w, e⟩ done = List.replicate (11 + e) 0 := rfl

theorem expandAll_append (xs ys : List ClSym) (done : List Nat) : expandAll (xs ++ ys) done = expandAll ys (expandAll xs done) := by
  induction xs generalizing done with
  | nil => rfl
  | cons x xs ih => exact ih _

theorem expandAll_replicate {cur : Nat} (h : cur ≤ 15) (count : Nat) (done : List Nat) :
    expandAll (List.replicate count { sym := cur, width := 0, extra := 0 }) done = done ++ List.replicate count cur := by
  induction count generalizing done with
  | zero => simp [expandAll]
  | succ n ih =>
    rw [List.replicate_succ, expandAll, ih, ClSym.expand_length h, List.append_assoc]
    rfl

theorem getLastD_append_replicate (done : List Nat) (n v : Nat) : (done ++ List.replicate (n + 1) v).getLastD 0 = v := by
  rw [List.replicate_succ', ← List.append_assoc, List.getLastD_concat]

/-- The symbols of a run stand for the run, where the length before it is the one `scan_tree` remembers. -/
theorem expandAll_scanRun {p : Option Nat} {cur : Nat} {done : List Nat} (hcur : cur ≤ 15) (count : Nat)
    (hp : ∀ v, p = some v → done.getLastD 0 = v) :
    expandAll (scanRun p cur count (runLimits p cur).2) done = done ++ List.replicate count cur := by
  rcases scanRun_cases p cur count with ⟨-, h⟩ | ⟨-, hc, -, h⟩ | ⟨hpc, hc, -, h⟩ | ⟨rfl, hc, -, h⟩ | ⟨rfl, hc, -, h⟩ <;> rw [h]
  · exact expandAll_replicate hcur count done
  · obtain ⟨n, rfl⟩ := Nat.exists_eq_add_of_le hc
    rw [expandAll, ClSym.expand_length hcur, expandAll, expandAll, ClSym.expand_repeatPrev, List.getLastD_concat, List.append_assoc, show 3 + (4 + n - 1 - 3) = 3 + n by omega, show 4 + n = 3 + n + 1 by omega]
    rfl
  · rw [expandAll, expandAll, ClSym.expand_repeatPrev, hp cur hpc, Nat.add_sub_cancel' hc]
  · rw [expandAll, expandAll, ClSym.expand_zerosShort, Nat.add_sub_cancel' hc]
  · rw [expandAll, expandAll, ClSym.expand_zerosLong, Nat.add_sub_cancel' hc]

/-! ## The scan -/

/-- One length of the scan: the run goes on, or it is sent and the next one begins with its own limits (R263). -/
theorem scanFrom_cons (p : Option Nat) (count cur : Nat) (rest : List Nat) :
    (count + 1 < (runLimits p cur).1 ∧ rest.head? = some cur ∧
      scanFrom p count (runLimits p cur).1 (runLimits p cur).2 (cur :: rest) =
        scanFrom p (count + 1) (runLimits p cur).1 (runLimits p cur).2 rest) ∨
    ∃ sent, scanFrom p count (runLimits p cur).1 (runLimits p cur).2 (cur :: rest) =
        scanRun p cur (count + 1) (runLimits p cur).2 ++ sent ∧ (rest = [] → sent = []) ∧
      ∀ next more, rest = next :: more →
        sent = scanFrom (some cur) 0 (runLimits (some cur) next).1 (runLimits (some cur) next).2 rest := by
  rw [scanFrom]
  by_cases hgo : count + 1 < (runLimits p cur).1 ∧ rest.head? = some cur
  · exact .inl ⟨hgo.1, hgo.2, if_pos hgo⟩
  · refine .inr ⟨_, if_neg hgo, fun hnil => by rw [hnil]; rfl, ?_⟩
    rintro next more rfl
    simp [runLimits, eq_comm]

/-- The scan from a length on, `count` equal ones before it being not yet sent, stands for these and the rest. -/
theorem expandAll_scanFrom : ∀ (rest : List Nat) {p : Option Nat} {count cur : Nat} {done : List Nat}, (∀ l ∈ cur :: rest, l ≤ 15) →
    (∀ v, p = some v → done.getLastD 0 = v) →
    expandAll (scanFrom p count (runLimits p cur).1 (runLimits p cur).2 (cur :: rest)) done =
      done ++ List.replicate count cur ++ cur :: rest := by
  intro rest
  induction rest with
  | nil =>
    intro p count cur done hl hp
    rcases scanFrom_cons p count cur [] with ⟨-, hhead, -⟩ | ⟨sent, h, hnil, -⟩
    · exact absurd hhead nofun
    · rw [h, hnil rfl, List.append_nil, expandAll_scanRun (hl cur List.mem_cons_self) _ hp, List.replicate_succ', List.append_assoc]
  | cons next more ih =>
    intro p count cur done hl hp
    have hrest : ∀ l ∈ next :: more, l ≤ 15 := fun l hm => hl l (List.mem_cons_of_mem _ hm)
    rcases scanFrom_cons p count cur (next :: more) with ⟨-, hhead, h⟩ | ⟨sent, h, -, hsent⟩
    · obtain rfl : next = cur := Option.some.inj hhead
      rw [h, ih hrest hp, List.replicate_succ']
      simp
    · rw [h, hsent next more rfl, expandAll_append, expandAll_scanRun (hl cur List.mem_cons_self) _ hp, ih hrest, List.replicate_succ']
      · simp
      · rintro v ⟨⟩
        exact getLastD_append_replicate done count cur

theorem scanFrom_fits : ∀ (rest : List Nat) {p : Option Nat} {count cur : Nat}, (∀ l ∈ cur :: rest, l ≤ 15) →
    count < (runLimits p cur).1 → ∀ x ∈ scanFrom p count (runLimits p cur).1 (runLimits p cur).2 (cur :: rest), x.Fits := by
  intro rest
  induction rest with
  | nil =>
    intro p count cur hl hcount x hx
    rcases scanFrom_cons p count cur [] with ⟨-, hhead, -⟩ | ⟨sent, h, hnil, -⟩
    · exact absurd hhead nofun
    · rw [h, hnil rfl, List.append_nil] at hx
      exact scanRun_fits (hl cur List.mem_cons_self) hcount x hx
  | cons next more ih =>
    intro p count cur hl hcount x hx
    have hrest : ∀ l ∈ next :: more, l ≤ 15 := fun l hm => hl l (List.mem_cons_of_mem _ hm)
    rcases scanFrom_cons p count cur (next :: more) with ⟨hlt, hhead, h⟩ | ⟨sent, h, -, hsent⟩
    · obtain rfl : next = cur := Option.some.inj hhead
      rw [h] at hx
      exact ih hrest hlt x hx
    · rw [h, hsent next more rfl] at hx
      rcases List.mem_append.1 hx with hx | hx
      · exact scanRun_fits (hl cur List.mem_cons_self) hcount x hx
      · exact ih hrest (runLimits_pos _ _) x hx

theorem scanFrom_none_head : ∀ (rest : List Nat) {count cur : Nat}, cur ≤ 15 →
    ∀ x, (scanFrom none count (runLimits none cur).1 (runLimits none cur).2 (cur :: rest)).head? = some x → x.sym ≠ 16 := by
  intro rest
  induction rest with
  | nil =>
    intro count cur hcur x hx
    rcases scanFrom_cons none count cur [] with ⟨-, hhead, -⟩ | ⟨sent, h, -⟩
    · exact absurd hhead nofun
    · obtain ⟨y, ys, hrun, hy⟩ := scanRun_none_head hcur (Nat.succ_pos count)
      rw [h, hrun] at hx
      cases hx
      exact hy
  | cons next more ih =>
    intro count cur hcur x hx
    rcases scanFrom_cons none count cur (next :: more) with ⟨-, hhead, h⟩ | ⟨sent, h, -⟩
    · obtain rfl : next = cur := Option.some.inj hhead
      exact ih hcur x (h ▸ hx)
    · obtain ⟨y, ys, hrun, hy⟩ := scanRun_none_head hcur (Nat.succ_pos count)
      rw [h, hrun] at hx
      cases hx
      exact hy

/-- `scan_tree` sends nothing for no lengths, and else scans from the first one on with its limits. -/
theorem scanTree_cases (t : Tree) : (t.len.take (t.maxCode + 1) = [] ∧ scanTree t = []) ∨
    ∃ cur rest, t.len.take (t.maxCode + 1) = cur :: rest ∧
      scanTree t = scanFrom none 0 (runLimits none cur).1 (runLimits none cur).2 (cur :: rest) := by
  cases h : t.len.take (t.maxCode + 1) with
  | nil => exact .inl ⟨rfl, by simp only [scanTree, h]; rfl⟩
  | cons cur rest =>
    refine .inr ⟨cur, rest, rfl, ?_⟩
    simp only [scanTree, h, runLimits, List.head?_cons, Option.some.injEq]
    split <;> rfl

theorem scanTree_fits {t : Tree} (ht : ∀ l ∈ t.len, l ≤ 15) : ∀ x ∈ scanTree t, x.Fits := by
  rcases scanTree_cases t with ⟨-, h⟩ | ⟨cur, rest, hlens, h⟩ <;> rw [h]
  · exact fun x hx => absurd hx List.not_mem_nil
  · exact scanFrom_fits rest (fun l hl => ht l (List.mem_of_mem_take (hlens ▸ hl))) (runLimits_pos _ _)

end Sys2Proof.Machine

open Sys2Proof Sys2Proof.Machine

/-- Settles O54: by induction on the lengths still to scan, with the run that is not yet sent. -/
theorem scannedLengthsExpandBack : Obligations.ScannedLengthsExpandBack := by
  intro t ht
  refine ⟨?_, scanTree_fits ht, ?_⟩ <;>
    rcases scanTree_cases t with ⟨hlens, h⟩ | ⟨cur, rest, hlens, h⟩ <;> rw [h]
  · exact hlens.symm
  · rw [expandAll_scanFrom (p := none) rest (fun l hl => ht l (List.mem_of_mem_take (hlens ▸ hl))) nofun, hlens]
    rfl
  · exact fun x hx => absurd hx nofun
  · exact scanFrom_none_head rest (ht cur (List.mem_of_mem_take (hlens ▸ List.mem_cons_self)))
end

