-- ==== Sys2Proof/Proofs/WrittenBits.lean ====
section
/-! PROOF. Sys2Proof/Proofs/WrittenBits.lean: what each operation of the bit writer appends to its stream (40_bitio.md R170 to R177),
and that a code sent reversed is the symbol's code in stream order (41_huffman.md R196). -/

namespace Sys2Proof

open Machine

/-! ## Fields inside wider words -/

theorem bitsOf_mod_of_le {m n : Nat} (h : m ≤ n) (v : Nat) : bitsOf m (v % 2 ^ n) = bitsOf m v := by
  rw [← take_bitsOf h, bitsOf_mod, take_bitsOf h]

/-- Bits above a value's own are zeros. -/
theorem bitsOf_add_of_lt {m v : Nat} (n : Nat) (h : v < 2 ^ m) : bitsOf (m + n) v = bitsOf m v ++ List.replicate n false := by
  rw [bitsOf_add, Nat.div_eq_of_lt h, bitsOf_zero_value]

/-- A value put above the held bits of a 16-bit buffer follows them. -/
theorem bitsOf_or_shiftLeft_word {b n : Nat} {buf : BitVec 16} (v : Nat) (hbuf : buf.toNat < 2 ^ b) (hn : b + n ≤ 16) :
    bitsOf (b + n) (buf ||| (BitVec.ofNat 16 v <<< b)).toNat = bitsOf b buf.toNat ++ bitsOf n v := by
  have hword : (buf ||| (BitVec.ofNat 16 v <<< b)).toNat = (buf.toNat ||| ((v % 2 ^ 16) <<< b)) % 2 ^ 16 := by
    rw [BitVec.toNat_or, BitVec.toNat_shiftLeft, BitVec.toNat_ofNat, Nat.or_mod_two_pow, Nat.mod_eq_of_lt buf.isLt]
  rw [hword, bitsOf_mod_of_le hn, bitsOf_or_shiftLeft n _ hbuf, bitsOf_mod_of_le (by omega)]

/-- The two bytes of a 16-bit word, low byte first. -/
theorem bitsOf_word (v : BitVec 16) :
    bitsOf 16 v.toNat = bitsOf 8 (v.setWidth 8).toNat ++ bitsOf 8 ((v >>> 8).setWidth 8).toNat := by
  rw [BitVec.toNat_setWidth, BitVec.toNat_setWidth, bitsOf_mod, bitsOf_mod, BitVec.toNat_ushiftRight, Nat.shiftRight_eq_div_pow]
  exact bitsOf_add 8 8 _

/-! ## Entries -/

theorem Code.entry_cons (e : CodeEntry) (es : Code) (s : Nat) :
    Code.entry (e :: es) s = if e.sym = s then some e else Code.entry es s := by
  by_cases h : e.sym = s <;> simp [Code.entry, h]

theorem Code.entry_eq_none_of_lt {c : Code} {s : Nat} (h : ∀ e ∈ c, s < e.sym) : c.entry s = none :=
  List.find?_eq_none.2 fun e he => by simpa using (h e he).ne'

namespace Machine

/-! ## Whole bytes -/

theorem BitWriter.bitsOfBytes_putByte (w : BitWriter) (b : Byte) :
    bitsOfBytes (w.putByte b).pending.reverse = bitsOfBytes w.pending.reverse ++ bitsOf 8 b.toNat := by
  rw [BitWriter.putByte, List.reverse_cons, bitsOfBytes_append, bitsOfBytes_cons, bitsOfBytes_nil, List.append_nil]

theorem BitWriter.bitsOfBytes_putShort (w : BitWriter) (v : BitVec 16) :
    bitsOfBytes (w.putShort v).pending.reverse = bitsOfBytes w.pending.reverse ++ bitsOf 16 v.toNat := by
  rw [BitWriter.putShort, BitWriter.bitsOfBytes_putByte, BitWriter.bitsOfBytes_putByte, List.append_assoc, bitsOf_word]

/-- With no bits held the pending bytes are the stream. -/
theorem BitWriter.stream_of_aligned {w : BitWriter} (h : w.biValid = 0) : w.stream = bitsOfBytes w.pending.reverse := by
  rw [BitWriter.stream, h, bitsOf_zero, List.append_nil]

theorem BitWriter.stream_putShort {w : BitWriter} (h : w.biValid = 0) (v : BitVec 16) :
    (w.putShort v).stream = w.stream ++ bitsOf 16 v.toNat := by
  rw [BitWriter.stream_of_aligned (w := w.putShort v) h, BitWriter.bitsOfBytes_putShort, BitWriter.stream_of_aligned h]

theorem BitWriter.stream_putBytes {w : BitWriter} (h : w.biValid = 0) (bs : List Byte) :
    (w.putBytes bs).stream = w.stream ++ bitsOfBytes bs := by
  rw [BitWriter.stream_of_aligned (w := w.putBytes bs) h, BitWriter.putBytes, List.reverse_append, List.reverse_reverse,
    bitsOfBytes_append, BitWriter.stream_of_aligned h]

/-! ## Fields -/

variable {w : BitWriter}

/-- `send_bits` appends the bits of its value (R172). -/
theorem BitWriter.stream_sendBits (h : w.Ok) {n : Nat} (hn : n ≤ 16) (v : Nat) : (w.sendBits v n).stream = w.stream ++ bitsOf n v := by
  obtain ⟨hb, hlt⟩ := h
  rw [← bitsOf_mod n v, BitWriter.sendBits]
  dsimp only
  generalize v % 2 ^ n = u
  split
  · next hfull =>
    have hsum : w.biValid + (16 - w.biValid) = 16 := by omega
    have hword := bitsOf_or_shiftLeft_word u hlt hsum.le
    have hrest := bitsOf_add (16 - w.biValid) (w.biValid + n - 16) u
    rw [hsum] at hword
    rw [show 16 - w.biValid + (w.biValid + n - 16) = n by omega] at hrest
    rw [hrest, BitWriter.stream]
    dsimp only
    rw [BitWriter.bitsOfBytes_putShort, hword, BitVec.toNat_ofNat, bitsOf_mod_of_le (by omega), Nat.shiftRight_eq_div_pow,
      BitWriter.stream]
    simp only [List.append_assoc]
  · rw [BitWriter.stream]
    dsimp only
    rw [bitsOf_or_shiftLeft_word u hlt (by omega), BitWriter.stream, List.append_assoc]

theorem BitWriter.sendBits_biValid_mod (h : w.Ok) {n : Nat} (hn : n ≤ 16) (v : Nat) :
    (w.sendBits v n).biValid % 8 = (w.biValid + n) % 8 := by
  have hb := h.1
  rw [BitWriter.sendBits]
  dsimp only
  split
  · show (w.biValid + n - 16) % 8 = _
    omega
  · rfl

theorem BitWriter.stream_sendField (h : w.Ok) {n : Nat} (hn : n ≤ 16) (v : Nat) : (w.sendField v n).stream = w.stream ++ bitsOf n v := by
  rw [BitWriter.sendField]
  split
  · next h0 => rw [h0, bitsOf_zero, List.append_nil]
  · exact BitWriter.stream_sendBits h hn v

/-! ## Byte boundaries -/

/-- `bi_flush` moves whole bytes and changes no bit of the stream (R173). -/
theorem BitWriter.stream_biFlush (h : w.Ok) : w.biFlush.stream = w.stream := by
  obtain ⟨hb, hlt⟩ := h
  rw [BitWriter.biFlush]
  split
  · next h16 =>
    rw [BitWriter.stream_of_aligned rfl, BitWriter.stream, h16]
    exact BitWriter.bitsOfBytes_putShort w w.biBuf
  · split
    · next h8 =>
      obtain ⟨k, hk⟩ := Nat.exists_eq_add_of_le h8
      rw [BitWriter.stream]
      dsimp only
      rw [BitWriter.bitsOfBytes_putByte, BitVec.toNat_setWidth, bitsOf_mod, BitVec.toNat_ushiftRight, Nat.shiftRight_eq_div_pow, hk,
        Nat.add_sub_cancel_left, List.append_assoc, ← bitsOf_add, BitWriter.stream, hk]
    · rfl

theorem BitWriter.biFlush_biValid_lt (h : w.Ok) : w.biFlush.biValid < 8 := by
  have hb := h.1
  rw [BitWriter.biFlush]
  split
  · exact Nat.zero_lt_succ 7
  · split
    · show w.biValid - 8 < 8
      omega
    · next h8 => exact Nat.not_le.1 h8

/-- `bi_windup` pads the stream with zero bits to a whole number of bytes (R174). -/
theorem BitWriter.stream_biWindup (h : w.Ok) :
    ∃ pad < 8, (w.biValid + pad) % 8 = 0 ∧ w.biWindup.stream = w.stream ++ List.replicate pad false := by
  obtain ⟨hb, hlt⟩ := h
  rw [BitWriter.stream_of_aligned (w := w.biWindup) rfl, BitWriter.biWindup, BitWriter.stream]
  dsimp only
  split
  · refine ⟨16 - w.biValid, by omega, by omega, ?_⟩
    have hpad := bitsOf_add_of_lt (16 - w.biValid) hlt
    rw [Nat.add_sub_cancel' hb] at hpad
    rw [BitWriter.bitsOfBytes_putShort, hpad, List.append_assoc]
  · split
    · refine ⟨8 - w.biValid, by omega, by omega, ?_⟩
      have hpad := bitsOf_add_of_lt (8 - w.biValid) hlt
      rw [Nat.add_sub_cancel' (by omega)] at hpad
      rw [BitWriter.bitsOfBytes_putByte, BitVec.toNat_setWidth, bitsOf_mod, hpad, List.append_assoc]
    · obtain h0 : w.biValid = 0 := by omega
      exact ⟨0, by omega, by omega, by rw [h0]; simp⟩

/-! ## Codes -/

/-- The code of a symbol in a list of entries in symbol order, bit-reversed, is at the symbol's place. -/
theorem getD_spreadCodes : ∀ (k : Nat) {n i : Nat} {c : Code}, i < k → (∀ e ∈ c, n ≤ e.sym) → c.Pairwise (fun a b => a.sym < b.sym) →
    (spreadCodes k n c).getD i 0 = ((c.entry (n + i)).map fun e => bitrev e.len e.canon).getD 0 := by
  intro k
  induction k with
  | zero => exact fun hi => absurd hi (Nat.not_lt_zero _)
  | succ k ih =>
    intro n i c hi hge hc
    cases c with
    | nil =>
      rw [spreadCodes]
      cases i with
      | zero => rfl
      | succ i => rw [List.getD_cons_succ, ih (Nat.lt_of_succ_lt_succ hi) (fun _ he => absurd he List.not_mem_nil) hc]; rfl
    | cons e es =>
      have hlt := (List.pairwise_cons.1 hc).1
      rw [spreadCodes]
      split
      · next he =>
        cases i with
        | zero => rw [Nat.add_zero n, Code.entry_cons, if_pos he]; rfl
        | succ i =>
          rw [List.getD_cons_succ, ih (Nat.lt_of_succ_lt_succ hi) (fun x hx => he ▸ hlt x hx) hc.of_cons, Code.entry_cons,
            if_neg (by omega), Nat.succ_add_eq_add_succ]
      · next he =>
        have hgt : n < e.sym := lt_of_le_of_ne (hge e List.mem_cons_self) (Ne.symm he)
        have hall : ∀ x ∈ e :: es, n < x.sym := fun x hx => by
          rcases List.mem_cons.1 hx with rfl | hx
          · exact hgt
          · exact hgt.trans (hlt x hx)
        cases i with
        | zero => rw [Nat.add_zero n, Code.entry_eq_none_of_lt hall]; rfl
        | succ i => rw [List.getD_cons_succ, ih (Nat.lt_of_succ_lt_succ hi) hall hc, Nat.succ_add_eq_add_succ]

/-- The reversed code of a symbol, sent least significant bit first, is its code in stream order (R114, R196). -/
theorem bitsOf_reversedCodes {lens : List Nat} (hl : ∀ l ∈ lens, l ≤ 15) (s : Nat) :
    bitsOf (lens.getD s 0) ((reversedCodes lens).getD s 0) = (canonicalCode lens).bitsFor s := by
  have hentry := entry_canonicalCode hl s
  rw [Code.bitsFor]
  by_cases h0 : lens.getD s 0 = 0
  · rw [if_pos h0] at hentry
    rw [hentry, h0, bitsOf_zero]
  · rw [if_neg h0] at hentry
    have hs : s < lens.length := by
      by_contra hge
      exact h0 (List.getD_eq_default _ _ (Nat.le_of_not_lt hge))
    rw [reversedCodes, getD_spreadCodes _ hs (fun _ _ => Nat.zero_le _) (canonicalCode_pairwise_sym lens), Nat.zero_add, hentry]
    exact bitsOf_bitrev _ _

/-- A symbol sent in the reversed codes of a length set is its canonical code (R267, R268). -/
theorem BitWriter.stream_sendCode (h : w.Ok) {code lens : List Nat} (hl : ∀ l ∈ lens, l ≤ 15) {s : Nat}
    (hcode : code.getD s 0 = (reversedCodes lens).getD s 0) :
    (w.sendCode code lens s).stream = w.stream ++ (canonicalCode lens).bitsFor s := by
  rw [BitWriter.sendCode, BitWriter.stream_sendBits h (le_trans (getD_le hl s) (by decide)), hcode, bitsOf_reversedCodes hl]

end Machine

end Sys2Proof
end

