-- ==== Sys2Proof/Proofs/WrittenBlocks.lean ====
section
/-! PROOF. Sys2Proof/Proofs/WrittenBlocks.lean: blocks, tree descriptions and flush markers are written as the encodings of their
elements (43_block_encoder.md R267 to R271, R290 to R293). -/

namespace Sys2Proof

open Machine

/-! ## Encodings of the elements -/

variable (k : Codes)

theorem encode_headerInstr (last : Bool) {t : Nat} (ht : t < 4) : encode k (headerInstr last t) = bitsOf 3 (headerBits t last) := by
  have hlow : headerBits t last % 2 ^ 1 = if last then 1 else 0 := by cases last <;> simp [headerBits]
  have hhigh : headerBits t last / 2 ^ 1 = t := by cases last <;> simp [headerBits]; omega
  rw [encode, shape_headerInstr last ht]
  dsimp only
  rw [bitsOf_toNat_ofNat, bitsOf_add 1 2, hhigh, ← bitsOf_mod 1 (headerBits t last), hlow]

theorem encode_literal (b : Byte) : encode k (.literal b) = k.lit.bitsFor b.toNat := List.append_nil _

theorem encode_endOfBlock : encode k .endOfBlock = k.lit.bitsFor 256 := List.append_nil _

theorem encode_lengthInstr {c : Nat} (hc : c ≤ 28) (e : Nat) :
    encode k (lengthInstr c e) = k.lit.bitsFor (257 + c) ++ bitsOf (lenExtra.getD c 0) e := by
  rw [encode, shape_lengthInstr c hc]
  dsimp only
  rw [bitsOf_mod]

theorem encode_distanceInstr {c : Nat} (hc : c ≤ 29) (e : Nat) :
    encode k (distanceInstr c e) = k.dist.bitsFor c ++ bitsOf (distExtra.getD c 0) e := by
  rw [encode, shape_distanceInstr c hc]
  dsimp only
  rw [bitsOf_mod]

theorem encode_clInstr {s : Nat} (hs : s ≤ 18) (e : Nat) : encode k (clInstr s e) = k.cl.bitsFor s ++ bitsOf (clExtra s) e := by
  rw [encode, shape_clInstr (Nat.lt_succ_of_le hs)]
  dsimp only
  rw [bitsOf_mod]

theorem encode_codeLengthCodeLengths (lens order : List Nat) :
    encode k (.codeLengthCodeLengths (order.map fun s => BitVec.ofNat 3 (lens.getD s 0))) =
      order.flatMap fun s => bitsOf 3 (lens.getD s 0) := by
  show (order.map _).flatMap _ = _
  rw [List.flatMap_map]
  exact List.flatMap_congr fun s _ => bitsOf_toNat_ofNat 3 _

theorem encode_dynamicCounts (a b c : Nat) :
    encode k (.dynamicCounts (BitVec.ofNat 5 a) (BitVec.ofNat 5 b) (BitVec.ofNat 4 c)) = bitsOf 5 a ++ bitsOf 5 b ++ bitsOf 4 c := by
  show bitsOf 5 _ ++ bitsOf 5 _ ++ bitsOf 4 _ = _
  rw [bitsOf_toNat_ofNat, bitsOf_toNat_ofNat, bitsOf_toNat_ofNat]

/-- The end of a block in the fixed code is seven zero bits (R116). -/
theorem fixedLitCode_bitsFor_endOfBlock : fixedLitCode.bitsFor 256 = bitsOf 7 0 := by
  rw [Code.bitsFor, entry_fixedLitCode]
  rfl

namespace Machine

/-! ## Symbols of the block body -/

theorem largestBase_le (bases : List Nat) (v n : Nat) : largestBase bases v n ≤ n := by
  induction n with
  | zero => exact Nat.le_refl 0
  | succ n ih =>
    rw [largestBase]
    split
    · exact Nat.le_refl _
    · exact Nat.le_succ_of_le ih

/-- The symbol of `lcode` is a length symbol and its width that of the table (R121). -/
theorem lcode_symbol (len : Nat) :
    ∃ c ≤ 28, (lcode len).1 = 257 + c ∧ (lcode len).2.1 = lenExtra.getD c 0 := by
  unfold lcode
  split
  · exact ⟨28, Nat.le_refl _, rfl, rfl⟩
  · exact ⟨_, Nat.le_succ_of_le (largestBase_le lenBase len 27), rfl, rfl⟩

theorem dcode_symbol (dist : Nat) : (dcode dist).1 ≤ 29 ∧ (dcode dist).2.1 = distExtra.getD (dcode dist).1 0 :=
  ⟨largestBase_le distBase dist 29, rfl⟩

variable {k} {ll dl : List Nat} (hll : ∀ l ∈ ll, l ≤ 15) (hdl : ∀ l ∈ dl, l ≤ 15) (hlit : k.lit = canonicalCode ll)
  (hdist : k.dist = canonicalCode dl)

include hll hdl hlit hdist

/-- A literal or a match is sent as its elements (R268). -/
theorem BitWriter.stream_sendSym {w : BitWriter} (h : w.Ok) (s : Sym) :
    (w.sendSym (reversedCodes ll) ll (reversedCodes dl) dl s).stream = w.stream ++ s.elements.flatMap (encode k) := by
  cases s with
  | lit b =>
    rw [BitWriter.sendSym, BitWriter.stream_sendCode h hll rfl, Sym.elements, List.flatMap_singleton, encode_literal, hlit]
  | copy dist len =>
    obtain ⟨c, hc, hsym, hwidth⟩ := lcode_symbol len
    obtain ⟨hd, hdistWidth⟩ := dcode_symbol dist
    have hlen := h.sendCode (reversedCodes ll) hll (lcode len).1
    have hlenExtra := hlen.sendField (lcode len).2.2 (lcode_width len)
    have hdistCode := hlenExtra.sendCode (reversedCodes dl) hdl (dcode dist).1
    rw [BitWriter.sendSym, Sym.elements, List.flatMap_cons, List.flatMap_singleton, hsym, Nat.add_sub_cancel_left,
      encode_lengthInstr k hc, encode_distanceInstr k hd, hlit, hdist, ← hsym,
      BitWriter.stream_sendField hdistCode (dcode_width dist), BitWriter.stream_sendCode hlenExtra hdl rfl,
      BitWriter.stream_sendField hlen (lcode_width len), BitWriter.stream_sendCode h hll rfl, hwidth, hdistWidth]
    simp only [List.append_assoc]

theorem BitWriter.stream_sendSyms (syms : List Sym) {w : BitWriter} (h : w.Ok) :
    (BitWriter.sendSyms (reversedCodes ll) ll (reversedCodes dl) dl syms w).stream =
      w.stream ++ (syms.flatMap Sym.elements).flatMap (encode k) := by
  induction syms generalizing w with
  | nil => exact (List.append_nil _).symm
  | cons s rest ih =>
    rw [BitWriter.sendSyms, ih (h.sendSym _ _ hll hdl s), BitWriter.stream_sendSym hll hdl hlit hdist h, List.flatMap_cons,
      List.flatMap_append, List.append_assoc]

/-- `compress_block` writes the symbols in tally order and the end of the block (R268). -/
theorem BitWriter.stream_compressBlock {w : BitWriter} (h : w.Ok) (syms : List Sym) :
    (w.compressBlock syms (reversedCodes ll) ll (reversedCodes dl) dl).stream =
      w.stream ++ (syms.reverse.flatMap Sym.elements ++ [Instr.endOfBlock]).flatMap (encode k) := by
  rw [BitWriter.compressBlock, BitWriter.stream_sendCode (BitWriter.ok_sendSyms _ _ hll hdl _ h) hll rfl,
    BitWriter.stream_sendSyms hll hdl hlit hdist _ h, List.flatMap_append, List.flatMap_singleton, encode_endOfBlock, hlit,
    List.append_assoc]

omit hll hdl hlit hdist

/-- A block header is the element of its type (R111). -/
theorem BitWriter.stream_sendHeader {w : BitWriter} (h : w.Ok) (k : Codes) {t : Nat} (ht : t < 4) (last : Bool) :
    (w.sendBits (headerBits t last) 3).stream = w.stream ++ encode k (headerInstr last t) := by
  rw [BitWriter.stream_sendBits h (by decide), encode_headerInstr k last ht]

/-! ## Tree descriptions -/

theorem BitWriter.stream_sendClLens (lens order : List Nat) {w : BitWriter} (h : w.Ok) :
    (BitWriter.sendClLens lens order w).stream = w.stream ++ order.flatMap fun s => bitsOf 3 (lens.getD s 0) := by
  induction order generalizing w with
  | nil => exact (List.append_nil _).symm
  | cons s rest ih =>
    rw [BitWriter.sendClLens, ih (h.sendBits _ (by decide)), BitWriter.stream_sendBits h (by decide), List.flatMap_cons,
      List.append_assoc]

/-- The scanned symbols are sent as the code-length elements (R120, R267). -/
theorem BitWriter.stream_sendClSyms {t : Tree} (ht : ∀ l ∈ t.len, l ≤ 15)
    (hcode : ∀ s, t.code.getD s 0 = (reversedCodes t.len).getD s 0) (hcl : k.cl = canonicalCode t.len) (xs : List ClSym)
    (hfits : ∀ x ∈ xs, x.Fits) {w : BitWriter} (h : w.Ok) :
    (BitWriter.sendClSyms t xs w).stream = w.stream ++ (xs.map fun x => clInstr x.sym x.extra).flatMap (encode k) := by
  induction xs generalizing w with
  | nil => exact (List.append_nil _).symm
  | cons x rest ih =>
    obtain ⟨hsym, hwidth, -⟩ := hfits x List.mem_cons_self
    have hw16 : x.width ≤ 16 := by rw [hwidth, clExtra]; split_ifs <;> decide
    have hsent := h.sendCode t.code ht x.sym
    rw [BitWriter.sendClSyms, ih (fun y hy => hfits y (List.mem_cons_of_mem _ hy)) (hsent.sendField x.extra hw16),
      BitWriter.stream_sendField hsent hw16, BitWriter.stream_sendCode h ht (hcode x.sym), List.map_cons, List.flatMap_cons,
      encode_clInstr k hsym, hcl, hwidth]
    simp only [List.append_assoc]

theorem Enc.clSyms_fits {e : Enc} (hl : ∀ l ∈ e.ltree.len, l ≤ 15) (hd : ∀ l ∈ e.dtree.len, l ≤ 15) : ∀ x ∈ e.clSyms, x.Fits := by
  intro x hx
  rcases List.mem_append.1 hx with hx | hx
  · exact scanTree_fits hl x hx
  · exact scanTree_fits hd x hx

/-! ## Stored blocks and markers -/

/-- A stored block: header, padding, length pair, bytes (R271). -/
theorem BitWriter.stream_storedBlock {w : BitWriter} (h : w.Ok) (k : Codes) (buf : List Byte) (last : Bool) :
    ∃ pad < 8, (w.biValid + 3 + pad) % 8 = 0 ∧ (w.storedBlock buf last).stream =
      w.stream ++ encode k (.blockStored last) ++ List.replicate pad false ++
        encode k (.storedLen (BitVec.ofNat 16 buf.length) (~~~(BitVec.ofNat 16 buf.length))) ++ bitsOfBytes buf := by
  obtain ⟨pad, hpad, halign, hwindup⟩ := BitWriter.stream_biWindup (h.sendBits (headerBits 0 last) (n := 3) (by decide))
  have hmod := BitWriter.sendBits_biValid_mod h (n := 3) (by decide) (headerBits 0 last)
  refine ⟨pad, hpad, by omega, ?_⟩
  rw [BitWriter.storedBlock, BitWriter.stream_putBytes rfl, BitWriter.stream_putShort rfl, BitWriter.stream_putShort rfl, hwindup,
    BitWriter.stream_sendHeader h k (by decide), List.append_assoc _ (bitsOf 16 _) (bitsOf 16 _)]
  rfl

/-- The PARTIAL marker is an empty block in the fixed code (R290). -/
theorem BitWriter.stream_align {w : BitWriter} (h : w.Ok) {k : Codes} (hk : k.lit = fixedLitCode) :
    w.align.stream = w.stream ++ encode k (.blockFixed false) ++ encode k .endOfBlock := by
  have hheader := h.sendBits (headerBits 1 false) (n := 3) (by decide)
  rw [BitWriter.align, BitWriter.stream_biFlush (hheader.sendBits 0 (by decide)), BitWriter.stream_sendBits hheader (by decide),
    BitWriter.stream_sendHeader h k (by decide), encode_endOfBlock, hk, fixedLitCode_bitsFor_endOfBlock]
  rfl

theorem BitWriter.biValid_align_le {w : BitWriter} (h : w.Ok) : w.align.biValid ≤ 7 :=
  Nat.le_of_lt_succ (BitWriter.biFlush_biValid_lt ((h.sendBits (headerBits 1 false) (n := 3) (by decide)).sendBits 0 (by decide)))

/-- The length pair of an empty stored block is the end of the SYNC marker (R291). -/
theorem BitWriter.suffix_syncMarker (w : BitWriter) : [(0x00 : Byte), 0x00, 0xFF, 0xFF] <:+ w.syncMarker.pending.reverse := by
  have hpending : w.syncMarker.pending =
      0xFF :: 0xFF :: 0x00 :: 0x00 :: (w.sendBits (headerBits 0 false) 3).biWindup.pending := rfl
  exact ⟨(w.sendBits (headerBits 0 false) 3).biWindup.pending.reverse, by rw [hpending]; simp⟩

end Machine

end Sys2Proof

open Sys2Proof Sys2Proof.Machine

/-- Settles O52: `compress_block` element by element, where a symbol's reversed code is its canonical one. -/
theorem blockBodyIsItsElements : Obligations.BlockBodyIsItsElements := by
  refine ⟨fun w syms ll dl k hw _ hll hdl hlit hdist => BitWriter.stream_compressBlock hll hdl hlit hdist hw syms,
    fun e last k hw _ hlit hdist => ?_⟩
  have hheader := hw.sendBits (headerBits 1 last) (n := 3) (by decide)
  rw [Enc.writeBlock, fixedLitReversed, fixedDistReversed,
    BitWriter.stream_compressBlock fixedLengths_le.1 fixedLengths_le.2 hlit hdist hheader,
    BitWriter.stream_sendHeader hw k (by decide), List.flatMap_cons, List.append_assoc]
  rfl

/-- Settles O53: the counts, the code-length code lengths and the scanned symbols, each as its element. -/
theorem treeDescriptionIsADynamicHeader : Obligations.TreeDescriptionIsADynamicHeader := by
  intro e w k hw hlmin _ _ hbmin _ hl hd hb hcode hcl
  have hb15 : ∀ l ∈ e.bltree.len, l ≤ 15 := fun l hm => (hb l hm).trans (by decide)
  have hhlit := hw.sendBits (e.ltree.maxCode + 1 - 257) (n := 5) (by decide)
  have hhdist := hhlit.sendBits (e.dtree.maxCode + 1 - 1) (n := 5) (by decide)
  have hhclen := hhdist.sendBits (e.maxBlindex + 1 - 4) (n := 4) (by decide)
  rw [Enc.sendAllTrees, BitWriter.stream_sendClSyms hb15 hcode hcl _ (Enc.clSyms_fits hl hd) (BitWriter.ok_sendClLens _ _ hhclen),
    BitWriter.stream_sendClLens _ _ hhclen, BitWriter.stream_sendBits hhdist (by decide), BitWriter.stream_sendBits hhlit (by decide),
    BitWriter.stream_sendBits hw (by decide), List.flatMap_cons, List.flatMap_cons, encode_dynamicCounts,
    encode_codeLengthCodeLengths, show e.ltree.maxCode + 1 - 257 = e.ltree.maxCode - 256 by omega,
    show e.maxBlindex + 1 - 4 = e.maxBlindex - 3 by omega, Nat.add_sub_cancel]
  simp only [List.append_assoc]

/-- Settles O51: the stored block through `bi_windup`, the markers from the blocks they are. -/
theorem storedBlocksAndMarkers : Obligations.StoredBlocksAndMarkers := by
  constructor
  · intro w buf last k hw _
    obtain ⟨pad, hpad, halign, hstream⟩ := BitWriter.stream_storedBlock hw k buf last
    exact ⟨pad, hpad, halign, rfl, hstream⟩
  intro e ps k hw hk
  refine ⟨⟨BitWriter.stream_align hw hk, BitWriter.biValid_align_le hw, rfl⟩, ⟨rfl, rfl, BitWriter.suffix_syncMarker e.bw⟩, ?_,
    rfl, rfl, rfl⟩
  rw [show e.marker .full = Enc.forgetHistory { e with bw := e.bw.syncMarker } from rfl, Enc.forgetHistory]
  by_cases h0 : e.lookahead = 0
  · rw [if_pos h0]
    exact ⟨rfl, fun h => Ram.get_nil _ h, fun _ => ⟨fun q => Ram.get_nil _ _, rfl⟩, fun hne => absurd h0 hne⟩
  · rw [if_neg h0]
    exact ⟨rfl, fun h => Ram.get_nil _ h, fun heq => absurd heq h0, fun _ => rfl⟩
end

