-- ==== Sys2Proof/Proofs/HeldBits.lean ====
section
/-! PROOF. Sys2Proof/Proofs/HeldBits.lean: how many bits each operation of the bit writer leaves held (40_bitio.md R171 to R174). What it
appends to the stream is in WrittenBits.lean, that it keeps the held bits in order in Laws/BitWriter.lean. -/

namespace Sys2Proof.Machine

open Sys2Proof

theorem BitWriter.sendBits_biValid {w : BitWriter} {n : Nat} (hn : n ≤ 16) (v : Nat) :
    (w.sendBits v n).biValid = if w.biValid + n ≤ 16 then w.biValid + n else w.biValid + n - 16 := by
  rw [BitWriter.sendBits]
  dsimp only
  by_cases hfits : w.biValid + n ≤ 16
  · rw [if_pos hfits, if_neg (by omega)]
  · rw [if_neg hfits, if_pos (by omega)]

/-- `bi_flush` keeps the bits that fill no byte (R173). -/
theorem BitWriter.biFlush_biValid {w : BitWriter} (h : w.Ok) : w.biFlush.biValid = w.biValid % 8 := by
  have hb := h.1
  rw [BitWriter.biFlush]
  split
  · next h16 => rw [h16]
  · split
    · show w.biValid - 8 = w.biValid % 8
      omega
    · next h8 => exact (Nat.mod_eq_of_lt (Nat.not_le.1 h8)).symm

end Sys2Proof.Machine

open Sys2Proof Sys2Proof.Machine

/-- Settles O50: what each operation appends, that it keeps the held bits in order, and how many bits it leaves held. -/
theorem bitWriterAppends : Obligations.BitWriterAppends := by
  intro w hw
  refine ⟨fun v n _ hn _ => ?_, ?_, ?_⟩
  · exact ⟨BitWriter.stream_sendBits hw hn v, hw.sendBits v hn, BitWriter.sendBits_biValid hn v⟩
  · exact ⟨BitWriter.stream_biFlush hw, hw.biFlush, BitWriter.biFlush_biValid hw⟩
  · obtain ⟨pad, hpad, halign, hstream⟩ := BitWriter.stream_biWindup hw
    exact ⟨pad, hpad, halign, hstream, rfl, rfl⟩
end

