-- ==== Sys2Proof/Proofs/BadCodeLengths.lean ====
section
/-! PROOF. Sys2Proof/Proofs/BadCodeLengths.lean: the code-length symbols that write no length: a repeat with nothing to repeat, a repeat
past the lengths that are due, and an entry the input does not hold whole (R181, R326, R335). -/

namespace Sys2Proof.Machine

open Sys2Proof

/-- A repeat past the lengths that are due is malformed once its code and its extra bits are consumed (R326). -/
theorem DecRun.clRepeat_past {r : DecRun} {k w count : Nat} (v : Nat) (ho : r.offers (k + w))
    (hpast : r.d.nlen + r.d.ndist < r.d.have_ + count) :
    ((r.holding (r.pulls (k + w))).dropBits k).clRepeat w v count = (r.after (k + w)).raise 5 := by
  rw [DecRun.clRepeat, DecRun.dropBits_dropBits, DecRun.dropBits_holding ho]
  exact if_pos hpast

section
variable {r : DecRun} (hh : r.d.hold < 2 ^ r.d.bits)
include hh

theorem DecRun.clLength_of_not_offers {len : Nat} (ho : ¬ r.offers (r.d.clcode.lengthOf len)) :
    r.clLength len = .stop .needMoreInput r.drained := DecRun.needBits_of_not_offers hh ho _

theorem DecRun.clRepeatPrev_of_not_offers {count : Nat} (ho : ¬ r.offers (r.d.clcode.lengthOf 16 + 2)) :
    r.clRepeatPrev count = .stop .needMoreInput r.drained := DecRun.needBits_of_not_offers hh ho _

theorem DecRun.clRepeatZero_of_not_offers {sym count : Nat} (ho : ¬ r.offers (r.d.clcode.lengthOf sym + clExtra sym)) :
    r.clRepeatZero sym count = .stop .needMoreInput r.drained := DecRun.needBits_of_not_offers hh ho _

/-- There is no last length yet: only the code is consumed, the extra bits stay held (R326). -/
theorem DecRun.clRepeatPrev_of_none {count : Nat} (hnone : r.d.have_ = 0) (ho : r.offers (r.d.clcode.lengthOf 16 + 2)) :
    r.clRepeatPrev count = ((r.pulled (r.d.clcode.lengthOf 16 + 2)).dropBits (r.d.clcode.lengthOf 16)).raise 5 := by
  rw [DecRun.clRepeatPrev, DecRun.needBits_of_offers hh ho]
  exact if_pos hnone

theorem DecRun.clRepeatPrev_past {count : Nat} (hsome : 0 < r.d.have_) (ho : r.offers (r.d.clcode.lengthOf 16 + 2))
    (hpast : r.d.nlen + r.d.ndist < r.d.have_ + count) :
    r.clRepeatPrev count = (r.after (r.d.clcode.lengthOf 16 + 2)).raise 5 := by
  rw [DecRun.clRepeatPrev, DecRun.needBits_of_offers hh ho]
  exact (if_neg hsome.ne').trans (DecRun.clRepeat_past _ ho hpast)

theorem DecRun.clRepeatZero_past {sym count : Nat} (ho : r.offers (r.d.clcode.lengthOf sym + clExtra sym))
    (hpast : r.d.nlen + r.d.ndist < r.d.have_ + count) :
    r.clRepeatZero sym count = (r.after (r.d.clcode.lengthOf sym + clExtra sym)).raise 5 := by
  rw [DecRun.clRepeatZero, DecRun.needBits_of_offers hh ho]
  exact DecRun.clRepeat_past 0 ho hpast

end

/-- The two ways in which a repeat of length 0 writes no length. -/
theorem State.At.badRepeatZero {s : State} {d : Dec} {c p : Nat} (h : s.At d c p .codeLens) {i : Instr} {sym count : Nat}
    (hexec : exec i s = s.onElement .codeLens fun r => r.clRepeatZero sym count) :
    let n := d.clcode.lengthOf sym + clExtra sym
    ((s.runAt d c p).offers n → d.nlen + d.ndist < d.have_ + count →
      exec i s = .next (s.malformed ((s.runAt d c p).after n) 5)) ∧
    (¬ (s.runAt d c p).offers n → exec i s = .next (s.suspended (s.runAt d c p).drained .needMoreInput)) := by
  have hh : (s.runAt d c p).d.hold < 2 ^ (s.runAt d c p).d.bits := h.ok.hold
  rw [hexec]
  exact ⟨fun ho hpast => h.onElement_malformed (f := fun r => r.clRepeatZero sym count) (DecRun.clRepeatZero_past hh ho hpast),
    fun ho => h.onElement_suspended (f := fun r => r.clRepeatZero sym count) (DecRun.clRepeatZero_of_not_offers hh ho) nofun⟩

end Sys2Proof.Machine

open Sys2Proof Sys2Proof.Machine

/-- Settles O42: symbol by symbol, where it has nothing to repeat (`DecRun.clRepeatPrev_of_none`), passes the lengths due
(`DecRun.clRepeat_past`) or is not there whole. -/
theorem badRepeats : Obligations.BadRepeats := by
  intro s d c p hat
  have hh : (s.runAt d c p).d.hold < 2 ^ (s.runAt d c p).d.bits := hat.ok.hold
  refine ⟨fun e hnone ho => ?_, fun i sym w count hkind => ?_, fun l ho => ?_⟩
  · exact hat.onElement_malformed (f := fun r => r.clRepeatPrev (3 + e.toNat)) (DecRun.clRepeatPrev_of_none hh hnone ho)
  · rcases hkind with ⟨e, rfl, rfl, rfl, rfl⟩ | ⟨e, rfl, rfl, rfl, rfl⟩ | ⟨e, rfl, rfl, rfl, rfl⟩
    · exact ⟨fun hsome ho hpast => hat.onElement_malformed (f := fun r => r.clRepeatPrev (3 + e.toNat))
          (DecRun.clRepeatPrev_past hh (hsome rfl) ho hpast),
        fun ho => hat.onElement_suspended (f := fun r => r.clRepeatPrev (3 + e.toNat))
          (DecRun.clRepeatPrev_of_not_offers hh ho) nofun⟩
    · obtain ⟨hpast, hmore⟩ := hat.badRepeatZero (i := .clRepeatZeroShort e) (sym := 17) rfl
      exact ⟨fun _ => hpast, hmore⟩
    · obtain ⟨hpast, hmore⟩ := hat.badRepeatZero (i := .clRepeatZeroLong e) (sym := 18) rfl
      exact ⟨fun _ => hpast, hmore⟩
  · exact hat.onElement_suspended (f := fun r => r.clLength l.toNat) (DecRun.clLength_of_not_offers hh ho) nofun
end

