-- ==== Sys2Proof/Proofs/PartialElements.lean ====
section
/-! PROOF. Sys2Proof/Proofs/PartialElements.lean: what a state action does where the stream that is left is the beginning of an element's
encoding and not all of it (R181, R324, R335, log entry 31), and where it begins no code of the code in force (R332, R335, R336). -/

namespace Sys2Proof

open Machine

/-! ## PEEK at the end of the stream -/

/-- The bits are the beginning of a code and not all of it: PEEK asks for more (R335). -/
theorem Code.Proper.peek_of_prefix {c : Code} (h : c.Proper) {e : CodeEntry} (he : e ∈ c) {bits : List Bool}
    (hpre : bits <+: e.wire) (hlen : bits.length < e.len) : peek c bits = .more := by
  cases hp : peek c bits with
  | more => rfl
  | symbol s k =>
    obtain ⟨e', he', -, -, hw⟩ := peek_symbol h hp
    obtain rfl := h.eq_of_prefix he' he (hw.trans hpre)
    exact absurd hw.length_le (by rw [CodeEntry.length_wire]; omega)
  | invalid k =>
    obtain ⟨-, -, hno⟩ := peek_invalid h hp
    exact absurd ((List.take_prefix k bits).trans hpre) (hno e he).1

/-- The bits are the beginning of a symbol's code with its extra bits, and not all of it: they end inside the code, or inside the extra
bits. -/
theorem Code.Proper.peek_of_part {c : Code} (h : c.Proper) {s w v : Nat} (hs : (c.entry s).isSome = true) {bits rest : List Bool}
    (henc : bits ++ rest = c.bitsFor s ++ bitsOf w v) (hne : rest ≠ []) :
    (peek c bits = .more ∧ bits.length < c.lengthOf s) ∨
      (peek c bits = .symbol s (c.lengthOf s) ∧ c.lengthOf s ≤ bits.length ∧ bits.length < c.lengthOf s + w ∧
        takeField w (bits.drop (c.lengthOf s)) = none) := by
  have hrest := List.length_pos_iff.2 hne
  have hlen := congrArg List.length henc
  simp only [List.length_append, Code.length_bitsFor, length_bitsOf] at hlen
  rcases Nat.lt_or_ge bits.length (c.lengthOf s) with hlt | hge
  · obtain ⟨e, he⟩ := Option.isSome_iff_exists.1 hs
    obtain ⟨hmem, rfl⟩ := Code.mem_of_entry he
    rw [h.lengthOf_eq hmem] at hlt ⊢
    rw [h.bitsFor_eq hmem] at henc
    refine .inl ⟨h.peek_of_prefix hmem ?_ hlt, hlt⟩
    exact List.prefix_of_prefix_length_le ⟨rest, henc⟩ (List.prefix_append _ _) (by rw [CodeEntry.length_wire]; exact hlt.le)
  · obtain ⟨extra, rfl⟩ : c.bitsFor s <+: bits :=
      List.prefix_of_prefix_length_le ⟨_, henc.symm⟩ (List.prefix_append _ _) (by rwa [Code.length_bitsFor])
    rw [List.length_append, Code.length_bitsFor] at hlen
    refine .inr ⟨h.peek_bitsFor hs extra, hge, ?_, ?_⟩
    · rw [List.length_append, Code.length_bitsFor]; omega
    · rw [drop_bitsFor_append, takeField_eq_none (by omega)]

/-- PEEK's loop goes on while the bits begin a code, and stops at the bit that shows they begin none (R335). -/
theorem peekFrom_of_no_code {c : Code} (h : c.Proper) (rest : List Bool) : ∀ (suf pre : List Bool), suf ≠ [] →
    (∀ e ∈ c, ¬ e.wire <+: pre ++ suf ∧ ¬ pre ++ suf <+: e.wire) →
    (∀ a, a <+: suf → a ≠ [] → a ≠ suf → ∃ e ∈ c, pre ++ a <+: e.wire) →
    peekFrom c (msbValue pre) pre.length (suf ++ rest) = .invalid (pre ++ suf).length
  | [], _, hne, _, _ => absurd rfl hne
  | b :: suf, pre, _, hno, hbegin => by
    have hsplit : pre ++ b :: suf = (pre ++ [b]) ++ suf := by simp
    have hnone : c.find? (fun e => e.len == (pre ++ [b]).length && e.canon == msbValue (pre ++ [b])) = none :=
      List.find?_eq_none.2 fun e he hmatch =>
        (hno e he).1 (by rw [(match_iff (h.canon_lt he) _).1 hmatch, hsplit]; exact List.prefix_append _ _)
    rw [List.cons_append, peekFrom_cons, hnone]
    dsimp only
    cases suf with
    | nil =>
      refine if_neg fun hany => ?_
      obtain ⟨e, he, hext⟩ := List.any_eq_true.1 hany
      exact (hno e he).2 ((extends_iff (h.canon_lt he) _).1 hext).1
    | cons b' suf =>
      obtain ⟨e, he, hpre⟩ := hbegin [b] ⟨b' :: suf, rfl⟩ (List.cons_ne_nil _ _) (by simp)
      have hlt : (pre ++ [b]).length < e.len := by
        refine lt_of_le_of_ne (by rw [← CodeEntry.length_wire]; exact hpre.length_le) fun hlen => (hno e he).1 ?_
        rw [← hpre.eq_of_length (by rw [hlen, CodeEntry.length_wire]), hsplit]
        exact List.prefix_append _ _
      rw [if_pos (List.any_eq_true.2 ⟨e, he, (extends_iff (h.canon_lt he) _).2 ⟨hpre, hlt⟩⟩), hsplit]
      refine peekFrom_of_no_code h rest (b' :: suf) (pre ++ [b]) (List.cons_ne_nil _ _) (by rwa [← hsplit]) fun a ha _ hne => ?_
      have := hbegin (b :: a) (List.cons_prefix_cons.2 ⟨rfl, ha⟩) (List.cons_ne_nil _ _) (by simpa using hne)
      simpa using this

/-- The least number of bits that begin no code, and that no code begins, is PEEK's answer (R335). -/
theorem Code.Proper.peek_of_no_code {c : Code} (h : c.Proper) {bits : List Bool} {k : Nat} (hk : 1 ≤ k) (hlen : k ≤ bits.length)
    (hno : ∀ e ∈ c, ¬ e.wire <+: bits.take k ∧ ¬ bits.take k <+: e.wire)
    (hleast : ∀ j, 1 ≤ j → j < k → ∃ e ∈ c, bits.take j <+: e.wire) : peek c bits = .invalid k := by
  have hlk : (bits.take k).length = k := by rw [List.length_take, Nat.min_eq_left hlen]
  have hne : bits.take k ≠ [] := by rw [← List.length_pos_iff, hlk]; exact hk
  have := peekFrom_of_no_code h (bits.drop k) (bits.take k) [] hne hno fun a ha hne hlt => by
    have hle := ha.length_le
    have hpos := List.length_pos_iff.2 hne
    have hak : a.length ≠ k := fun heq => hlt (ha.eq_of_length (by rw [heq, hlk]))
    rw [hlk] at hle
    have htake := List.prefix_iff_eq_take.1 (ha.trans (List.take_prefix k bits))
    rw [List.nil_append, htake]
    exact hleast a.length hpos (by omega)
  rw [List.take_append_drop, List.nil_append, hlk] at this
  exact this

theorem decodeLit_of_no_code {c : Code} {bits : List Bool} {k : Nat} (h : peek c bits = .invalid k) :
    decodeWire (.litSymbol c) bits = .noCode k := by
  rw [decodeWire, decodeLit, h]

theorem decodeDist_of_no_code {c : Code} {bits : List Bool} {k : Nat} (h : peek c bits = .invalid k) :
    decodeWire (.distSymbol c) bits = .noCode k := by
  rw [decodeWire, decodeDist, h]

namespace Machine

/-! ## The decoder's own answers -/

/-- Where fewer than 64 bits are left, they are all in sight. -/
theorem DecRun.sight_eq_stream {r : DecRun} (h : r.stream.length < 64) : r.sight = r.stream := by
  rw [DecRun.sight_eq, List.take_of_length_le]
  rw [DecRun.length_stream] at h ⊢
  omega

/-- The decoder's own action where what is in sight is no whole element (R181, R335, R340, R343). -/
def DecRun.onPart (r : DecRun) : WireResult → Option Act
  | .more => some r.partElement
  | .symbolOnly sym n => some (r.symbolOnly sym n)
  | _ => none

/-- Where no code matches, the bits that show it are consumed (R335, R341, R343). -/
theorem DecRun.noCode_eq {r : DecRun} (hh : r.d.hold < 2 ^ r.d.bits) {n : Nat} (ho : r.offers n) :
    r.noCode n = (r.after n).raise (if r.d.mode = .len then 9 else 10) := by
  rw [DecRun.noCode, DecRun.needBits_of_offers hh ho, ← DecRun.dropBits_holding ho]
  rfl

theorem DecRun.partElement_eq {r : DecRun} (hh : r.d.hold < 2 ^ r.d.bits) (hm : r.d.mode ≠ .lenLens) :
    r.partElement = .stop .needMoreInput r.drained := by
  rw [DecRun.partElement, if_neg hm, DecRun.starve_eq hh]

section
variable {s : State} {d : Dec} {c p : Nat} {r : DecRun} {ctx : WireContext} (hs : s.stream = .dec d)
  (hp : s.phase = .decoding c p)
include hs hp

/-- A state action of the mode's own (R311). -/
theorem decoderStep_act {a : Act} (hnext : (s.runAt d c p).next = .act a) : decoderStep s = .next (s.settle a) := by
  have hnext' : DecRun.next { d := d, io := s.io c p } = .act a := hnext
  simp only [decoderStep, hs, hp, hnext']

theorem decoderStep_onPart {a : Act} (hnext : (s.runAt d c p).next = .fetch r ctx)
    (hpart : r.onPart (decodeWire ctx r.sight) = some a) : decoderStep s = .next (s.settle a) := by
  have hnext' : DecRun.next { d := d, io := s.io c p } = .fetch r ctx := hnext
  simp only [decoderStep, hs, hp, hnext']
  cases hw : decodeWire ctx r.sight with
  | element i n => rw [hw] at hpart; exact absurd hpart nofun
  | noCode n => rw [hw] at hpart; exact absurd hpart nofun
  | symbolOnly sym n => rw [hw] at hpart; cases hpart; rfl
  | more => rw [hw] at hpart; cases hpart; rfl

theorem decoderStep_noCode {n : Nat} (hnext : (s.runAt d c p).next = .fetch r ctx) (hw : decodeWire ctx r.sight = .noCode n)
    (hm : d.mode ≠ .codeLens) : decoderStep s = .next (s.settle (r.noCode n)) := by
  have hnext' : DecRun.next { d := d, io := s.io c p } = .fetch r ctx := hnext
  simp only [decoderStep, hs, hp, hnext', hw, if_neg hm]

end

/-- An element in its place is its shape's action (R311). -/
theorem State.At.exec_eq {s : State} {d : Dec} {c p : Nat} {m : DecMode} {i : Instr} (h : s.At d c p m) (hm : i.mode = some m)
    (hlens : ∀ lens, i = .codeLengthCodeLengths lens → lens.length ≤ d.ncode - d.have_) :
    exec i s = .next (s.settle (actionOf i.shape (s.runAt d c p))) := by
  have hcommand : ∀ w, i.shape ≠ .command w := fun w hw => by rw [Instr.mode, hw] at hm; exact absurd hm nofun
  have hmode : modeOf i.shape = m := by
    unfold Instr.mode at hm
    cases hsh : i.shape <;> simp only [hsh, Option.some.injEq, reduceCtorEq] at hm <;> exact hm
  rw [← execElement_eq_exec hcommand, ← h.onElement, ← hmode]
  by_cases hl : ∃ lens, i.shape = .clLens lens
  · obtain ⟨lens, hl⟩ := hl
    obtain rfl := eq_clLens_of_shape hl
    exact execElement_clLens h.stream (hlens lens rfl)
  · exact execElement_eq hcommand fun lens hlen => hl ⟨lens, hlen⟩

/-! ## Elements that are not there whole -/

section
variable {r : DecRun} (hh : r.d.hold < 2 ^ r.d.bits)
include hh

/-- A symbol whose code is not there whole is awaited, whichever of the four kinds it is (R335, R340, R341). -/
theorem DecRun.lit_of_not_offers {s : Nat} (hs : s < 288) (w e : Nat) (ho : ¬ r.offers (r.d.lencode.lengthOf s)) :
    actionOf (.lit s w e) r = .stop .needMoreInput r.drained := by
  rw [actionOf]
  split
  · next hlt =>
    have hbyte : (BitVec.ofNat 8 s).toNat = s := by rw [BitVec.toNat_ofNat, Nat.mod_eq_of_lt hlt]
    exact DecRun.takeLitSym_of_not_offers hh (by rwa [hbyte]) _
  split
  · next heob => exact DecRun.takeLitSym_of_not_offers hh (by rwa [← heob]) _
  split
  · exact DecRun.takeLitSym_of_not_offers hh (by rwa [Nat.add_sub_cancel' (by omega)]) _
  · exact DecRun.takeLitSym_of_not_offers hh ho _

theorem DecRun.dist_of_not_offers {s : Nat} (w e : Nat) (ho : ¬ r.offers (r.d.distcode.lengthOf s)) :
    actionOf (.dist s w e) r = .stop .needMoreInput r.drained := by
  rw [actionOf]
  split <;> exact DecRun.takeDistSym_of_not_offers hh ho _

/-- A code-length symbol is read with its extra bits or not at all (R326). -/
theorem DecRun.cl_of_not_offers {s : Nat} (hs : s < 19) (e : Nat) (ho : ¬ r.offers (r.d.clcode.lengthOf s + clExtra s)) :
    actionOf (.cl s (clExtra s) e) r = .stop .needMoreInput r.drained := by
  rw [actionOf]
  split
  · next h16 => exact DecRun.clLength_of_not_offers hh (by rwa [show clExtra s = 0 by interval_cases s <;> rfl] at ho)
  split
  · next h16 => subst h16; exact DecRun.clRepeatPrev_of_not_offers hh ho
  · exact DecRun.clRepeatZero_of_not_offers hh ho

/-- A length symbol without its extra bits: the decoder's own action is the symbol's (R340, R342). -/
theorem DecRun.symbolOnly_length (hm : r.d.mode = .len) {c : Nat} (e : Nat) (ho : r.offers (r.d.lencode.lengthOf (257 + c)))
    (hno : ¬ r.offers (r.d.lencode.lengthOf (257 + c) + lenExtra.getD c 0)) :
    r.symbolOnly (257 + c) (r.d.lencode.lengthOf (257 + c)) = r.lengthSym c e := by
  have hheld : ((r.after (r.d.lencode.lengthOf (257 + c))).lenBegin c).d.hold < 2 ^ _ := DecRun.after_hold_lt _
  rw [DecRun.lengthSym_of_code hh c e ho hno, ← DecRun.drained_after ho, DecRun.symbolOnly, DecRun.needBits_of_offers hh ho]
  dsimp only
  rw [DecRun.dropBits_holding ho, Nat.add_sub_cancel_left, DecRun.starve_eq hheld]
  exact if_pos hm

/-- A distance symbol without its extra bits (R343, R344). -/
theorem DecRun.symbolOnly_distance (hm : r.d.mode = .dist) {c : Nat} (e : Nat) (ho : r.offers (r.d.distcode.lengthOf c))
    (hno : ¬ r.offers (r.d.distcode.lengthOf c + distExtra.getD c 0)) :
    r.symbolOnly c (r.d.distcode.lengthOf c) = r.distanceSym c e := by
  have hheld : ((r.after (r.d.distcode.lengthOf c)).distBegin c).d.hold < 2 ^ _ := DecRun.after_hold_lt _
  rw [DecRun.distanceSym_of_code hh c e ho hno, ← DecRun.drained_after ho, DecRun.symbolOnly, DecRun.needBits_of_offers hh ho]
  dsimp only
  rw [DecRun.dropBits_holding ho, DecRun.starve_eq hheld]
  exact if_neg (by show ¬ r.d.mode = .len; rw [hm]; nofun)

end

/-- LENLENS takes the fields that are there whole and suspends, as the list of all fields does (R324). -/
theorem DecRun.readLenLens_eq : ∀ (lens : List (BitVec 3)) {n : Nat} {r : DecRun} {rest : List Bool}, r.d.hold < 2 ^ r.d.bits →
    lens.length < n → lens.length = r.d.ncode - r.d.have_ → r.stream ++ rest = lens.flatMap (fun v => bitsOf 3 v.toNat) →
    rest ≠ [] → DecRun.readLenLens n r = DecRun.takeLenLens lens r
  | [], _, _, _, _, _, _, henc, hne => absurd (List.append_eq_nil_iff.1 henc).2 hne
  | v :: vs, 0, _, _, _, hn, _, _, _ => absurd hn (Nat.not_lt_zero _)
  | v :: vs, n + 1, r, rest, hh, hn, hdue, henc, hne => by
    rw [List.length_cons] at hn hdue
    rw [DecRun.readLenLens, if_neg (by omega), DecRun.takeLenLens]
    by_cases ho : r.offers 3
    · have hthree : 3 ≤ r.stream.length := by rw [DecRun.length_stream]; exact ho
      have hfield : natOfBits (r.stream.take 3) = v.toNat := by
        have := congrArg (List.take 3) henc
        rw [List.take_append_of_le_length hthree, List.flatMap_cons, List.take_left' (length_bitsOf 3 _)] at this
        rw [this, natOfBits_bitsOf_of_lt v.isLt]
      have hdrop : r.stream.drop 3 ++ rest = vs.flatMap fun v => bitsOf 3 v.toNat := by
        have := congrArg (List.drop 3) henc
        rwa [List.drop_append_of_le_length hthree, List.flatMap_cons, drop_bitsOf_append] at this
      rw [DecRun.needBits_of_offers hh ho, DecRun.needBits_of_offers hh ho]
      dsimp only
      rw [DecRun.peekBits_holding, DecRun.dropBits_holding ho, hfield]
      refine DecRun.readLenLens_eq vs (rest := rest) (DecRun.after_hold_lt 3) (by omega) ?_ ?_ hne
      · show vs.length = r.d.ncode - (r.d.have_ + 1)
        omega
      · rw [← hdrop, ← DecRun.stream_after ho]
        rfl
    · rw [DecRun.needBits_of_not_offers hh ho, DecRun.needBits_of_not_offers hh ho]

/-! ## The decoder's action on part of an element -/

section
variable {r : DecRun} (hh : r.d.hold < 2 ^ r.d.bits)
include hh

theorem DecRun.onPart_more {ctx : WireContext} (hw : decodeWire ctx r.sight = .more) (hm : r.d.mode ≠ .lenLens) :
    r.onPart (decodeWire ctx r.sight) = some (.stop .needMoreInput r.drained) := by
  rw [hw]
  exact congrArg some (DecRun.partElement_eq hh hm)

/-- Part of an element that is read as fields of `n` bits in all (R181). -/
theorem DecRun.onPart_fields {ctx : WireContext} {n : Nat} (hw : decodeWire ctx r.sight = .more) (hm : r.d.mode ≠ .lenLens)
    (hno : ¬ r.offers n) (rest : DecRun → Act) : r.onPart (decodeWire ctx r.sight) = some (r.needBits n rest) := by
  rw [DecRun.onPart_more hh hw hm, DecRun.needBits_of_not_offers hh hno]

variable {s w e : Nat} {rest : List Bool} (hsight : r.sight = r.stream) (hne : rest ≠ [])
include hsight hne

/-- Part of a code-length symbol (R326). -/
theorem DecRun.onPart_cl (hm : r.d.mode = .codeLens) (hc : r.d.clcode.Proper) (hs : s < 19)
    (hentry : (r.d.clcode.entry s).isSome = true)
    (henc : r.stream ++ rest = r.d.clcode.bitsFor s ++ bitsOf (clExtra s) e) :
    r.onPart (decodeWire (.clSymbol r.d.clcode) r.sight) = some (actionOf (.cl s (clExtra s) e) r) := by
  have hpart := hc.peek_of_part hentry henc hne
  rw [DecRun.length_stream] at hpart
  rw [DecRun.cl_of_not_offers hh hs e (by unfold DecRun.offers; omega)]
  refine DecRun.onPart_more hh ?_ (by rw [hm]; nofun)
  rw [hsight, decodeWire, decodeCl]
  rcases hpart with ⟨hpeek, -⟩ | ⟨hpeek, -, -, hfield⟩
  · rw [hpeek]
  · rw [hpeek]
    dsimp only
    rw [hfield]

/-- Part of a literal/length symbol: of its code, or of a length's extra bits (R340, R342). -/
theorem DecRun.onPart_lit (hm : r.d.mode = .len) (hc : r.d.lencode.Proper) {i : Instr} (hi : i.shape = .lit s w e)
    (hentry : (r.d.lencode.entry s).isSome = true) (henc : r.stream ++ rest = r.d.lencode.bitsFor s ++ bitsOf w e) :
    r.onPart (decodeWire (.litSymbol r.d.lencode) r.sight) = some (actionOf (.lit s w e) r) := by
  have hs : s < 288 := by have := cases_of_shape_lit hi; omega
  rcases hc.peek_of_part hentry henc hne with ⟨hpeek, hlt⟩ | ⟨hpeek, hge, hlt, hfield⟩ <;> rw [DecRun.length_stream] at hlt
  · rw [DecRun.lit_of_not_offers hh hs w e (Nat.not_le.2 hlt)]
    exact DecRun.onPart_more hh (by rw [hsight, decodeWire, decodeLit, hpeek]) (by rw [hm]; nofun)
  · rw [DecRun.length_stream] at hge
    obtain ⟨hlo, hhi, hw⟩ : 257 ≤ s ∧ s ≤ 285 ∧ w = lenExtra.getD (s - 257) 0 := by
      rcases cases_of_shape_lit hi with h | h | ⟨hlo, hhi, hw, -⟩ | h
      · omega
      · omega
      · exact ⟨hlo, hhi, hw⟩
      · omega
    obtain ⟨c, rfl⟩ := Nat.exists_eq_add_of_le hlo
    rw [Nat.add_sub_cancel_left] at hw
    subst hw
    have hwire : decodeWire (.litSymbol r.d.lencode) r.sight = .symbolOnly (257 + c) (r.d.lencode.lengthOf (257 + c)) := by
      rw [hsight, decodeWire, decodeLit, hpeek]
      dsimp only
      rw [if_neg (by omega), if_neg (by omega), if_pos hhi, Nat.add_sub_cancel_left, hfield]
    rw [hwire, actionOf, if_neg (by omega), if_neg (by omega), if_pos hhi, Nat.add_sub_cancel_left]
    exact congrArg some (DecRun.symbolOnly_length hh hm e hge (Nat.not_le.2 hlt))

/-- Part of a distance symbol: of its code or of its extra bits (R343, R344). -/
theorem DecRun.onPart_dist (hm : r.d.mode = .dist) (hc : r.d.distcode.Proper) {i : Instr} (hi : i.shape = .dist s w e)
    (hentry : (r.d.distcode.entry s).isSome = true) (henc : r.stream ++ rest = r.d.distcode.bitsFor s ++ bitsOf w e) :
    r.onPart (decodeWire (.distSymbol r.d.distcode) r.sight) = some (actionOf (.dist s w e) r) := by
  rcases hc.peek_of_part hentry henc hne with ⟨hpeek, hlt⟩ | ⟨hpeek, hge, hlt, hfield⟩ <;> rw [DecRun.length_stream] at hlt
  · rw [DecRun.dist_of_not_offers hh w e (Nat.not_le.2 hlt)]
    exact DecRun.onPart_more hh (by rw [hsight, decodeWire, decodeDist, hpeek]) (by rw [hm]; nofun)
  · rw [DecRun.length_stream] at hge
    obtain ⟨hhi, hw⟩ : s < 30 ∧ w = distExtra.getD s 0 := by
      rcases cases_of_shape_dist hi with ⟨hhi, hw, -⟩ | h
      · exact ⟨hhi, hw⟩
      · omega
    subst hw
    have hwire : decodeWire (.distSymbol r.d.distcode) r.sight = .symbolOnly s (r.d.distcode.lengthOf s) := by
      rw [hsight, decodeWire, decodeDist, hpeek]
      dsimp only
      rw [if_pos hhi, hfield]
    rw [hwire, actionOf, if_pos hhi]
    exact congrArg some (DecRun.symbolOnly_distance hh hm e hge (Nat.not_le.2 hlt))

end

/-- Where the stream is the beginning of an element's encoding and not all of it, the decoder's own action is the element's, which takes
what is there (log entry 31). -/
theorem DecRun.onPart_element {r r' : DecRun} {i : Instr} {ctx : WireContext} {rest : List Bool} (hh : r.d.hold < 2 ^ r.d.bits)
    (hmode : i.mode = some r.d.mode) (hk : i.CodeProper r.d.codes) (hcode : i.hasCode r.d.codes = true)
    (hctx : i.context r.d.codes = some ctx) (hwf : i.wf = true)
    (hlens : ∀ lens, i = .codeLengthCodeLengths lens → lens.length = r.d.ncode - r.d.have_) (hne : rest ≠ [])
    (hr' : r' = if r.d.mode = .stored then r.byteBits else r) (henc : r'.stream ++ rest = encode r.d.codes i) :
    r'.onPart (decodeWire ctx r'.sight) = some (actionOf i.shape r) := by
  have hshort : r'.stream.length < (encode r.d.codes i).length := by
    rw [← henc, List.length_append]
    exact Nat.lt_add_of_pos_right (List.length_pos_iff.2 hne)
  have hsight : r'.sight = r'.stream :=
    DecRun.sight_eq_stream (hshort.trans_le ((length_encode_le hwf hk).trans (by decide)))
  have hno : ¬ r'.offers (encode r.d.codes i).length := by
    rw [DecRun.length_stream] at hshort
    exact Nat.not_le.2 hshort
  unfold Instr.mode at hmode
  unfold Instr.CodeProper at hk
  unfold Instr.hasCode at hcode
  unfold Instr.context at hctx
  unfold encode at henc hshort hno
  cases hsh : i.shape <;>
    simp only [hsh, Option.some.injEq, reduceCtorEq] at hmode hk hcode hctx henc hshort hno <;> subst hctx
  case stored l n =>
    obtain rfl : r' = r.byteBits := hr'.trans (if_pos hmode.symm)
    have hheld : r.byteBits.d.hold < 2 ^ r.byteBits.d.bits := by rw [DecRun.byteBits_eq_after hh]; exact DecRun.after_hold_lt _
    simp only [List.length_append, length_bitsOf] at hshort hno
    rw [actionOf, DecRun.storedPair]
    refine DecRun.onPart_fields hheld (n := 32) ?_ (by show r.d.mode ≠ .lenLens; rw [← hmode]; nofun) hno _
    rcases decodeWire_storedPair (bits := r.byteBits.sight) with ⟨-, -, -, hlen⟩ | ⟨hw, -⟩
    · rw [hsight] at hlen; omega
    · exact hw
  all_goals obtain rfl : r' = r := hr'.trans (if_neg (by rw [← hmode]; nofun))
  case header f t =>
    simp only [List.length_append, length_bitsOf] at hshort hno
    rw [actionOf, DecRun.takeHeader]
    refine DecRun.onPart_fields hh (n := 3) ?_ (by rw [← hmode]; nofun) hno _
    rcases decodeWire_header (bits := r'.sight) with ⟨-, -, -, -, hlen⟩ | ⟨hw, -⟩
    · rw [hsight] at hlen; omega
    · exact hw
  case counts a b x =>
    simp only [List.length_append, length_bitsOf] at hshort hno
    rw [actionOf, DecRun.counts]
    refine DecRun.onPart_fields hh (n := 14) ?_ (by rw [← hmode]; nofun) hno _
    rcases decodeWire_counts (bits := r'.sight) with ⟨-, -, -, -, hlen⟩ | ⟨hw, -⟩
    · rw [hsight] at hlen; omega
    · exact hw
  case clLens lens =>
    have hi := eq_clLens_of_shape hsh
    rw [hi, Instr.wf, decide_eq_true_eq] at hwf
    rcases decodeWire_clLens (n := lens.length) (bits := r'.sight) with ⟨-, -, -, hlen⟩ | ⟨hw, -⟩
    · rw [hsight] at hlen
      simp [List.length_flatMap] at hshort
      omega
    · rw [hw, actionOf]
      refine congrArg some ((if_pos hmode.symm).trans ?_)
      exact DecRun.readLenLens_eq lens hh (by omega) (hlens lens hi) henc hne
  case cl s w e =>
    obtain ⟨hs, rfl, -, -⟩ := eq_clInstr_of_shape hsh
    exact DecRun.onPart_cl hh hsight hne hmode.symm hk.1 hs hcode henc
  case lit s w e => exact DecRun.onPart_lit hh hsight hne hmode.symm hk.1 hsh hcode henc
  case dist s w e => exact DecRun.onPart_dist hh hsight hne hmode.symm hk.1 hsh hcode henc

/-! ## No code -/

/-- No code is longer than 15 bits, so that the stream begins no code shows in what is in sight (R335). -/
theorem DecRun.peek_sight_of_no_code {r : DecRun} {c : Code} (hc : c.Proper) {k : Nat} (hk : 1 ≤ k) (ho : r.offers k)
    (hno : ∀ e ∈ c, ¬ e.wire <+: r.stream.take k ∧ ¬ r.stream.take k <+: e.wire)
    (hleast : ∀ j, 1 ≤ j → j < k → ∃ e ∈ c, r.stream.take j <+: e.wire) : peek c r.sight = .invalid k := by
  have hstream := r.length_stream
  have h16 : k ≤ 16 := by
    by_contra hlong
    obtain ⟨e, he, hpre⟩ := hleast (k - 1) (by omega) (by omega)
    have hle := hpre.length_le
    have h15 := hc.len_le he
    rw [List.length_take, CodeEntry.length_wire, hstream] at hle
    unfold DecRun.offers at ho
    omega
  have hsight : k ≤ r.sight.length := by
    rw [DecRun.length_sight]
    unfold DecRun.offers at ho
    omega
  have htake : ∀ j ≤ k, r.sight.take j = r.stream.take j := fun j hj => by
    rw [DecRun.length_sight] at hsight
    rw [DecRun.sight_eq, List.take_take, Nat.min_eq_left (hj.trans hsight)]
  refine hc.peek_of_no_code hk hsight (fun e he => ?_) fun j hj hlt => ?_
  · rw [htake k (Nat.le_refl k)]; exact hno e he
  · rw [htake j hlt.le]; exact hleast j hj hlt

end Machine

end Sys2Proof
end

