-- ==== Sys2Proof/Proofs/StoredCopies.lean ====
section
/-! PROOF. Sys2Proof/Proofs/StoredCopies.lean: the bytes of a stored block are the input bytes at the cursor, copied as far as both buffers
allow (R322): the input stays as it was while the output is written, since the buffers do not overlap (R84). -/

namespace Sys2Proof.Machine

open Sys2Proof

/-- No byte of the input buffer is a byte of the output buffer. -/
abbrev Io.Apart (io : Io) : Prop := ∀ i < io.inLen, ∀ j < io.outLen, io.inAt i ≠ io.outAt j

/-- Ranges that pass the check of R84 hold no common byte. -/
theorem State.apart_of_rangesOk {s : State} (h : s.rangesOk = true) (c p : Nat) : (s.io c p).Apart := by
  intro i hi j hj
  have hi : i < s.inLen.toNat := hi
  have hj : j < s.outLen.toNat := hj
  simp only [State.rangesOk, Bool.and_eq_true, Bool.or_eq_true, decide_eq_true_eq] at h
  obtain ⟨⟨hin, hout⟩, hdisjoint⟩ := h
  have hsize : Config.memSize = 2 ^ 32 := rfl
  have hinNe : s.inLen ≠ 0 := fun h0 => by rw [h0] at hi; exact absurd hi (Nat.not_lt_zero _)
  have houtNe : s.outLen ≠ 0 := fun h0 => by rw [h0] at hj; exact absurd hj (Nat.not_lt_zero _)
  have hinAt : (s.io c p).inAt i = s.inAddr.toNat + i := by
    show (s.inAddr + BitVec.ofNat 32 i).toNat = _
    rw [BitVec.toNat_add, BitVec.toNat_ofNat, Nat.add_mod_mod, Nat.mod_eq_of_lt (by omega)]
  have houtAt : (s.io c p).outAt j = s.outAddr.toNat + j := by
    show (s.outAddr + BitVec.ofNat 32 j).toNat = _
    rw [BitVec.toNat_add, BitVec.toNat_ofNat, Nat.add_mod_mod, Nat.mod_eq_of_lt (by omega)]
  rw [hinAt, houtAt]
  rcases hdisjoint with ((h0 | h0) | hlt) | hlt
  · exact absurd h0 hinNe
  · exact absurd h0 houtNe
  · omega
  · omega

/-- A byte written to the output changes no byte of the input. -/
theorem Io.inBytes_outWrite {io : Io} (hwf : io.mem.wf = true) (hapart : io.Apart) (hspace : io.produced < io.outLen) (b : Byte) :
    ∀ (n i : Nat), i + n ≤ io.inLen → (io.outWrite b).inBytes i n = io.inBytes i n
  | 0, _, _ => rfl
  | n + 1, i, h => by
    have hread : (io.outWrite b).inRead i = io.inRead i := by
      rw [Io.inRead, Io.inRead, Io.outWrite_mem, Io.outWrite_inAt, Memory.read_write hwf, if_neg]
      exact hapart i (by omega) io.produced hspace
    rw [Io.inBytes, Io.inBytes, hread, Io.inBytes_outWrite hwf hapart hspace b n (i + 1) (by omega)]

/-- COPY's loop writes the next input bytes (R322). -/
theorem DecRun.copyBytes_eq (m : DecMode) : ∀ (n : Nat) {r : DecRun}, r.io.mem.wf = true → r.io.Apart → n ≤ r.io.availIn →
    n ≤ r.io.availOut →
    DecRun.copyBytes n { r with d := { r.d with mode := m } } =
      let r' := DecRun.wrote (r.io.inBytes r.io.consumed n) { r with io := r.io.consume n }
      { r' with d := { r'.d with length := r.d.length - n, mode := m } }
  | 0, r, _, _, _, _ => by
    show DecRun.mk { r.d with mode := m } r.io = DecRun.mk { r.d with mode := m } (r.io.consume 0)
    rw [Io.consume_zero]
  | n + 1, r, hwf, hapart, hin, hout => by
    have hin' : n + 1 ≤ r.io.inLen - r.io.consumed := hin
    have hout' : n + 1 ≤ r.io.outLen - r.io.produced := hout
    set b := r.io.inRead r.io.consumed with hb
    set bs := r.io.inBytes (r.io.consumed + 1) n with hbs
    have ih := DecRun.copyBytes_eq m n
      (r := { d := { r.d.remember b with length := r.d.length - 1 }, io := (r.io.consume 1).outWrite b })
      (Memory.wf_write b (r.io.outAt_lt _) hwf) hapart (by rw [Io.outWrite_availIn, Io.consume_availIn]; omega)
      (by rw [Io.outWrite_availOut, Io.consume_availOut]; omega)
    have hbytes : ((r.io.consume 1).outWrite b).inBytes (r.io.consumed + 1) n = bs := by
      rw [Io.inBytes_outWrite (io := r.io.consume 1) hwf hapart (by show r.io.produced < r.io.outLen; omega) b n _
        (by show r.io.consumed + 1 + n ≤ r.io.inLen; omega), Io.consume_inBytes]
    have hcursor : ((r.io.consume 1).outWrite b).consume n = (r.io.consume (n + 1)).outWrite b := by
      rw [Nat.add_comm n 1, ← Io.consume_consume]
      rfl
    have hwith := Dec.rememberAll_with (r.d.length - 1) r.d.mode bs (r.d.remember b)
    rw [show r.io.inBytes r.io.consumed (n + 1) = b :: bs from rfl, show r.d.length - (n + 1) = r.d.length - 1 - n by omega]
    refine ih.trans ?_
    show DecRun.mk { Dec.rememberAll (((r.io.consume 1).outWrite b).inBytes (r.io.consumed + 1) n)
        { r.d.remember b with length := r.d.length - 1, mode := r.d.mode } with length := r.d.length - 1 - n, mode := m }
      (Io.outBytes (((r.io.consume 1).outWrite b).inBytes (r.io.consumed + 1) n) (((r.io.consume 1).outWrite b).consume n)) = _
    rw [hbytes, hcursor, hwith]
    rfl

/-- A command that suspends (R181). -/
theorem State.settle_suspended (s : State) {res : Result} (hres : res ≠ .malformedStream) (r : DecRun) :
    s.settle (.stop res r) = s.suspended r res := by
  rw [State.settle_stop, State.finish, Status.after_of_ne_malformed hres]
  rfl

/-- COPY: what both buffers allow is copied; the block is over, or the output is full, or else the input is used up (R322). -/
theorem State.settle_copy (s : State) {r : DecRun} (hwf : r.io.mem.wf = true) (hapart : r.io.Apart) :
    s.settle (DecRun.copy { r with d := { r.d with mode := .copy } }) = s.afterCopy r := by
  have hcopy := DecRun.copyBytes_eq .copy r.copyable hwf hapart (by unfold DecRun.copyable; omega)
    (by unfold DecRun.copyable; omega)
  have hout : (DecRun.wrote (r.io.inBytes r.io.consumed r.copyable) { r with io := r.io.consume r.copyable }).io.availOut =
      r.io.availOut - r.copyable := by
    rw [DecRun.wrote, Io.outBytes_availOut, Io.length_inBytes, Io.consume_availOut]
  have hle : r.copyable ≤ r.d.length ∧ r.copyable ≤ r.io.availOut := by unfold DecRun.copyable; omega
  rw [DecRun.copy, State.afterCopy]
  dsimp only
  rw [show min r.d.length (min r.io.availOut r.io.availIn) = r.copyable from rfl, hcopy]
  dsimp only
  by_cases hall : r.copyable = r.d.length
  · rw [if_pos hall, if_pos (by omega), hall, Nat.sub_self]
    rfl
  · rw [if_neg hall, if_neg (by omega)]
    by_cases hfull : r.copyable = r.io.availOut
    · rw [if_pos hfull, if_pos (by rw [hout]; omega)]
      exact s.settle_suspended (res := .needMoreOutput) nofun _
    · rw [if_neg hfull, if_neg (by rw [hout]; omega)]
      exact s.settle_suspended (res := .needMoreInput) nofun _

end Sys2Proof.Machine
end

