-- ==== Sys2Proof/Proofs/SuspendedActions.lean ====
section
/-! PROOF. Sys2Proof/Proofs/SuspendedActions.lean: the state actions that execute no whole element (44_block_decoder.md R311): the end of the
stream, the modes in which a command has suspended, elements that are not there whole, and bits that begin no code. -/

namespace Sys2Proof.Machine

open Sys2Proof

/-! ## Extra bits read where a command has suspended -/

theorem DecRun.offers_holding {r : DecRun} (n : Nat) : (r.holding (r.pulls n)).offers n := by
  have hpl : r.pulls n = (n - r.d.bits + 7) / 8 := rfl
  show n ≤ r.d.bits + 8 * r.pulls n + _
  omega

section
variable {r : DecRun} (hh : r.d.hold < 2 ^ r.d.bits)
include hh

/-- LENEXT reads its extra bits off the stream (R342). -/
theorem DecRun.lenExt_resumed (ho : r.offers r.d.extra) :
    (r.needBits r.d.extra fun r => r.lenExt (r.peekBits r.d.extra)) = .go { r.after r.d.extra with d := { (r.after r.d.extra).d with
      length := r.d.length + natOfBits (r.stream.take r.d.extra), mode := .dist } } := by
  rw [DecRun.needBits_of_offers hh ho]
  refine (DecRun.lenExt_of_offers (DecRun.holding_hold_lt _) (DecRun.offers_holding r.d.extra) _).trans ?_
  show Act.go { (r.holding (r.pulls r.d.extra)).after r.d.extra with
    d := { ((r.holding (r.pulls r.d.extra)).after r.d.extra).d with
      length := r.d.length + (r.holding (r.pulls r.d.extra)).peekBits r.d.extra, mode := .dist } } = _
  rw [DecRun.holding_after ho, DecRun.peekBits_holding]

/-- DISTEXT reads its extra bits off the stream; the distance reaches behind the history (R344). -/
theorem DecRun.distExt_resumed_beyond (ho : r.offers r.d.extra)
    (hfar : r.d.whave < r.d.offset + natOfBits (r.stream.take r.d.extra)) :
    (r.needBits r.d.extra fun r => r.distExt (r.peekBits r.d.extra)) = DecRun.raise 11 { r.after r.d.extra with
      d := { (r.after r.d.extra).d with offset := r.d.offset + natOfBits (r.stream.take r.d.extra) } } := by
  rw [DecRun.needBits_of_offers hh ho]
  rw [← DecRun.peekBits_holding] at hfar ⊢
  refine (DecRun.distExt_beyond (DecRun.holding_hold_lt _) (DecRun.offers_holding r.d.extra) hfar).trans ?_
  rw [← DecRun.holding_after ho]
  rfl

/-- DISTEXT reads its extra bits off the stream; the distance is within the history (R344). -/
theorem DecRun.distExt_resumed_within (ho : r.offers r.d.extra)
    (hnear : r.d.offset + natOfBits (r.stream.take r.d.extra) ≤ r.d.whave) :
    (r.needBits r.d.extra fun r => r.distExt (r.peekBits r.d.extra)) = DecRun.copyMatch { r.after r.d.extra with
      d := { (r.after r.d.extra).d with
        offset := r.d.offset + natOfBits (r.stream.take r.d.extra), mode := .copyMatch } } := by
  rw [DecRun.needBits_of_offers hh ho]
  rw [← DecRun.peekBits_holding] at hnear ⊢
  refine (DecRun.distExt_within (DecRun.holding_hold_lt _) (DecRun.offers_holding r.d.extra) hnear).trans ?_
  rw [← DecRun.holding_after ho]
  rfl

end

/-! ## Modes -/

theorem DecRun.with_mode {r : DecRun} {m : DecMode} (h : r.d.mode = m) : { r with d := { r.d with mode := m } } = r := by rw [← h]

section
variable {r : DecRun}

theorem DecRun.next_type (hm : r.d.mode = .type) (hlast : r.d.last = true) : r.next = .act r.endOfStream := by
  simp only [DecRun.next, hm, if_pos hlast]

theorem DecRun.next_copy (hm : r.d.mode = .copy) : r.next = .act r.copy := by simp only [DecRun.next, hm]

theorem DecRun.next_len (hm : r.d.mode = .len) : r.next = .fetch r (.litSymbol r.d.lencode) := by simp only [DecRun.next, hm]

theorem DecRun.next_lenExt (hm : r.d.mode = .lenExt) :
    r.next = .act (r.needBits r.d.extra fun r => r.lenExt (r.peekBits r.d.extra)) := by simp only [DecRun.next, hm]

theorem DecRun.next_dist (hm : r.d.mode = .dist) : r.next = .fetch r (.distSymbol r.d.distcode) := by simp only [DecRun.next, hm]

theorem DecRun.next_distExt (hm : r.d.mode = .distExt) :
    r.next = .act (r.needBits r.d.extra fun r => r.distExt (r.peekBits r.d.extra)) := by simp only [DecRun.next, hm]

theorem DecRun.next_copyMatch (hm : r.d.mode = .copyMatch) : r.next = .act r.copyMatch := by simp only [DecRun.next, hm]

theorem DecRun.next_lit (hm : r.d.mode = .lit) : r.next = .act r.lit := by simp only [DecRun.next, hm]

theorem DecRun.next_done (hm : r.d.mode = .done) : r.next = .act (.stop .streamEnd r) := by simp only [DecRun.next, hm]

end

/-- LIT writes its literal where there is space (R345). -/
theorem DecRun.lit_of_space {r : DecRun} (h : 0 < r.io.availOut) :
    r.lit = .go (DecRun.wrote [BitVec.ofNat 8 r.d.length] { r with d := { r.d with mode := .len } }) := if_neg h.ne'

theorem DecRun.lit_of_full {r : DecRun} (h : r.io.availOut = 0) : r.lit = .stop .needMoreOutput r := if_pos h

/-! ## Steps -/

section
variable {s : State} {d : Dec} {c p : Nat} (hs : s.stream = .dec d) (hp : s.phase = .decoding c p) (hok : d.Ok)
include hs hp hok

/-- Part of an element (log entry 31): the state action is `exec` of the element. -/
theorem decoderStep_of_part {i : Instr} {rest : List Bool} (hmode : i.mode = some d.mode) (hmore : d.mode = .type → d.last = false)
    (hwf : i.wf = true) (hcode : i.hasCode d.codes = true)
    (hlens : ∀ lens, i = .codeLengthCodeLengths lens → lens.length = d.ncode - d.have_)
    (hdue : d.mode = .codeLens → d.have_ < d.nlen + d.ndist) (hne : rest ≠ [])
    (henc : (if d.mode = .stored then (s.runAt d c p).byteBits.stream else (s.runAt d c p).stream) ++ rest = encode d.codes i) :
    decoderStep s = exec i s := by
  have hat : s.At d c p d.mode := ⟨hs, hp, rfl, hmore, hok⟩
  obtain ⟨ctx, hctx, hnext⟩ := hat.next_eq_fetch hmode hwf hlens hdue
  rw [← apply_ite DecRun.stream] at henc
  rw [hat.exec_eq hmode fun lens hi => (hlens lens hi).le]
  exact decoderStep_onPart hs hp hnext
    (DecRun.onPart_element (r := s.runAt d c p) hok.hold hmode (hat.codeProper hmode) hcode hctx hwf hlens hne rfl henc)

/-- Bits that begin no code of the code in force, and that no code begins (R332, R335, R336). -/
theorem decoderStep_of_no_code {code : Code} {sub k : Nat}
    (hkind : (d.mode = .len ∧ code = d.lencode ∧ sub = 9) ∨ (d.mode = .dist ∧ code = d.distcode ∧ sub = 10)) (hk : 1 ≤ k)
    (ho : (s.runAt d c p).offers k)
    (hno : ∀ e ∈ code, ¬ e.wire <+: (s.runAt d c p).stream.take k ∧ ¬ (s.runAt d c p).stream.take k <+: e.wire)
    (hleast : ∀ j, 1 ≤ j → j < k → ∃ e ∈ code, (s.runAt d c p).stream.take j <+: e.wire) :
    decoderStep s = .next (s.malformed ((s.runAt d c p).after k) sub) := by
  obtain ⟨ctx, hnext, hwire, hc, hm, hsub⟩ : ∃ ctx, (s.runAt d c p).next = .fetch (s.runAt d c p) ctx ∧
      (∀ bits, peek code bits = .invalid k → decodeWire ctx bits = .noCode k) ∧ code.Proper ∧ d.mode ≠ .codeLens ∧
      (if d.mode = .len then 9 else 10) = sub := by
    rcases hkind with ⟨hm, rfl, rfl⟩ | ⟨hm, rfl, rfl⟩
    · exact ⟨_, DecRun.next_len hm, fun _ => decodeLit_of_no_code,
        (hok.body (by rw [hm]; decide)).1.1, by rw [hm]; nofun, if_pos hm⟩
    · exact ⟨_, DecRun.next_dist hm, fun _ => decodeDist_of_no_code, (hok.body (by rw [hm]; decide)).2.1, by rw [hm]; nofun,
        if_neg (by rw [hm]; nofun)⟩
  rw [decoderStep_noCode hs hp hnext (hwire _ (DecRun.peek_sight_of_no_code hc hk ho hno hleast)) hm,
    DecRun.noCode_eq hok.hold ho, ← hsub]
  rfl

end

end Sys2Proof.Machine

open Sys2Proof Sys2Proof.Machine

/-- Settles O47: mode by mode the state action is the mode's own, with what the stream and the buffers have; part of an element is
`decoderStep_of_part`, and bits without a code are `decoderStep_of_no_code`. -/
theorem suspendedActionsResume : Obligations.SuspendedActionsResume := by
  intro s d c p hs hp hok _ hq hdev r
  have hh : r.d.hold < 2 ^ r.d.bits := hok.hold
  have hwindow : 1 < d.w := Nat.one_lt_two_pow (by have := hok.wbits; omega)
  have hact : ∀ {a : Act}, r.next = .act a → decoderStep s = .next (s.settle a) := decoderStep_act hs hp
  have hspace : r.io.availOut = s.outLen.toNat - p := rfl
  rw [step_quiet hq (by rw [hp]; nofun), engineStep_decoding hp hdev]
  refine ⟨fun hm hlast => ?type, fun hm hranges hwf => ?copy, fun hm => ?lenExt, fun hm => ?distExt, fun hm hpos hw => ?copyMatch,
    fun hm => ?lit, fun hm => ?done, fun i rest hmode hmore hwf hcode hlens hdue hne henc => ?part,
    fun code sub k hkind hk ho hno hleast => ?noCode⟩
  case part => exact decoderStep_of_part hs hp hok hmode hmore hwf hcode hlens hdue hne henc
  case noCode => exact decoderStep_of_no_code hs hp hok hkind hk ho hno hleast
  all_goals replace hm : r.d.mode = _ := hm
  case type => exact hact (DecRun.next_type hm hlast)
  case copy =>
    have hcopy := s.settle_copy (r := r) hwf (State.apart_of_rangesOk hranges c p)
    rw [DecRun.with_mode hm] at hcopy
    rw [hact (DecRun.next_copy hm), hcopy]
  case lenExt =>
    rw [hact (DecRun.next_lenExt hm)]
    refine ⟨fun ho => ?_, fun hno => ?_⟩
    · rw [DecRun.lenExt_resumed hh ho]; rfl
    · rw [DecRun.needBits_of_not_offers (n := r.d.extra) hh hno, s.settle_suspended (res := .needMoreInput) nofun]
  case distExt =>
    rw [hact (DecRun.next_distExt hm)]
    refine ⟨fun ho hpos => ⟨fun hnear => ?_, fun hfar => ?_⟩, fun hno => ?_⟩
    · rw [DecRun.distExt_resumed_within hh ho hnear]
      exact congrArg _ (s.settle_copyMatch (r := { r.after d.extra with d := { (r.after d.extra).d with
        offset := d.offset + natOfBits (r.stream.take d.extra) } }) hok.wnext hwindow (hpos.trans (Nat.le_add_right _ _))
        (hnear.trans hok.whave))
    · rw [DecRun.distExt_resumed_beyond hh ho hfar]; rfl
    · rw [DecRun.needBits_of_not_offers (n := r.d.extra) hh hno, s.settle_suspended (res := .needMoreInput) nofun]
  case copyMatch =>
    have hcopy := s.settle_copyMatch (r := r) hok.wnext hwindow hpos hw
    rw [DecRun.with_mode hm] at hcopy
    rw [hact (DecRun.next_copyMatch hm), hcopy]
  case lit =>
    rw [hact (DecRun.next_lit hm)]
    refine ⟨fun hlt => ?_, fun hfull => ?_⟩
    · rw [DecRun.lit_of_space (by omega)]; rfl
    · rw [DecRun.lit_of_full (by omega), s.settle_suspended (res := .needMoreOutput) nofun]
  case done => rw [hact (DecRun.next_done hm), s.settle_suspended (res := .streamEnd) nofun]
end

