-- ==== Sys2Proof/Proofs/CodeLengthSets.lean ====
section
/-! PROOF. Sys2Proof/Proofs/CodeLengthSets.lean: the canonical code leaves no gap before a code (R196, R330), and which length sets the
decoder accepts, by their Kraft slack (R331, R332). -/

namespace Sys2Proof

open Machine

/-! ## The space that the codes before a code take -/

/-- The lengths of canonical codes below `l` take the space up to the first code of length `l`, in units of `2^-15`. -/
theorem sum_share_pred (lens : List Nat) {l : Nat} (h1 : 1 ≤ l) (h15 : l ≤ 15) :
    (lens.map (share (l - 1))).sum * 2 ^ (16 - l) = firstCode lens l * 2 ^ (15 - l) := by
  obtain ⟨k, rfl⟩ := Nat.exists_eq_add_of_le' h1
  rw [Nat.add_sub_cancel, sum_share, firstCode_succ, Nat.mul_assoc, ← pow_succ', show 15 - (k + 1) + 1 = 16 - (k + 1) by omega]

theorem Code.kraft_cons (s l k : Nat) (c : Code) :
    Code.kraft ({ sym := s, len := l, canon := k } :: c) = 2 ^ (15 - l) + c.kraft := by
  rw [Code.kraft, List.map_cons, List.sum_cons, Code.kraft]

/-- What the codes before the code of length `l` of symbol `s` take: all shorter ones, and the earlier ones of length `l` (R196). -/
theorem kraft_assignCodes_before {l s : Nat} (h1 : 1 ≤ l) (h15 : l ≤ 15) (ls : List Nat) : ∀ (n : Nat) (next : List Nat),
    Code.kraft ((assignCodes n ls next).filter fun e => decide (e.len < l ∨ (e.len = l ∧ e.sym < s))) =
      (ls.map (share (l - 1))).sum * 2 ^ (16 - l) + (ls.take (s - n)).count l * 2 ^ (15 - l) := by
  induction ls with
  | nil => intro n next; simp [assignCodes, Code.kraft]
  | cons v rest ih =>
    intro n next
    have htake : ((v :: rest).take (s - n)).count l = (rest.take (s - (n + 1))).count l + if v = l ∧ n < s then 1 else 0 := by
      rcases Nat.lt_or_ge n s with hlt | hge
      · rw [show s - n = s - (n + 1) + 1 by omega, List.take_succ_cons, List.count_cons]
        simp [hlt]
      · rw [show s - n = 0 by omega, show s - (n + 1) = 0 by omega]
        simp [Nat.not_lt.2 hge]
    rw [assignCodes, htake, List.map_cons, List.sum_cons]
    by_cases h0 : v = 0
    · rw [if_pos h0, ih, if_neg (by omega), h0, share, if_pos (.inl rfl), Nat.zero_add, Nat.add_zero (List.count _ _)]
    rw [if_neg h0, List.filter_cons]
    dsimp only
    rcases Nat.lt_trichotomy v l with hlt | rfl | hgt
    · have hshare : share (l - 1) v * 2 ^ (16 - l) = 2 ^ (15 - v) := by
        rw [share, if_neg (by omega), ← pow_add]; congr 1; omega
      rw [if_pos (by simp [hlt]), Code.kraft_cons, ih, if_neg (by omega), Nat.add_mul, hshare]
      ring
    · rw [show share (v - 1) v = 0 by rw [share, if_pos (by omega)]]
      by_cases hs : n < s
      · rw [if_pos (by simp [hs]), if_pos ⟨rfl, hs⟩, Code.kraft_cons, ih]
        ring
      · rw [if_neg (by simp [hs]), if_neg (by omega), ih, Nat.zero_add, Nat.add_zero (List.count _ _)]
    · rw [if_neg (by simp; omega), if_neg (by omega), show share (l - 1) v = 0 by rw [share, if_pos (by omega)], ih, Nat.zero_add,
        Nat.add_zero (List.count _ _)]

/-- A symbol's code has the symbol's own length (R196). -/
theorem lengthOf_canonicalCode {lens : List Nat} (hl : ∀ l ∈ lens, l ≤ 15) (s : Nat) :
    (canonicalCode lens).lengthOf s = lens.getD s 0 := by
  rw [Code.lengthOf, entry_canonicalCode hl]
  by_cases h0 : lens.getD s 0 = 0
  · rw [if_pos h0, h0]
  · rw [if_neg h0]

/-! ## Acceptable length sets -/

/-- The Kraft slack in closed form: `2^l` less what the codes of each length up to `l` take (R331). -/
theorem kraftLeft_eq_sum (lens : List Nat) (l : Nat) : kraftLeft lens l =
    2 ^ l - (((List.range l).map fun j => (lens.count (j + 1) : Int) * 2 ^ (l - (j + 1))).sum) := by
  induction l with
  | zero => rfl
  | succ l ih =>
    have hdouble : ((List.range l).map fun j => (lens.count (j + 1) : Int) * 2 ^ (l + 1 - (j + 1))).sum =
        2 * ((List.range l).map fun j => (lens.count (j + 1) : Int) * 2 ^ (l - (j + 1))).sum := by
      rw [← List.sum_map_mul_left]
      refine congrArg List.sum (List.map_congr_left fun j hj => ?_)
      have hlt := List.mem_range.1 hj
      rw [show l + 1 - (j + 1) = l - (j + 1) + 1 by omega, pow_succ]
      ring
    rw [kraftLeft, ih, List.range_succ, List.map_append, List.sum_append, hdouble, List.map_singleton, List.sum_singleton,
      Nat.sub_self, pow_zero, mul_one, pow_succ, blCount, if_neg (Nat.succ_ne_zero l)]
    ring

theorem overSubscribed_eq_false_iff (lens : List Nat) (n : Nat) :
    overSubscribed lens n = false ↔ ∀ l, 1 ≤ l → l ≤ n → 0 ≤ kraftLeft lens l := by
  induction n with
  | zero => exact ⟨fun _ l h1 h0 => by omega, fun _ => rfl⟩
  | succ n ih =>
    rw [overSubscribed, Bool.or_eq_false_iff, decide_eq_false_iff_not, Int.not_lt, ih]
    constructor
    · rintro ⟨hlast, hbefore⟩ l h1 hle
      rcases Nat.le_succ_iff.1 hle with h | rfl
      · exact hbefore l h1 h
      · exact hlast
    · exact fun h => ⟨h _ (Nat.succ_pos n) (Nat.le_refl _), fun l h1 hle => h l h1 (Nat.le_succ_of_le hle)⟩

/-- `acceptable` by the slack of the depths (R331, R332). -/
theorem acceptable_iff (allow : Bool) (lens : List Nat) (kind : SetKind) : acceptable allow lens kind = true ↔
    ((∀ l ∈ lens, l = 0) ∧ kind = .dists) ∨
      ((∃ l ∈ lens, l ≠ 0) ∧ (∀ l, 1 ≤ l → l ≤ 15 → 0 ≤ kraftLeft lens l) ∧
        (kraftLeft lens 15 = 0 ∨ (kind ≠ .codes ∧ allow = true ∧ ∀ l ∈ lens, l ≤ 1))) := by
  have hzero : lens.all (· == 0) = true ↔ ∀ l ∈ lens, l = 0 := by simp
  have hexists : (∃ l ∈ lens, l ≠ 0) ↔ ¬ ∀ l ∈ lens, l = 0 := by push Not; rfl
  rw [hexists, ← overSubscribed_eq_false_iff, ← hzero, acceptable]
  by_cases hall : lens.all (· == 0) = true
  · simp [hall]
  · rw [if_neg hall]
    cases hover : overSubscribed lens 15 with
    | true => simp [hall]
    | false =>
      have hslack := (overSubscribed_eq_false_iff lens 15).1 hover 15 (by decide) (Nat.le_refl _)
      by_cases hpos : 0 < kraftLeft lens 15
      · simp [hall, hpos, hpos.ne', and_assoc]
      · simp [hall, le_antisymm (Int.not_lt.1 hpos) hslack]

end Sys2Proof

open Sys2Proof Sys2Proof.Machine

/-- Settles O16: a code is the first of its length plus its rank there, and that is the space of the codes before it. -/
theorem canonicalOrder : Obligations.CanonicalOrder := by
  refine fun lens hl => ⟨lengthOf_canonicalCode hl, fun e he => ?_⟩
  obtain ⟨hlt, hlen, hne, hcanon⟩ := (mem_canonicalCode hl e).1 he
  have h15 : e.len ≤ 15 := hlen ▸ hl _ (List.getElem_mem hlt)
  rw [canonicalCode, kraft_assignCodes_before (Nat.pos_of_ne_zero hne) h15, sum_share_pred lens (Nat.pos_of_ne_zero hne) h15, hcanon,
    Nat.add_mul, Nat.sub_zero]

/-- Settles O17: `acceptable_iff` with the slack in closed form, and that no code of an accepted set begins another. -/
theorem acceptableSets : Obligations.AcceptableSets := by
  refine ⟨rfl, fun allow lens kind hl => ⟨?_, acceptable_proper hl⟩⟩
  simp only [← kraftLeft_eq_sum]
  exact acceptable_iff allow lens kind
end

