-- ==== Sys2Proof/Proofs/HuffmanMerges.lean ====
section
/-! PROOF. Sys2Proof/Proofs/HuffmanMerges.lean: the leaves of a Huffman tree (R192) and the merges that join them (R193). Whatever the
order of the heap, each merge takes two nodes out of it and puts their parent in, so the places from `heap_max` on, read upwards, split
the root into the leaves. -/

namespace Sys2Proof.Machine

open Sys2Proof

/-! ## Work arrays -/

theorem wread_wwrite (t : Ram) (v : Nat) {k k' : Nat} (hk : k < 1024) (hk' : k' < 1024) :
    wread (wwrite t k v) k' = if k' = k then v else wread t k' := by
  rw [wread, wwrite, Ram.get_set, Nat.mod_eq_of_lt (b := 2 ^ 10) hk', Nat.mod_eq_of_lt (b := 2 ^ 10) hk, wread]

theorem wlist_eq_map (t : Ram) : ∀ (n k : Nat), wlist t k n = (List.range' k n).map (wread t)
  | 0, _ => rfl
  | n + 1, k => by rw [wlist, wlist_eq_map t n, List.range'_succ, List.map_cons]

@[simp] theorem length_wlist (t : Ram) (k n : Nat) : (wlist t k n).length = n := by
  rw [wlist_eq_map, List.length_map, List.length_range']

theorem wlist_congr {t t' : Ram} {k n : Nat} (h : ∀ i, k ≤ i → i < k + n → wread t i = wread t' i) :
    wlist t k n = wlist t' k n := by
  rw [wlist_eq_map, wlist_eq_map]
  exact List.map_congr_left fun i hi => h i (List.mem_range'_1.1 hi).1 (List.mem_range'_1.1 hi).2

theorem wlist_wwrite_outside (t : Ram) (v : Nat) {i k n : Nat} (hi : i < 1024) (hn : k + n ≤ 1024) (h : i < k ∨ k + n ≤ i) :
    wlist (wwrite t i v) k n = wlist t k n :=
  wlist_congr fun j hj hj' => by rw [wread_wwrite t v hi (by omega), if_neg (by omega)]

theorem wlist_succ_right (t : Ram) (k n : Nat) : wlist t k (n + 1) = wlist t k n ++ [wread t (k + n)] := by
  rw [wlist_eq_map, wlist_eq_map, List.range'_1_concat, List.map_append, List.map_singleton]

theorem getElem_wlist (t : Ram) {k n i : Nat} (h : i < (wlist t k n).length) : (wlist t k n)[i] = wread t (k + i) := by
  simp [wlist_eq_map]

theorem wlist_wwrite_inside (t : Ram) (v : Nat) {i k n : Nat} (hn : k + n ≤ 1024) (hk : k ≤ i) (hi : i < k + n) :
    wlist (wwrite t i v) k n = (wlist t k n).set (i - k) v := by
  refine List.ext_getElem (by simp) fun j hj hj' => ?_
  rw [length_wlist] at hj
  rw [getElem_wlist, List.getElem_set, getElem_wlist, wread_wwrite t v (by omega) (by omega)]
  by_cases h : k + j = i
  · rw [if_pos h, if_pos (by omega)]
  · rw [if_neg h, if_neg (by omega)]

/-! ## The heap -/

/-- The nodes that stand in the heap (R192). -/
def Build.frontier (b : Build) : List Nat := wlist b.heap 1 b.heapLen

/-- The nodes that the merges took out of the heap, the last first (R193). -/
def Build.removed (b : Build) : List Nat := wlist b.heap b.heapMax (Config.heapSize - b.heapMax)

@[simp] theorem Build.length_frontier (b : Build) : b.frontier.length = b.heapLen := length_wlist _ _ _

/-- `siftDown` writes places of the heap only, and `v` stands where place `k` was. -/
theorem siftDown_spec (v : Nat) : ∀ (fuel k : Nat) (b : Build), 1 ≤ k → k ≤ b.heapLen → b.heapLen < 1024 →
    ∃ h, siftDown v fuel k b = { b with heap := h } ∧ (wlist h 1 b.heapLen).Perm (b.frontier.set (k - 1) v) ∧
      ∀ i, b.heapLen < i → i < 1024 → wread h i = wread b.heap i := by
  have hstop : ∀ (k : Nat) (b : Build), 1 ≤ k → k ≤ b.heapLen → b.heapLen < 1024 →
      (wlist (wwrite b.heap k v) 1 b.heapLen).Perm (b.frontier.set (k - 1) v) ∧
      ∀ i, b.heapLen < i → i < 1024 → wread (wwrite b.heap k v) i = wread b.heap i := fun k b h1 hk hlen =>
    ⟨.of_eq (wlist_wwrite_inside b.heap v (by omega) h1 (by omega)),
      fun i hi hi' => by rw [wread_wwrite b.heap v (by omega) hi', if_neg (by omega)]⟩
  intro fuel
  induction fuel with
  | zero => exact fun k b h1 hk hlen => ⟨_, rfl, hstop k b h1 hk hlen⟩
  | succ fuel ih =>
    intro k b h1 hk hlen
    rw [siftDown]
    split
    · exact ⟨_, rfl, hstop k b h1 hk hlen⟩
    · next hchild =>
      dsimp only
      have hj : ∀ c : Prop, [Decidable c] → k < (if 2 * k + 1 ≤ b.heapLen ∧ c then 2 * k + 1 else 2 * k) ∧
          (if 2 * k + 1 ≤ b.heapLen ∧ c then 2 * k + 1 else 2 * k) ≤ b.heapLen := by
        intro c _; split <;> omega
      obtain ⟨hkj, hjlen⟩ := hj (b.smaller (wread b.heap (2 * k + 1)) (wread b.heap (2 * k)) = true)
      generalize (if 2 * k + 1 ≤ b.heapLen ∧ b.smaller (wread b.heap (2 * k + 1)) (wread b.heap (2 * k)) = true then 2 * k + 1
        else 2 * k) = j at hkj hjlen ⊢
      split
      · exact ⟨_, rfl, hstop k b h1 hk hlen⟩
      · obtain ⟨h, heq, hperm, hout⟩ := ih j { b with heap := wwrite b.heap k (wread b.heap j) } (by omega) hjlen hlen
        refine ⟨h, heq, hperm.trans ?_, fun i hi hi' => ?_⟩
        · -- the child's node moves to place `k`, and `v` to the child's place: an exchange of the two
          have hswap := List.set_set_perm (as := b.frontier.set (k - 1) v) (i := k - 1) (j := j - 1) (by simp; omega) (by simp; omega)
          rw [List.getElem_set_self, List.getElem_set_ne (by omega), List.set_set] at hswap
          simp only [Build.frontier, getElem_wlist, show 1 + (j - 1) = j by omega] at hswap ⊢
          rwa [wlist_wwrite_inside b.heap _ (by omega) h1 (by omega)]
        · rw [hout i hi hi', wread_wwrite b.heap _ (by omega) hi', if_neg (fun h => by subst h; exact absurd hk (Nat.not_le.2 hi))]

/-- `downheap` reorders the heap and changes nothing else (R193). -/
theorem Build.downheap_spec (b : Build) {k : Nat} (h1 : 1 ≤ k) (hk : k ≤ b.heapLen) (hlen : b.heapLen < 1024) :
    ∃ h, b.downheap k = { b with heap := h } ∧ (wlist h 1 b.heapLen).Perm b.frontier ∧
      ∀ i, b.heapLen < i → i < 1024 → wread h i = wread b.heap i := by
  obtain ⟨h, heq, hperm, hout⟩ := siftDown_spec (wread b.heap k) 10 k b h1 hk hlen
  refine ⟨h, heq, hperm.trans (.of_eq ?_), hout⟩
  have hget := getElem_wlist b.heap (k := 1) (n := b.heapLen) (i := k - 1) (by rw [length_wlist]; omega)
  rw [show 1 + (k - 1) = k by omega] at hget
  rw [← hget]
  exact List.set_getElem_self _

theorem heapify_spec : ∀ (k : Nat) (b : Build), k ≤ b.heapLen → b.heapLen < 1024 →
    ∃ h, heapify k b = { b with heap := h } ∧ (wlist h 1 b.heapLen).Perm b.frontier
  | 0, b, _, _ => ⟨b.heap, rfl, .refl _⟩
  | k + 1, b, hk, hlen => by
    obtain ⟨h, heq, hperm, -⟩ := b.downheap_spec (Nat.succ_pos k) hk hlen
    obtain ⟨h', heq', hperm'⟩ := heapify_spec k { b with heap := h } (Nat.le_of_succ_le hk) hlen
    exact ⟨h', by rw [heapify, heq, heq'], hperm'.trans hperm⟩

theorem Build.removed_congr {b c : Build} (hmax : c.heapMax = b.heapMax)
    (h : ∀ i, b.heapMax ≤ i → i < Config.heapSize → wread c.heap i = wread b.heap i) : c.removed = b.removed := by
  rw [Build.removed, Build.removed, hmax]
  exact wlist_congr fun i hi hi' => h i hi (by omega)

/-- The least node taken out of the heap, the last one in its place (R193). -/
def Build.takeLeast (b : Build) : Build :=
  { b with heap := wwrite b.heap 1 (wread b.heap b.heapLen), heapLen := b.heapLen - 1 }.downheap 1

/-- Nodes `n` and `m` joined under their parent, which stands where `m` was (R193). -/
def Build.join (node n m : Nat) (b : Build) : Build :=
  { b with
    heap := wwrite (wwrite (wwrite b.heap (b.heapMax - 1) n) (b.heapMax - 2) m) 1 node
    heapMax := b.heapMax - 2
    freq := wwrite b.freq node (wread b.freq n + wread b.freq m)
    depth := wwrite b.depth node (max (wread b.depth n) (wread b.depth m) + 1)
    dad := wwrite (wwrite b.dad n node) m node }

theorem mergeLeast_eq (node : Nat) (b : Build) :
    mergeLeast node b = (b.takeLeast.join node (wread b.heap 1) (wread b.takeLeast.heap 1)).downheap 1 := rfl

theorem Build.takeLeast_spec {b : Build} (h2 : 2 ≤ b.heapLen) (hlen : b.heapLen < 1024) :
    ∃ h, b.takeLeast = { b with heap := h, heapLen := b.heapLen - 1 } ∧
      b.frontier.Perm (wread b.heap 1 :: wlist h 1 (b.heapLen - 1)) ∧
      ∀ i, b.heapLen < i → i < 1024 → wread h i = wread b.heap i := by
  obtain ⟨l, hl⟩ := Nat.exists_eq_add_of_le' h2
  obtain ⟨h, heq, hperm, hout⟩ := Build.downheap_spec
    { b with heap := wwrite b.heap 1 (wread b.heap b.heapLen), heapLen := b.heapLen - 1 } (k := 1) (Nat.le_refl 1)
    (by show 1 ≤ b.heapLen - 1; omega) (by show b.heapLen - 1 < 1024; omega)
  refine ⟨h, heq, ?_, fun i hi hi' => ?_⟩
  · simp only [Build.frontier, hl, show l + 2 - 1 = l + 1 by omega] at hperm ⊢
    rw [wlist, wlist_succ_right, show 1 + 1 + l = l + 2 by omega]
    refine .cons _ ((List.perm_append_singleton _ _).trans (.trans ?_ hperm.symm))
    rw [wlist, wread_wwrite b.heap _ (by omega) (by omega), if_pos rfl, wlist_wwrite_outside b.heap _ (by omega) (by omega) (by omega)]
  · rw [hout i (by show b.heapLen - 1 < i; omega) hi', wread_wwrite _ _ (by omega) hi', if_neg (by omega)]

section
variable (node n m : Nat) {b : Build} (hpos : 1 ≤ b.heapLen) (hgap : b.heapLen + 2 < b.heapMax) (htop : b.heapMax ≤ Config.heapSize)
include hpos hgap htop

theorem Build.join_frontier {l : Nat} (hl : b.heapLen = l + 1) : (b.join node n m).frontier = node :: wlist b.heap 2 l := by
  have hsize : Config.heapSize = 573 := rfl
  show wlist (wwrite (wwrite (wwrite b.heap (b.heapMax - 1) n) (b.heapMax - 2) m) 1 node) 1 b.heapLen = _
  rw [hl, wlist, wread_wwrite _ _ (by omega) (by omega), if_pos rfl, wlist_wwrite_outside _ _ (by omega) (by omega) (by omega),
    wlist_wwrite_outside _ _ (by omega) (by omega) (by omega), wlist_wwrite_outside _ _ (by omega) (by omega) (by omega)]

theorem Build.join_removed : (b.join node n m).removed = m :: n :: b.removed := by
  have hsize : Config.heapSize = 573 := rfl
  have hread : ∀ i, b.heapMax - 2 ≤ i → i < 573 → wread (b.join node n m).heap i =
      if i = b.heapMax - 2 then m else if i = b.heapMax - 1 then n else wread b.heap i := by
    intro i hi hi'
    rw [Build.join, wread_wwrite _ _ (by omega) (by omega), if_neg (by omega), wread_wwrite _ _ (by omega) (by omega),
      wread_wwrite _ _ (by omega) (by omega)]
  show wlist (b.join node n m).heap (b.heapMax - 2) (Config.heapSize - (b.heapMax - 2)) = _
  rw [show Config.heapSize - (b.heapMax - 2) = Config.heapSize - b.heapMax + 1 + 1 by omega, wlist, wlist,
    hread _ (by omega) (by omega), if_pos rfl, hread _ (by omega) (by omega), if_neg (by omega), if_pos (by omega),
    show b.heapMax - 2 + 1 + 1 = b.heapMax by omega, Build.removed]
  congr 2
  exact wlist_congr fun i hi hi' => by rw [hread i (by omega) (by omega), if_neg (by omega), if_neg (by omega)]

end

/-- A merge takes two nodes out of the heap, where their parent replaces them, and gives both that parent (R193). -/
theorem mergeLeast_spec (node : Nat) {b : Build} (h2 : 2 ≤ b.heapLen) (hgap : 2 * b.heapLen < b.heapMax)
    (htop : b.heapMax ≤ Config.heapSize) :
    ∃ m n G, b.frontier.Perm (m :: n :: G) ∧ (mergeLeast node b).frontier.Perm (node :: G) ∧
      (mergeLeast node b).removed = m :: n :: b.removed ∧ (mergeLeast node b).dad = wwrite (wwrite b.dad n node) m node ∧
      (mergeLeast node b).heapLen + 1 = b.heapLen ∧ (mergeLeast node b).heapMax + 2 = b.heapMax ∧
      (mergeLeast node b).maxCode = b.maxCode := by
  have hsize : Config.heapSize = 573 := rfl
  obtain ⟨l, hl⟩ := Nat.exists_eq_add_of_le' h2
  obtain ⟨h, htake, hperm, hout⟩ := Build.takeLeast_spec h2 (by omega)
  rw [mergeLeast_eq, htake]
  dsimp only
  obtain ⟨c, hc⟩ : ∃ c : Build, c = { b with heap := h, heapLen := b.heapLen - 1 } := ⟨_, rfl⟩
  have hclen : c.heapLen = l + 1 := by rw [hc]; show b.heapLen - 1 = l + 1; omega
  have hcmax : c.heapMax = b.heapMax := by rw [hc]
  have hjoinFrontier := c.join_frontier node (wread b.heap 1) (wread h 1) (by omega) (by omega) (by omega) hclen
  have hjoinRemoved := c.join_removed node (wread b.heap 1) (wread h 1) (by omega) (by omega) (by omega)
  have hremoved : c.removed = b.removed :=
    Build.removed_congr hcmax fun i hi hi' => by rw [hc]; exact hout i (by omega) (by omega)
  obtain ⟨h', hdown, hperm', hout'⟩ := (c.join node (wread b.heap 1) (wread h 1)).downheap_spec (Nat.le_refl 1)
    (by show 1 ≤ c.heapLen; omega) (by show c.heapLen < 1024; omega)
  rw [← hc, hdown]
  refine ⟨wread h 1, wread b.heap 1, wlist c.heap 2 l, ?_, hperm'.trans (.of_eq hjoinFrontier), ?_,
    by rw [hc]; rfl, ?_, ?_, by rw [hc]; rfl⟩
  · rw [hl, show l + 2 - 1 = l + 1 by omega, wlist] at hperm
    rw [hc]
    exact hperm.trans (.swap _ _ _)
  · rw [← hremoved, ← hjoinRemoved]
    refine Build.removed_congr rfl fun i hi hi' => hout' i ?_ (by omega)
    have : c.heapMax - 2 ≤ i := hi
    show c.heapLen < i
    omega
  · show c.heapLen + 1 = b.heapLen; omega
  · show c.heapMax - 2 + 2 = b.heapMax; omega

/-! ## The tree -/

/-- The nodes of `seq`, taken two by two, split nodes not below `e` until the nodes of the first list are the leaves: `dad` gives the node
that a pair splits. -/
inductive Splits (e : Nat) (dad : Nat → Nat) (leaves : List Nat) : List Nat → List Nat → Prop
  | done {F : List Nat} : F.Perm leaves → Splits e dad leaves F []
  | split {F G seq : List Nat} {p m n : Nat} : F.Perm (p :: G) → e ≤ p → dad m = p → dad n = p →
      Splits e dad leaves (m :: n :: G) seq → Splits e dad leaves F (m :: n :: seq)

theorem Splits.perm {e : Nat} {dad : Nat → Nat} {leaves F F' seq : List Nat} (h : Splits e dad leaves F seq) (hF : F'.Perm F) :
    Splits e dad leaves F' seq := by
  cases h with
  | done h => exact .done (hF.trans h)
  | split h hp hm hn hrest => exact .split (hF.trans h) hp hm hn hrest

theorem Splits.congr {e : Nat} {dad dad' : Nat → Nat} {leaves F seq : List Nat} (h : Splits e dad leaves F seq) :
    (∀ x ∈ seq, dad' x = dad x) → Splits e dad' leaves F seq := by
  induction h with
  | done h => exact fun _ => .done h
  | split h hp hm hn _ ih =>
    exact fun hd => .split h hp ((hd _ (by simp)).trans hm) ((hd _ (by simp)).trans hn)
      (ih fun x hx => hd x (List.mem_cons_of_mem _ (List.mem_cons_of_mem _ hx)))

/-- What holds between merges: `node` is the next inner node, and the nodes taken out split those in the heap into the leaves. -/
structure Build.Merging (e : Nat) (leaves : List Nat) (node : Nat) (b : Build) : Prop where
  gap : 2 * b.heapLen < b.heapMax
  top : b.heapMax ≤ Config.heapSize
  room : node + b.heapLen ≤ 1024
  inner : e ≤ node
  nodup : (b.frontier ++ b.removed).Nodup
  below : ∀ x ∈ b.frontier ++ b.removed, x < node
  splits : Splits e (wread b.dad) leaves b.frontier b.removed

theorem Build.Merging.mergeLeast {e node : Nat} {leaves : List Nat} {b : Build} (h : b.Merging e leaves node) (h2 : 2 ≤ b.heapLen) :
    (mergeLeast node b).Merging e leaves (node + 1) := by
  obtain ⟨m, n, G, hold, hnew, hremoved, hdad, hlen, hmax, -⟩ := mergeLeast_spec node h2 h.gap h.top
  obtain ⟨hgap, htop, hroom, hinner, hnodup, hbelow, hsplits⟩ := h
  have hall : (b.frontier ++ b.removed).Perm (G ++ (m :: n :: b.removed)) := by
    refine (hold.append_right _).trans ?_
    rw [List.cons_append, List.cons_append]
    exact ((List.perm_middle (l₁ := G)).trans (.cons m List.perm_middle)).symm
  have hall' : ((Machine.mergeLeast node b).frontier ++ (Machine.mergeLeast node b).removed).Perm
      (node :: (G ++ (m :: n :: b.removed))) := by
    rw [hremoved]
    exact hnew.append_right _
  have hG := (hall.nodup_iff).1 hnodup
  have hmem : ∀ x ∈ G ++ (m :: n :: b.removed), x < node := fun x hx => hbelow x (hall.symm.subset hx)
  have hpair := (List.nodup_append.1 hG).2.1
  have hm : m < node := hmem m (by simp)
  have hn : n < node := hmem n (by simp)
  have hwrite : ∀ x, x < node → wread (Machine.mergeLeast node b).dad x = if x = m ∨ x = n then node else wread b.dad x := by
    intro x hx
    rw [hdad, wread_wwrite _ _ (by omega) (by omega), wread_wwrite _ _ (by omega) (by omega)]
    by_cases hxm : x = m
    · rw [if_pos hxm, if_pos (.inl hxm)]
    · simp [hxm]
  refine ⟨by omega, by omega, by omega, by omega, ?_, ?_, ?_⟩
  · rw [hall'.nodup_iff, List.nodup_cons]
    exact ⟨fun hx => Nat.lt_irrefl _ (hmem node hx), hG⟩
  · intro x hx
    rcases List.mem_cons.1 (hall'.subset hx) with rfl | hx
    · exact Nat.lt_succ_self x
    · exact Nat.lt_succ_of_lt (hmem x hx)
  · rw [hremoved]
    refine .split hnew hinner (by rw [hwrite m hm, if_pos (.inl rfl)]) (by rw [hwrite n hn, if_pos (.inr rfl)])
      ((hsplits.perm hold.symm).congr fun x hx => ?_)
    rw [hwrite x (hmem x (by simp [hx])), if_neg]
    rintro (rfl | rfl)
    · exact (List.nodup_cons.1 hpair).1 (List.mem_cons_of_mem _ hx)
    · exact (List.nodup_cons.1 (List.nodup_cons.1 hpair).2).1 hx

theorem mergeLeast_heapLen (node : Nat) {b : Build} (h2 : 2 ≤ b.heapLen) (hgap : 2 * b.heapLen < b.heapMax)
    (htop : b.heapMax ≤ Config.heapSize) : (mergeLeast node b).heapLen + 1 = b.heapLen := by
  obtain ⟨m, n, G, -, -, -, -, hlen, -, -⟩ := mergeLeast_spec node h2 hgap htop
  exact hlen

theorem Build.Merging.mergeLeast_maxCode {e node : Nat} {leaves : List Nat} {b : Build} (h : b.Merging e leaves node)
    (h2 : 2 ≤ b.heapLen) : (Machine.mergeLeast node b).maxCode = b.maxCode := by
  obtain ⟨m, n, G, -, -, -, -, -, -, hmax⟩ := mergeLeast_spec node h2 h.gap h.top
  exact hmax

/-- The merges end with one node in the heap (R193). -/
theorem Build.Merging.mergeAll {e : Nat} {leaves : List Nat} : ∀ (fuel : Nat) {node : Nat} {b : Build}, b.Merging e leaves node →
    2 ≤ b.heapLen → b.heapLen ≤ fuel + 1 → (mergeAll fuel node b).heapLen = 1 ∧ (mergeAll fuel node b).maxCode = b.maxCode ∧
      ∃ node', (mergeAll fuel node b).Merging e leaves node'
  | 0, _, _, _, h2, hfuel => by omega
  | fuel + 1, node, b, h, h2, hfuel => by
    have hlen := mergeLeast_heapLen node h2 h.gap h.top
    have hmax := h.mergeLeast_maxCode h2
    rw [Machine.mergeAll]
    split
    · exact ⟨by omega, hmax, _, h.mergeLeast h2⟩
    · rw [← hmax]
      exact Build.Merging.mergeAll fuel (h.mergeLeast h2) (by omega) (by omega)

/-- What step 2 leaves: the places from `heap_max` on hold the root and then the nodes that split it into the leaves. -/
structure Build.Merged (e : Nat) (leaves : List Nat) (b : Build) (root : Nat) (seq : List Nat) : Prop where
  top : b.heapMax < Config.heapSize
  places : b.removed = root :: seq
  nodup : (root :: seq).Nodup
  small : ∀ x ∈ root :: seq, x < 1024
  splits : Splits e (wread b.dad) leaves [root] seq

/-! ## Leaves -/

/-- What holds of the leaves while step 1 finds them (R192): the symbols below `e`, each once, `max_code` the greatest of them. -/
structure Build.Leaves (e : Nat) (b : Build) : Prop where
  nodup : b.frontier.Nodup
  le_max : ∀ x ∈ b.frontier, (x : Int) ≤ b.maxCode
  max_mem : (b.maxCode = -1 ∧ b.frontier = []) ∨ ∃ u ∈ b.frontier, (u : Int) = b.maxCode
  max_lt : b.maxCode < e
  top : b.heapMax = Config.heapSize

theorem Build.Leaves.heapLen_le {e : Nat} {b : Build} (h : b.Leaves e) : b.heapLen ≤ e := by
  have hsub : b.frontier ⊆ List.range e := fun x hx => List.mem_range.2 (by have := h.le_max x hx; have := h.max_lt; omega)
  simpa using (h.nodup.subperm hsub).length_le

/-- The merges of step 2, from the leaves of step 1 (R193). -/
theorem Build.Leaves.merge {t : TreeSpec} {b : Build} (h : b.Leaves t.elems) (helems : t.elems ≤ 286) (h2 : 2 ≤ b.heapLen) :
    (b.merge t).maxCode = b.maxCode ∧ ∃ root seq, (b.merge t).Merged t.elems b.frontier root seq := by
  have hsize : Config.heapSize = 573 := rfl
  have hlen := h.heapLen_le
  obtain ⟨hp, heq, hperm⟩ := heapify_spec (b.heapLen / 2) b (by omega) (by omega)
  have hremoved : Build.removed { b with heap := hp } = [] := by
    show wlist hp b.heapMax (Config.heapSize - b.heapMax) = []
    rw [h.top, Nat.sub_self, wlist]
  have hstart : Build.Merging t.elems b.frontier t.elems { b with heap := hp } := by
    refine ⟨?_, h.top.le, ?_, Nat.le_refl _, ?_, ?_, ?_⟩
    · show 2 * b.heapLen < b.heapMax; rw [h.top]; omega
    · show t.elems + b.heapLen ≤ 1024; omega
    · rw [hremoved, List.append_nil]; exact hperm.nodup_iff.2 h.nodup
    · rw [hremoved, List.append_nil]
      intro x hx
      have hle := h.le_max x (hperm.subset hx)
      have := h.max_lt
      omega
    · rw [hremoved]; exact .done hperm
  obtain ⟨hone, hmax, node, hend⟩ := Build.Merging.mergeAll b.heapLen hstart h2 (Nat.le_succ b.heapLen)
  rw [Build.merge, heq]
  obtain ⟨hgap, htop, hroom, -, hnodup, hbelow, hsplits⟩ := hend
  dsimp only at hone hmax hgap htop hroom hnodup hbelow hsplits ⊢
  generalize mergeAll b.heapLen t.elems { b with heap := hp } = c at *
  have hfrontier : c.frontier = [wread c.heap 1] := by rw [Build.frontier, hone]; rfl
  rw [hfrontier] at hnodup hbelow hsplits
  refine ⟨hmax, wread c.heap 1, c.removed, ?_, ?_, hnodup, fun x hx => ?_, hsplits⟩
  · show c.heapMax - 1 < Config.heapSize; omega
  · show wlist (wwrite c.heap (c.heapMax - 1) (wread c.heap 1)) (c.heapMax - 1) (Config.heapSize - (c.heapMax - 1)) = _
    rw [show Config.heapSize - (c.heapMax - 1) = Config.heapSize - c.heapMax + 1 by omega, wlist,
      wread_wwrite _ _ (by omega) (by omega), if_pos rfl, wlist_wwrite_outside _ _ (by omega) (by omega) (by omega),
      show c.heapMax - 1 + 1 = c.heapMax by omega, Build.removed]
  · have := hbelow x hx; omega

/-- A new leaf at the end of the heap. -/
theorem Build.frontier_push (b : Build) (n : Nat) (hlen : b.heapLen < 1023) :
    wlist (wwrite b.heap (b.heapLen + 1) n) 1 (b.heapLen + 1) = b.frontier ++ [n] := by
  rw [wlist_succ_right, Nat.add_comm 1, wread_wwrite _ _ (by omega) (by omega), if_pos rfl,
    wlist_wwrite_outside _ _ (by omega) (by omega) (by omega), Build.frontier]

/-- The leaves are the used symbols (R192). -/
theorem Build.Leaves.addLeaves : ∀ (fs : List Nat) {n : Nat} {b : Build}, b.Leaves n → n + fs.length ≤ 286 →
    (addLeaves n fs b).Leaves (n + fs.length) ∧ b.frontier ⊆ (addLeaves n fs b).frontier ∧
      ∀ i, fs.getD i 0 ≠ 0 → n + i ∈ (addLeaves n fs b).frontier
  | [], n, b, h, _ => ⟨h, fun _ hx => hx, fun i hi => absurd rfl hi⟩
  | f :: fs, n, b, h, hlen => by
    rw [List.length_cons] at hlen ⊢
    rw [Machine.addLeaves, show n + (fs.length + 1) = n + 1 + fs.length by omega]
    have hle := h.heapLen_le
    obtain ⟨hnodup, hle_max, hmem, hlt, htop⟩ := h
    by_cases hf : f ≠ 0
    · rw [if_pos hf]
      have hpush := b.frontier_push n (by omega)
      have hnot : n ∉ b.frontier := fun hn => by have := hle_max n hn; omega
      obtain ⟨h', hsub, hused⟩ := Build.Leaves.addLeaves fs (n := n + 1) (b := { b with
        heapLen := b.heapLen + 1, heap := wwrite b.heap (b.heapLen + 1) n, maxCode := n, depth := wwrite b.depth n 0 })
        { nodup := by rw [Build.frontier, hpush]; simpa [List.nodup_append] using ⟨hnodup, fun x hx hxn => hnot (hxn ▸ hx)⟩
          le_max := fun x hx => by
            rw [Build.frontier, hpush, List.mem_append, List.mem_singleton] at hx
            rcases hx with hx | rfl
            · have := hle_max x hx
              show (x : Int) ≤ (n : Int)
              omega
            · exact le_refl (x : Int)
          max_mem := .inr ⟨n, by rw [Build.frontier, hpush]; simp, rfl⟩
          max_lt := by show (n : Int) < ((n + 1 : Nat) : Int); omega
          top := htop } (by omega)
      rw [Build.frontier, hpush] at hsub
      refine ⟨h', fun x hx => hsub (List.mem_append_left _ hx), fun i hi => ?_⟩
      cases i with
      | zero => exact hsub (by simp)
      | succ i => rw [show n + (i + 1) = n + 1 + i by omega]; exact hused i hi
    · rw [if_neg hf]
      obtain ⟨h', hsub, hused⟩ := Build.Leaves.addLeaves fs (n := n + 1) (b := { b with len := wwrite b.len n 0 })
        ⟨hnodup, hle_max, hmem, by show b.maxCode < ((n + 1 : Nat) : Int); omega, htop⟩ (by omega)
      refine ⟨h', hsub, fun i hi => ?_⟩
      cases i with
      | zero => exact absurd hi hf
      | succ i => rw [show n + (i + 1) = n + 1 + i by omega]; exact hused i hi

/-- A dummy leaf is one more symbol (R192). -/
theorem Build.Leaves.addDummy {e : Nat} {b : Build} (t : TreeSpec) (h : b.Leaves e) (he : 2 < e) (h2 : b.heapLen < 2) :
    (addDummy t b).Leaves e ∧ b.frontier ⊆ (addDummy t b).frontier ∧ (addDummy t b).heapLen = b.heapLen + 1 := by
  obtain ⟨hnodup, hle_max, hmem, hlt, htop⟩ := h
  have hmin : -1 ≤ b.maxCode := by
    rcases hmem with ⟨h, -⟩ | ⟨u, -, h⟩ <;> omega
  have hfrontier : (Machine.addDummy t b).frontier = b.frontier ++ [if b.maxCode < 2 then (b.maxCode + 1).toNat else 0] :=
    b.frontier_push _ (by omega)
  have hmax : (Machine.addDummy t b).maxCode = if b.maxCode < 2 then b.maxCode + 1 else b.maxCode := rfl
  refine ⟨?_, fun x hx => by rw [hfrontier]; exact List.mem_append_left _ hx, rfl⟩
  by_cases hsmall : b.maxCode < 2
  · -- the dummy is the symbol after `max_code`
    rw [if_pos hsmall] at hfrontier hmax
    refine ⟨?_, ?_, .inr ⟨(b.maxCode + 1).toNat, by simp [hfrontier], by omega⟩, by omega, htop⟩
    · rw [hfrontier, List.nodup_append]
      refine ⟨hnodup, List.nodup_singleton _, fun x hx y hy hxy => ?_⟩
      have := hle_max x hx
      have := List.mem_singleton.1 hy
      omega
    · intro x hx
      rw [hfrontier, List.mem_append, List.mem_singleton] at hx
      rcases hx with hx | rfl
      · have := hle_max x hx; omega
      · omega
  · -- the dummy is 0, and `max_code`, the one leaf there is, another symbol
    rw [if_neg hsmall] at hfrontier hmax
    obtain ⟨u, hu, humax⟩ : ∃ u ∈ b.frontier, (u : Int) = b.maxCode := hmem.resolve_left fun h => by omega
    have hone : b.frontier = [u] := by
      have hlen := b.length_frontier
      cases hf : b.frontier with
      | nil => rw [hf] at hu; cases hu
      | cons a rest =>
        rw [hf, List.length_cons] at hlen
        obtain rfl : rest = [] := List.eq_nil_of_length_eq_zero (by omega)
        rw [hf, List.mem_singleton] at hu
        rw [hu]
    rw [hone] at hfrontier
    refine ⟨?_, ?_, .inr ⟨u, by simp [hfrontier], by omega⟩, by omega, htop⟩
    · simp only [hfrontier, List.cons_append, List.nil_append, List.nodup_cons, List.mem_singleton]
      exact ⟨by omega, by simp⟩
    · intro x hx
      simp only [hfrontier, List.cons_append, List.nil_append, List.mem_cons, List.not_mem_nil, or_false] at hx
      omega

/-- With the dummies there are two leaves at least (R192). -/
theorem Build.Leaves.addDummies {e : Nat} (t : TreeSpec) (he : 2 < e) : ∀ (n : Nat) {b : Build}, b.Leaves e →
    (addDummies t n b).Leaves e ∧ b.frontier ⊆ (addDummies t n b).frontier ∧ min (b.heapLen + n) 2 ≤ (addDummies t n b).heapLen
  | 0, b, h => ⟨h, fun _ hx => hx, Nat.min_le_left _ _⟩
  | n + 1, b, h => by
    rw [Machine.addDummies]
    split
    · next h2 =>
      obtain ⟨h', hsub, hlen⟩ := h.addDummy t he h2
      obtain ⟨h'', hsub', hlen'⟩ := Build.Leaves.addDummies t he n h'
      exact ⟨h'', List.Subset.trans hsub hsub', by omega⟩
    · exact ⟨h, fun _ hx => hx, by omega⟩

end Sys2Proof.Machine
end

