-- ==== Sys2Proof/Proofs/HuffmanLengths.lean ====
section
/-! PROOF. Sys2Proof/Proofs/HuffmanLengths.lean: the lengths that `gen_bitlen` gives to a Huffman tree (R194) and the redistribution of its
overflow (R195). The Kraft sum of the nodes that are split so far is one whole and half the overflow; the redistribution takes the overflow
away. -/

namespace Sys2Proof.Machine

open Sys2Proof

/-- What the three trees have in common (R190): the symbols fit the heap, the dummies and the length limit. -/
structure TreeSpec.Ok (t : TreeSpec) : Prop where
  elems : t.elems ≤ 286
  dummies : 2 < t.elems
  limit : 1 ≤ t.maxLength ∧ t.maxLength ≤ 15
  room : t.elems ≤ 2 ^ t.maxLength

/-! ## One node -/

section
variable (t : TreeSpec) (n : Nat) (b : Build) (count : List Nat) (o : Nat)

/-- A node is one longer than its parent, up to the limit (R194). -/
def Build.nodeLength (b : Build) : Nat := min (wread b.len (wread b.dad n) + 1) t.maxLength

/-- `bitlenNode` writes the length, counts a leaf and counts a length cut to the limit (R194). -/
theorem bitlenNode_spec : ∃ o' s', bitlenNode t n b count o =
    ({ b with len := wwrite b.len n (b.nodeLength t n), optLen := o', staticLen := s' },
      if (n : Int) ≤ b.maxCode then count.set (b.nodeLength t n) (count.getD (b.nodeLength t n) 0 + 1) else count,
      if wread b.len (wread b.dad n) < t.maxLength then o else o + 1) := by
  have hbits : (if wread b.len (wread b.dad n) + 1 > t.maxLength then t.maxLength else wread b.len (wread b.dad n) + 1) =
      b.nodeLength t n := by unfold Build.nodeLength; split <;> omega
  have hover : (if wread b.len (wread b.dad n) + 1 > t.maxLength then o + 1 else o) =
      if wread b.len (wread b.dad n) < t.maxLength then o else o + 1 := by split <;> split <;> omega
  rw [bitlenNode]
  dsimp only
  rw [hbits, hover]
  by_cases h : (n : Int) ≤ b.maxCode
  · rw [if_neg (Int.not_lt.2 h), if_pos h]
    exact ⟨_, _, rfl⟩
  · rw [if_pos (Int.not_le.1 h), if_neg h]
    exact ⟨_, _, rfl⟩

@[simp] theorem bitlenNode_heap : (bitlenNode t n b count o).1.heap = b.heap := by
  obtain ⟨_, _, h⟩ := bitlenNode_spec t n b count o
  rw [h]

@[simp] theorem bitlenNode_dad : (bitlenNode t n b count o).1.dad = b.dad := by
  obtain ⟨_, _, h⟩ := bitlenNode_spec t n b count o
  rw [h]

@[simp] theorem bitlenNode_maxCode : (bitlenNode t n b count o).1.maxCode = b.maxCode := by
  obtain ⟨_, _, h⟩ := bitlenNode_spec t n b count o
  rw [h]

theorem bitlenNode_lengths : (bitlenNode t n b count o).1.len = wwrite b.len n (b.nodeLength t n) := by
  obtain ⟨_, _, h⟩ := bitlenNode_spec t n b count o
  rw [h]

theorem bitlenNode_overflow :
    (bitlenNode t n b count o).2.2 = if wread b.len (wread b.dad n) < t.maxLength then o else o + 1 := by
  obtain ⟨_, _, h⟩ := bitlenNode_spec t n b count o
  rw [h]

@[simp] theorem length_bitlenNode : (bitlenNode t n b count o).2.1.length = count.length := by
  obtain ⟨_, _, h⟩ := bitlenNode_spec t n b count o
  rw [h]
  dsimp only
  split
  · rw [List.length_set]
  · rfl

theorem getD_bitlenNode (hcount : b.nodeLength t n < count.length) (l : Nat) : (bitlenNode t n b count o).2.1.getD l 0 =
    count.getD l 0 + if (n : Int) ≤ b.maxCode ∧ b.nodeLength t n = l then 1 else 0 := by
  obtain ⟨_, _, h⟩ := bitlenNode_spec t n b count o
  rw [h]
  dsimp only
  by_cases hn : (n : Int) ≤ b.maxCode
  · rw [if_pos hn]
    by_cases hl : b.nodeLength t n = l
    · subst hl
      rw [if_pos ⟨hn, rfl⟩, List.getD_eq_getElem _ _ (by simpa using hcount), List.getElem_set_self]
    · rw [if_neg (fun h => hl h.2), List.getD_eq_getElem?_getD, List.getElem?_set_ne hl, ← List.getD_eq_getElem?_getD, Nat.add_zero]
  · rw [if_neg hn, if_neg (fun h => hn h.1), Nat.add_zero]

end

/-! ## All nodes -/

/-- The nodes of a list, one after the other (R194). -/
def bitlenNodes (t : TreeSpec) : List Nat → Build → List Nat → Nat → Build × List Nat × Nat
  | [], b, count, o => (b, count, o)
  | n :: ns, b, count, o =>
    let r := bitlenNode t n b count o
    bitlenNodes t ns r.1 r.2.1 r.2.2

theorem bitlenFrom_eq (t : TreeSpec) : ∀ (k h : Nat) (b : Build) (count : List Nat) (o : Nat),
    bitlenFrom t k h b count o = bitlenNodes t (wlist b.heap h k) b count o
  | 0, _, _, _, _ => rfl
  | k + 1, h, b, count, o => by
    rw [bitlenFrom, wlist, bitlenNodes, bitlenFrom_eq t k, bitlenNode_heap]

/-- The nodes write the lengths of the nodes only; the heap and `max_code` stay. -/
theorem bitlenNodes_frame (t : TreeSpec) : ∀ (ns : List Nat) (b : Build) (count : List Nat) (o : Nat), (∀ x ∈ ns, x < 1024) →
    (bitlenNodes t ns b count o).1.heap = b.heap ∧ (bitlenNodes t ns b count o).1.maxCode = b.maxCode ∧
    ∀ x, x < 1024 → x ∉ ns → wread (bitlenNodes t ns b count o).1.len x = wread b.len x
  | [], _, _, _, _ => ⟨rfl, rfl, fun _ _ _ => rfl⟩
  | n :: ns, b, count, o, hsmall => by
    obtain ⟨hheap, hmax, hlen⟩ := bitlenNodes_frame t ns (bitlenNode t n b count o).1 (bitlenNode t n b count o).2.1
      (bitlenNode t n b count o).2.2 fun x hx => hsmall x (List.mem_cons_of_mem _ hx)
    rw [bitlenNodes]
    refine ⟨hheap.trans (bitlenNode_heap ..), hmax.trans (bitlenNode_maxCode ..), fun x hx hnot => ?_⟩
    rw [hlen x hx fun h => hnot (List.mem_cons_of_mem _ h), bitlenNode_lengths,
      wread_wwrite _ _ (hsmall n List.mem_cons_self) hx, if_neg (List.ne_of_not_mem_cons hnot)]

/-- What holds of the nodes that are to be split or are leaves, while step 3 gives their lengths (R194): the Kraft sum in units of
`2^-max_length` is one whole and half the overflow, and enough nodes are cut to the limit to take the overflow from. -/
structure Build.Lengths (t : TreeSpec) (F : List Nat) (b : Build) (count : List Nat) (o : Nat) : Prop where
  le : ∀ x ∈ F, wread b.len x ≤ t.maxLength
  pos : ∀ x ∈ F, (x : Int) ≤ b.maxCode → wread b.len x ≠ 0
  kraft : 2 * (F.map fun x => 2 ^ (t.maxLength - wread b.len x)).sum = 2 ^ (t.maxLength + 1) + o
  deep : o ≤ 2 * F.countP fun x => decide (wread b.len x = t.maxLength)
  size : count.length = 16
  counts : ∀ l, count.getD l 0 = F.countP fun x : Nat => decide ((x : Int) ≤ b.maxCode ∧ wread b.len x = l)

theorem Build.Lengths.perm {t : TreeSpec} {F F' : List Nat} {b : Build} {count : List Nat} {o : Nat} (h : b.Lengths t F count o)
    (hF : F.Perm F') : b.Lengths t F' count o where
  le x hx := h.le x (hF.symm.subset hx)
  pos x hx := h.pos x (hF.symm.subset hx)
  kraft := by rw [← h.kraft, (hF.map _).sum_eq]
  deep := by rw [← hF.countP_eq]; exact h.deep
  size := h.size
  counts l := by rw [← hF.countP_eq]; exact h.counts l

/-- The children of `p` both get one more than its length, up to the limit; above it both count as overflow (R194). -/
theorem bitlenPair_spec (t : TreeSpec) {p m n : Nat} {b : Build} (count : List Nat) (o : Nat) (hm : wread b.dad m = p)
    (hn : wread b.dad n = p) (hpm : p ≠ m) (hps : p < 1024) (hms : m < 1024) (hns : n < 1024) (hcount : t.maxLength < count.length) :
    (∀ x, x < 1024 → wread (bitlenNodes t [m, n] b count o).1.len x =
      if x = m ∨ x = n then min (wread b.len p + 1) t.maxLength else wread b.len x) ∧
    (bitlenNodes t [m, n] b count o).1.maxCode = b.maxCode ∧ (bitlenNodes t [m, n] b count o).2.1.length = count.length ∧
    (∀ l, (bitlenNodes t [m, n] b count o).2.1.getD l 0 = count.getD l 0 +
      (if (m : Int) ≤ b.maxCode ∧ min (wread b.len p + 1) t.maxLength = l then 1 else 0) +
      (if (n : Int) ≤ b.maxCode ∧ min (wread b.len p + 1) t.maxLength = l then 1 else 0)) ∧
    (bitlenNodes t [m, n] b count o).2.2 = if wread b.len p < t.maxLength then o else o + 2 := by
  have hbits : b.nodeLength t m = min (wread b.len p + 1) t.maxLength := by rw [Build.nodeLength, hm]
  have hlen := bitlenNode_lengths t m b count o
  have hp : wread (bitlenNode t m b count o).1.len p = wread b.len p := by rw [hlen, wread_wwrite _ _ hms hps, if_neg hpm]
  have hbits' : (bitlenNode t m b count o).1.nodeLength t n = min (wread b.len p + 1) t.maxLength := by
    rw [Build.nodeLength, bitlenNode_dad, hn, hp]
  simp only [bitlenNodes]
  refine ⟨fun x hx => ?_, by simp, by simp, fun l => ?_, ?_⟩
  · rw [bitlenNode_lengths, wread_wwrite _ _ hns hx, hbits', hlen, wread_wwrite _ _ hms hx, hbits]
    by_cases hxn : x = n
    · rw [if_pos hxn, if_pos (.inr hxn)]
    · simp [hxn]
  · rw [getD_bitlenNode _ _ _ _ _ (by rw [hbits', length_bitlenNode]; omega), getD_bitlenNode _ _ _ _ _ (by omega), hbits', hbits,
      bitlenNode_maxCode]
  · rw [bitlenNode_overflow, bitlenNode_dad, hn, hp, bitlenNode_overflow, hm]
    split <;> rfl

/-- A node gives way to its two children. -/
theorem Build.Lengths.pair {t : TreeSpec} (ht : t.Ok) {p m n : Nat} {G : List Nat} {b : Build} {count : List Nat} {o : Nat}
    (h : b.Lengths t (p :: G) count o) (hp : b.maxCode < p) (hm : wread b.dad m = p) (hn : wread b.dad n = p)
    (hnodup : (p :: m :: n :: G).Nodup) (hsmall : ∀ x ∈ p :: m :: n :: G, x < 1024) :
    (bitlenNodes t [m, n] b count o).1.Lengths t (m :: n :: G) (bitlenNodes t [m, n] b count o).2.1
      (bitlenNodes t [m, n] b count o).2.2 := by
  obtain ⟨hle, hpos, hkraft, hdeep, hsize, hcounts⟩ := h
  obtain ⟨hlim1, hlim15⟩ := ht.limit
  simp only [List.nodup_cons, List.mem_cons, not_or] at hnodup
  simp only [List.mem_cons, forall_eq_or_imp] at hle hsmall
  obtain ⟨hps, hms, hns, hGs⟩ := hsmall
  obtain ⟨hlen, hmax, hsize', hcount, hover⟩ := bitlenPair_spec t count o hm hn hnodup.1.1 hps hms hns (by omega)
  generalize bitlenNodes t [m, n] b count o = r at *
  obtain ⟨bits, hbits⟩ : ∃ bits, bits = min (wread b.len p + 1) t.maxLength := ⟨_, rfl⟩
  rw [← hbits] at hlen hcount
  have hrm : wread r.1.len m = bits := by rw [hlen m hms, if_pos (.inl rfl)]
  have hrn : wread r.1.len n = bits := by rw [hlen n hns, if_pos (.inr rfl)]
  have hrG : ∀ x ∈ G, wread r.1.len x = wread b.len x := fun x hx => by
    rw [hlen x (hGs x hx), if_neg]
    rintro (rfl | rfl)
    · exact hnodup.2.1.2 hx
    · exact hnodup.2.2.1 hx
  have hGcount : ∀ f : Nat → Nat → Bool, (G.countP fun x => f x (wread r.1.len x)) = G.countP fun x => f x (wread b.len x) :=
    fun f => List.countP_congr fun x hx => by rw [hrG x hx]
  refine ⟨?_, ?_, ?_, ?_, hsize'.trans hsize, fun l => ?_⟩
  · simp only [List.mem_cons, forall_eq_or_imp, hrm, hrn]
    exact ⟨by omega, by omega, fun x hx => by rw [hrG x hx]; exact hle.2 x hx⟩
  · simp only [List.mem_cons, forall_eq_or_imp, hrm, hrn, hmax]
    exact ⟨fun _ => by omega, fun _ => by omega, fun x hx => by rw [hrG x hx]; exact hpos x (List.mem_cons_of_mem _ hx)⟩
  · have hG : (G.map fun x => 2 ^ (t.maxLength - wread r.1.len x)) = G.map fun x => 2 ^ (t.maxLength - wread b.len x) :=
      List.map_congr_left fun x hx => by rw [hrG x hx]
    rw [List.map_cons, List.sum_cons] at hkraft
    rw [List.map_cons, List.map_cons, List.sum_cons, List.sum_cons, hrm, hrn, hG, hover]
    rcases Nat.lt_or_ge (wread b.len p) t.maxLength with hlt | hge
    · rw [show t.maxLength - wread b.len p = t.maxLength - bits + 1 by omega, pow_succ] at hkraft
      rw [if_pos hlt]
      omega
    · rw [show t.maxLength - wread b.len p = 0 by omega] at hkraft
      rw [if_neg (by omega), show t.maxLength - bits = 0 by omega]
      omega
  · have hG := hGcount fun _ l => decide (l = t.maxLength)
    simp only [List.countP_cons, decide_eq_true_eq] at hdeep
    simp only [List.countP_cons, hrm, hrn, hG, hover, decide_eq_true_eq]
    split_ifs at hdeep ⊢ <;> omega
  · have hG := hGcount fun x k => decide ((x : Int) ≤ b.maxCode ∧ k = l)
    have hskip : ¬ ((p : Int) ≤ b.maxCode ∧ wread b.len p = l) := fun h => Int.not_le.2 hp h.1
    have hold := hcounts l
    rw [List.countP_cons, if_neg (by simpa using hskip)] at hold
    rw [hcount, hold, hmax, List.countP_cons, List.countP_cons, hG, hrm, hrn]
    simp only [decide_eq_true_eq]
    omega

/-- The lengths of the leaves, where the nodes of `seq` split `F` into them (R194). -/
theorem Build.Lengths.nodes {t : TreeSpec} (ht : t.Ok) {dad : Nat → Nat} {leaves F seq : List Nat}
    (hs : Splits t.elems dad leaves F seq) : ∀ {b : Build} {count : List Nat} {o : Nat}, b.Lengths t F count o → wread b.dad = dad →
    b.maxCode < t.elems → (F ++ seq).Nodup → (∀ x ∈ F ++ seq, x < 1024) →
    (bitlenNodes t seq b count o).1.Lengths t leaves (bitlenNodes t seq b count o).2.1 (bitlenNodes t seq b count o).2.2 := by
  induction hs with
  | done hF => exact fun h _ _ _ _ => h.perm hF
  | @split F G seq p m n hF hp hm hn _ ih =>
    intro b count o h hdad hmax hnodup hsmall
    have hall : (F ++ m :: n :: seq).Perm (p :: (m :: n :: G ++ seq)) := by
      refine (hF.append_right _).trans (.cons p ?_)
      exact (List.perm_middle (l₁ := G)).trans (.cons m List.perm_middle)
    have hnodup' := hall.nodup_iff.1 hnodup
    have hsmall' : ∀ x ∈ p :: (m :: n :: G ++ seq), x < 1024 := fun x hx => hsmall x (hall.symm.subset hx)
    have hsub : List.Sublist (p :: m :: n :: G) (p :: (m :: n :: G ++ seq)) := (List.sublist_append_left _ _).cons_cons p
    have hpair := (h.perm hF).pair ht (by omega) (hdad ▸ hm) (hdad ▸ hn) (hnodup'.sublist hsub)
      fun x hx => hsmall' x (hsub.subset hx)
    exact ih hpair (by simpa only [bitlenNode_dad] using hdad) (by simpa only [bitlenNode_maxCode] using hmax) (List.nodup_cons.1 hnodup').2
      fun x hx => hsmall' x (List.mem_cons_of_mem _ hx)

theorem Splits.mem_iff {e : Nat} {dad : Nat → Nat} {leaves F seq : List Nat} (h : Splits e dad leaves F seq) {x : Nat} (hx : x < e) :
    x ∈ F ++ seq ↔ x ∈ leaves := by
  induction h with
  | done hF => rw [List.append_nil, hF.mem_iff]
  | split hF hp _ _ _ ih =>
    rw [← ih]
    simp only [List.mem_append, hF.mem_iff, List.mem_cons]
    have : x ≠ _ := Nat.ne_of_lt (Nat.lt_of_lt_of_le hx hp)
    tauto

end Sys2Proof.Machine
end

