-- ==== Sys2Proof/Proofs/HuffmanOverflow.lean ====
section
/-! PROOF. Sys2Proof/Proofs/HuffmanOverflow.lean: the redistribution of the overflow (R195). Each turn moves a leaf down one level beside
one of the overflow, which keeps the number of leaves and takes one off the Kraft sum in units of `2^-max_length`; the lengths are then
handed to the leaves one by one. -/

namespace Sys2Proof.Machine

open Sys2Proof

/-! ## The counts of the lengths -/

theorem count_lengthsToGive (count : List Nat) : ∀ n l : Nat,
    (lengthsToGive count n).count l = if 1 ≤ l ∧ l ≤ n then count.getD l 0 else 0
  | 0, l => by rw [if_neg (by omega)]; rfl
  | n + 1, l => by
    rw [lengthsToGive, List.count_append, count_lengthsToGive count n, List.count_replicate]
    by_cases hl : n + 1 = l
    · subst hl; simp
    · have hiff : (1 ≤ l ∧ l ≤ n + 1) ↔ (1 ≤ l ∧ l ≤ n) := by omega
      simp [hl, hiff]

theorem lengthsToGive_pos {count : List Nat} {n l : Nat} (h : l ∈ lengthsToGive count n) : 1 ≤ l := by
  have hpos := List.count_pos_iff.2 h
  rw [count_lengthsToGive] at hpos
  split at hpos <;> omega

theorem getD_set {l : List Nat} {i : Nat} (hi : i < l.length) (j v : Nat) : (l.set i v).getD j 0 = if j = i then v else l.getD j 0 := by
  by_cases hj : j = i
  · subst hj
    rw [if_pos rfl, List.getD_eq_getElem _ _ (by simpa using hi), List.getElem_set_self]
  · rw [if_neg hj, List.getD_eq_getElem?_getD, List.getElem?_set_ne (Ne.symm hj), List.getD_eq_getElem?_getD]

/-- A sum over the lengths when one count changes. -/
theorem sum_lengthsToGive_set (w : Nat → Nat) (v : Nat) {count : List Nat} {i : Nat} (h1 : 1 ≤ i) (hi : i < count.length) :
    ∀ n, i ≤ n → ((lengthsToGive (count.set i v) n).map w).sum + count.getD i 0 * w i =
      ((lengthsToGive count n).map w).sum + v * w i
  | 0, h => by omega
  | n + 1, h => by
    simp only [lengthsToGive, List.map_append, List.sum_append, List.map_replicate, List.sum_replicate, smul_eq_mul, getD_set hi]
    rcases Nat.lt_or_ge n i with hlt | hge
    · obtain rfl : n + 1 = i := by omega
      have hsame : lengthsToGive (count.set (n + 1) v) n = lengthsToGive count n := by
        clear h h1 hlt
        have : ∀ k, k ≤ n → lengthsToGive (count.set (n + 1) v) k = lengthsToGive count k := by
          intro k
          induction k with
          | zero => exact fun _ => rfl
          | succ k ih => intro hk; rw [lengthsToGive, lengthsToGive, ih (by omega), getD_set hi, if_neg (by omega)]
        exact this n (Nat.le_refl n)
      rw [if_pos rfl, hsame]
      omega
    · have ih := sum_lengthsToGive_set w v h1 hi n hge
      rw [if_neg (by omega)]
      omega

theorem sum_lengthsToGive_pred (w : Nat → Nat) {count : List Nat} {i n : Nat} (h1 : 1 ≤ i) (hi : i < count.length) (hn : i ≤ n)
    (hpos : count.getD i 0 ≠ 0) :
    ((lengthsToGive (count.set i (count.getD i 0 - 1)) n).map w).sum + w i = ((lengthsToGive count n).map w).sum := by
  have hset := sum_lengthsToGive_set w (count.getD i 0 - 1) h1 hi n hn
  obtain ⟨c, hc⟩ := Nat.exists_eq_succ_of_ne_zero hpos
  rw [hc, Nat.succ_mul, Nat.succ_sub_one] at hset
  rw [hc, Nat.succ_sub_one]
  omega

theorem sum_lengthsToGive_add (w : Nat → Nat) (k : Nat) {count : List Nat} {i n : Nat} (h1 : 1 ≤ i) (hi : i < count.length)
    (hn : i ≤ n) : ((lengthsToGive (count.set i (count.getD i 0 + k)) n).map w).sum = ((lengthsToGive count n).map w).sum + k * w i := by
  have hset := sum_lengthsToGive_set w (count.getD i 0 + k) h1 hi n hn
  rw [Nat.add_mul] at hset
  omega

/-! ## The first loop -/

/-- One turn of the first loop: a leaf of length `bits` and one of the longest become two leaves of length `bits + 1` (R195). -/
def moveLeaf (maxLength bits : Nat) (count : List Nat) : List Nat :=
  let count := count.set bits (count.getD bits 0 - 1)
  let count := count.set (bits + 1) (count.getD (bits + 1) 0 + 2)
  count.set maxLength (count.getD maxLength 0 - 1)

theorem redistribute_succ (maxLength fuel o : Nat) (count : List Nat) : redistribute maxLength (fuel + 1) o count =
    if o = 0 then count else redistribute maxLength fuel (o - 2) (moveLeaf maxLength (deepest count (maxLength - 1)) count) := rfl

section
variable {maxLength bits : Nat} {count : List Nat} (h1 : 1 ≤ bits) (hlt : bits < maxLength) (hsize : maxLength < count.length)
  (hbits : count.getD bits 0 ≠ 0) (hmax : count.getD maxLength 0 ≠ 0)

@[simp] theorem length_moveLeaf (maxLength bits : Nat) (count : List Nat) : (moveLeaf maxLength bits count).length = count.length := by
  simp [moveLeaf]

include hlt hsize hmax

theorem getD_moveLeaf_max : count.getD maxLength 0 ≤ (moveLeaf maxLength bits count).getD maxLength 0 + 1 := by
  have hsize2 : maxLength < ((count.set bits (count.getD bits 0 - 1)).set (bits + 1)
      ((count.set bits (count.getD bits 0 - 1)).getD (bits + 1) 0 + 2)).length := by simpa using hsize
  rw [moveLeaf, getD_set hsize2, if_pos rfl, getD_set (by simp; omega), getD_set (by omega), getD_set (by omega)]
  rcases eq_or_ne maxLength (bits + 1) with rfl | h
  · rw [if_pos rfl, if_neg (by omega)]; omega
  · rw [if_neg h, if_neg (by omega)]; omega

include h1 hbits

theorem sum_moveLeaf (w : Nat → Nat) : ((lengthsToGive (moveLeaf maxLength bits count) maxLength).map w).sum + w bits + w maxLength =
    ((lengthsToGive count maxLength).map w).sum + 2 * w (bits + 1) := by
  have hfirst := sum_lengthsToGive_pred w h1 (hlt.trans hsize) hlt.le hbits
  have hlen1 : maxLength < (count.set bits (count.getD bits 0 - 1)).length := by simpa using hsize
  have hmax1 : (count.set bits (count.getD bits 0 - 1)).getD maxLength 0 ≠ 0 := by
    rwa [getD_set (hlt.trans hsize), if_neg (by omega)]
  rw [moveLeaf]
  generalize count.set bits (count.getD bits 0 - 1) = c1 at *
  have hsecond := sum_lengthsToGive_add w 2 (by omega : 1 ≤ bits + 1) (by omega : bits + 1 < c1.length) (Nat.succ_le_of_lt hlt)
  have hlen2 : maxLength < (c1.set (bits + 1) (c1.getD (bits + 1) 0 + 2)).length := by simpa using hlen1
  have hmax2 : (c1.set (bits + 1) (c1.getD (bits + 1) 0 + 2)).getD maxLength 0 ≠ 0 := by
    rw [getD_set (by omega)]
    split_ifs
    · exact Nat.succ_ne_zero _
    · exact hmax1
  have hthird := sum_lengthsToGive_pred w (by omega : 1 ≤ maxLength) hlen2 (Nat.le_refl _) hmax2
  omega

end

theorem deepest_spec (count : List Nat) : ∀ n, (∀ b, 1 ≤ b → b ≤ n → count.getD b 0 = 0) ∨
    (1 ≤ deepest count n ∧ deepest count n ≤ n ∧ count.getD (deepest count n) 0 ≠ 0)
  | 0 => .inl fun b h1 h0 => by omega
  | n + 1 => by
    rw [deepest]
    split
    · next hzero =>
      rcases deepest_spec count n with h | ⟨h1, hle, hne⟩
      · refine .inl fun b h1 hb => ?_
        rcases Nat.le_succ_iff.1 hb with hb | rfl
        · exact h b h1 hb
        · exact hzero
      · exact .inr ⟨h1, by omega, hne⟩
    · next hne => exact .inr ⟨Nat.succ_pos n, Nat.le_refl _, hne⟩

/-- While the Kraft sum is over one whole there is a length below the limit: no more leaves than codes of the limit fit (R195). -/
theorem deepest_occupied {maxLength : Nat} {count : List Nat} (h1 : 1 ≤ maxLength)
    (hfew : (lengthsToGive count maxLength).length ≤ 2 ^ maxLength)
    (hover : 2 ^ maxLength < ((lengthsToGive count maxLength).map fun l => 2 ^ (maxLength - l)).sum) :
    1 ≤ deepest count (maxLength - 1) ∧ deepest count (maxLength - 1) < maxLength ∧
      count.getD (deepest count (maxLength - 1)) 0 ≠ 0 := by
  rcases deepest_spec count (maxLength - 1) with hnone | ⟨hpos, hle, hne⟩
  · have hall : ∀ l ∈ lengthsToGive count maxLength, 2 ^ (maxLength - l) = 1 := by
      intro l hl
      have hcount := List.count_pos_iff.2 hl
      rw [count_lengthsToGive] at hcount
      split at hcount
      · next hrange =>
        have : ¬ l ≤ maxLength - 1 := fun h => by rw [hnone l hrange.1 h] at hcount; omega
        rw [show maxLength - l = 0 by omega, pow_zero]
      · omega
    rw [List.map_congr_left hall] at hover
    simp at hover
    omega
  · exact ⟨hpos, by omega, hne⟩

/-- The first loop keeps the number of leaves and takes the overflow off the Kraft sum (R195). -/
theorem redistribute_spec {maxLength : Nat} (h1 : 1 ≤ maxLength) : ∀ (fuel o : Nat) (count : List Nat), o ≤ 2 * fuel →
    maxLength < count.length → (lengthsToGive count maxLength).length ≤ 2 ^ maxLength →
    2 * ((lengthsToGive count maxLength).map fun l => 2 ^ (maxLength - l)).sum = 2 ^ (maxLength + 1) + o →
    o ≤ 2 * count.getD maxLength 0 →
    (lengthsToGive (redistribute maxLength fuel o count) maxLength).length = (lengthsToGive count maxLength).length ∧
      ((lengthsToGive (redistribute maxLength fuel o count) maxLength).map fun l => 2 ^ (maxLength - l)).sum = 2 ^ maxLength := by
  intro fuel
  induction fuel with
  | zero =>
    intro o count hfuel _ _ hkraft _
    rw [pow_succ] at hkraft
    exact ⟨rfl, by rw [redistribute]; omega⟩
  | succ fuel ih =>
    intro o count hfuel hsize hfew hkraft hdeep
    rw [pow_succ] at hkraft
    rw [redistribute_succ]
    split
    · exact ⟨rfl, by omega⟩
    · next ho =>
      obtain ⟨hpos, hlt, hne⟩ := deepest_occupied h1 hfew (by omega)
      generalize deepest count (maxLength - 1) = bits at *
      have hmax : count.getD maxLength 0 ≠ 0 := by omega
      have hlen := sum_moveLeaf hpos hlt hsize hne hmax fun _ => 1
      have hsum := sum_moveLeaf hpos hlt hsize hne hmax fun l => 2 ^ (maxLength - l)
      have hlast := getD_moveLeaf_max hlt hsize hmax
      simp only [List.map_const', List.sum_replicate, smul_eq_mul, mul_one] at hlen
      have hhalf : 2 ^ (maxLength - bits) = 2 * 2 ^ (maxLength - (bits + 1)) := by
        rw [← pow_succ']; congr 1; omega
      rw [Nat.sub_self, pow_zero, hhalf] at hsum
      obtain ⟨hlen', hsum'⟩ := ih (o - 2) (moveLeaf maxLength bits count) (by omega) (by simpa using hsize) (by omega)
        (by rw [pow_succ]; omega) (by omega)
      exact ⟨by omega, hsum'⟩

/-! ## The second loop -/

/-- The leaves take the lengths one by one (R195). -/
theorem giveLengths_spec : ∀ (ms ls : List Nat) (b : Build), ms.length = ls.length → ms.Nodup → (∀ m ∈ ms, m < 1024) →
    (giveLengths ms ls b).maxCode = b.maxCode ∧ ms.map (wread (giveLengths ms ls b).len) = ls ∧
      ∀ x, x < 1024 → x ∉ ms → wread (giveLengths ms ls b).len x = wread b.len x
  | [], [], b, _, _, _ => ⟨rfl, rfl, fun _ _ _ => rfl⟩
  | m :: ms, l :: ls, b, hlen, hnodup, hsmall => by
    obtain ⟨hm, hms⟩ := List.nodup_cons.1 hnodup
    have hm1024 := hsmall m List.mem_cons_self
    rw [giveLengths]
    have hgiven : ∀ x, x < 1024 → wread (if wread b.len m ≠ l then
        { b with optLen := b.optLen + ((l : Int) - wread b.len m) * wread b.freq m, len := wwrite b.len m l } else b).len x =
        if x = m then l else wread b.len x := by
      intro x hx
      split
      · exact wread_wwrite _ _ hm1024 hx
      · next h =>
        by_cases hxm : x = m
        · rw [if_pos hxm, hxm]; exact not_not.1 h
        · rw [if_neg hxm]
    have hmax : (if wread b.len m ≠ l then
        { b with optLen := b.optLen + ((l : Int) - wread b.len m) * wread b.freq m, len := wwrite b.len m l } else b).maxCode =
        b.maxCode := by split <;> rfl
    generalize (if wread b.len m ≠ l then
        { b with optLen := b.optLen + ((l : Int) - wread b.len m) * wread b.freq m, len := wwrite b.len m l } else b) = c at *
    obtain ⟨hmax', hmap, hout⟩ := giveLengths_spec ms ls c (by simpa using hlen) hms fun x hx => hsmall x (List.mem_cons_of_mem _ hx)
    refine ⟨hmax'.trans hmax, ?_, fun x hx hnot => ?_⟩
    · rw [List.map_cons, hmap, hout m hm1024 hm, hgiven m hm1024, if_pos rfl]
    · rw [hout x hx fun h => hnot (List.mem_cons_of_mem _ h), hgiven x hx, if_neg (List.ne_of_not_mem_cons hnot)]

/-- The leaves of the heap's places, the last place first (R195). -/
theorem leavesFromEnd_eq (b : Build) : ∀ n h, n ≤ h → leavesFromEnd b n h =
    (wlist b.heap (h + 1 - n) n).reverse.filter fun x : Nat => decide ((x : Int) ≤ b.maxCode)
  | 0, _, _ => rfl
  | n + 1, h, hle => by
    rw [leavesFromEnd, leavesFromEnd_eq b n (h - 1) (by omega), show h + 1 - (n + 1) = h - n by omega,
      show h - 1 + 1 - n = h - n by omega, wlist_succ_right, show h - n + n = h by omega, List.reverse_append, List.reverse_singleton,
      List.singleton_append, List.filter_cons]
    by_cases hb : (wread b.heap h : Int) > b.maxCode
    · rw [if_pos hb, if_neg (by simpa using hb)]
    · rw [if_neg hb, if_pos (by simpa using hb)]

/-! ## The lengths of the tree -/

/-- The lengths of a tree that the builder makes: the leaves' ones meet Kraft's equality, and no other symbol has one (R197). -/
structure FullTree (t : TreeSpec) (leaves : List Nat) (len : Ram) : Prop where
  kraft : (leaves.map fun x => 2 ^ (t.maxLength - wread len x)).sum = 2 ^ t.maxLength
  pos : ∀ x ∈ leaves, wread len x ≠ 0
  rest : ∀ x, x < t.elems → x ∉ leaves → wread len x = 0

/-- Counting the lengths of the leaves gives these lengths back (R194, R195). -/
theorem Build.Lengths.lengthsToGive_perm {t : TreeSpec} {leaves : List Nat} {b : Build} {count : List Nat} {o : Nat}
    (h : b.Lengths t leaves count o) (hmax : ∀ x ∈ leaves, (x : Int) ≤ b.maxCode) :
    (lengthsToGive count t.maxLength).Perm (leaves.map (wread b.len)) := by
  rw [List.perm_iff_count]
  intro l
  have hcount : count.getD l 0 = (leaves.map (wread b.len)).count l := by
    rw [h.counts, List.count, List.countP_map]
    exact List.countP_congr fun x hx => by simp [hmax x hx]
  rw [count_lengthsToGive, hcount]
  split
  · rfl
  · next hl =>
    refine (List.count_eq_zero.2 fun hmem => hl ?_).symm
    obtain ⟨x, hx, rfl⟩ := List.mem_map.1 hmem
    exact ⟨Nat.pos_of_ne_zero (h.pos x hx (hmax x hx)), h.le x hx⟩

/-- Before the first node the root is the one node to be split, at length 0 (R194). -/
theorem Build.Lengths.start (t : TreeSpec) {b : Build} {root : Nat} (hroot : b.maxCode < root) (hlen : wread b.len root = 0) :
    b.Lengths t [root] (List.replicate 16 0) 0 where
  le x hx := by rw [List.mem_singleton.1 hx, hlen]; exact Nat.zero_le _
  pos x hx hle := by rw [List.mem_singleton.1 hx] at hle; omega
  kraft := by
    rw [List.map_singleton, List.sum_singleton, hlen, Nat.sub_zero, pow_succ]
    omega
  deep := Nat.zero_le _
  size := List.length_replicate
  counts l := by
    rw [List.getD_eq_getElem?_getD, List.getElem?_getD_replicate_default_eq]
    simp [Int.not_le.2 hroot]

section
variable {t : TreeSpec} {leaves : List Nat} {b : Build} {count : List Nat} {o : Nat} (h : b.Lengths t leaves count o)
  (hmax : ∀ x ∈ leaves, (x : Int) ≤ b.maxCode) (hrest : ∀ x, x < t.elems → x ∉ leaves → wread b.len x = 0)
include h hmax hrest

/-- Without overflow step 3 gives a full tree (R194). -/
theorem Build.Lengths.fullTree (ho : o = 0) : FullTree t leaves b.len := by
  have hkraft := h.kraft
  rw [ho, pow_succ] at hkraft
  exact ⟨by omega, fun x hx => h.pos x hx (hmax x hx), hrest⟩

/-- With overflow step 4 makes the tree full (R195). -/
theorem Build.Lengths.fullTree_giveLengths (ht : t.Ok) {ms : List Nat} (hms : ms.Perm leaves) (hleaves : leaves.Nodup)
    (hlt : ∀ x ∈ leaves, x < t.elems) (hfew : leaves.length ≤ 2 ^ t.maxLength) :
    (giveLengths ms (lengthsToGive (redistribute t.maxLength o o count) t.maxLength) b).maxCode = b.maxCode ∧
      FullTree t leaves (giveLengths ms (lengthsToGive (redistribute t.maxLength o o count) t.maxLength) b).len := by
  have helems := ht.elems
  have hcounts := h.lengthsToGive_perm hmax
  have hlength : (lengthsToGive count t.maxLength).length = leaves.length := by rw [hcounts.length_eq, List.length_map]
  have hkraft : 2 * ((lengthsToGive count t.maxLength).map fun l => 2 ^ (t.maxLength - l)).sum = 2 ^ (t.maxLength + 1) + o := by
    rw [(hcounts.map _).sum_eq, List.map_map]
    exact h.kraft
  have hdeep : o ≤ 2 * count.getD t.maxLength 0 := by
    rw [h.counts]
    exact h.deep.trans (Nat.mul_le_mul_left 2 (List.countP_mono_left fun x hx hdeep => by simpa [hmax x hx] using hdeep))
  obtain ⟨hlen, hsum⟩ := redistribute_spec ht.limit.1 o o count (by omega) (h.size ▸ Nat.lt_succ_of_le ht.limit.2)
    (hlength ▸ hfew) hkraft hdeep
  obtain ⟨hmax', hmap, hout⟩ := giveLengths_spec ms (lengthsToGive (redistribute t.maxLength o o count) t.maxLength) b
    (by rw [hlen, hlength, hms.length_eq]) (hms.nodup_iff.2 hleaves) fun x hx => by have := hlt x (hms.subset hx); omega
  refine ⟨hmax', ?_, fun x hx => ?_, fun x hx hnot => ?_⟩
  · rw [(hms.symm.map _).sum_eq, ← hsum]
    conv_rhs => rw [← hmap, List.map_map]
    rfl
  · exact Nat.ne_of_gt (lengthsToGive_pos (hmap ▸ List.mem_map_of_mem (hms.symm.subset hx)))
  · rw [hout x (by omega) fun hx' => hnot (hms.subset hx')]
    exact hrest x hx hnot

end

section
variable {e : Nat} {leaves seq : List Nat} {b : Build} {root : Nat} (h : b.Merged e leaves root seq) (h2 : 2 ≤ leaves.length)
include h h2

/-- The root of two leaves or more is an inner node. -/
theorem Build.Merged.le_root : e ≤ root := by
  cases h.splits with
  | done hF => rw [← hF.length_eq] at h2; exact absurd h2 (by simp)
  | split hF hp _ _ _ =>
    obtain ⟨rfl, -⟩ : root = _ ∧ _ := by simpa using List.singleton_perm.1 hF
    exact hp

theorem Build.Merged.mem_seq_iff {x : Nat} (hx : x < e) : x ∈ seq ↔ x ∈ leaves := by
  have hroot := h.le_root h2
  rw [← h.splits.mem_iff hx, List.singleton_append, List.mem_cons]
  exact (or_iff_right (by omega)).symm

/-- The leaves among the heap's places. -/
theorem Build.Merged.filter_perm {k : Int} (hmax : ∀ x ∈ leaves, (x : Int) ≤ k) (hlt : k < e) (hleaves : leaves.Nodup) :
    (seq.reverse.filter fun x : Nat => decide ((x : Int) ≤ k)).Perm leaves := by
  refine (List.perm_ext_iff_of_nodup ((List.nodup_reverse.2 (List.nodup_cons.1 h.nodup).2).filter _) hleaves).2 fun x => ?_
  rw [List.mem_filter, List.mem_reverse, decide_eq_true_eq]
  constructor
  · exact fun ⟨hx, hle⟩ => (h.mem_seq_iff h2 (by omega)).1 hx
  · exact fun hx => ⟨(h.mem_seq_iff h2 (by have := hmax x hx; omega)).2 hx, hmax x hx⟩

end

/-- Steps 3 and 4 give a merged tree full lengths (R194, R195, R197 c). -/
theorem Build.Merged.genBitlen {t : TreeSpec} (ht : t.Ok) {leaves seq : List Nat} {b : Build} {root : Nat}
    (h : b.Merged t.elems leaves root seq) (hlen : ∀ x, wread b.len x = 0) (hmax : ∀ x ∈ leaves, (x : Int) ≤ b.maxCode)
    (hlt : b.maxCode < t.elems) (h2 : 2 ≤ leaves.length) (hfew : leaves.length ≤ 2 ^ t.maxLength) (hleaves : leaves.Nodup) :
    (b.genBitlen t).maxCode = b.maxCode ∧ FullTree t leaves (b.genBitlen t).len := by
  have hsize : Config.heapSize = 573 := rfl
  have helems := ht.elems
  have htop := h.top
  have hroot := h.le_root h2
  have hperm := h.filter_perm h2 hmax hlt hleaves
  have hplaces := h.places
  rw [Build.removed, show Config.heapSize - b.heapMax = Config.heapSize - 1 - b.heapMax + 1 by omega, wlist] at hplaces
  obtain ⟨hrootAt, hseqAt⟩ := List.cons.inj hplaces
  have hseq : ∀ x ∈ seq, x < 1024 := fun x hx => h.small x (List.mem_cons_of_mem _ hx)
  have hzero : ∀ x, wread (wwrite b.len root 0) x = 0 := fun x =>
    Nat.le_zero.1 (workLe.write (m := 0) (fun k => (hlen k).le) root (Nat.le_refl 0) x)
  -- step 3
  have hlengths := (Build.Lengths.start t (b := { b with len := wwrite b.len root 0 }) (by show b.maxCode < root; omega)
    (hzero root)).nodes ht h.splits rfl hlt h.nodup h.small
  obtain ⟨hheap, hmax', hframe⟩ := bitlenNodes_frame t seq { b with len := wwrite b.len root 0 } (List.replicate 16 0) 0 hseq
  rw [Build.genBitlen]
  dsimp only
  rw [bitlenFrom_eq, hseqAt, hrootAt]
  generalize bitlenNodes t seq { b with len := wwrite b.len root 0 } (List.replicate 16 0) 0 = r at *
  replace hmax' : r.1.maxCode = b.maxCode := hmax'
  have hrest : ∀ x, x < t.elems → x ∉ leaves → wread r.1.len x = 0 := fun x hx hnot =>
    (hframe x (by omega) fun hx' => hnot ((h.mem_seq_iff h2 hx).1 hx')).trans (hzero x)
  -- step 4
  rw [← hmax'] at hmax
  split
  · next ho => exact ⟨hmax', hlengths.fullTree hmax hrest ho⟩
  · have hlist : leavesFromEnd r.1 (Config.heapSize - 1 - b.heapMax) (Config.heapSize - 1) =
        seq.reverse.filter fun x : Nat => decide ((x : Int) ≤ b.maxCode) := by
      rw [leavesFromEnd_eq _ _ _ (by omega), hheap, hmax', ← hseqAt]
      congr 3
      omega
    rw [hlist, ← hmax']
    exact hlengths.fullTree_giveLengths hmax hrest ht (hmax' ▸ hperm) hleaves (fun x hx => by have := hmax x hx; omega) hfew

end Sys2Proof.Machine
end

