-- ==== Sys2Proof/Proofs/HuffmanTrees.lean ====
section
/-! PROOF. Sys2Proof/Proofs/HuffmanTrees.lean: the trees of `build_tree` have complete codes that the decoder accepts (R197), and the spec's
example trees (R199). -/

namespace Sys2Proof

open Machine

/-! ## Complete codes -/

/-- A complete code leaves no depth over-subscribed, so the decoder accepts its lengths whatever their kind (R197 d, R331). -/
theorem acceptable_of_complete {lens : List Nat} (hl : ∀ l ∈ lens, l ≤ 15) (hc : (canonicalCode lens).Complete) (allow : Bool)
    (kind : SetKind) : acceptable allow lens kind = true := by
  replace hc : firstCode lens 15 + blCount lens 15 = 2 ^ 15 := kraft_canonicalCode hl ▸ hc
  refine (acceptable_iff allow lens kind).2 (.inr ⟨?_, fun l _ h15 => ?_, .inl ?_⟩)
  · by_contra hnone
    push Not at hnone
    have hzero : ∀ x ∈ lens.map (share 15), x = 0 := by
      intro x hx
      obtain ⟨l, hlm, rfl⟩ := List.mem_map.1 hx
      rw [share, if_pos (.inl (hnone l hlm))]
    have hsum := sum_share lens 15
    rw [List.sum_eq_zero hzero, hc] at hsum
    exact absurd hsum (by decide)
  · have hle : firstCode lens l + blCount lens l ≤ 2 ^ l := by
      rcases Nat.lt_or_eq_of_le h15 with hlt | rfl
      · obtain ⟨d, hd⟩ := Nat.exists_eq_add_of_lt hlt
        have hadd := firstCode_add lens l d
        rw [show l + (d + 1) = 15 by omega] at hadd
        have hpow : (2 : Nat) ^ 15 = 2 ^ l * 2 ^ (d + 1) := by rw [← pow_add, show l + (d + 1) = 15 by omega]
        exact Nat.le_of_mul_le_mul_right (by omega : _ * 2 ^ (d + 1) ≤ 2 ^ l * 2 ^ (d + 1)) (Nat.two_pow_pos _)
      · exact hc.le
    rw [kraftLeft_eq, sub_nonneg]
    exact_mod_cast hle
  · rw [kraftLeft_eq, hc]
    norm_num

/-! ## Reversed codes -/

namespace Machine

theorem length_spreadCodes : ∀ (k n : Nat) (c : Code), (spreadCodes k n c).length = k
  | 0, _, _ => rfl
  | k + 1, n, [] => by rw [spreadCodes, List.length_cons, length_spreadCodes k]
  | k + 1, n, e :: es => by
    rw [spreadCodes]
    split <;> rw [List.length_cons, length_spreadCodes k]

/-- The reversed code of a symbol in closed form (R196). -/
theorem getD_reversedCodes {lens : List Nat} (hl : ∀ l ∈ lens, l ≤ 15) (s : Nat) : (reversedCodes lens).getD s 0 =
    if lens.getD s 0 = 0 then 0
    else bitrev (lens.getD s 0) (firstCode lens (lens.getD s 0) + (lens.take s).count (lens.getD s 0)) := by
  rw [reversedCodes]
  rcases Nat.lt_or_ge s lens.length with hs | hs
  · rw [getD_spreadCodes _ hs (fun _ _ => Nat.zero_le _) (canonicalCode_pairwise_sym lens), Nat.zero_add, entry_canonicalCode hl]
    split <;> rfl
  · rw [List.getD_eq_default _ _ (by rwa [length_spreadCodes]), List.getD_eq_default _ _ hs, if_pos rfl]

/-- Symbols without a code at the end change no code: `gen_codes` may stop at `max_code` (R196, R198). -/
theorem getD_reversedCodes_append_zeros {lens : List Nat} (hl : ∀ l ∈ lens, l ≤ 15) (k s : Nat) :
    (reversedCodes (lens ++ List.replicate k 0)).getD s 0 = (reversedCodes lens).getD s 0 := by
  have hl' : ∀ l ∈ lens ++ List.replicate k 0, l ≤ 15 := by
    intro l hm
    rcases List.mem_append.1 hm with hm | hm
    · exact hl l hm
    · rw [List.eq_of_mem_replicate hm]; decide
  have hget : (lens ++ List.replicate k 0).getD s 0 = lens.getD s 0 := by
    rcases Nat.lt_or_ge s lens.length with hs | hs
    · exact List.getD_append _ _ _ _ hs
    · rw [List.getD_append_right _ _ _ _ hs, List.getD_eq_getElem?_getD, List.getElem?_getD_replicate_default_eq,
        List.getD_eq_default _ _ hs]
  have hblCount : ∀ l, blCount (lens ++ List.replicate k 0) l = blCount lens l := by
    intro l
    rw [blCount, blCount]
    split
    · rfl
    · next h0 => rw [List.count_append, List.count_replicate, if_neg (by simpa using Ne.symm h0), Nat.add_zero]
  have hfirst : ∀ l, firstCode (lens ++ List.replicate k 0) l = firstCode lens l := by
    intro l
    induction l with
    | zero => rfl
    | succ l ih => rw [firstCode_succ, firstCode_succ, ih, hblCount]
  rw [getD_reversedCodes hl', getD_reversedCodes hl, hget]
  split
  · rfl
  · next h0 =>
    rw [hfirst, List.take_append, List.count_append, List.take_replicate, List.count_replicate, if_neg (by simpa using Ne.symm h0),
      Nat.add_zero]

theorem getD_reversedCodes_take {lens : List Nat} (hl : ∀ l ∈ lens, l ≤ 15) {k : Nat} (hk : ∀ i, k ≤ i → lens.getD i 0 = 0)
    (s : Nat) : (reversedCodes (lens.take k)).getD s 0 = (reversedCodes lens).getD s 0 := by
  have hzeros : lens.drop k = List.replicate (lens.drop k).length 0 := by
    refine List.eq_replicate_iff.2 ⟨rfl, fun x hx => ?_⟩
    obtain ⟨i, hi, rfl⟩ := List.mem_iff_getElem.1 hx
    rw [List.getElem_drop, ← List.getD_eq_getElem _ 0]
    exact hk _ (Nat.le_add_right k i)
  conv_rhs => rw [← List.take_append_drop k lens, hzeros]
  exact (getD_reversedCodes_append_zeros (fun l hm => hl l (List.mem_of_mem_take hm)) _ s).symm

/-! ## The lengths of a full tree -/

theorem getD_wlist (t : Ram) {n i : Nat} : (wlist t 0 n).getD i 0 = if i < n then wread t i else 0 := by
  split
  · next h => rw [List.getD_eq_getElem _ _ (by rwa [length_wlist]), getElem_wlist, Nat.zero_add]
  · next h => exact List.getD_eq_default _ _ (by rw [length_wlist]; omega)

/-- The symbols' lengths are the leaves' ones and zeros. -/
theorem FullTree.lengths_perm {t : TreeSpec} {leaves : List Nat} {len : Ram} (h : FullTree t leaves len) (hleaves : leaves.Nodup)
    (hlt : ∀ x ∈ leaves, x < t.elems) :
    ∃ k, (wlist len 0 t.elems).Perm (leaves.map (wread len) ++ List.replicate k 0) := by
  have hsplit := (List.filter_append_perm (fun x => decide (x ∈ leaves)) (List.range t.elems)).map (wread len)
  have hcoded : ((List.range t.elems).filter fun x => decide (x ∈ leaves)).Perm leaves := by
    refine (List.perm_ext_iff_of_nodup (List.nodup_range.filter _) hleaves).2 fun x => ?_
    rw [List.mem_filter, List.mem_range, decide_eq_true_eq]
    exact ⟨And.right, fun hx => ⟨hlt x hx, hx⟩⟩
  have hzeros : (((List.range t.elems).filter fun x => !decide (x ∈ leaves)).map (wread len)) =
      List.replicate ((List.range t.elems).filter fun x => !decide (x ∈ leaves)).length 0 := by
    refine List.eq_replicate_iff.2 ⟨List.length_map _, fun y hy => ?_⟩
    obtain ⟨x, hx, rfl⟩ := List.mem_map.1 hy
    obtain ⟨hx, hnot⟩ := List.mem_filter.1 hx
    exact h.rest x (List.mem_range.1 hx) (by simpa using hnot)
  rw [List.map_append, hzeros] at hsplit
  rw [wlist_eq_map, ← List.range_eq_range']
  exact ⟨_, hsplit.symm.trans ((hcoded.map _).append_right _)⟩

/-- The coded symbols are the leaves. -/
theorem FullTree.countP_coded {t : TreeSpec} {leaves : List Nat} {len : Ram} (h : FullTree t leaves len) (hleaves : leaves.Nodup)
    (hlt : ∀ x ∈ leaves, x < t.elems) : (wlist len 0 t.elems).countP (fun l => decide (l ≠ 0)) = leaves.length := by
  obtain ⟨k, hperm⟩ := h.lengths_perm hleaves hlt
  have hall : (leaves.map (wread len)).countP (fun l => decide (l ≠ 0)) = (leaves.map (wread len)).length :=
    List.countP_eq_length.2 (by simpa using h.pos)
  have hnone : (List.replicate k 0).countP (fun l => decide (l ≠ 0)) = 0 :=
    List.countP_eq_zero.2 fun x hx => by simp [List.eq_of_mem_replicate hx]
  rw [hperm.countP_eq, List.countP_append, hall, hnone, List.length_map, Nat.add_zero]

/-- The canonical code of a full tree's lengths is complete (R197 c). -/
theorem FullTree.complete {t : TreeSpec} (ht : t.Ok) {leaves : List Nat} {len : Ram} (h : FullTree t leaves len) (hleaves : leaves.Nodup)
    (hlt : ∀ x ∈ leaves, x < t.elems) (hle : ∀ l ∈ wlist len 0 t.elems, l ≤ t.maxLength) :
    (canonicalCode (wlist len 0 t.elems)).Complete := by
  have h15 := ht.limit.2
  obtain ⟨k, hperm⟩ := h.lengths_perm hleaves hlt
  have hshare : (leaves.map (wread len)).map (share 15) =
      leaves.map fun x => 2 ^ (15 - t.maxLength) * 2 ^ (t.maxLength - wread len x) := by
    rw [List.map_map]
    refine List.map_congr_left fun x hx => ?_
    have hx15 := hle (wread len x) (hperm.symm.subset (List.mem_append_left _ (List.mem_map_of_mem hx)))
    rw [Function.comp_apply, share, if_neg (not_or.2 ⟨h.pos x hx, by omega⟩), ← pow_add]
    congr 1
    omega
  show Code.kraft _ = 2 ^ 15
  rw [kraft_canonicalCode fun l hl => (hle l hl).trans h15, ← sum_share, (hperm.map _).sum_eq, List.map_append, List.sum_append, hshare,
    List.sum_map_mul_left, h.kraft, List.map_replicate, List.sum_replicate, show share 15 0 = 0 from rfl, smul_zero, Nat.add_zero,
    ← pow_add]
  congr 1
  omega

/-! ## The builder -/

theorem ltreeSpec_ok : ltreeSpec.Ok := ⟨by decide, by decide, by decide, by decide⟩

theorem dtreeSpec_ok : dtreeSpec.Ok := ⟨by decide, by decide, by decide, by decide⟩

theorem bltreeSpec_ok : bltreeSpec.Ok := ⟨by decide, by decide, by decide, by decide⟩

/-- The work state that `build_tree` begins with (R192). -/
def Build.start (freq : List Nat) (o st : Int) : Build :=
  { freq := wload 0 freq .nil, len := .nil, dad := .nil, depth := .nil, heap := .nil, heapLen := 0,
    heapMax := Config.heapSize, maxCode := -1, optLen := o, staticLen := st }

theorem Build.leaves_start (freq : List Nat) (o st : Int) : (Build.start freq o st).Leaves 0 :=
  ⟨List.nodup_nil, fun _ hx => absurd hx List.not_mem_nil, .inl ⟨rfl, rfl⟩, by show (-1 : Int) < 0; decide, rfl⟩

theorem Build.workLe_start (freq : List Nat) (o st : Int) : workLe 0 (Build.start freq o st).len :=
  fun k => (Ram.get_nil 10 k).le

/-- The builder's results from its work state after steps 1 to 4. -/
theorem buildTree_eq (t : TreeSpec) (freq : List Nat) (o st : Int) : ∃ b,
    b = ((addDummies t 2 (addLeaves 0 freq (Build.start freq o st))).merge t).genBitlen t ∧
    (buildTree t freq o st).1 =
      { len := wlist b.len 0 t.elems, code := reversedCodes ((wlist b.len 0 t.elems).take (b.maxCode.toNat + 1)),
        maxCode := b.maxCode.toNat } := ⟨_, rfl, rfl⟩

/-- What `build_tree` makes from any frequencies: a full tree of the used symbols and, where there are fewer than two, dummies (R192 to
R195). -/
theorem buildTree_full {t : TreeSpec} (ht : t.Ok) {freq : List Nat} (hfreq : freq.length = t.elems) (o st : Int) :
    ∃ (leaves : List Nat) (len : Ram), (buildTree t freq o st).1.len = wlist len 0 t.elems ∧
      (buildTree t freq o st).1.code =
        reversedCodes ((buildTree t freq o st).1.len.take ((buildTree t freq o st).1.maxCode + 1)) ∧
      FullTree t leaves len ∧ leaves.Nodup ∧ 2 ≤ leaves.length ∧ (∀ i, freq.getD i 0 ≠ 0 → i ∈ leaves) ∧
      (∀ x ∈ leaves, x ≤ (buildTree t freq o st).1.maxCode) ∧ (buildTree t freq o st).1.maxCode < t.elems := by
  have helems := ht.elems
  obtain ⟨hadd, -, hused⟩ := (Build.leaves_start freq o st).addLeaves freq (by omega)
  rw [Nat.zero_add, hfreq] at hadd
  simp only [Nat.zero_add] at hused
  obtain ⟨hdummies, hsub, htwo⟩ := hadd.addDummies t ht.dummies 2
  have hlen : ∀ x, wread ((addDummies t 2 (addLeaves 0 freq (Build.start freq o st))).merge t).len x = 0 := fun x => by
    rw [Build.merge_len, addDummies_len]
    exact Nat.le_zero.1 (addLeaves_len freq 0 (Build.workLe_start freq o st) x)
  obtain ⟨c, hc, hbuild⟩ := buildTree_eq t freq o st
  rw [hbuild]
  generalize addDummies t 2 (addLeaves 0 freq (Build.start freq o st)) = b at *
  have h2 : 2 ≤ b.heapLen := by omega
  obtain ⟨hmax, root, seq, hmerged⟩ := hdummies.merge helems h2
  have hle_max : ∀ x ∈ b.frontier, (x : Int) ≤ (b.merge t).maxCode := hmax ▸ hdummies.le_max
  have hmax_lt : (b.merge t).maxCode < t.elems := hmax ▸ hdummies.max_lt
  have hfew := hdummies.heapLen_le.trans ht.room
  obtain ⟨hmax', hfull⟩ := hmerged.genBitlen ht hlen hle_max hmax_lt (b.length_frontier.symm ▸ h2) (b.length_frontier.symm ▸ hfew)
    hdummies.nodup
  rw [← hc] at hmax' hfull
  rw [← hmax'] at hle_max hmax_lt
  obtain ⟨u, hu⟩ : ∃ u, u ∈ b.frontier := List.exists_mem_of_length_pos (by rw [b.length_frontier]; omega)
  have hu0 := hle_max u hu
  refine ⟨b.frontier, c.len, rfl, rfl, hfull, hdummies.nodup, b.length_frontier.symm ▸ h2, fun i hi => hsub (hused i hi), ?_, ?_⟩
  · exact fun x hx => by have := hle_max x hx; show x ≤ c.maxCode.toNat; omega
  · show c.maxCode.toNat < t.elems
    omega

end Machine

end Sys2Proof

open Sys2Proof Sys2Proof.Machine

/-- Settles O19: the builder makes a full tree from any frequencies (`buildTree_full`), whose code is complete, so the
decoder accepts it; the four examples are evaluated. -/
theorem treeExamples : Obligations.TreeExamples := by
  refine ⟨fun t kind freq o st htree hfreq => ?_, by decide +kernel, by decide +kernel, by decide +kernel, by decide +kernel⟩
  have ht : t.Ok := by
    rcases htree with ⟨rfl, -⟩ | ⟨rfl, -⟩ | ⟨rfl, -⟩
    · exact ltreeSpec_ok
    · exact dtreeSpec_ok
    · exact bltreeSpec_ok
  obtain ⟨leaves, len, hlen, hcode, hfull, hleaves, htwo, hused, hmax, hmax_lt⟩ := buildTree_full ht hfreq o st
  have hle := buildTree_len_le t freq o st
  generalize (buildTree t freq o st).1 = r at *
  have hlt : ∀ x ∈ leaves, x < t.elems := fun x hx => (hmax x hx).trans_lt hmax_lt
  have hle15 : ∀ l ∈ r.len, l ≤ 15 := fun l hl => (hle l hl).trans ht.limit.2
  have hget : ∀ n, r.len.getD n 0 = if n < t.elems then wread len n else 0 := fun n => by rw [hlen, getD_wlist]
  have hafter : ∀ n, r.maxCode < n → r.len.getD n 0 = 0 := by
    intro n hn
    rw [hget]
    split
    · next h => exact hfull.rest n h fun hx => Nat.not_le.2 hn (hmax n hx)
    · rfl
  have hcomplete : (canonicalCode r.len).Complete := hlen ▸ hfull.complete ht hleaves hlt (hlen ▸ hle)
  have haccept := acceptable_of_complete hle15 hcomplete false kind
  refine ⟨by rw [hlen, length_wlist], hle, ?_, fun n hn => ?_, hmax_lt, hafter, hcomplete, acceptable_proper hle15 haccept, haccept,
    fun n => ?_⟩
  · rw [hlen, hfull.countP_coded hleaves hlt]
    exact htwo
  · rw [hget, if_pos (hlt n (hused n hn))]
    exact hfull.pos n (hused n hn)
  · rw [hcode]
    exact getD_reversedCodes_take hle15 hafter n
end

