-- ==== Sys2Proof/Proofs/DictionaryFrame.lean ====
section
/-! PROOF. Sys2Proof/Proofs/DictionaryFrame.lean: what reading input into the window and priming a dictionary leave alone (R230 to R232,
R245), and with it the frame of ENC_SET_DICT (R392). -/

namespace Sys2Proof.Machine

open Sys2Proof

/-- The encoder with the window, its chains and the registers of its positions and of the current match blotted out: two encoders that
agree in it differ in these fields at most. -/
def Enc.outsideWindow (e : Enc) : Enc :=
  { e with
    win := .nil, head := .nil, prev := .nil, strstart := 0, lookahead := 0, insert := 0, blockStart := 0, matchStart := 0,
    matchLength := 0, prevLength := 0, matchAvailable := false }

/-- An encoder is another one with its own window, chains and registers, where the two agree outside of these. -/
theorem Enc.eq_of_outsideWindow {e e' : Enc} (h : e'.outsideWindow = e.outsideWindow) : e' = { e with
    win := e'.win, head := e'.head, prev := e'.prev, strstart := e'.strstart, lookahead := e'.lookahead, insert := e'.insert,
    blockStart := e'.blockStart, matchStart := e'.matchStart, matchLength := e'.matchLength, prevLength := e'.prevLength,
    matchAvailable := e'.matchAvailable } :=
  congrArg (fun o : Enc => { o with
    win := e'.win, head := e'.head, prev := e'.prev, strstart := e'.strstart, lookahead := e'.lookahead, insert := e'.insert,
    blockStart := e'.blockStart, matchStart := e'.matchStart, matchLength := e'.matchLength, prevLength := e'.prevLength,
    matchAvailable := e'.matchAvailable }) h

/-! ## Reading into the window -/

@[simp] theorem Enc.slideIfDue_outsideWindow (e : Enc) : e.slideIfDue.outsideWindow = e.outsideWindow := by
  unfold Enc.slideIfDue; split <;> rfl

@[simp] theorem Enc.catchUp_outsideWindow (e : Enc) (ps : Config.Params) : (e.catchUp ps).outsideWindow = e.outsideWindow := by
  rw [Enc.catchUp_eq]; rfl

@[simp] theorem Enc.insertRange_outsideWindow (ps : Config.Params) (n s : Nat) (e : Enc) :
    (Enc.insertRange ps n s e).outsideWindow = e.outsideWindow := by
  rw [Enc.insertRange_eq]; rfl

@[simp] theorem EncRun.readBytes_outsideWindow (n : Nat) (r : EncRun) :
    (EncRun.readBytes n r).e.outsideWindow = r.e.outsideWindow := by
  rw [EncRun.readBytes_eq]; rfl

@[simp] theorem EncRun.fillTurn_outsideWindow (r : EncRun) : r.fillTurn.e.outsideWindow = r.e.outsideWindow := by
  rw [EncRun.fillTurn]
  dsimp only
  rw [Enc.catchUp_outsideWindow, EncRun.readBytes_outsideWindow, Enc.slideIfDue_outsideWindow]

@[simp] theorem EncRun.fillLoop_outsideWindow : ∀ (fuel : Nat) (r : EncRun),
    (EncRun.fillLoop fuel r).e.outsideWindow = r.e.outsideWindow
  | 0, _ => rfl
  | fuel + 1, r => by
    rw [EncRun.fillLoop]
    split
    · dsimp only; rw [Enc.slideIfDue_outsideWindow]
    · split
      · rw [EncRun.fillLoop_outsideWindow fuel, EncRun.fillTurn_outsideWindow]
      · rw [EncRun.fillTurn_outsideWindow]

@[simp] theorem EncRun.fillWindow_outsideWindow (r : EncRun) : r.fillWindow.e.outsideWindow = r.e.outsideWindow :=
  EncRun.fillLoop_outsideWindow _ r

/-! ## Priming -/

@[simp] theorem EncRun.primeLoop_outsideWindow : ∀ (fuel : Nat) (r : EncRun),
    (EncRun.primeLoop fuel r).e.outsideWindow = r.e.outsideWindow
  | 0, _ => rfl
  | fuel + 1, r => by
    rw [EncRun.primeLoop]
    split
    · rfl
    · rw [EncRun.primeLoop_outsideWindow fuel, EncRun.fillWindow_outsideWindow]
      exact Enc.insertRange_outsideWindow _ _ _ r.e

theorem EncRun.prime_outsideWindow (r : EncRun) : r.prime.e.outsideWindow = r.e.outsideWindow :=
  (EncRun.primeLoop_outsideWindow _ r.fillWindow).trans r.fillWindow_outsideWindow

/-- What `prime_dictionary` may change of an encoder, and the registers that it sets to fixed values at its end (R245). -/
theorem EncRun.prime_eq (r : EncRun) : r.prime.e = { r.e with
    win := r.prime.e.win, head := r.prime.e.head, prev := r.prime.e.prev, strstart := r.prime.e.strstart, lookahead := 0,
    insert := r.prime.e.insert, blockStart := (r.prime.e.strstart : Int), matchStart := r.prime.e.matchStart, matchLength := 2,
    prevLength := 2, matchAvailable := false } :=
  Enc.eq_of_outsideWindow r.prime_outsideWindow

/-- `prime_dictionary` leaves an encoder in order (R245). -/
theorem EncRun.prime_ok {r : EncRun} (h : r.e.Ok r.params) : r.prime.e.Ok r.params := by
  obtain ⟨hgood, hkept⟩ := EncRun.prime_end (r := r)
  exact (hgood.sound h).ok (hgood.placed h) (by rw [hkept.syms]; exact h.syms)

end Sys2Proof.Machine

open Sys2Proof Sys2Proof.Machine

/-- Settles O28: the command is `prime_dictionary`, whose frame is that of the reading and the insertions it is made of. -/
theorem encSetDictCompletes : Obligations.EncSetDictCompletes := by
  intro s e hs hst hr hok
  set r : EncRun := { e := e, io := s.dictIo e, params := s.params }
  have hstatus : r.prime.e.status = .init := (EncRun.prime_end (r := r)).2.status.trans hst
  refine ⟨r.prime.e, (execEncSetDict_eq hs hst hr).trans ?_, r.prime_eq, EncRun.prime_ok (r := r) hok⟩
  rw [State.complete, Status.after_of_ne_malformed (by decide), StreamCtx.estate, hstatus]
  rfl
end

