-- ==== Sys2Proof/Proofs/MatchSearch.lean ====
section
/-! PROOF. Sys2Proof/Proofs/MatchSearch.lean: the level table and the block functions (R221 to R223), and what the match search finds:
`matchlen` is the number of bytes that agree (R235), and `longest_match` the first of the longest among the entries it walks (R234). -/

namespace Sys2Proof.Machine

open Sys2Proof

/-! ## Levels and block functions -/

/-- The four parameters of a level are its row of the table (R222). -/
theorem Enc.row_eq_levelTable {e : Enc} (h : e.level ≤ 9) : levelTable[e.level]? = some (e.good, e.lazy, e.nice, e.chain) := by
  have hlt : e.level < levelTable.length := Nat.lt_succ_of_le h
  rw [List.getElem?_eq_getElem hlt, ← List.getD_eq_getElem levelTable (0, 0, 0, 0) hlt]
  rfl

theorem Enc.blockFn_huff {e : Enc} (h : e.level ≠ 0) (hs : e.strategy = .huffmanOnly) : e.blockFn = .huff := by
  rw [Enc.blockFn, if_neg h, hs]

theorem Enc.blockFn_rle {e : Enc} (h : e.level ≠ 0) (hs : e.strategy = .runLength) : e.blockFn = .rle := by
  rw [Enc.blockFn, if_neg h, hs]

theorem Enc.blockFn_chains {e : Enc} (h : e.level ≠ 0) (hs : e.strategy = .default ∨ e.strategy = .filtered) :
    e.blockFn = if e.level ≤ 3 then .fast else .slow := by
  rw [Enc.blockFn, if_neg h]
  rcases hs with hs | hs <;> rw [hs]

/-! ## `matchlen` -/

/-- Bytes agree from index `p` and from `strstart` on, for `l` bytes that a match may have (R235). -/
def Enc.Agrees (e : Enc) (p l : Nat) : Prop := l ≤ min 258 e.lookahead ∧ ∀ i < l, e.winByte (p + i) = e.winByte (e.strstart + i)

/-- Where the first `j` bytes agree, `matchFrom` is the largest length up to `j + n` that agrees. -/
theorem Enc.le_matchFrom_iff (e : Enc) (p l : Nat) : ∀ (n j : Nat), (∀ i < j, e.winByte (p + i) = e.winByte (e.strstart + i)) →
    (l ≤ e.matchFrom p n j ↔ l ≤ j + n ∧ ∀ i < l, e.winByte (p + i) = e.winByte (e.strstart + i))
  | 0, _, hj => ⟨fun hl => ⟨hl, fun i hi => hj i (Nat.lt_of_lt_of_le hi hl)⟩, And.left⟩
  | n + 1, j, hj => by
    rw [Enc.matchFrom]
    split
    · next heq =>
      rw [Enc.le_matchFrom_iff e p l n (j + 1), Nat.add_right_comm, Nat.add_assoc]
      intro i hi
      rcases Nat.lt_succ_iff_lt_or_eq.1 hi with hlt | rfl
      · exact hj i hlt
      · exact heq
    · next hne =>
      refine ⟨fun hl => ⟨Nat.le_add_right_of_le hl, fun i hi => hj i (Nat.lt_of_lt_of_le hi hl)⟩, fun h => ?_⟩
      exact Nat.le_of_not_lt fun hlt => hne (h.2 j hlt)

/-- `matchlen` is the largest length that agrees (R235). -/
theorem Enc.agrees_iff {e : Enc} {p l : Nat} : e.Agrees p l ↔ l ≤ e.matchlen p := by
  rw [Enc.matchlen, Enc.le_matchFrom_iff e p l _ 0 (fun i hi => absurd hi (Nat.not_lt_zero i)), Nat.zero_add]
  rfl

theorem Enc.matchlen_le_lookahead (e : Enc) (p : Nat) : e.matchlen p ≤ e.lookahead :=
  (Enc.agrees_iff.2 (Nat.le_refl _)).1.trans (Nat.min_le_right _ _)

/-! ## The walk along a chain -/

/-- Entry `j` of the chain from `cur` on is walked: the budget lasts for it, and no link up to it is at or below the limit (R234). -/
def Enc.Reached (e : Enc) (limit budget cur j : Nat) : Prop := j < budget ∧ ∀ i, 1 ≤ i → i ≤ j → limit < e.chainOf^[i] cur

/-- Past its first entry a walk is the walk from the next entry on. -/
theorem Enc.reached_succ {e : Enc} {limit budget cur j : Nat} : e.Reached limit (budget + 1) cur (j + 1) ↔
    limit < e.chainOf cur ∧ e.Reached limit budget (e.chainOf cur) j := by
  constructor
  · rintro ⟨hj, hlinks⟩
    exact ⟨hlinks 1 (Nat.le_refl 1) (Nat.le_add_left 1 j), Nat.lt_of_succ_lt_succ hj,
      fun i _ hi => hlinks (i + 1) (Nat.le_add_left 1 i) (Nat.succ_le_succ hi)⟩
  · rintro ⟨hnext, hj, hlinks⟩
    refine ⟨Nat.succ_lt_succ hj, fun i hi hij => ?_⟩
    match i with
    | 1 => exact hnext
    | i + 2 => exact hlinks (i + 1) (Nat.le_add_left 1 i) (Nat.le_of_succ_le_succ hij)

/-- The better of the match `m` so far, as length and position, and of what `cur` agrees in: the earlier one where they tie (R234). -/
def Enc.improve (e : Enc) (cur : Nat) (m : Nat × Nat) : Nat × Nat := if m.1 < e.matchlen cur then (e.matchlen cur, cur) else m

theorem Enc.improve_fst (e : Enc) (cur : Nat) (m : Nat × Nat) : (e.improve cur m).1 = max m.1 (e.matchlen cur) := by
  rw [Enc.improve]
  split
  · next hbetter => exact (Nat.max_eq_right hbetter.le).symm
  · next hworse => exact (Nat.max_eq_left (Nat.le_of_not_lt hworse)).symm

/-- One turn of the search (R234): it ends at a better match that is good enough, and at a link at or below the limit. -/
theorem Enc.searchChain_succ (e : Enc) (nice limit chain cur best start : Nat) :
    e.searchChain nice limit (chain + 1) cur best start =
      if (best < e.matchlen cur ∧ nice ≤ e.matchlen cur) ∨ e.chainOf cur ≤ limit then e.improve cur (best, start)
      else e.searchChain nice limit chain (e.chainOf cur) (e.improve cur (best, start)).1 (e.improve cur (best, start)).2 := by
  rw [Enc.searchChain, Enc.improve, ite_or]
  by_cases hbetter : best < e.matchlen cur
  · simp [hbetter]
  · simp [hbetter]

theorem Enc.le_searchChain (e : Enc) (nice limit : Nat) : ∀ chain cur best start,
    best ≤ (e.searchChain nice limit chain cur best start).1
  | 0, _, _, _ => Nat.le_refl _
  | chain + 1, cur, best, start => by
    have hle : best ≤ (e.improve cur (best, start)).1 := e.improve_fst cur (best, start) ▸ Nat.le_max_left _ _
    rw [Enc.searchChain_succ]
    split
    · exact hle
    · exact hle.trans (Enc.le_searchChain e nice limit chain _ _ _)

/-- No entry walked agrees in more bytes than the search finds, where none before it was good enough (R234). -/
theorem Enc.matchlen_le_searchChain (e : Enc) (nice limit : Nat) : ∀ (chain cur best start j : Nat), e.Reached limit chain cur j →
    (∀ i < j, best < e.matchlen (e.chainOf^[i] cur) → e.matchlen (e.chainOf^[i] cur) < nice) →
    e.matchlen (e.chainOf^[j] cur) ≤ (e.searchChain nice limit chain cur best start).1
  | 0, _, _, _, _, hj, _ => absurd hj.1 (Nat.not_lt_zero _)
  | chain + 1, cur, best, start, 0, _, _ => by
    have hle : e.matchlen cur ≤ (e.improve cur (best, start)).1 := e.improve_fst cur (best, start) ▸ Nat.le_max_right _ _
    rw [Enc.searchChain_succ]
    split
    · exact hle
    · exact hle.trans (Enc.le_searchChain e nice limit chain _ _ _)
  | chain + 1, cur, best, start, j + 1, hj, hnice => by
    obtain ⟨hnext, hj⟩ := Enc.reached_succ.1 hj
    have hgoesOn : ¬((best < e.matchlen cur ∧ nice ≤ e.matchlen cur) ∨ e.chainOf cur ≤ limit) := by
      rintro (⟨hbetter, hend⟩ | hend)
      · exact absurd (hnice 0 (Nat.succ_pos j) hbetter) (Nat.not_lt.2 hend)
      · exact absurd hnext (Nat.not_lt.2 hend)
    rw [Enc.searchChain_succ, if_neg hgoesOn, e.improve_fst]
    exact Enc.matchlen_le_searchChain e nice limit chain _ _ _ j hj fun i hi hbetter =>
      hnice (i + 1) (Nat.succ_lt_succ hi) ((Nat.le_max_left _ _).trans_lt hbetter)

/-- A search that began with the match `m` may end with `r`: it is `m` itself, or a longer one of an entry walked, with none as long before
it (R234). -/
def Enc.MayFind (e : Enc) (limit budget cur : Nat) (m r : Nat × Nat) : Prop :=
  r = m ∨ ∃ j, e.Reached limit budget cur j ∧ r = (e.matchlen (e.chainOf^[j] cur), e.chainOf^[j] cur) ∧ m.1 < r.1 ∧
    ∀ i < j, e.matchlen (e.chainOf^[i] cur) < r.1

/-- Where there is a budget the first entry is walked, whatever its position. -/
theorem Enc.mayFind_improve (e : Enc) (limit budget cur : Nat) (m : Nat × Nat) :
    e.MayFind limit (budget + 1) cur m (e.improve cur m) := by
  rw [Enc.improve]
  split
  · next hbetter =>
    exact .inr ⟨0, ⟨Nat.succ_pos budget, fun i hi h0 => absurd (hi.trans h0) (Nat.not_succ_le_zero 0)⟩, rfl, hbetter,
      fun i hi => absurd hi (Nat.not_lt_zero i)⟩
  · exact .inl rfl

/-- A search goes on from the next entry with the better of its match and what the first entry agrees in (R234). -/
theorem Enc.MayFind.of_next {e : Enc} {limit budget cur : Nat} {m r : Nat × Nat} (hnext : limit < e.chainOf cur)
    (h : e.MayFind limit budget (e.chainOf cur) (e.improve cur m) r) : e.MayFind limit (budget + 1) cur m r := by
  rcases h with rfl | ⟨j, hj, hr, hbetter, hbefore⟩
  · exact e.mayFind_improve limit budget cur m
  · rw [e.improve_fst] at hbetter
    obtain ⟨hm, hcur⟩ := max_lt_iff.1 hbetter
    refine .inr ⟨j + 1, Enc.reached_succ.2 ⟨hnext, hj⟩, hr, hm, fun i hi => ?_⟩
    cases i with
    | zero => exact hcur
    | succ i => exact hbefore i (Nat.lt_of_succ_lt_succ hi)

/-- The search keeps the match it began with, or finds a longer one of an entry it walks (R234). -/
theorem Enc.mayFind_searchChain (e : Enc) (nice limit : Nat) : ∀ (chain cur best start : Nat),
    e.MayFind limit chain cur (best, start) (e.searchChain nice limit chain cur best start)
  | 0, _, _, _ => .inl rfl
  | chain + 1, cur, best, start => by
    rw [Enc.searchChain_succ]
    split
    · exact e.mayFind_improve limit chain cur (best, start)
    · next hgoesOn =>
      exact .of_next (Nat.lt_of_not_le fun hend => hgoesOn (.inr hend)) (Enc.mayFind_searchChain e nice limit chain _ _ _)

end Sys2Proof.Machine

open Sys2Proof Sys2Proof.Machine

/-- Settles O55: the rows of the table, the block functions case by case, and the geometry by definition. -/
theorem levelsAndBlockFunctions : Obligations.LevelsAndBlockFunctions := by
  intro e
  refine ⟨fun n hn h9 => ?_, Enc.blockFn_stored.2, fun h => ⟨Enc.blockFn_huff h, Enc.blockFn_rle h, Enc.blockFn_chains h⟩, rfl, rfl⟩
  subst hn
  exact Enc.row_eq_levelTable h9

/-- Settles O57: `matchlen` says in how many bytes an entry agrees, and the search is compared with it entry by entry. -/
theorem matchesAreTrue : Obligations.MatchesAreTrue := by
  intro e cur budget entry reached agrees
  have hagrees : ∀ j l, agrees j l ↔ l ≤ e.matchlen (entry j) := fun j l => Enc.agrees_iff
  set nice := min e.nice e.lookahead
  set limit := e.strstart - e.maxDist
  set found := e.searchChain nice limit budget cur e.prevLength e.matchStart
  have hlongest : e.longestMatch cur = (min found.1 e.lookahead, found.2) := rfl
  simp only [hagrees, hlongest]
  refine ⟨fun j hj hbefore l hl => ?_, ?_⟩
  · have hle := Enc.matchlen_le_searchChain e nice limit budget cur e.prevLength e.matchStart j hj fun i hi =>
      hbefore i hi _ (Nat.le_refl _)
    exact hl.trans (Nat.le_min.2 ⟨hle, e.matchlen_le_lookahead _⟩)
  · have hfound : e.MayFind limit budget cur (e.prevLength, e.matchStart) found := Enc.mayFind_searchChain e nice limit budget _ _ _
    clear_value found
    rcases hfound with rfl | ⟨j, hj, rfl, hbetter, hbefore⟩
    · exact .inl ⟨rfl, rfl⟩
    · dsimp only at hbetter hbefore ⊢
      rw [Nat.min_eq_left (e.matchlen_le_lookahead _)]
      exact .inr ⟨j, hj, rfl, hbetter, Nat.le_refl _, fun i hi => Nat.not_le.2 (hbefore i hi), Nat.not_succ_le_self _⟩
end

