-- ==== Sys2Proof/Proofs/ElementPlaces.lean ====
section
/-! PROOF. Sys2Proof/Proofs/ElementPlaces.lean: where an element of the bitstream runs: at a point of a DEC_STEP that awaits its mode, by a
step that has decoded it (R311, R335); anywhere else it is refused (log entry 19). -/

namespace Sys2Proof.Machine

open Sys2Proof

/-- An element, which has a mode, is no command word. -/
theorem not_command_of_mode {i : Instr} {m : DecMode} (hm : i.mode = some m) (w : Word) : i.shape ≠ .command w := fun hw => by
  rw [Instr.mode, hw] at hm
  exact absurd hm nofun

theorem modeOf_eq_of_mode {i : Instr} {m : DecMode} (hm : i.mode = some m) : modeOf i.shape = m := by
  unfold Instr.mode at hm
  cases hsh : i.shape <;> simp only [hsh, Option.some.injEq, reduceCtorEq] at hm <;> exact hm

theorem Dec.awaits_iff {d : Dec} {m : DecMode} : d.awaits m = true ↔ d.mode = m ∧ (m = .type → d.last = false) := by
  simp only [Dec.awaits, Bool.and_eq_true, decide_eq_true_eq, Bool.not_eq_true', Bool.and_eq_false_imp]

/-- No point of a DEC_STEP in this state awaits an element of mode `m` (R311). -/
abbrev State.AwaitsNo (s : State) (m : DecMode) : Prop :=
  ¬ ∃ d c p, s.stream = .dec d ∧ s.phase = .decoding c p ∧ d.mode = m ∧ (m = .type → d.last = false)

theorem State.AwaitsNo.onElement {s : State} {m : DecMode} (h : s.AwaitsNo m) (f : DecRun → Act) :
    s.onElement m f = .refused .elementOutOfPlace := by
  rcases s.onElement_cases m f with ⟨d, c, p, hs, hp, hawaits, -⟩ | hrefused
  · exact absurd ⟨d, c, p, hs, hp, Dec.awaits_iff.1 hawaits⟩ h
  · exact hrefused

/-- A list of code-length code lengths out of its place, whatever its length. -/
theorem State.AwaitsNo.exec_clLens {s : State} (h : s.AwaitsNo .lenLens) (lens : List (BitVec 3)) :
    exec (.codeLengthCodeLengths lens) s = .refused .elementOutOfPlace := by
  show execCodeLengthCodeLengths lens s = _
  unfold execCodeLengthCodeLengths
  split
  · split
    · exact h.onElement _
    · rfl
  · rfl

theorem State.AwaitsNo.exec {s : State} {i : Instr} {m : DecMode} (h : s.AwaitsNo m) (hm : i.mode = some m) :
    exec i s = .refused .elementOutOfPlace := by
  by_cases hl : ∃ lens, i.shape = .clLens lens
  · obtain ⟨lens, hl⟩ := hl
    obtain rfl := eq_clLens_of_shape hl
    obtain rfl : DecMode.lenLens = m := modeOf_eq_of_mode hm
    exact h.exec_clLens lens
  · rw [← execElement_eq_exec (not_command_of_mode hm), execElement_eq (not_command_of_mode hm) fun lens hlen => hl ⟨lens, hlen⟩,
      modeOf_eq_of_mode hm]
    exact h.onElement _

end Sys2Proof.Machine

open Sys2Proof Sys2Proof.Machine

/-- Settles O9: the step is the state action, which executes what it has decoded (`decoderStep_element`). -/
theorem stepRunsTheDecodedElement : Obligations.StepRunsTheDecodedElement := by
  intro s d c p r ctx i n hs hp hq hdev hnext hd hm
  rw [step_quiet hq (by rw [hp]; nofun), engineStep_decoding hp hdev, decoderStep_element hs hp hnext hd,
    execElement_eq_exec (not_command_of_mode hm)]

/-- Settles O48: in its place an element is its shape's action (`State.At.exec_eq`), elsewhere it is refused
(`State.AwaitsNo.exec`). -/
theorem elementsRunWhereTheyBelong : Obligations.ElementsRunWhereTheyBelong := by
  intro s i m hm
  exact ⟨fun d c p hat hlens => ⟨_, hat.exec_eq hm hlens⟩, fun hno => State.AwaitsNo.exec hno hm⟩
end

