-- ==== Sys2Proof/Proofs/StateActions.lean ====
section
/-! PROOF. Sys2Proof/Proofs/StateActions.lean: DEC_STEP as the run of its state actions (R311, R400), and the two modes whose action
ends every command alike (R355, R365). -/

namespace Sys2Proof.Machine

open Sys2Proof

/-- A run of state actions that has ended the command is a chain of them (R311). -/
theorem reflTransGen_of_runDecoder : ∀ (fuel : Nat) {s t : State}, s.phase ≠ .idle → runDecoder fuel s = .next t → t.phase = .idle →
    Relation.ReflTransGen State.Acts s t
  | 0, s, t, hbusy, hrun, hidle => by
    obtain rfl : s = t := Host.Outcome.next.inj hrun
    exact absurd hidle hbusy
  | fuel + 1, s, t, hbusy, hrun, hidle => by
    rw [runDecoder] at hrun
    cases hstep : decoderStep s with
    | next u =>
      have hacts : s.Acts u := ⟨hbusy, hstep⟩
      simp only [hstep] at hrun
      split at hrun
      · obtain rfl : u = t := Host.Outcome.next.inj hrun
        exact .single hacts
      · next hgoesOn => exact .head hacts (reflTransGen_of_runDecoder fuel hgoesOn hrun hidle)
    | fault f => simp only [hstep, reduceCtorEq] at hrun
    | refused r => simp only [hstep, reduceCtorEq] at hrun

section
variable {s : State} {d : Dec} (hs : s.stream = .dec d) (hranges : s.rangesOk = true)
include hs hranges

/-- DEC_STEP outside of a search runs the decoder, with `started` set (R400). -/
theorem execDecStep_eq_runDecoder (hsync : d.mode ≠ .sync) : execDecStep s =
    runDecoder (decoderFuel s d) { s with stream := .dec { d with started := true }, phase := .decoding 0 0 } := by
  simp only [execDecStep, hs, if_neg hsync, hranges, Bool.not_true, Bool.false_eq_true, if_false]

/-- A mode whose own action ends the command at once: nothing is consumed or produced (R311, R380). -/
theorem execDecStep_of_stop {res : Result} (hsync : d.mode ≠ .sync)
    (hnext : ∀ r : DecRun, r.d.mode = d.mode → r.next = .act (.stop res r)) :
    execDecStep s = .next (s.complete (.dec { d with started := true }) res) := by
  rw [execDecStep_eq_runDecoder hs hranges hsync, decoderFuel, runDecoder, decoderStep_act (d := { d with started := true }) rfl rfl (hnext _ rfl)]
  refine (if_pos rfl).trans (congrArg _ ?_)
  rw [State.settle_stop]
  simp [State.finish, State.complete, State.runAt]

end

theorem DecRun.next_bad {r : DecRun} (hm : r.d.mode = .bad) : r.next = .act (.stop .malformedStream r) := by
  simp only [DecRun.next, hm]

end Sys2Proof.Machine

open Sys2Proof Sys2Proof.Machine

/-- Settles O34: the command ends (`execDecStep_ends`), so the run that it is has been a chain of state actions. -/
theorem decStepRunsStateActions : Obligations.DecStepRunsStateActions := by
  intro s d hs hok hsync hranges
  obtain ⟨res, r, hstep, -, -⟩ := execDecStep_ends hs hok hsync hranges
  refine ⟨s.finish r.io (.dec r.d) res, hstep, rfl, ?_⟩
  rw [execDecStep_eq_runDecoder hs hranges hsync] at hstep
  exact reflTransGen_of_runDecoder _ nofun hstep rfl

/-- Settles O35: the action of DONE and that of BAD end the command at once (`execDecStep_of_stop`). -/
theorem endStatesAreSticky : Obligations.EndStatesAreSticky := by
  intro s d hs hranges
  refine ⟨fun hm => ?_, fun hm => ?_⟩
  · refine (execDecStep_of_stop hs hranges (by rw [hm]; nofun) fun r hr => DecRun.next_done (hr.trans hm)).trans ?_
    simp [State.complete, Status.after, StreamCtx.modeTag, StreamCtx.estate, hm, DecMode.code]
  · refine (execDecStep_of_stop hs hranges (by rw [hm]; nofun) fun r hr => DecRun.next_bad (hr.trans hm)).trans ?_
    simp [State.complete, Status.after, StreamCtx.err, StreamCtx.modeTag, StreamCtx.estate, hm, DecMode.code]
end

