-- ==== Sys2Proof/Proofs/BlockStarts.lean ====
section
/-! PROOF. Sys2Proof/Proofs/BlockStarts.lean: how a block begins: its header (R314 to R316), the length pair of a stored block (R320 to
R322) and the counts of a dynamic one (R323), where the input has their bits and where it has not. -/

namespace Sys2Proof.Machine

open Sys2Proof

section
variable {r : DecRun} (hh : r.d.hold < 2 ^ r.d.bits)
include hh

/-- A header that is there is consumed, and BFINAL kept (R314). -/
theorem DecRun.takeHeader_of_offers (ho : r.offers 3) (final : Bool) (rest : DecRun → Act) :
    r.takeHeader final rest = rest ((r.after 3).withDec { (r.after 3).d with last := final }) := by
  rw [DecRun.takeHeader, DecRun.needBits_of_offers hh ho]
  dsimp only
  rw [DecRun.dropBits_holding ho]

theorem DecRun.header_of_not_offers (ho : ¬ r.offers 3) (final : Bool) (t : BitVec 2) :
    actionOf (.header final t) r = .stop .needMoreInput r.drained := by
  rw [actionOf, DecRun.takeHeader, DecRun.needBits_of_not_offers hh ho]

/-- A pair at the next byte that matches (R320 to R322): its bytes are copied, and no bit is held. -/
theorem DecRun.storedPair_of_match (ho : (r.after (r.d.bits % 8)).offers 32) {len nlen : BitVec 16} (heq : nlen = ~~~len) :
    r.storedPair len nlen = DecRun.copy { (r.after (r.d.bits % 8)).after 32 with
      d := { ((r.after (r.d.bits % 8)).after 32).d with length := len.toNat, hold := 0, bits := 0, mode := .copy } } := by
  rw [DecRun.storedPair, DecRun.byteBits_eq_after hh, DecRun.needBits_of_offers (DecRun.after_hold_lt _) ho]
  exact if_neg (not_not_intro heq)

/-- A pair that does not match is malformed, its bits still held (R321). -/
theorem DecRun.storedPair_of_mismatch (ho : (r.after (r.d.bits % 8)).offers 32) {len nlen : BitVec 16} (hne : nlen ≠ ~~~len) :
    r.storedPair len nlen = ((r.after (r.d.bits % 8)).pulled 32).raise 2 := by
  rw [DecRun.storedPair, DecRun.byteBits_eq_after hh, DecRun.needBits_of_offers (DecRun.after_hold_lt _) ho]
  exact if_pos hne

theorem DecRun.storedPair_of_not_offers (ho : ¬ (r.after (r.d.bits % 8)).offers 32) (len nlen : BitVec 16) :
    r.storedPair len nlen = .stop .needMoreInput (r.after (r.d.bits % 8)).drained := by
  rw [DecRun.storedPair, DecRun.byteBits_eq_after hh, DecRun.needBits_of_not_offers (DecRun.after_hold_lt _) ho]

/-- The counts are read (R323). -/
theorem DecRun.counts_of_offers (ho : r.offers 14) (hlit hdist : BitVec 5) (hclen : BitVec 4) :
    r.counts hlit hdist hclen =
      let d : Dec := { (r.after 14).d with nlen := hlit.toNat + 257, ndist := hdist.toNat + 1, ncode := hclen.toNat + 4 }
      if hlit.toNat + 257 > 286 ∨ hdist.toNat + 1 > 30 then ((r.after 14).withDec d).raise 3
      else .go ((r.after 14).withDec { d with have_ := 0, mode := .lenLens }) := by
  rw [DecRun.counts, DecRun.needBits_of_offers hh ho]
  dsimp only
  rw [DecRun.dropBits_holding ho]

end

end Sys2Proof.Machine

open Sys2Proof Sys2Proof.Machine

/-- Settles O36: each header's action once its bits are consumed (`DecRun.takeHeader_of_offers`), or none of it. -/
theorem blockHeaders : Obligations.BlockHeaders := by
  intro s d c p f hat r
  have hh : (s.runAt d c p).d.hold < 2 ^ (s.runAt d c p).d.bits := hat.ok.hold
  refine ⟨fun ho => ?_, fun hno i hm => ?_⟩
  · have htake := DecRun.takeHeader_of_offers hh ho f
    exact ⟨hat.onElement_go (f := fun r => r.takeHeader f _) (htake _), hat.onElement_go (f := fun r => r.takeHeader f _) (htake _),
      hat.onElement_go (f := fun r => r.takeHeader f _) (htake _),
      hat.onElement_malformed (f := fun r => r.takeHeader f _) (htake _)⟩
  · obtain ⟨final, t, hsh⟩ : ∃ final t, i.shape = .header final t := by
      unfold Instr.mode at hm
      cases hsh : i.shape <;> simp only [hsh, Option.some.injEq, reduceCtorEq] at hm
      exact ⟨_, _, rfl⟩
    rw [hat.exec_eq hm fun lens hi => by rw [hi] at hsh; exact absurd hsh nofun, hsh, DecRun.header_of_not_offers hh hno,
      s.settle_suspended (res := .needMoreInput) nofun]

/-- Settles O37: the pair is read at the next byte; where it matches, COPY moves what both buffers allow (`State.settle_copy`). -/
theorem storedLengthPair : Obligations.StoredLengthPair := by
  intro s d c p len nlen hat _ hranges hwf r
  have hh : (s.runAt d c p).d.hold < 2 ^ (s.runAt d c p).d.bits := hat.ok.hold
  refine ⟨fun ho => ⟨fun heq => ?_, fun hne => ?_⟩, fun hno => ?_⟩
  · refine (hat.onElement fun r => r.storedPair len nlen).trans ?_
    rw [DecRun.storedPair_of_match hh ho heq]
    exact congrArg _ (s.settle_copy (r := { r.after 32 with d := { (r.after 32).d with
      length := len.toNat, hold := 0, bits := 0 } }) hwf (State.apart_of_rangesOk hranges c p))
  · exact hat.onElement_malformed (f := fun r => r.storedPair len nlen) (DecRun.storedPair_of_mismatch hh ho hne)
  · exact hat.onElement_suspended (f := fun r => r.storedPair len nlen) (DecRun.storedPair_of_not_offers hh hno len nlen) nofun

/-- Settles O38: the counts are compared with their limits once they are read (`DecRun.counts_of_offers`). -/
theorem dynamicCounts : Obligations.DynamicCounts := by
  intro s d c p hlit hdist hclen hat r d'
  have hh : (s.runAt d c p).d.hold < 2 ^ (s.runAt d c p).d.bits := hat.ok.hold
  refine ⟨fun ho hsmall => ?_, fun ho hbig => ?_, fun hno => ?_⟩
  · exact hat.onElement_go (f := fun r => r.counts hlit hdist hclen)
      ((DecRun.counts_of_offers hh ho hlit hdist hclen).trans (if_neg (by omega)))
  · exact hat.onElement_malformed (f := fun r => r.counts hlit hdist hclen)
      ((DecRun.counts_of_offers hh ho hlit hdist hclen).trans (if_pos hbig))
  · exact hat.onElement_suspended (f := fun r => r.counts hlit hdist hclen) (DecRun.needBits_of_not_offers hh hno _) nofun
end

