-- ==== Sys2Proof/Proofs/CodeLengthFields.lean ====
section
/-! PROOF. Sys2Proof/Proofs/CodeLengthFields.lean: the 3-bit fields of a dynamic header go to the code-length symbols in transmission order,
the symbols not sent get length 0, and the lengths must be a complete code (R119, R324, R325). -/

namespace Sys2Proof.Machine

open Sys2Proof

/-! ## The transmission order -/

theorem blOrder_lt : ∀ j < 19, blOrder.getD j 0 < 19 := by decide

theorem blOrder_inj : ∀ i < 19, ∀ j < 19, blOrder.getD i 0 = blOrder.getD j 0 → i = j := by decide

theorem blOrder_mem_drop : ∀ n ≤ 19, ∀ j < 19, (blOrder.getD j 0 ∈ blOrder.drop n ↔ n ≤ j) := by decide

theorem lt_of_mem_blOrder : ∀ s ∈ blOrder, s < 19 := by decide

/-! ## The lengths that the fields give -/

/-- The lengths with the fields of a list written in transmission order, from the `h`-th symbol on (R324). -/
def withFields : List (BitVec 3) → Nat → List Nat → List Nat
  | [], _, lens => lens
  | v :: vs, h, lens => withFields vs (h + 1) (lens.set (blOrder.getD h 0) v.toNat)

@[simp] theorem length_withFields : ∀ (vs : List (BitVec 3)) (h : Nat) (lens : List Nat), (withFields vs h lens).length = lens.length
  | [], _, _ => rfl
  | _ :: vs, h, _ => (length_withFields vs (h + 1) _).trans List.length_set

theorem getD_withFields : ∀ (vs : List (BitVec 3)) {h : Nat} {lens : List Nat} {j : Nat}, h + vs.length ≤ 19 → 19 ≤ lens.length →
    j < 19 → (withFields vs h lens).getD (blOrder.getD j 0) 0 =
      if h ≤ j ∧ j < h + vs.length then (vs.getD (j - h) 0).toNat else lens.getD (blOrder.getD j 0) 0
  | [], _, _, _, _, _, _ => by
    rw [if_neg (by rw [List.length_nil]; omega)]
    rfl
  | v :: vs, h, lens, j, hle, hlens, hj => by
    rw [List.length_cons] at hle
    have hset := getD_set (l := lens) ((blOrder_lt h (by omega)).trans_le hlens) (blOrder.getD j 0) v.toNat
    rw [withFields, getD_withFields vs (by omega) (by rw [List.length_set]; exact hlens) hj, hset, List.length_cons]
    rcases Nat.lt_trichotomy j h with hlt | rfl | hgt
    · rw [if_neg (by omega), if_neg fun heq => hlt.ne (blOrder_inj j hj h (by omega) heq), if_neg (by omega)]
    · rw [if_neg (by omega), if_pos rfl, if_pos (by omega), Nat.sub_self, List.getD_cons_zero]
    · rw [show j - h = j - (h + 1) + 1 by omega, List.getD_cons_succ, if_neg fun heq => hgt.ne' (blOrder_inj j hj h (by omega) heq)]
      exact if_congr (by omega) rfl rfl

/-- The other lengths, those of no code-length symbol, stay. -/
theorem getD_withFields_above : ∀ (vs : List (BitVec 3)) {h : Nat} {lens : List Nat} {n : Nat}, h + vs.length ≤ 19 →
    19 ≤ lens.length → 19 ≤ n → (withFields vs h lens).getD n 0 = lens.getD n 0
  | [], _, _, _, _, _, _ => rfl
  | v :: vs, h, lens, n, hle, hlens, hn => by
    rw [List.length_cons] at hle
    have hlt := blOrder_lt h (by omega)
    rw [withFields, getD_withFields_above vs (by omega) (by rw [List.length_set]; exact hlens) hn, getD_set (hlt.trans_le hlens),
      if_neg (by omega)]

@[simp] theorem length_zeroUnsent : ∀ (ks lens : List Nat), (zeroUnsent ks lens).length = lens.length
  | [], _ => rfl
  | _ :: ks, _ => (length_zeroUnsent ks _).trans List.length_set

theorem getD_zeroUnsent : ∀ (ks : List Nat) {lens : List Nat} (n : Nat), (∀ k ∈ ks, k < lens.length) →
    (zeroUnsent ks lens).getD n 0 = if n ∈ ks then 0 else lens.getD n 0
  | [], _, _, _ => rfl
  | k :: ks, lens, n, h => by
    obtain ⟨hk, hks⟩ := List.forall_mem_cons.1 h
    rw [zeroUnsent, getD_zeroUnsent ks n (by rw [List.length_set]; exact hks), getD_set hk]
    by_cases hmem : n ∈ ks
    · rw [if_pos hmem, if_pos (List.mem_cons_of_mem _ hmem)]
    · rw [if_neg hmem]
      exact if_congr (by simp [hmem]) rfl rfl

/-- The decoder's lengths after the fields of a list: those of the symbols not sent become 0 with the last field that is due (R324). -/
def Dec.lensAfter (d : Dec) (vs : List (BitVec 3)) : List Nat :=
  if d.have_ + vs.length = d.ncode then zeroUnsent (blOrder.drop d.ncode) (withFields vs d.have_ d.lens)
  else withFields vs d.have_ d.lens

section
variable {d : Dec} {vs : List (BitVec 3)} (hdue : d.have_ + vs.length ≤ d.ncode) (hncode : d.ncode ≤ 19) (hlens : d.lens.length = 320)
include hlens

theorem Dec.length_lensAfter : (d.lensAfter vs).length = 320 := by
  unfold Dec.lensAfter
  split <;> simp [hlens]

theorem Dec.getD_unsent (n : Nat) :
    (zeroUnsent (blOrder.drop d.ncode) (withFields vs d.have_ d.lens)).getD n 0 =
      if n ∈ blOrder.drop d.ncode then 0 else (withFields vs d.have_ d.lens).getD n 0 := by
  refine getD_zeroUnsent _ n fun k hk => ?_
  have := lt_of_mem_blOrder k (List.mem_of_mem_drop hk)
  rw [length_withFields, hlens]
  omega

include hdue hncode

theorem Dec.getD_lensAfter {j : Nat} (hj : j < 19) : (d.lensAfter vs).getD (blOrder.getD j 0) 0 =
    if d.have_ ≤ j ∧ j < d.have_ + vs.length then (vs.getD (j - d.have_) 0).toNat
    else if d.have_ + vs.length = d.ncode ∧ d.ncode ≤ j then 0
    else d.lens.getD (blOrder.getD j 0) 0 := by
  have hfields := getD_withFields vs (h := d.have_) (lens := d.lens) (by omega) (by omega) hj
  unfold Dec.lensAfter
  by_cases hlast : d.have_ + vs.length = d.ncode
  · rw [if_pos hlast, Dec.getD_unsent hlens, hfields]
    simp only [blOrder_mem_drop d.ncode hncode j hj, hlast, true_and]
    by_cases hunsent : d.ncode ≤ j
    · rw [if_pos hunsent, if_pos hunsent, if_neg (by omega)]
    · rw [if_neg hunsent, if_neg hunsent]
  · rw [if_neg hlast, hfields]
    simp only [hlast, false_and, if_false]

theorem Dec.getD_lensAfter_above {n : Nat} (hn : 19 ≤ n) : (d.lensAfter vs).getD n 0 = d.lens.getD n 0 := by
  have hfields := getD_withFields_above vs (h := d.have_) (lens := d.lens) (by omega) (by omega) hn
  unfold Dec.lensAfter
  split
  · rw [Dec.getD_unsent hlens, if_neg fun hmem => Nat.not_le.2 (lt_of_mem_blOrder n (List.mem_of_mem_drop hmem)) hn, hfields]
  · exact hfields

end

/-! ## Reading the fields -/

/-- The run with the fields of a list read (R324). -/
def DecRun.fieldsRead (vs : List (BitVec 3)) (r : DecRun) : DecRun :=
  let r' := r.after (3 * vs.length)
  { r' with d := { r'.d with lens := withFields vs r.d.have_ r.d.lens, have_ := r.d.have_ + vs.length } }

theorem DecRun.takeLenLens_nil_of_due {r : DecRun} (h : r.d.have_ < r.d.ncode) : DecRun.takeLenLens [] r = .go r :=
  if_neg (Nat.not_le.2 h)

theorem DecRun.takeLenLens_nil_of_last {r : DecRun} (h : r.d.ncode ≤ r.d.have_) : DecRun.takeLenLens [] r = r.endLenLens := if_pos h

theorem DecRun.takeLenLens_of_not_offers {r : DecRun} (hh : r.d.hold < 2 ^ r.d.bits) (ho : ¬ r.offers 3) :
    ∀ {vs : List (BitVec 3)}, vs ≠ [] → DecRun.takeLenLens vs r = .stop .needMoreInput r.drained
  | [], hne => absurd rfl hne
  | _ :: _, _ => DecRun.needBits_of_not_offers hh ho _

theorem DecRun.fieldsRead_cons {r : DecRun} {v : BitVec 3} {vs : List (BitVec 3)} (ho : r.offers (3 * (v :: vs).length)) :
    (r.fieldsRead [v]).fieldsRead vs = r.fieldsRead (v :: vs) := by
  have hbits : 3 * (v :: vs).length = 3 + 3 * vs.length := by rw [List.length_cons]; omega
  have hhave : r.d.have_ + (v :: vs).length = r.d.have_ + 1 + vs.length := by rw [List.length_cons]; omega
  rw [hbits] at ho
  have hafter := DecRun.after_after ho
  unfold DecRun.fieldsRead
  dsimp only
  rw [hbits, hhave, ← hafter]
  rfl

/-- LENLENS reads the fields whose bits are there, one after the other (R324). -/
theorem DecRun.takeLenLens_append (ws : List (BitVec 3)) : ∀ (vs : List (BitVec 3)) {r : DecRun}, r.d.hold < 2 ^ r.d.bits →
    r.offers (3 * vs.length) → DecRun.takeLenLens (vs ++ ws) r = DecRun.takeLenLens ws (r.fieldsRead vs)
  | [], r, hh, _ => by
    have hnone : r.fieldsRead [] = r := by
      unfold DecRun.fieldsRead
      rw [List.length_nil, Nat.mul_zero, DecRun.after_zero hh]
      rfl
    rw [hnone, List.nil_append]
  | v :: vs, r, hh, ho => by
    have ho3 : r.offers 3 := DecRun.offers_of_le ho (by rw [List.length_cons]; omega)
    have hrest : (r.fieldsRead [v]).offers (3 * vs.length) :=
      DecRun.after_offers (r := r) (a := 3) (DecRun.offers_of_le ho (by rw [List.length_cons]; omega))
    rw [List.cons_append, DecRun.takeLenLens, DecRun.needBits_of_offers hh ho3]
    dsimp only
    rw [DecRun.dropBits_holding ho3, ← DecRun.fieldsRead_cons ho]
    exact DecRun.takeLenLens_append ws vs (r := r.fieldsRead [v]) (DecRun.after_hold_lt _) hrest

/-- The run with the fields of a list read, and the lengths not sent set to 0 if none is due any more (R324). -/
def DecRun.fieldsTaken (vs : List (BitVec 3)) (r : DecRun) : DecRun :=
  { r.fieldsRead vs with d := { (r.fieldsRead vs).d with lens := r.d.lensAfter vs } }

theorem DecRun.fieldsTaken_of_due {r : DecRun} {vs : List (BitVec 3)} (hdue : r.d.have_ + vs.length < r.d.ncode) :
    r.fieldsTaken vs = r.fieldsRead vs := by
  rw [DecRun.fieldsTaken, Dec.lensAfter, if_neg hdue.ne]
  rfl

/-- The end of LENLENS once the last field is read (R324, R325). -/
theorem DecRun.endLenLens_fieldsRead {r : DecRun} {vs : List (BitVec 3)} (hlast : r.d.have_ + vs.length = r.d.ncode) :
    (r.fieldsRead vs).endLenLens =
      if acceptable r.d.allowSingleCode ((r.d.lensAfter vs).take 19) .codes then
        .go { r.fieldsTaken vs with d := { (r.fieldsTaken vs).d with
          clcode := canonicalCode ((r.d.lensAfter vs).take 19), have_ := 0, mode := .codeLens } }
      else (r.fieldsTaken vs).raise 4 := by
  rw [DecRun.fieldsTaken, Dec.lensAfter, if_pos hlast]
  rfl

end Sys2Proof.Machine

open Sys2Proof Sys2Proof.Machine

/-- Settles O39: the fields that are there are read (`DecRun.takeLenLens_append`) and give the lengths of `Dec.lensAfter`; then the
lengths are checked, or fields are still due, or the input has no whole field left. -/
theorem codeLengthCodeLengths : Obligations.CodeLengthCodeLengths := by
  intro s d c p v hat _ hv
  obtain ⟨hncode, hhave, -⟩ := hat.ok.lenLens hat.mode
  have hlens := hat.ok.lens.1
  have hh : (s.runAt d c p).d.hold < 2 ^ (s.runAt d c p).d.bits := hat.ok.hold
  obtain ⟨vs, ws, rfl, hk⟩ : ∃ vs ws, v = vs ++ ws ∧
      vs.length = min (vs ++ ws).length ((d.bits + 8 * (s.runAt d c p).io.availIn) / 3) :=
    ⟨v.take ((d.bits + 8 * (s.runAt d c p).io.availIn) / 3), v.drop _, (List.take_append_drop _ v).symm, by
      rw [List.take_append_drop, List.length_take, Nat.min_comm]⟩
  rw [List.length_append] at hv
  have hdue : d.have_ + vs.length ≤ d.ncode := by omega
  have ho : (s.runAt d c p).offers (3 * vs.length) := by
    show 3 * vs.length ≤ d.bits + 8 * (s.runAt d c p).io.availIn
    omega
  have hexec : exec (.codeLengthCodeLengths (vs ++ ws)) s =
      .next (s.settle (DecRun.takeLenLens ws ((s.runAt d c p).fieldsRead vs))) := by
    rw [← DecRun.takeLenLens_append ws vs hh ho]
    exact hat.exec_eq rfl fun lens hi => by cases hi; rw [List.length_append]; exact hv
  have hnil : vs.length = (vs ++ ws).length → ws = [] := fun hall => by simpa using hall
  refine ⟨vs.length, d.lensAfter vs, hk, Dec.length_lensAfter hlens, fun j hj => ?_, fun n hn =>
    Dec.getD_lensAfter_above hdue hncode hlens hn, fun hall hmore => ?_, fun hall hlast hacc => ?_, fun hall hlast hacc => ?_,
    fun hpart => ?_⟩
  · rw [Dec.getD_lensAfter hdue hncode hlens hj]
    refine if_ctx_congr Iff.rfl (fun hread => ?_) fun _ => rfl
    rw [List.getD_append _ _ _ _ (by omega)]
  · rw [hexec, hnil hall, DecRun.takeLenLens_nil_of_due hmore, ← DecRun.fieldsTaken_of_due hmore]
    rfl
  · rw [hexec, hnil hall, DecRun.takeLenLens_nil_of_last hlast.ge, DecRun.endLenLens_fieldsRead hlast]
    exact congrArg (fun a => Host.Outcome.next (s.settle a)) (if_pos hacc)
  · rw [hexec, hnil hall, DecRun.takeLenLens_nil_of_last hlast.ge, DecRun.endLenLens_fieldsRead hlast, ← hlast]
    exact congrArg (fun a => Host.Outcome.next (s.settle a)) (if_neg (ne_true_of_eq_false hacc))
  · rw [List.length_append] at hpart hk
    have hne : ws ≠ [] := fun h0 => by rw [h0] at hpart; exact absurd hpart (Nat.lt_irrefl _)
    have hno : ¬ ((s.runAt d c p).fieldsRead vs).offers 3 := fun h3 => by
      have : 3 * vs.length + 3 ≤ d.bits + 8 * (s.runAt d c p).io.availIn := (DecRun.offers_add ho).1 h3
      omega
    have hheld : ((s.runAt d c p).fieldsRead vs).d.hold < 2 ^ ((s.runAt d c p).fieldsRead vs).d.bits := DecRun.after_hold_lt _
    rw [hexec, DecRun.takeLenLens_of_not_offers hheld hno hne, s.settle_suspended (res := .needMoreInput) nofun,
      ← DecRun.fieldsTaken_of_due (by show d.have_ + vs.length < d.ncode; omega)]
    rfl
end

