-- ==== Sys2Proof/Proofs/LastCodeLength.lean ====
section
/-! PROOF. Sys2Proof/Proofs/LastCodeLength.lean: the code-length symbol that gives the last length due: the end-of-block symbol must have
a length, and both sets must be acceptable (R326, R328, R329). -/

namespace Sys2Proof.Machine

open Sys2Proof

/-! ## Entries that are not past the lengths due -/

/-- A dynamic header has room for the lengths of both sets (R65, R323). -/
theorem Dec.Ok.nlen_add_ndist_le {d : Dec} (h : d.Ok) (hm : d.mode = .codeLens) : d.nlen + d.ndist ≤ d.lens.length := by
  obtain ⟨hnlen, hndist, -⟩ := h.codeLens hm
  have := h.lens.1
  omega

section
variable {r : DecRun} {count : Nat} (hlens : r.d.nlen + r.d.ndist ≤ r.d.lens.length)
  (hfit : r.d.have_ + count ≤ r.d.nlen + r.d.ndist)
include hlens hfit

theorem DecRun.withDec_repeatLen (v : Nat) : r.withDec (Dec.repeatLen v count r.d) = r.entered count v := by
  rw [Dec.repeatLen_eq v count (hfit.trans hlens)]
  rfl

/-- CL_LENGTH enters one length, which may be the last one due (R326). -/
theorem DecRun.clLength_enters (hh : r.d.hold < 2 ^ r.d.bits) {len : Nat} (hcount : count = 1)
    (ho : r.offers (r.d.clcode.lengthOf len)) :
    r.clLength len = ((r.after (r.d.clcode.lengthOf len)).entered count len).afterEntry := by
  subst hcount
  rw [DecRun.clLength, DecRun.needBits_of_offers hh ho]
  dsimp only
  rw [show (r.holding (r.pulls (r.d.clcode.lengthOf len))).d.clcode = r.d.clcode from rfl, DecRun.dropBits_holding ho]
  exact congrArg DecRun.afterEntry (DecRun.withDec_repeatLen (r := r.after (r.d.clcode.lengthOf len)) hlens hfit len)

/-- A repeat enters its run, which may end with the last length due (R326). -/
theorem DecRun.clRepeat_enters {k w : Nat} (v : Nat) (ho : r.offers (k + w)) :
    ((r.holding (r.pulls (k + w))).dropBits k).clRepeat w v count = ((r.after (k + w)).entered count v).afterEntry := by
  rw [DecRun.clRepeat, DecRun.dropBits_dropBits, DecRun.dropBits_holding ho]
  exact (if_neg (Nat.not_lt.2 hfit)).trans
    (congrArg DecRun.afterEntry (DecRun.withDec_repeatLen (r := r.after (k + w)) hlens hfit v))

theorem DecRun.clRepeatPrev_enters (hh : r.d.hold < 2 ^ r.d.bits) (hpos : 0 < r.d.have_)
    (ho : r.offers (r.d.clcode.lengthOf 16 + 2)) :
    r.clRepeatPrev count =
      ((r.after (r.d.clcode.lengthOf 16 + 2)).entered count (r.d.lens.getD (r.d.have_ - 1) 0)).afterEntry := by
  rw [DecRun.clRepeatPrev, DecRun.needBits_of_offers hh ho]
  exact (if_neg hpos.ne').trans (DecRun.clRepeat_enters hlens hfit _ ho)

theorem DecRun.clRepeatZero_enters (hh : r.d.hold < 2 ^ r.d.bits) {sym : Nat}
    (ho : r.offers (r.d.clcode.lengthOf sym + clExtra sym)) :
    r.clRepeatZero sym count = ((r.after (r.d.clcode.lengthOf sym + clExtra sym)).entered count 0).afterEntry := by
  rw [DecRun.clRepeatZero, DecRun.needBits_of_offers hh ho]
  exact DecRun.clRepeat_enters hlens hfit 0 ho

end

/-! ## The checks of the lengths -/

/-- The literal/length lengths and the distance lengths of a dynamic header (R328). -/
abbrev Dec.litLens (d : Dec) : List Nat := d.lens.take d.nlen
abbrev Dec.distLens (d : Dec) : List Nat := (d.lens.drop d.nlen).take d.ndist

section
variable {r : DecRun}

theorem DecRun.endCodeLens_of_no_end (heob : r.d.lens.getD 256 0 = 0) : r.endCodeLens = r.raise 6 := if_pos heob

section
variable (heob : r.d.lens.getD 256 0 ≠ 0)
include heob

theorem DecRun.endCodeLens_of_bad_lit (hlit : acceptable r.d.allowSingleCode r.d.litLens .lens = false) :
    r.endCodeLens = r.raise 7 := by
  rw [DecRun.endCodeLens, if_neg heob]
  exact if_pos (congrArg (!·) hlit)

variable (hlit : acceptable r.d.allowSingleCode r.d.litLens .lens = true)
include hlit

theorem DecRun.endCodeLens_of_bad_dist (hdist : acceptable r.d.allowSingleCode r.d.distLens .dists = false) :
    r.endCodeLens = r.raise 8 := by
  rw [DecRun.endCodeLens, if_neg heob]
  exact (if_neg (ne_true_of_eq_false (congrArg (!·) hlit))).trans (if_pos (congrArg (!·) hdist))

theorem DecRun.endCodeLens_of_good (hdist : acceptable r.d.allowSingleCode r.d.distLens .dists = true) :
    r.endCodeLens = .go { r with d := { r.d with
      lencode := canonicalCode r.d.litLens, distcode := canonicalCode r.d.distLens, mode := .len } } := by
  rw [DecRun.endCodeLens, if_neg heob]
  exact (if_neg (ne_true_of_eq_false (congrArg (!·) hlit))).trans (if_neg (ne_true_of_eq_false (congrArg (!·) hdist)))

end

end

end Sys2Proof.Machine

open Sys2Proof Sys2Proof.Machine

/-- Settles O41: each symbol's action enters its run, after which no length is due, and the checks follow one another in the order of
R328. -/
theorem lastCodeLength : Obligations.LastCodeLength := by
  intro s d c p i sym w v count hat hkind hlast ho r lens lit dist r'
  have hh : (s.runAt d c p).d.hold < 2 ^ (s.runAt d c p).d.bits := hat.ok.hold
  have hlens := hat.ok.nlen_add_ndist_le hat.mode
  have hexec : exec i s = .next (s.settle r'.afterEntry) := by
    rcases hkind with ⟨l, rfl, rfl, rfl, rfl, hcount⟩ | ⟨e, rfl, rfl, rfl, hpos, rfl, rfl⟩ | ⟨e, rfl, rfl, rfl, rfl, rfl⟩ |
      ⟨e, rfl, rfl, rfl, rfl, rfl⟩
    · exact (hat.onElement fun r => r.clLength l.toNat).trans
        (congrArg _ (congrArg _ (DecRun.clLength_enters hlens hlast.le hh hcount ho)))
    · exact (hat.onElement fun r => r.clRepeatPrev (3 + e.toNat)).trans
        (congrArg _ (congrArg _ (DecRun.clRepeatPrev_enters hlens hlast.le hh hpos ho)))
    · exact (hat.onElement fun r => r.clRepeatZero 17 (3 + e.toNat)).trans
        (congrArg _ (congrArg _ (DecRun.clRepeatZero_enters hlens hlast.le hh ho)))
    · exact (hat.onElement fun r => r.clRepeatZero 18 (11 + e.toNat)).trans
        (congrArg _ (congrArg _ (DecRun.clRepeatZero_enters hlens hlast.le hh ho)))
  have hend : r'.afterEntry = r'.endCodeLens := if_pos hlast.ge
  rw [hexec, hend]
  refine ⟨fun heob => ?_, fun heob hlit => ?_, fun heob hlit hdist => ?_, fun heob hlit hdist => ?_⟩
  · rw [DecRun.endCodeLens_of_no_end (r := r') heob]
    rfl
  · rw [DecRun.endCodeLens_of_bad_lit (r := r') heob hlit]
    rfl
  · rw [DecRun.endCodeLens_of_bad_dist (r := r') heob hlit hdist]
    rfl
  · rw [DecRun.endCodeLens_of_good (r := r') heob hlit hdist]
    rfl
end

