-- ==== Sys2Proof/Proofs/Literals.lean ====
section
/-! PROOF. Sys2Proof/Proofs/Literals.lean: the literal/length symbols that carry no length: a byte and the end of the block (R340, R345). -/

namespace Sys2Proof.Machine

open Sys2Proof

/-- The run in LIT with the literal `b` owed, its code consumed (R340). -/
def DecRun.owing (b : Byte) (r : DecRun) : DecRun :=
  let r' := r.after (r.d.lencode.lengthOf b.toNat)
  { r' with d := { r'.d with length := b.toNat, mode := .lit } }

section
variable {r : DecRun} (hh : r.d.hold < 2 ^ r.d.bits) {b : Byte} (ho : r.offers (r.d.lencode.lengthOf b.toNat))
include hh ho

/-- A literal whose code is there is one that LIT owes (R340, R345). -/
theorem DecRun.literal_of_offers : r.literal b = (r.owing b).lit := DecRun.takeLitSym_of_offers hh ho _

theorem DecRun.literal_of_space (hm : r.d.mode = .len) (hspace : 0 < r.io.availOut) :
    r.literal b = .go (DecRun.wrote [b] { r.after (r.d.lencode.lengthOf b.toNat) with
      d := { (r.after (r.d.lencode.lengthOf b.toNat)).d with length := b.toNat } }) := by
  have hbyte : BitVec.ofNat 8 (r.owing b).d.length = b :=
    (BitVec.ofNat_toNat 8 b).trans (BitVec.setWidth_eq b)
  rw [DecRun.literal_of_offers hh ho, DecRun.lit_of_space (r := r.owing b) hspace, hbyte, ← hm]
  rfl

theorem DecRun.literal_of_full (hfull : r.io.availOut = 0) : r.literal b = .stop .needMoreOutput (r.owing b) :=
  (DecRun.literal_of_offers hh ho).trans (DecRun.lit_of_full hfull)

end

end Sys2Proof.Machine

open Sys2Proof Sys2Proof.Machine

/-- Settles O43: a literal finds space (`DecRun.literal_of_space`) or a full output (`DecRun.literal_of_full`) once its code is consumed;
the end of the block needs none. -/
theorem literalAndEndOfBlock : Obligations.LiteralAndEndOfBlock := by
  intro s d c p hat
  have hh : (s.runAt d c p).d.hold < 2 ^ (s.runAt d c p).d.bits := hat.ok.hold
  have havail : (s.runAt d c p).io.availOut = s.outLen.toNat - p := rfl
  refine ⟨fun b => ⟨fun ho hlt => ?_, fun ho hfull => ?_, fun hno => ?_⟩, fun ho => ?_, fun hno => ?_⟩
  · exact hat.onElement_go (f := fun r => r.literal b) (DecRun.literal_of_space hh ho hat.mode (by omega))
  · exact hat.onElement_suspended (f := fun r => r.literal b) (DecRun.literal_of_full hh ho (by omega)) nofun
  · exact hat.onElement_suspended (f := fun r => r.literal b) (DecRun.takeLitSym_of_not_offers hh hno _) nofun
  · exact hat.onElement_go (f := DecRun.endOfBlock) (DecRun.takeLitSym_of_offers hh ho _)
  · exact hat.onElement_suspended (f := DecRun.endOfBlock) (DecRun.takeLitSym_of_not_offers hh hno _) nofun
end

