-- ==== Sys2Proof/Proofs/MarkerSearch.lean ====
section
/-! PROOF. Sys2Proof/Proofs/MarkerSearch.lean: the search for the marker `00 00 FF FF` (R360, R361) keeps the longest beginning of the
marker that the bytes looked at end with, so it stops just where the marker first stands; and DEC_SYNC, which runs it (R362, R363). -/

namespace Sys2Proof.Machine

open Sys2Proof

/-! ## The matched beginning -/

/-- The marker of R361. -/
def marker : List Byte := [0x00, 0x00, 0xFF, 0xFF]

/-- The marker bytes matched after one more byte (R361). -/
def nextMatch (got : Nat) (b : Byte) : Nat :=
  if b = (if got < 2 then 0x00 else 0xFF) then got + 1 else if b ≠ 0 then 0 else 4 - got

theorem searchMarker_cons {got : Nat} (hlt : got < 4) (b : Byte) (bs : List Byte) :
    searchMarker got (b :: bs) = ((searchMarker (nextMatch got b) bs).1, (searchMarker (nextMatch got b) bs).2 + 1) := by
  rw [searchMarker, if_neg (Nat.not_le.2 hlt)]
  rfl

theorem searchMarker_found (bytes : List Byte) : searchMarker 4 bytes = (4, 0) := by cases bytes <;> rfl

theorem nextMatch_le {got : Nat} (hlt : got < 4) (b : Byte) : nextMatch got b ≤ 4 := by
  unfold nextMatch
  split_ifs <;> omega

/-- The beginnings of the marker that bytes end with are those that the first `got` bytes of it end with. -/
def MatchesMarker (pre : List Byte) (got : Nat) : Prop := ∀ k ≤ 4, marker.take k <:+ pre ↔ marker.take k <:+ marker.take got

theorem matchesMarker_nil : MatchesMarker [] 0 := fun _ _ => Iff.rfl

theorem MatchesMarker.found_iff {pre : List Byte} {got : Nat} (h : MatchesMarker pre got) (hle : got ≤ 4) : marker <:+ pre ↔ got = 4 := by
  have h4 := h 4 (Nat.le_refl 4)
  rw [show marker.take 4 = marker from rfl] at h4
  rw [h4]
  interval_cases got <;> decide

/-- Bytes end with a longer beginning where those before the last end with the beginning one byte shorter (R361). -/
theorem marker_take_succ_suffix {k : Nat} (hk : k < 4) (pre : List Byte) (b : Byte) :
    marker.take (k + 1) <:+ pre ++ [b] ↔ marker.take k <:+ pre ∧ marker.getD k 0 = b := by
  have hlast : marker.take (k + 1) = marker.take k ++ [marker.getD k 0] := by interval_cases k <;> rfl
  rw [hlast, List.suffix_concat_iff]
  constructor
  · rintro (hnil | ⟨t, heq, ht⟩)
    · exact absurd hnil (by simp)
    · obtain ⟨rfl, hb⟩ := List.append_inj' heq rfl
      exact ⟨ht, List.singleton_inj.1 hb⟩
  · rintro ⟨ht, rfl⟩
    exact .inr ⟨_, rfl, ht⟩

theorem nextMatch_of_other {b : Byte} (h0 : b ≠ 0x00) (hff : b ≠ 0xFF) (got : Nat) : nextMatch got b = 0 := by
  rw [nextMatch, if_neg (by split_ifs; exacts [h0, hff]), if_pos h0]

/-- The count after a byte is that of the longest beginning which the matched bytes and that byte end with (R361). -/
theorem marker_take_succ_suffix_nextMatch {k got : Nat} (hk : k < 4) (hgot : got < 4) (b : Byte) :
    marker.take (k + 1) <:+ marker.take (nextMatch got b) ↔ marker.take k <:+ marker.take got ∧ marker.getD k 0 = b := by
  by_cases h0 : b = 0x00
  · subst h0
    interval_cases k <;> interval_cases got <;> decide
  by_cases hff : b = 0xFF
  · subst hff
    interval_cases k <;> interval_cases got <;> decide
  · rw [nextMatch_of_other h0 hff]
    have hnone : marker.getD k 0 ≠ b := by interval_cases k; exacts [Ne.symm h0, Ne.symm h0, Ne.symm hff, Ne.symm hff]
    have hcons : marker.take (k + 1) ≠ [] := by interval_cases k <;> decide
    simp only [List.take_zero, List.suffix_nil, hcons, hnone, and_false]

theorem MatchesMarker.next {pre : List Byte} {got : Nat} (h : MatchesMarker pre got) (hgot : got < 4) (b : Byte) :
    MatchesMarker (pre ++ [b]) (nextMatch got b)
  | 0, _ => by simp
  | k + 1, hk => by
    rw [marker_take_succ_suffix hk, marker_take_succ_suffix_nextMatch hk hgot, h k (Nat.le_of_lt hk)]

/-! ## The search -/

/-- What the search leaves: its count is that of the bytes looked at, before the last of which the marker does not stand, and it looks
at all bytes where it does not find the marker (R361). -/
theorem searchMarker_matches : ∀ (bytes : List Byte) {pre : List Byte} {got : Nat}, got ≤ 4 → MatchesMarker pre got →
    MatchesMarker (pre ++ bytes.take (searchMarker got bytes).2) (searchMarker got bytes).1 ∧
      (∀ m < (searchMarker got bytes).2, ¬ marker <:+ pre ++ bytes.take m) ∧
      ((searchMarker got bytes).1 < 4 → (searchMarker got bytes).2 = bytes.length)
  | [], pre, got, _, h => ⟨by rw [List.take_nil, List.append_nil]; exact h, fun m hm => absurd hm (Nat.not_lt_zero m), fun _ => rfl⟩
  | b :: bs, pre, got, hle, h => by
    rcases hle.lt_or_eq with hlt | rfl
    · obtain ⟨hmatches, hbefore, hall⟩ := searchMarker_matches bs (nextMatch_le hlt b) (h.next hlt b)
      rw [searchMarker_cons hlt]
      refine ⟨?_, fun m hm => ?_, fun hmore => congrArg (· + 1) (hall hmore)⟩
      · rw [List.append_assoc] at hmatches
        exact hmatches
      · cases m with
        | zero =>
          rw [List.take_zero, List.append_nil, h.found_iff hle]
          exact hlt.ne
        | succ m =>
          have := hbefore m (Nat.lt_of_succ_lt_succ hm)
          rw [List.append_assoc] at this
          exact this
    · rw [searchMarker_found]
      exact ⟨by rw [List.take_zero, List.append_nil]; exact h, fun m hm => absurd hm (Nat.not_lt_zero m),
        fun hmore => absurd hmore (Nat.lt_irrefl 4)⟩

/-- A search over more bytes goes on from its count (R361). -/
theorem searchMarker_append (more : List Byte) : ∀ (bytes : List Byte) {got : Nat}, got ≤ 4 →
    searchMarker got (bytes ++ more) =
      if (searchMarker got bytes).1 = 4 then searchMarker got bytes
      else ((searchMarker (searchMarker got bytes).1 more).1, bytes.length + (searchMarker (searchMarker got bytes).1 more).2)
  | [], got, hle => by
    show searchMarker got more = if got = 4 then (got, 0) else _
    split
    · next h => rw [h, searchMarker_found]
    · rw [List.length_nil, Nat.zero_add]
      rfl
  | b :: bs, got, hle => by
    rcases hle.lt_or_eq with hlt | rfl
    · rw [List.cons_append, searchMarker_cons hlt, searchMarker_cons hlt, searchMarker_append more bs (nextMatch_le hlt b)]
      split
      · rfl
      · rw [List.length_cons, Nat.add_right_comm]
    · rw [searchMarker_found, searchMarker_found, if_pos rfl]

/-- A list stands in another one where it ends a beginning of it. -/
theorem infix_iff_suffix_take {α : Type} {l l' : List α} : l <:+: l' ↔ ∃ m ≤ l'.length, l <:+ l'.take m := by
  rw [List.infix_iff_suffix_prefix]
  constructor
  · rintro ⟨t, hsuffix, hprefix⟩
    exact ⟨t.length, hprefix.length_le, List.prefix_iff_eq_take.1 hprefix ▸ hsuffix⟩
  · rintro ⟨m, -, hsuffix⟩
    exact ⟨_, hsuffix, List.take_prefix m l'⟩

/-! ## DEC_SYNC -/

/-- The decoder as a search begins or goes on, `started` being set (R360). -/
theorem Dec.beginSync_started (d : Dec) : Dec.beginSync { d with started := true } = { d with
    mode := .sync, started := true,
    hold := if d.mode = .sync then d.hold else 0, bits := if d.mode = .sync then d.bits else 0,
    err := if d.mode = .sync then d.err else 0,
    syncHave := if d.mode = .sync then d.syncHave
      else (searchMarker 0 (heldBytes (d.bits / 8) (d.hold >>> (d.bits % 8)))).1 } := by
  have hwhole : (d.bits - d.bits % 8) / 8 = d.bits / 8 := by omega
  unfold Dec.beginSync
  by_cases hm : d.mode = .sync
  · simp [hm]
  · simp [hm, hwhole]

/-- A search that has something to look at (R360 to R363). -/
theorem DecRun.sync_of_bytes {r : DecRun} (h : r.io.availIn ≠ 0 ∨ 8 ≤ r.d.bits) {got n : Nat}
    (hfound : (got, n) = searchMarker r.d.beginSync.syncHave (r.io.inBytes r.io.consumed r.io.availIn)) :
    r.sync = if got < 4 then .stop .needMoreInput { d := { r.d.beginSync with syncHave := got }, io := r.io.consume n }
      else .stop .ok { d := Dec.restart { r.d.beginSync with syncHave := got } true, io := r.io.consume n } := by
  rw [DecRun.sync, if_neg (by omega)]
  dsimp only
  rw [← hfound]
  rfl

/-- A command that has only consumed input ends (R380). -/
theorem State.suspended_consumed (s : State) (d : Dec) (n : Nat) (res : Result) :
    s.suspended { d := d, io := (s.io 0 0).consume n } res = { s with
      inAddr := s.inAddr + BitVec.ofNat 32 n, inLen := s.inLen - BitVec.ofNat 32 n, totalIn := s.totalIn + BitVec.ofNat 32 n,
      stream := .dec d, status := { result := res, subkind := 0, mode := 2, estate := d.mode.code }, phase := .idle } := by
  simp [State.suspended, State.ended]

end Sys2Proof.Machine

open Sys2Proof Sys2Proof.Machine

/-- Settles O31: the search knows the longest beginning of the marker that it has come to (`searchMarker_matches`), and goes on from its
count (`searchMarker_append`). -/
theorem markerSearchIsExact : Obligations.MarkerSearchIsExact := by
  intro bytes
  obtain ⟨hmatches, hbefore, hall⟩ := searchMarker_matches bytes (Nat.zero_le 4) matchesMarker_nil
  have hle := (searchMarker_le bytes (Nat.zero_le 4)).1
  have hfound := hmatches.found_iff hle
  simp only [List.nil_append] at hbefore hfound
  refine ⟨⟨⟨fun h => ?_, fun h => ?_⟩, fun h => ⟨hfound.2 h, fun m hm h' => ?_⟩, hall⟩, fun more =>
    searchMarker_append more bytes (Nat.zero_le 4)⟩
  · exact (hfound.2 h).isInfix.trans (List.take_prefix _ _).isInfix
  · by_contra hne
    have hlen := hall (by omega)
    obtain ⟨m, hm, hsuffix⟩ := infix_iff_suffix_take.1 h
    rcases hm.lt_or_eq with hlt | rfl
    · exact hbefore m (by omega) hsuffix
    · exact hne (hfound.1 (by rw [hlen]; exact hsuffix))
  · obtain ⟨m', hm', hsuffix⟩ := infix_iff_suffix_take.1 h'
    rw [List.length_take] at hm'
    rw [List.take_take, Nat.min_eq_left (by omega)] at hsuffix
    exact hbefore m' (by omega) hsuffix

/-- Settles O32: without a byte to look at the command ends at once, else by what the search has found (`DecRun.sync_of_bytes`). -/
theorem decSyncSearches : Obligations.DecSyncSearches := by
  intro s d got n matched hs hranges hmatched hfound
  have hexec : exec .decSync s = .next (s.settle (DecRun.sync { d := { d with started := true }, io := s.io 0 0 })) := by
    show execDecSync s = _
    simp only [execDecSync, hs, hranges, Bool.not_true, Bool.false_eq_true, if_false]
  have hbegin := Dec.beginSync_started d
  rw [hexec]
  refine ⟨fun hin hbits => ?_, fun hbytes => ?_⟩
  · have hnone : (s.io 0 0).availIn = 0 ∧ d.bits < 8 := ⟨by rw [Io.availIn, State.io_inLen, hin]; rfl, hbits⟩
    rw [DecRun.sync, if_pos hnone, s.settle_suspended (res := .needMoreInput) nofun]
    have hstill := s.suspended_consumed { d with started := true } 0 .needMoreInput
    rw [Io.consume_zero] at hstill
    simpa using hstill
  · have hsearch := DecRun.sync_of_bytes (r := { d := { d with started := true }, io := s.io 0 0 }) (got := got) (n := n)
      (hbytes.imp_left fun hin h0 => hin (BitVec.eq_of_toNat_eq h0)) (by rw [hbegin, ← hmatched]; exact hfound)
    rw [hsearch, hbegin]
    refine ⟨fun hmore => ?_, fun hall => ?_⟩
    · rw [if_pos hmore, s.settle_suspended (res := .needMoreInput) nofun, s.suspended_consumed]
      rfl
    · rw [if_neg (Nat.not_lt.2 hall), s.settle_suspended (res := .ok) nofun, s.suspended_consumed]
      rfl
end

