-- ==== Sys2Proof/Proofs/DecoderDictionary.lean ====
section
/-! PROOF. Sys2Proof/Proofs/DecoderDictionary.lean: the history after a list of bytes is remembered, and with it DEC_SET_DICT (R366,
R404). -/

namespace Sys2Proof.Machine

open Sys2Proof

/-- Remembering bytes changes the window, its cursor and the amount of history alone (R312). -/
theorem Dec.rememberAll_eq : ∀ (bs : List Byte) {d : Dec}, d.whave ≤ d.w →
    Dec.rememberAll bs d = { d with
      dwin := (Dec.rememberAll bs d).dwin, wnext := (Dec.rememberAll bs d).wnext, whave := min (d.whave + bs.length) d.w }
  | [], d, h => by
    rw [List.length_nil, Nat.add_zero, Nat.min_eq_left h]
    rfl
  | b :: bs, d, h => by
    have hmore : min (min (d.whave + 1) d.w + bs.length) d.w = min (d.whave + (bs.length + 1)) d.w := by omega
    have ih := Dec.rememberAll_eq bs (d := d.remember b) (Nat.min_le_right _ _)
    rw [List.length_cons, ← hmore]
    exact ih

/-- The bytes remembered are the newest history, the last one newest, and the older history lies behind them (R312, R366). -/
theorem Dec.back_rememberAll : ∀ (bs : List Byte) {d : Dec} {o : Nat}, d.wnext < d.w → 1 < d.w → 1 ≤ o → o ≤ d.w →
    (Dec.rememberAll bs d).back o = if o ≤ bs.length then bs.getD (bs.length - o) 0 else d.back (o - bs.length)
  | [], d, o, _, _, ho, _ => by
    rw [if_neg (by rw [List.length_nil]; omega)]
    rfl
  | b :: bs, d, o, hnext, hw, ho, how => by
    have hnext' : (d.remember b).wnext < (d.remember b).w := Nat.mod_lt _ (Nat.lt_of_succ_lt hw)
    rw [Dec.rememberAll, Dec.back_rememberAll bs hnext' hw ho how, List.length_cons]
    rcases Nat.lt_trichotomy o (bs.length + 1) with hlt | rfl | hgt
    · rw [if_pos (by omega), if_pos hlt.le, Nat.succ_sub (by omega), List.getD_cons_succ]
    · rw [if_neg (by omega), if_pos (Nat.le_refl _), Nat.add_sub_cancel_left, Nat.sub_self, List.getD_cons_zero,
        Dec.back_remember hnext (Nat.le_refl 1) hw.le hw, if_pos rfl]
    · rw [if_neg (by omega), if_neg (by omega), Dec.back_remember hnext (by omega) (by omega) hw, if_neg (by omega), Nat.sub_sub]

theorem Io.getD_inBytes (io : Io) : ∀ (n i j : Nat), j < n → (io.inBytes i n).getD j 0 = io.inRead (i + j)
  | 0, _, _, hj => absurd hj (Nat.not_lt_zero _)
  | n + 1, i, 0, _ => rfl
  | n + 1, i, j + 1, hj => by
    rw [Io.inBytes, List.getD_cons_succ, Io.getD_inBytes io n (i + 1) j (Nat.lt_of_succ_lt_succ hj), Nat.add_right_comm, Nat.add_assoc]

/-- The last `n` bytes of the input buffer, in order (R82). -/
def State.lastBytes (s : State) (n : Nat) : List Byte := (s.io 0 0).inBytes (s.inLen.toNat - n) n

@[simp] theorem State.length_lastBytes (s : State) (n : Nat) : (s.lastBytes n).length = n := Io.length_inBytes _ _ _

/-- The byte `j` from the end of the input buffer. -/
theorem State.getD_lastBytes (s : State) {n j : Nat} (hn : n ≤ s.inLen.toNat) (hj : 1 ≤ j) (hle : j ≤ n) :
    (s.lastBytes n).getD (n - j) 0 = s.mem.read (s.inAddr + BitVec.ofNat 32 (s.inLen.toNat - j)).toNat := by
  rw [State.lastBytes, Io.getD_inBytes _ _ _ _ (by omega), show s.inLen.toNat - n + (n - j) = s.inLen.toNat - j by omega]
  rfl

/-- DEC_SET_DICT on a decoder that has not started remembers the last bytes of the input buffer that the window holds (R404). -/
theorem execDecSetDict_of_fresh {s : State} {d : Dec} (hs : s.stream = .dec d) (hstarted : d.started = false) (hm : d.mode = .type)
    (hranges : s.rangesOk = true) :
    execDecSetDict s = .next (s.complete (.dec (Dec.rememberAll (s.lastBytes (min s.inLen.toNat d.w)) d)) .ok) := by
  simp [execDecSetDict, hs, hstarted, hm, hranges, State.lastBytes]

end Sys2Proof.Machine

open Sys2Proof Sys2Proof.Machine

/-- Settles O30: the command remembers the last bytes of the input buffer (`execDecSetDict_of_fresh`), and bytes remembered are the
newest history (`Dec.back_rememberAll`). -/
theorem decSetDictBecomesHistory : Obligations.DecSetDictBecomesHistory := by
  intro s d hs hok hstarted hm hranges
  have hw : 1 < d.w := Nat.one_lt_two_pow (by have := hok.wbits; omega)
  have hkept := Dec.rememberAll_eq (s.lastBytes (min s.inLen.toNat d.w)) hok.whave
  rw [State.length_lastBytes, show min (d.whave + min s.inLen.toNat d.w) d.w = min (d.whave + s.inLen.toNat) d.w by omega] at hkept
  have hmode : (Dec.rememberAll (s.lastBytes (min s.inLen.toNat d.w)) d).mode = .type := by rw [hkept]; exact hm
  refine ⟨Dec.rememberAll (s.lastBytes (min s.inLen.toNat d.w)) d, (execDecSetDict_of_fresh hs hstarted hm hranges).trans ?_, hkept,
    fun j hj hle => ?_, fun j hj hle => ?_⟩
  · rw [State.complete, Status.after_of_ne_malformed (res := .ok) nofun, StreamCtx.estate, hmode]
    rfl
  · rw [Dec.back_rememberAll _ hok.wnext hw hj (by omega), State.length_lastBytes, if_pos hle,
      s.getD_lastBytes (Nat.min_le_left _ _) hj hle]
  · rw [Dec.back_rememberAll _ hok.wnext hw (by omega) hle, State.length_lastBytes, if_neg (by omega), Nat.add_sub_cancel_left]
end

