-- ==== Sys2Proof/Proofs/HostCommands.lean ====
section
/-! PROOF. Sys2Proof/Proofs/HostCommands.lean: what the host sees of a command with nothing to work on: every command but the inits where
there is no stream (R382), END (R410), and an ENC_STEP with no output space or with nothing new to do (R388, R391). -/

namespace Sys2Proof.Machine

open Sys2Proof

/-- A command that has moved no byte ends where it stands (R380). -/
theorem State.finish_eq_complete (s : State) (c : StreamCtx) (res : Result) : s.finish (s.io 0 0) c res = s.complete c res := by
  simp [State.finish, State.complete]

/-! ## Commands without a stream -/

/-- Without a stream every command but the inits is refused (R382). -/
theorem exec_noStream {s : State} {i : Instr} (hs : s.stream = .none) (hi : i.mode = none) (henc : i ≠ .encInit)
    (hdec : i ≠ .decInit) : exec i s = .next s.refuseCommand := by
  have hnoEnc : ∀ e, s.stream ≠ .enc e := by rw [hs]; nofun
  have hnoDec : ∀ d, s.stream ≠ .dec d := by rw [hs]; nofun
  rcases command_cases hi with rfl | ⟨f, rfl⟩ | rfl | rfl | rfl | rfl | rfl | rfl
  · exact absurd rfl henc
  · exact (exec_stepInstr f s).trans (encStep_noEncoder hnoEnc f)
  · exact execEncSetDict_noEncoder hnoEnc
  · exact absurd rfl hdec
  · exact execDecStep_noDecoder hnoDec
  · exact execDecSetDict_noDecoder hnoDec
  · exact execDecSync_noDecoder hnoDec
  · exact execEndStream_noStream hs

/-- END destroys the stream of either engine (R410). -/
theorem execEndStream_stream {s : State} (hs : s.stream ≠ .none) : execEndStream s = .next (s.complete .none .ok) := by
  unfold execEndStream
  split
  · next hnone => exact absurd hnone hs
  · rfl

/-! ## An ENC_STEP with nothing to do -/

/-- Without output space a step does nothing (R388). -/
theorem encStepAction_noSpace {r : EncRun} (f : Flush) (hout : r.io.outLen = 0) : encStepAction f r = some (r, .needMoreOutput) :=
  if_pos hout

/-- With no input, nothing pending and a flush no stronger than the last one, only the flush mode is taken down (R388, R391). -/
theorem encStepAction_nothingNew {r : EncRun} {f : Flush} (hout : r.io.outLen ≠ 0) (hin : r.io.inLen = 0)
    (hpending : r.e.bw.pending = []) (hf : f ≠ .finish) (hrank : flushRank (flushCode f) ≤ flushRank r.e.lastFlush) :
    encStepAction f r = some (r.withEnc { r.e with lastFlush := flushCode f }, .needMoreInput) :=
  (if_neg hout).trans ((if_neg (not_not.2 hpending)).trans (if_pos ⟨hin, hrank, hf⟩))

/-- An allowed step whose action moves no byte completes with the encoder and the result of the action (R380, R388). -/
theorem exec_stepInstr_unmoved {s : State} {e e' : Enc} {f : Flush} {res : Result} (hs : s.stream = .enc e)
    (hallowed : encStepAllowed f e s.inLen = true) (hr : s.rangesOk = true)
    (haction : encStepAction f { e := e, io := s.io 0 0, params := s.params } =
      some ({ e := e', io := s.io 0 0, params := s.params }, res)) :
    exec (stepInstr f) s = .next (s.complete (.enc e') res) := by
  rw [exec_stepInstr, encStep_eq hs hallowed hr haction, State.finish_eq_complete]

end Sys2Proof.Machine

open Sys2Proof Sys2Proof.Machine

/-- Settles O26: both times the action moves no byte, and leaves the encoder as it is (`encStepAction_noSpace`) or takes down the flush
mode (`encStepAction_nothingNew`). -/
theorem encStepWithNothingToDo : Obligations.EncStepWithNothingToDo := by
  refine ⟨by decide, by decide, fun s e f hs hr hpre => ?_⟩
  have hallowed : encStepAllowed f e s.inLen = true := encStepAllowed_eq_true.2 hpre
  refine ⟨fun hout => ?_, fun hout hin hpending hf hrank => ?_⟩
  · have haction := encStepAction_noSpace (r := { e := e, io := s.io 0 0, params := s.params }) f (congrArg BitVec.toNat hout)
    rw [exec_stepInstr_unmoved hs hallowed hr haction, State.complete, hs]
    rfl
  · have haction := encStepAction_nothingNew (r := { e := e, io := s.io 0 0, params := s.params })
      (fun h => hout (BitVec.eq_of_toNat_eq h)) (congrArg BitVec.toNat hin) hpending hf hrank
    exact exec_stepInstr_unmoved hs hallowed hr haction

/-- Settles O1: the registers are read off the reset state, and there is no stream for a command to find (`exec_noStream`). -/
theorem resetState : Obligations.ResetState := by
  refine ⟨⟨rfl, rfl, rfl, rfl, rfl, rfl, rfl, rfl, rfl⟩, rfl, rfl, rfl, fun w =>
    ⟨hostAccess_writeCmd rfl w, fun i hw henc hdec => ?_⟩⟩
  exact exec_noStream rfl (mode_of_decodeCommand hw) henc hdec

/-- Settles O22: END completes without a stream (`execEndStream_stream`), or finds none (`execEndStream_noStream`). -/
theorem endDestroysTheStream : Obligations.EndDestroysTheStream :=
  fun _ => ⟨execEndStream_stream, execEndStream_noStream⟩
end

