-- ==== Sys2Proof/Proofs/ResetInvariants.lean ====
section
/-! PROOF. Sys2Proof/Proofs/ResetInvariants.lean: the invariants hold of the machine after a reset (R451, R427). The engines' and
STATUS's hold of every state that `State.IsReset` describes, so after a reset of the DFC in mid-command (R452) too. -/

namespace Sys2Proof.Machine

open Sys2Proof

/-- Nothing written is in canonical form. -/
@[simp] theorem Memory.wf_nil : Memory.wf [] = true := rfl

theorem State.isReset_reset : State.reset.IsReset := ⟨rfl, rfl, rfl⟩

/-- After a reset there is no decoder and no point inside a DEC_STEP. -/
theorem State.IsReset.decOk {t : State} (h : t.IsReset) : t.DecOk :=
  ⟨fun _ hd => absurd (h.stream.symm.trans hd) nofun, fun _ _ hp => absurd (h.phase.symm.trans hp) nofun⟩

/-- After a reset there is no encoder. -/
theorem State.IsReset.encOk {t : State} (h : t.IsReset) : t.EncOk :=
  fun _ he => absurd (h.stream.symm.trans he) nofun

/-- STATUS after a reset tells of no stream and of no malformed one. -/
theorem State.IsReset.statusOk {t : State} (h : t.IsReset) : t.StatusOk := by
  refine ⟨fun _ => ?_, fun hres => ?_, fun _ => ?_⟩
  · rw [h.status, h.stream]; exact ⟨rfl, rfl⟩
  · rw [h.status] at hres; exact absurd hres nofun
  · rw [h.status]; rfl

end Sys2Proof.Machine

open Sys2Proof.Machine

/-- Settles O2: the reset memory lists nothing (`Memory.wf_nil`), and without a stream and a running command the invariants ask nothing
of the engines (`State.IsReset.decOk`, `State.IsReset.encOk`) and of STATUS only its reset value (`State.IsReset.statusOk`). -/
theorem resetInvariants : Obligations.ResetInvariants :=
  ⟨Memory.wf_nil, State.isReset_reset.decOk, State.isReset_reset.encOk, State.isReset_reset.statusOk⟩
end
